-- ==== Sys2Proof/Word.lean ====
section
/-! DEFINITION. Word types, the four-socket family and nothing else. -/

namespace Sys2Proof

/-- A byte of a frame (R1). -/
abbrev Byte := BitVec 8

/-- A 16-bit field. -/
abbrev Half := BitVec 16

/-- A 32-bit parameter, result or store word (R9, R175). -/
abbrev Word := BitVec 32

/-- A socket number; link, contact and permit n share it (00_scope.md 6.2). -/
abbrev Socket := Fin 4

/-- One value for each of the four sockets. -/
structure PerSocket (α : Type) where
  s0 : α
  s1 : α
  s2 : α
  s3 : α
  deriving DecidableEq, Repr

/-- The same value for every socket. -/
def PerSocket.all {α : Type} (x : α) : PerSocket α := ⟨x, x, x, x⟩

/-- One value computed for each socket. -/
def PerSocket.ofFn {α : Type} (f : Socket → α) : PerSocket α := ⟨f 0, f 1, f 2, f 3⟩

/-- The value of socket `n`. -/
def PerSocket.get {α : Type} (v : PerSocket α) (n : Socket) : α :=
  match n with
  | 0 => v.s0
  | 1 => v.s1
  | 2 => v.s2
  | 3 => v.s3

/-- `v` with the value of socket `n` replaced. -/
def PerSocket.set {α : Type} (v : PerSocket α) (n : Socket) (x : α) : PerSocket α :=
  match n with
  | 0 => { v with s0 := x }
  | 1 => { v with s1 := x }
  | 2 => { v with s2 := x }
  | 3 => { v with s3 := x }

/-- The sockets in ascending order. -/
def allSockets : List Socket := [0, 1, 2, 3]

end Sys2Proof
end

