-- ==== Sys2Proof/Syntax.lean ====
section
/-! DEFINITION. The commands: one constructor per row of the opcode table. The table gives no operands; those here
are the model's (log 6). -/

namespace Sys2Proof

/-- What a cold start follows (R179, R30): power-on, or the release of RESETn. -/
inductive ColdStartCause where
  | powerOn
  | resetReleased
  deriving DecidableEq, Repr

/-- What cuts the part's operation (R183). -/
inductive CutCause where
  | powerFails
  | resetAsserted
  deriving DecidableEq, Repr

/-- How a store job ended (R176): every step took effect, or step number `step` (counted from 0) was reported as not
having taken effect. -/
inductive JobEnd where
  | success
  | failedAt (step : Nat)
  deriving DecidableEq, Repr

/-- A receiver (section 1.3): that of a pack link, or that of the tool link. -/
inductive Receiver where
  | pack (n : Socket)
  | tool
  deriving DecidableEq, Repr

/-- The commands of the block. A management request carries the parameter words of its MGMT-REQ payload (R9);
`bytes` are bytes arriving on a line. -/
inductive Instr where
  | coldStart (cause : ColdStartCause)
  | loadingFinished
  | contactAsserts (n : Socket)
  | contactDeasserts (n : Socket)
  | settleTimerExpiry (n : Socket)
  | dropTimerExpiry (n : Socket)
  | recoveryTimerExpiry (n : Socket)
  | packFrameSent (n : Socket)
  | replyWindowExpiry (n : Socket)
  | receiverByteTimeout (r : Receiver)
  | packReplyCollected (n : Socket) (bytes : List Byte)
  | toolFrameReceived (bytes : List Byte)
  | silenceTimerExpiry
  | toolTxEnd
  | recheckDue (n : Socket)
  | holdTimerExpiry (n : Socket)
  | overdrawTimerExpiry
  | aggregateTimerExpiry
  | lockChange (asserted : Bool)
  | logEntryJobComplete (r : JobEnd)
  | watermarkJobComplete (r : JobEnd)
  | keyWriteComplete (r : JobEnd)
  | keyRetireComplete (r : JobEnd)
  | keyEraseComplete (r : JobEnd)
  | classWriteComplete (r : JobEnd)
  | classEraseComplete (r : JobEnd)
  | withdrawAddComplete (r : JobEnd)
  | withdrawClearComplete (r : JobEnd)
  | auditWithdrawalComplete (r : JobEnd)
  | rulesApplyComplete (r : JobEnd)
  | settingWriteComplete (r : JobEnd)
  | mapWriteComplete (r : JobEnd)
  | auditComplete
  | parkComplete
  | inBandReset
  | describe (words : List Word)
  | socketReport (words : List Word)
  | faultReport (words : List Word)
  | settingRead (words : List Word)
  | settingWrite (words : List Word)
  | tableRead (words : List Word)
  | keyWrite (words : List Word)
  | keyRetire (words : List Word)
  | keyErase (words : List Word)
  | classWrite (words : List Word)
  | classErase (words : List Word)
  | withdrawAdd (words : List Word)
  | withdrawClear (words : List Word)
  | withdrawQuery (words : List Word)
  | rulesEdit (words : List Word)
  | ruleWrite (words : List Word)
  | rulesApply (words : List Word)
  | mapWrite (words : List Word)
  | faultAck (words : List Word)
  | socketRestart (words : List Word)
  | audit (words : List Word)
  | logStart (words : List Word)
  | logNext (words : List Word)
  | park (words : List Word)
  | reset (words : List Word)
  | unknownRequest (payload : List Byte)
  | replyStart (n : Socket)
  | powerFailsOrResetnAsserted (cause : CutCause) (steps : Nat)
  deriving DecidableEq, Repr

end Sys2Proof
end

