-- ==== Sys2Proof/Config.lean ====
section
/-! DEFINITION. The free values of the model. -/

namespace Sys2Proof

/-- The entropy source's values (R104 step 2, Table 6.1): the k-th value taken. The manual promises nothing about
them, not even that they differ, so this is a free value with no body (log 5). -/
opaque Config.entropy : Nat → Word

end Sys2Proof
end

