-- ==== Sys2Proof/Machine/State.lean ====
section
/-! DEFINITION. Everything the spec gives the part as state, and the state right after reset. -/

namespace Sys2Proof.Machine

/-- A frame without its sync, length and check bytes, which the rest determines (R1). Spare bits are always 0. -/
structure Frame where
  kind : BitVec 4
  socket : Socket
  payload : List Byte
  deriving DecidableEq, Repr

/-- A receiver (R4): hunting, or collecting with what has arrived since the sync byte. -/
inductive Rx where
  | hunting
  | header
  | length (header : Byte)
  | body (header len : Byte) (got : List Byte)
  deriving DecidableEq, Repr

/-! ## Pack link controllers (chapter 2) -/

/-- Link state (Table 1.14, Table 2.2). -/
inductive LinkState where
  | vacant
  | settling
  | active
  | degraded
  | halted
  deriving DecidableEq, Repr

/-- A frame handed over by the admission engine (R20). A CHALLENGE is completed when it is taken for sending (R104). -/
inductive EngineFrame where
  | identify
  | challenge
  deriving DecidableEq, Repr

/-- Where the frame of a transaction came from (Table 2.1). -/
inductive TxSource where
  | engineSlot
  | pollQueue
  deriving DecidableEq, Repr

/-- The phases of a transaction (R22). `waiting` holds the time at which the reply window closes, `collecting` the receiver
and the time of the reply's last byte (R4). -/
inductive TxPhase where
  | sending
  | waiting (closes : Nat)
  | collecting (rx : Rx) (lastByte : Nat)
  deriving DecidableEq, Repr

/-- The transaction in flight (Table 2.1). `passedOver` records a cancel order sent while it was in flight: its outcome is
reported and not judged (R20, R87). `sentAt` and `replyAt` are the challenge timestamps (R30). -/
structure Transaction where
  frame : Frame
  source : TxSource
  phase : TxPhase
  passedOver : Bool
  sentAt : Option Word
  replyAt : Option Word
  deriving DecidableEq, Repr

/-- One pack link controller (Table 2.1). A timer is `none` while stopped, else the clock value at which it expires.
`draining` is an abandoned frame that is still being sent to its end (R27). -/
structure Link where
  state : LinkState
  settle : Option Nat
  drop : Option Nat
  recovery : Option Nat
  errors : Nat
  pollQueue : List Frame
  engineSlot : Option EngineFrame
  tx : Option Transaction
  draining : Option Frame
  deriving DecidableEq, Repr

/-- A link controller at cold start (R39). -/
def Link.initial : Link :=
  { state := .vacant, settle := none, drop := none, recovery := none, errors := 0, pollQueue := [],
    engineSlot := none, tx := none, draining := none }

/-! ## Tool link port (chapter 3) -/

/-- The tool link port (Table 3.1). The receiver is closed to hand-off exactly while the store is being loaded (R40),
and the silence cause is held with the other causes in the fault unit. `lastByte` is the time of the last byte of the frame
being collected (R4); while the receiver hunts it has no meaning and nothing reads it. -/
structure Tlp where
  rx : Rx
  lastByte : Nat
  lane0 : List Frame
  lane1 : List Frame
  lane2 : List Frame
  response : Option Frame
  sending : Option Frame
  silence : Option Nat
  deriving DecidableEq, Repr

/-- The tool link port at cold start (R53). -/
def Tlp.initial : Tlp :=
  { rx := .hunting, lastByte := 0, lane0 := [], lane1 := [], lane2 := [], response := none, sending := none,
    silence := none }

/-! ## Traffic classifier (chapter 4) -/

/-- Rule direction (Table 1.16). -/
inductive Direction where
  | up
  | down
  deriving DecidableEq, Repr

/-- Rule action (Table 1.16). -/
inductive Action where
  | forward
  | answer
  | discard
  deriving DecidableEq, Repr

/-- One rule (Table 4.2). `kind` is `none` for ANY. -/
structure Rule where
  enabled : Bool
  direction : Direction
  kind : Option (BitVec 4)
  socketMask : BitVec 4
  stateMask : BitVec 7
  action : Action
  lane : Byte
  decimate : Bool
  deriving DecidableEq, Repr

/-- The default content of a rule (R70). -/
def Rule.default : Rule :=
  { enabled := false, direction := .up, kind := none, socketMask := 0, stateMask := 0, action := .discard,
    lane := 0, decimate := false }

/-- The traffic classifier (Table 4.1). -/
structure Classifier where
  rules : Vector Rule 32
  editing : Bool
  decim : PerSocket Nat
  deriving DecidableEq, Repr

/-- The classifier with the default table (R70). -/
def Classifier.initial : Classifier :=
  { rules := Vector.replicate 32 Rule.default, editing := false, decim := .all 0 }

/-! ## Admission engine (chapter 5) -/

/-- Session state (Table 1.14). -/
inductive SessState where
  | none
  | identifying
  | verifying
  | admitted
  | suspect
  | refused
  | withdrawn
  deriving DecidableEq, Repr

/-- Refusal reason (Table 1.14). -/
inductive Reason where
  | noIdentity
  | badIdentity
  | withdrawn
  | repeated
  | duplicate
  | noClass
  | noKey
  | mismatch
  | late
  | noAnswer
  | exhausted
  deriving DecidableEq, Repr

/-- Trust marks (Table 1.15), a set of three. -/
structure Marks where
  keyRetired : Bool
  worn : Bool
  suspect : Bool
  deriving DecidableEq, Repr

/-- A pack's identity as received (Table 1.5). -/
structure Identity where
  family : Byte
  generation : Byte
  serial : Word
  classCode : Byte
  cycles : Half
  deriving DecidableEq, Repr

/-- What a challenge was issued for (Table 5.1). -/
inductive Purpose where
  | admission
  | recheck
  | audit
  deriving DecidableEq, Repr

/-- The four nonce words of a challenge (Table 1.6). -/
structure Nonce where
  n0 : Half
  n1 : Half
  n2 : Half
  n3 : Half
  deriving DecidableEq, Repr

/-- The phase of an outstanding challenge: once SENT it holds the nonce and the edit-count snapshot (Table 5.1). -/
inductive ChallengePhase where
  | queued
  | sent (nonce : Nonce) (snapshot : Byte)
  deriving DecidableEq, Repr

/-- An outstanding challenge (Table 5.1). -/
structure Challenge where
  purpose : Purpose
  phase : ChallengePhase
  deriving DecidableEq, Repr

/-- The session's telemetry (R91). `since` is the clock value at which its age was 0. -/
structure Telemetry where
  temperature : Int
  allowance : Half
  cellMin : Half
  since : Nat
  deriving DecidableEq, Repr

/-- The next recheck due, with the time of the last pass from which it is computed (Table 5.1). -/
structure Recheck where
  due : Nat
  lastPass : Nat
  deriving DecidableEq, Repr

/-- A session record (Table 5.1). -/
structure Session where
  state : SessState
  attempts : Nat
  breaks : Nat
  marks : Marks
  identity : Option Identity
  keySlot : Option (Fin 16)
  classIndex : Option (Fin 32)
  challenge : Option Challenge
  baseline : Option Byte
  telemetry : Option Telemetry
  peak : Option Int
  reason : Option Reason
  recheck : Option Recheck
  deriving DecidableEq, Repr

/-- The record at NONE (R93 step 3, R102). -/
def Session.initial : Session :=
  { state := .none, attempts := 0, breaks := 0, marks := ⟨false, false, false⟩, identity := none, keySlot := none,
    classIndex := none, challenge := none, baseline := none, telemetry := none, peak := none, reason := none,
    recheck := none }

/-- Audit outcome of a socket (Table 1.15). -/
inductive AuditOutcome where
  | skipped
  | pass
  | mismatch
  | late
  | noAnswer
  | removed
  deriving DecidableEq, Repr

/-- How far an audit has got: sockets still without a result (R97); serials still to be withdrawn after the job that is
queued or in progress (R99); nothing left but its completion (R100). -/
inductive AuditPhase where
  | collecting
  | withdrawing (rest : List Word)
  | ready
  deriving DecidableEq, Repr

/-- The audit in progress (R95). `reached` says which sockets the engine has reached (R97), `serials` keeps the serial
of each socket whose result is MISMATCH (log 17). -/
structure Audit where
  mask : BitVec 4
  oneAtATime : Bool
  withdraw : Bool
  results : PerSocket (Option AuditOutcome)
  reached : PerSocket Bool
  serials : PerSocket (Option Word)
  phase : AuditPhase
  withdrawnCount : Nat
  mass : Bool
  full : Bool
  failed : Bool
  deriving DecidableEq, Repr

/-- The admission engine (chapter 5): session records, recent-refusal table (most recent first), audit. -/
structure Engine where
  sessions : PerSocket Session
  recent : List (Word × Nat)
  audit : Option Audit
  deriving DecidableEq, Repr

/-- The admission engine at cold start (R102). -/
def Engine.initial : Engine := { sessions := .all Session.initial, recent := [], audit := none }

/-! ## Proof unit (chapter 6) -/

/-- The proof unit (Table 6.1). The exhaustion cause is held in the fault unit; `entropyDraws` counts the values taken
from the entropy source and is the model's own (log 5). -/
structure ProofUnit where
  counter : Word
  reserved : Nat
  drawMark : Option Word
  pendingMark : Word
  committedMark : Word
  entropyDraws : Nat
  deriving DecidableEq, Repr

/-! ## Trust tables (chapter 7) -/

/-- A key slot that is not EMPTY (Table 7.1). -/
structure KeyEntry where
  retired : Bool
  family : Byte
  generation : Byte
  ka : Word
  kb : Word
  deriving DecidableEq, Repr

/-- A class entry in use (Table 7.3). -/
structure ClassEntry where
  code : Byte
  ic : Half
  tk : Int
  tc : Int
  cellFloor : Half
  wearLimit : Half
  deriving DecidableEq, Repr

/-- The working copies of the trust tables: a slot that is EMPTY and an entry not in use are `none`. -/
structure Trust where
  keys : Vector (Option KeyEntry) 16
  edits : Vector Byte 16
  classes : Vector (Option ClassEntry) 32
  withdrawn : List Word
  deriving DecidableEq, Repr

/-- Empty tables and edit counts of 0 (R130). -/
def Trust.initial : Trust :=
  { keys := Vector.replicate 16 none, edits := Vector.replicate 16 0, classes := Vector.replicate 32 none,
    withdrawn := [] }

/-! ## Grant calculator (chapter 8) -/

/-- The grant calculator (Table 8.1). `strings` and `shares` are indexed by string number, A and B being 0 and 1. The
hold timer runs exactly while the session holds telemetry and `stale` is clear (R135), so it is no field of its own. -/
structure Grants where
  derate : PerSocket Nat
  trust : PerSocket Nat
  grant : PerSocket Nat
  stale : PerSocket Bool
  strings : PerSocket Nat
  shares : PerSocket Nat
  published : PerSocket Nat
  toolGrant : Nat
  prevTool : Nat
  prevPublished : PerSocket Nat
  overdraw : Option Nat
  aggregate : Option Nat
  deriving DecidableEq, Repr

/-- The grant calculator at cold start (R150). -/
def Grants.initial : Grants :=
  { derate := .all 100, trust := .all 100, grant := .all 0, stale := .all false, strings := .all 0, shares := .all 0,
    published := .all 0, toolGrant := 0, prevTool := 0, prevPublished := .all 0, overdraw := none, aggregate := none }

/-! ## Fault unit (chapter 9) -/

/-- The eight conditions (Table 9.1). -/
inductive Cond where
  | lock
  | overdraw
  | toolSilent
  | overheat
  | massFail
  | trustBase
  | clone
  | store
  deriving DecidableEq, Repr

/-- The conditions in ascending number. -/
def Cond.all : List Cond := [.lock, .overdraw, .toolSilent, .overheat, .massFail, .trustBase, .clone, .store]

/-- One value for each condition. -/
structure PerCond (α : Type) where
  lock : α
  overdraw : α
  toolSilent : α
  overheat : α
  massFail : α
  trustBase : α
  clone : α
  store : α
  deriving DecidableEq, Repr

/-- The value of condition `c`. -/
def PerCond.get {α : Type} (v : PerCond α) (c : Cond) : α :=
  match c with
  | .lock => v.lock
  | .overdraw => v.overdraw
  | .toolSilent => v.toolSilent
  | .overheat => v.overheat
  | .massFail => v.massFail
  | .trustBase => v.trustBase
  | .clone => v.clone
  | .store => v.store

/-- `v` with the value of condition `c` replaced. -/
def PerCond.set {α : Type} (v : PerCond α) (c : Cond) (x : α) : PerCond α :=
  match c with
  | .lock => { v with lock := x }
  | .overdraw => { v with overdraw := x }
  | .toolSilent => { v with toolSilent := x }
  | .overheat => { v with overheat := x }
  | .massFail => { v with massFail := x }
  | .trustBase => { v with trustBase := x }
  | .clone => { v with clone := x }
  | .store => { v with store := x }

/-- The same value for every condition. -/
def PerCond.all {α : Type} (x : α) : PerCond α := ⟨x, x, x, x, x, x, x, x⟩

/-- One value computed for each condition. -/
def PerCond.ofFn {α : Type} (f : Cond → α) : PerCond α :=
  ⟨f .lock, f .overdraw, f .toolSilent, f .overheat, f .massFail, f .trustBase, f .clone, f .store⟩

/-- Condition state (Table 1.14). -/
inductive CondState where
  | inactive
  | active
  | held
  deriving DecidableEq, Repr

/-- The level causes, each as its owning block last reported it (Table 9.1), TRUST_BASE's as its two inputs. -/
structure Causes where
  lock : Bool
  overdraw : Bool
  silent : Bool
  overheat : Bool
  noUsableKey : Bool
  exhausted : Bool
  store : Bool
  deriving DecidableEq, Repr

/-- A fault map entry (R156). -/
structure MapEntry where
  mask : BitVec 4
  latch : Bool
  advise : Bool
  deriving DecidableEq, Repr

/-- The default fault map (Table 9.3). -/
def defaultMap : PerCond MapEntry :=
  { lock := ⟨15, false, true⟩, overdraw := ⟨15, true, true⟩, toolSilent := ⟨15, false, true⟩,
    overheat := ⟨0, true, true⟩, massFail := ⟨0, true, true⟩, trustBase := ⟨15, false, true⟩,
    clone := ⟨15, true, true⟩, store := ⟨0, true, true⟩ }

/-- The fault unit (R152) with the permit lines it drives. -/
structure FaultUnit where
  conds : PerCond CondState
  causes : Causes
  map : PerCond MapEntry
  permits : PerSocket Bool
  deriving DecidableEq, Repr

/-- No cause present (R159). -/
def Causes.absent : Causes := ⟨false, false, false, false, false, false, false⟩

/-! ## Management unit (chapter 10) -/

/-- The 13 settings of Table 10.4, each as its 16-bit value. -/
structure Settings where
  topology : Nat
  toolCeiling : Nat
  retiredCap : Nat
  limpCap : Nat
  proofWindow : Nat
  recheckInterval : Nat
  telemetryHold : Nat
  overdrawWindow : Nat
  aggregatePeriod : Nat
  decimation : Nat
  haltRecovery : Nat
  revertOnReset : Nat
  repeatLimit : Nat
  deriving DecidableEq, Repr

/-- The defaults of Table 10.4. -/
def Settings.default : Settings :=
  { topology := 0, toolCeiling := 8000, retiredCap := 50, limpCap := 25, proofWindow := 8, recheckInterval := 0,
    telemetryHold := 0, overdrawWindow := 0, aggregatePeriod := 0, decimation := 1, haltRecovery := 0,
    revertOnReset := 1, repeatLimit := 4 }

/-- The phase of the request in flight (Table 10.1). -/
inductive ReqPhase where
  | running
  | waiting
  deriving DecidableEq, Repr

/-- The request in flight. `wait` is the number of store jobs that PARK or RESET still waits for (R172, R174), and
`waitFailed` says that one of them has failed. -/
structure Request where
  code : Byte
  words : List Word
  phase : ReqPhase
  wait : Nat
  waitFailed : Bool
  deriving DecidableEq, Repr

/-- The management unit (Table 10.1, R165). -/
structure Mgmt where
  request : Option Request
  parked : Bool
  settings : Settings
  superseded : Bool
  deriving DecidableEq, Repr

/-! ## Store controller (chapter 11) -/

/-- A log entry as handed to the store controller (Table 1.21); `socket` is 7 when it concerns none. -/
structure LogEntry where
  type : Nat
  socket : Nat
  detail : Half
  data : List Word
  deriving DecidableEq, Repr

/-- A table job (R176), by the request or audit it belongs to, with what it writes. -/
inductive TableJob where
  | keyWrite (slot : Fin 16) (entry : KeyEntry)
  | keyRetire (slot : Fin 16)
  | keyErase (slot : Fin 16)
  | classWrite (index : Fin 32) (entry : ClassEntry)
  | classErase (index : Fin 32)
  | withdrawAdd (serials : List Word)
  | withdrawClear
  | auditWithdrawal (serial : Word)
  | rulesApply (rules : Vector Rule 32)
  | settingWrite (id value : Nat) (settings : Settings) (map : PerCond MapEntry)
  | mapWrite (cond : Cond) (settings : Settings) (map : PerCond MapEntry)
  deriving DecidableEq, Repr

/-- A store job (R176). -/
inductive Job where
  | log (entry : LogEntry)
  | table (job : TableJob)
  | watermark (value : Word)
  deriving DecidableEq, Repr

/-- A place in the event log: a log sector, its sequence number, a word offset in it. -/
structure LogPos where
  sector : Fin 8
  seq : Word
  offset : Nat
  deriving DecidableEq, Repr

/-- The store controller (Table 11.1), with the stored copies it holds (R183). -/
structure StoreCtl where
  queue : List Job
  job : Option Job
  logPos : Option LogPos
  firstMark : Bool
  cursor : Option LogPos
  loading : Bool
  storedSettings : Settings
  storedMap : PerCond MapEntry
  deriving DecidableEq, Repr

/-- Whether the part operates: powered and out of reset, held by RESETn, or without power (R179, R183). -/
inductive Power where
  | on
  | resetHeld
  | off
  deriving DecidableEq, Repr

/-- The part without its store array. `clock` counts microseconds since power was applied. -/
structure Part where
  power : Power
  clock : Nat
  contacts : PerSocket Bool
  lockPin : Bool
  links : PerSocket Link
  tlp : Tlp
  classifier : Classifier
  engine : Engine
  proof : ProofUnit
  trust : Trust
  grants : Grants
  fault : FaultUnit
  mgmt : Mgmt
  ctl : StoreCtl
  deriving DecidableEq, Repr

/-- The words of the store array that are not erased, by word address, addresses strictly rising (R175). -/
abbrev StoreArray := List (Nat × Word)

/-- The machine: the part, its non-volatile store array, and the commands waiting, oldest first. -/
structure State where
  part : Part
  array : StoreArray
  pending : List Instr
  deriving DecidableEq, Repr

/-- The part right after a power-on cold start with a store that was never written: the volatile items at their cold-start
values, every region loaded blank, the cold-start watermark job of 4096 begun (R107, R179; log 4). -/
def Part.reset : Part :=
  { power := .on, clock := 0, contacts := .all false, lockPin := false, links := .all Link.initial,
    tlp := Tlp.initial, classifier := Classifier.initial, engine := Engine.initial,
    proof := { counter := 0, reserved := 0, drawMark := none, pendingMark := 4096, committedMark := 0,
               entropyDraws := 0 },
    trust := Trust.initial, grants := Grants.initial,
    fault := { conds := .all .inactive, causes := { Causes.absent with noUsableKey := true }, map := defaultMap,
               permits := .all false },
    mgmt := { request := none, parked := false, settings := Settings.default, superseded := false },
    ctl := { queue := [], job := some (.watermark 4096), logPos := none, firstMark := true, cursor := none,
             loading := true, storedSettings := Settings.default, storedMap := defaultMap } }

/-- The machine right after reset (R179): nothing in the store array, no command waiting. -/
def State.reset : State := { part := Part.reset, array := [], pending := [] }

/-- The reasons a step can fault. The manual describes nothing that stops the part, so there is none: the fault
conditions of chapter 9 are state. -/
inductive Fault where
  deriving DecidableEq, Repr

/-- The reasons a step can be refused. -/
inductive Refusal where
  /-- Raised by `exec` for a command that has no meaning in the model yet; safe: nothing can be proved of it. -/
  | notModelled (mnemonic : String)
  deriving DecidableEq, Repr

end Sys2Proof.Machine
end

