-- ==== Sys2Proof/Machine/Operands.lean ====
section
/-! DEFINITION. Fields of bytes and words: how values are packed into frames and into parameter and result words (R1, R9),
and the codes of Tables 1.14 to 1.16. -/

namespace Sys2Proof.Machine

/-! ## Words and bytes -/

/-- The most significant half of a word. -/
def Word.hi (w : Word) : Half := w.extractLsb' 16 16

/-- The least significant half of a word. -/
def Word.lo (w : Word) : Half := w.extractLsb' 0 16

/-- Byte `i` of a word, byte 0 the most significant (R9). -/
def Word.byte (w : Word) (i : Nat) : Byte := w.extractLsb' (24 - 8 * i) 8

/-- A word from its four bytes, most significant first. -/
def Word.ofBytes (b0 b1 b2 b3 : Byte) : Word := b0 ++ b1 ++ b2 ++ b3

/-- A word from its two halves, most significant first. -/
def Word.ofHalves (h l : Half) : Word := h ++ l

/-- A word whose bytes 0 and 1 are given and whose bytes 2 and 3 hold a half. -/
def Word.ofBytesHalf (b0 b1 : Byte) (h : Half) : Word := b0 ++ b1 ++ h

/-- The bytes of a half, most significant first. -/
def Half.bytes (h : Half) : List Byte := [h.extractLsb' 8 8, h.extractLsb' 0 8]

/-- The bytes of a word, most significant first. -/
def Word.bytes (w : Word) : List Byte := [Word.byte w 0, Word.byte w 1, Word.byte w 2, Word.byte w 3]

/-- A number as a byte. -/
def byteOf (n : Nat) : Byte := BitVec.ofNat 8 n

/-- A number as a half. -/
def halfOf (n : Nat) : Half := BitVec.ofNat 16 n

/-- A flag as a code byte: no 0, yes 1 (Table 1.16). -/
def flagByte (b : Bool) : Byte := if b then 1 else 0

/-- Byte `i` of a payload, counted from 0. -/
def byteAt (p : List Byte) (i : Nat) : Byte := p.getD i 0

/-- The half at bytes `i` and `i + 1` of a payload, most significant first. -/
def halfAt (p : List Byte) (i : Nat) : Half := byteAt p i ++ byteAt p (i + 1)

/-- The word at bytes `i` to `i + 3` of a payload, most significant first. -/
def wordAt (p : List Byte) (i : Nat) : Word :=
  Word.ofBytes (byteAt p i) (byteAt p (i + 1)) (byteAt p (i + 2)) (byteAt p (i + 3))

/-- Parameter word `i`, counted from 0. -/
def param (words : List Word) (i : Nat) : Word := words.getD i 0

/-- A set of flags as a byte, the first at bit 0 (R9). -/
def flagSet : List Bool → Nat
  | [] => 0
  | b :: bs => (if b then 1 else 0) + 2 * flagSet bs

/-- A code byte that must be 0 or 1, as a flag (Table 1.16). -/
def yesNo (b : Byte) : Option Bool :=
  if b = 0 then some false else if b = 1 then some true else none

/-- A byte as a socket number 0..3. -/
def socketOf (b : Byte) : Option Socket :=
  if h : b.toNat < 4 then some ⟨b.toNat, h⟩ else none

/-- A byte as a key slot number 0..15. -/
def slotOf (b : Byte) : Option (Fin 16) :=
  if h : b.toNat < 16 then some ⟨b.toNat, h⟩ else none

/-- A byte as a class or rule index 0..31. -/
def indexOf (b : Byte) : Option (Fin 32) :=
  if h : b.toNat < 32 then some ⟨b.toNat, h⟩ else none

/-- Whether a serial is valid: neither 0 nor 0xFFFFFFFF (Table 1.5, R123). -/
def validSerial (w : Word) : Bool := w != 0 && w != 0xFFFFFFFF

/-! ## Codes (Tables 1.14 to 1.16) -/

/-- Session state code. -/
def SessState.code : SessState → Nat
  | .none => 0
  | .identifying => 1
  | .verifying => 2
  | .admitted => 3
  | .suspect => 4
  | .refused => 5
  | .withdrawn => 6

/-- Link state code. -/
def LinkState.code : LinkState → Nat
  | .vacant => 0
  | .settling => 1
  | .active => 2
  | .degraded => 3
  | .halted => 4

/-- The two-bit link code of the AGGREGATE (R12). -/
def LinkState.aggregateCode : LinkState → Nat
  | .vacant => 0
  | .settling => 1
  | .active => 2
  | .degraded => 3
  | .halted => 3

/-- Condition state code. -/
def CondState.code : CondState → Nat
  | .inactive => 0
  | .active => 1
  | .held => 2

/-- Refusal reason code. -/
def Reason.code : Reason → Nat
  | .noIdentity => 1
  | .badIdentity => 2
  | .withdrawn => 3
  | .repeated => 4
  | .duplicate => 5
  | .noClass => 6
  | .noKey => 7
  | .mismatch => 8
  | .late => 9
  | .noAnswer => 10
  | .exhausted => 11

/-- The refusal reason field: 0 when there is none. -/
def reasonCode : Option Reason → Nat
  | none => 0
  | some r => r.code

/-- Condition number (R10). -/
def Cond.number : Cond → Nat
  | .lock => 0
  | .overdraw => 1
  | .toolSilent => 2
  | .overheat => 3
  | .massFail => 4
  | .trustBase => 5
  | .clone => 6
  | .store => 7

/-- The condition of a number. -/
def Cond.ofNumber (n : Nat) : Option Cond := Cond.all[n]?

/-- Audit outcome code. -/
def AuditOutcome.code : AuditOutcome → Nat
  | .skipped => 0
  | .pass => 1
  | .mismatch => 2
  | .late => 3
  | .noAnswer => 4
  | .removed => 5

/-- Audit outcome byte of a socket; 0 while it has none. -/
def auditCode : Option AuditOutcome → Byte
  | none => 0
  | some o => byteOf o.code

/-- Rule direction code. -/
def Direction.code : Direction → Byte
  | .up => 0
  | .down => 1

/-- The direction of a code. -/
def Direction.ofCode (b : Byte) : Option Direction :=
  if b = 0 then some .up else if b = 1 then some .down else none

/-- Rule action code. -/
def Action.code : Action → Byte
  | .forward => 0
  | .answer => 1
  | .discard => 2

/-- The action of a code. -/
def Action.ofCode (b : Byte) : Option Action :=
  if b = 0 then some .forward else if b = 1 then some .answer else if b = 2 then some .discard else none

/-- Rule kind code: 0..15, ANY 0xFF. -/
def kindCode : Option (BitVec 4) → Byte
  | none => 0xFF
  | some k => k.setWidth 8

/-- The rule kind of a code: `none` when the code has no meaning. -/
def kindOfCode (b : Byte) : Option (Option (BitVec 4)) :=
  if b = 0xFF then some none
  else if b.toNat < 16 then some (some (b.setWidth 4)) else none

/-- Outcome codes (Table 1.12). -/
inductive ReqOutcome where
  | done
  | invalid
  | busy
  | wrongState
  | full
  | absent
  | storeFault
  deriving DecidableEq, Repr

/-- The code of an outcome. -/
def ReqOutcome.code : ReqOutcome → Byte
  | .done => 0
  | .invalid => 1
  | .busy => 2
  | .wrongState => 3
  | .full => 4
  | .absent => 5
  | .storeFault => 6

/-! ## A rule as the three words of RULE-WRITE and TABLE-READ (4.7.2, R168) -/

/-- Words 1 and 2 and byte 0 of word 3 of a rule; the other bytes of word 3 are 0. -/
def Rule.words (index : Byte) (r : Rule) : List Word :=
  [Word.ofBytes index (flagByte r.enabled) r.direction.code (kindCode r.kind),
   Word.ofBytes (r.socketMask.setWidth 8) (r.stateMask.setWidth 8) r.action.code r.lane,
   Word.ofBytes (flagByte r.decimate) 0 0 0]

/-- The rule that three parameter words give, or `none` when a field is out of range (R67). -/
def Rule.ofWords (w1 w2 w3 : Word) : Option Rule :=
  match yesNo (Word.byte w1 1), Direction.ofCode (Word.byte w1 2), kindOfCode (Word.byte w1 3),
        Action.ofCode (Word.byte w2 2), yesNo (Word.byte w3 0) with
  | some en, some dir, some kind, some act, some dec =>
    if (Word.byte w2 0).toNat ≤ 15 ∧ (Word.byte w2 1).toNat ≤ 127 then
      some { enabled := en, direction := dir, kind := kind, socketMask := (Word.byte w2 0).setWidth 4,
             stateMask := (Word.byte w2 1).setWidth 7, action := act, lane := Word.byte w2 3, decimate := dec }
    else none
  | _, _, _, _, _ => none

/-- The class entry that the three words of CLASS-WRITE give, Tk and Tc read as signed bytes (Table 1.13, R120). -/
def ClassEntry.ofWords (w1 w2 w3 : Word) : ClassEntry :=
  { code := Word.byte w1 1, ic := Word.lo w1, tk := (Word.byte w2 0).toInt, tc := (Word.byte w2 1).toInt,
    cellFloor := Word.lo w2, wearLimit := Word.hi w3 }

/-- A class entry's three words, with byte 0 of word 1 given (Table 1.13, R168). -/
def ClassEntry.words (b0 : Byte) (e : ClassEntry) : List Word :=
  [Word.ofBytesHalf b0 e.code e.ic,
   Word.ofBytesHalf (BitVec.ofInt 8 e.tk) (BitVec.ofInt 8 e.tc) e.cellFloor,
   Word.ofHalves e.wearLimit 0]

end Sys2Proof.Machine
end

