-- ==== Sys2Proof/Machine/Frames.lean ====
section
/-! DEFINITION. Frames on the wire: the check byte, the envelope, the receiver and its test (chapter 1). -/

namespace Sys2Proof.Machine

/-! ## Frame kinds (Table 1.3) -/

def kindPoll : BitVec 4 := 1
def kindStatus : BitVec 4 := 2
def kindIdentify : BitVec 4 := 3
def kindIdentity : BitVec 4 := 4
def kindChallenge : BitVec 4 := 5
def kindProof : BitVec 4 := 6
def kindPackAux : BitVec 4 := 7
def kindMgmtReq : BitVec 4 := 8
def kindMgmtResp : BitVec 4 := 9
def kindAdvisory : BitVec 4 := 10
def kindAggregate : BitVec 4 := 11

/-- The payload length of a kind that has a fixed one (Table 1.3). -/
def fixedLength (k : BitVec 4) : Option Nat :=
  match k.toNat with
  | 1 => some 2
  | 2 => some 10
  | 3 => some 0
  | 4 => some 9
  | 5 => some 9
  | 6 => some 4
  | 10 => some 6
  | 11 => some 16
  | _ => none

/-- Whether a kind is undefined: 0x0, 0xC to 0xF (Table 1.3). -/
def undefinedKind (k : BitVec 4) : Bool := k == 0 || 12 ≤ k.toNat

/-- The kinds that are never relayed: 0x3 to 0x6 and 0x8 to 0xB (R57). -/
def neverRelayed (k : BitVec 4) : Bool := (3 ≤ k.toNat && k.toNat ≤ 6) || (8 ≤ k.toNat && k.toNat ≤ 11)

/-! ## Check byte (R3) -/

/-- One step of the check register. -/
def crc8Shift (r : Byte) : Byte := if r.msb then (r <<< 1) ^^^ 0x31 else r <<< 1

/-- One byte taken into the check register: exclusive-or, then eight steps. -/
def crc8Byte (r b : Byte) : Byte :=
  crc8Shift (crc8Shift (crc8Shift (crc8Shift (crc8Shift (crc8Shift (crc8Shift (crc8Shift (r ^^^ b))))))))

/-- The check byte over the given bytes, from 0xFF. -/
def crc8 (bs : List Byte) : Byte := bs.foldl crc8Byte 0xFF

/-! ## Envelope (R1) -/

/-- The sync byte. -/
def sync : Byte := 0xB6

/-- The header byte: kind, spare bits 0, socket. -/
def Frame.header (f : Frame) : Byte := f.kind ++ (0 : BitVec 2) ++ BitVec.ofNat 2 f.socket.val

/-- The bytes of a frame after its sync byte. -/
def Frame.tailBytes (f : Frame) : List Byte :=
  f.header :: byteOf f.payload.length ::
    (f.payload ++ [crc8 (f.header :: byteOf f.payload.length :: f.payload)])

/-- The bytes of a frame as they are sent (Table 1.1). -/
def Frame.bytes (f : Frame) : List Byte := sync :: f.tailBytes

/-- Whether a frame passes the test of R4 when it is sent: at most 24 payload bytes, and its kind's fixed length. -/
def Frame.wf (f : Frame) : Bool :=
  f.payload.length ≤ 24 && (match fixedLength f.kind with
    | none => true
    | some n => f.payload.length == n)

/-! ## Receiver (R4) -/

/-- What a receiver has finished. -/
inductive RxResult where
  | malformed
  | wellFormed (f : Frame)
  deriving DecidableEq, Repr

/-- The reception test of R4 on a collected frame: header, length byte, payload and check byte. -/
def judgeFrame (header len : Byte) (payload : List Byte) (check : Byte) : RxResult :=
  let kind : BitVec 4 := header.extractLsb' 4 4
  let spare : BitVec 2 := header.extractLsb' 2 2
  let lengthOk : Bool := match fixedLength kind with
    | none => true
    | some n => len.toNat == n
  if spare == 0 && lengthOk && check == crc8 (header :: len :: payload) then
    .wellFormed { kind := kind, socket := ⟨header.toNat % 4, Nat.mod_lt _ (by decide)⟩, payload := payload }
  else .malformed

/-- One byte taken by a receiver: its state afterwards, and the frame it has finished, if any. -/
def Rx.feed (rx : Rx) (b : Byte) : Rx × Option RxResult :=
  match rx with
  | .hunting => (if b = sync then .header else .hunting, none)
  | .header => (.length b, none)
  | .length h => if 24 < b.toNat then (.hunting, some .malformed) else (.body h b [], none)
  | .body h len got =>
    if got.length < len.toNat then (.body h len (got ++ [b]), none)
    else (.hunting, some (judgeFrame h len got b))

/-- Bytes taken one after another: the receiver afterwards and the frames finished, in order. -/
def Rx.run (rx : Rx) : List Byte → Rx × List RxResult
  | [] => (rx, [])
  | b :: bs =>
    match rx.feed b with
    | (rx', none) => rx'.run bs
    | (rx', some r) => ((rx'.run bs).1, r :: (rx'.run bs).2)

/-- Bytes taken until the first frame is finished: that frame, or the receiver's progress when none is. -/
def Rx.runFirst (rx : Rx) : List Byte → Rx × Option RxResult
  | [] => (rx, none)
  | b :: bs =>
    match rx.feed b with
    | (rx', none) => rx'.runFirst bs
    | (rx', some r) => (rx', some r)

/-- The longest time between two bytes of a frame, 2 ms in microseconds (R4). -/
def byteGap : Nat := 2000

/-- Whether a frame being collected has waited longer than R4 allows for its next byte. -/
def Rx.overdue (rx : Rx) (lastByte now : Nat) : Bool := rx != .hunting && lastByte + byteGap < now

/-- The receiver as arriving bytes find it: hunting again when they come too late (R4). -/
def Rx.atArrival (rx : Rx) (lastByte now : Nat) : Rx := if rx.overdue lastByte now then .hunting else rx

/-- The time of the last byte once some bytes have left a receiver in a state; a receiver that hunts keeps none anew. -/
def Rx.stamp (rx : Rx) (bytes : List Byte) (lastByte now : Nat) : Nat :=
  if rx == .hunting || bytes.isEmpty then lastByte else now

/-! ## Frames the part originates -/

/-- An ADVISORY (R11), its socket byte being 0xFF when the event concerns no socket; its header carries 0 then (R2). -/
def advisory (event : Byte) (socket : Option Socket) (detail : Word) : Frame :=
  { kind := kindAdvisory, socket := socket.getD 0,
    payload := event :: (match socket with
      | none => 0xFF
      | some n => byteOf n.val) :: Word.bytes detail }

/-- STARTED, with the new watermark (Table 1.18). -/
def startedAdvisory (watermark : Word) : Frame := advisory 1 none watermark

/-- SESSION, with the new state and the reason (Table 1.18). -/
def sessionAdvisory (n : Socket) (st : SessState) (r : Option Reason) : Frame :=
  advisory 2 (some n) (Word.ofBytes (byteOf st.code) (byteOf (reasonCode r)) 0 0)

/-- LINK, with the new link state and the error count (Table 1.18). -/
def linkAdvisory (n : Socket) (st : LinkState) (errors : Nat) : Frame :=
  advisory 3 (some n) (Word.ofBytes (byteOf st.code) (byteOf errors) 0 0)

/-- FAULT, with the condition and its new state (Table 1.18). -/
def faultAdvisory (c : Cond) (st : CondState) : Frame :=
  advisory 4 none (Word.ofBytes (byteOf c.number) (byteOf st.code) 0 0)

/-- A MGMT-RESP (Table 1.11), socket 0. -/
def response (code : Byte) (o : ReqOutcome) (words : List Word) : Frame :=
  { kind := kindMgmtResp, socket := 0, payload := code :: o.code :: words.flatMap Word.bytes }

/-- An IDENTIFY frame (R6). -/
def identifyFrame (n : Socket) : Frame := { kind := kindIdentify, socket := n, payload := [] }

/-- A CHALLENGE frame: the nonce words and the socket number (Table 1.6). -/
def challengeFrame (n : Socket) (x : Nonce) : Frame :=
  { kind := kindChallenge, socket := n,
    payload := Half.bytes x.n0 ++ Half.bytes x.n1 ++ Half.bytes x.n2 ++ Half.bytes x.n3 ++ [byteOf n.val] }

end Sys2Proof.Machine
end

