-- ==== Sys2Proof/Machine/Ops.lean ====
section
/-! DEFINITION. The shared operations: access to the parts of the state, the store array's words, the upstream lanes and the
transmitter's choice, and the queue of store jobs. -/

namespace Sys2Proof.Machine

/-! ## Lengths of windows and timers, in microseconds -/

/-- Settle timer, 250 ms (R16). -/
def settleTime : Nat := 250000

/-- Drop timer, 30 ms (R18). -/
def dropTime : Nat := 30000

/-- Recovery timer, 2 s (R34). -/
def recoveryTime : Nat := 2000000

/-- Reply window: 40 ms for a CHALLENGE, else 10 ms (R22). -/
def replyWindow (kind : BitVec 4) : Nat := if kind = kindChallenge then 40000 else 10000

/-- Silence timer, 500 ms (R42). -/
def silenceTime : Nat := 500000

/-! ## Access to the parts of the state -/

/-- PLCn. -/
def Part.link (p : Part) (n : Socket) : Link := p.links.get n

/-- The part with PLCn replaced. -/
def Part.setLink (p : Part) (n : Socket) (l : Link) : Part := { p with links := p.links.set n l }

/-- Socket n's session record. -/
def Part.session (p : Part) (n : Socket) : Session := p.engine.sessions.get n

/-- The part with socket n's session record replaced. -/
def Part.setSession (p : Part) (n : Socket) (x : Session) : Part :=
  { p with engine := { p.engine with sessions := p.engine.sessions.set n x } }

/-- The part with its tool link port replaced. -/
def Part.setTlp (p : Part) (t : Tlp) : Part := { p with tlp := t }

/-- The part with its proof unit replaced. -/
def Part.setProof (p : Part) (x : ProofUnit) : Part := { p with proof := x }

/-- The part with its fault unit replaced. -/
def Part.setFault (p : Part) (x : FaultUnit) : Part := { p with fault := x }

/-- The part with its grant calculator replaced. -/
def Part.setGrants (p : Part) (x : Grants) : Part := { p with grants := x }

/-- The part with its management unit replaced. -/
def Part.setMgmt (p : Part) (x : Mgmt) : Part := { p with mgmt := x }

/-- The part with its store controller replaced. -/
def Part.setCtl (p : Part) (x : StoreCtl) : Part := { p with ctl := x }

/-- The part with its classifier replaced. -/
def Part.setClassifier (p : Part) (x : Classifier) : Part := { p with classifier := x }

/-- The part with its trust tables replaced. -/
def Part.setTrust (p : Part) (x : Trust) : Part := { p with trust := x }

/-- The part with its audit replaced. -/
def Part.setAudit (p : Part) (x : Option Audit) : Part := { p with engine := { p.engine with audit := x } }

/-- The part with its recent-refusal table replaced. -/
def Part.setRecent (p : Part) (x : List (Word × Nat)) : Part := { p with engine := { p.engine with recent := x } }

/-- The 32-bit microsecond counter (R30): the low 32 bits of the time since power was applied. -/
def Part.microCounter (p : Part) : Word := BitVec.ofNat 32 p.clock

/-- The settings every block reads (10.4). -/
def Part.settings (p : Part) : Settings := p.mgmt.settings

/-- An effect that is taken only while the part operates, powered and out of reset (log 18). -/
def Part.whileOn (p : Part) (f : Part → Part) : Part :=
  match p.power with
  | .on => f p
  | .resetHeld => p
  | .off => p

/-- The outcome of a command that acts on the part alone: the store array is unchanged. -/
def State.onPart (s : State) (f : Part → Part) : Host.Outcome State Fault Refusal :=
  .next { s with part := s.part.whileOn f }

/-- An effect carried out for every socket in ascending order. -/
def forSockets (f : Socket → Part → Part) (p : Part) : Part := f 3 (f 2 (f 1 (f 0 p)))

/-! ## Store array (R175) -/

/-- Words in the whole array: 15 sectors of 128. -/
def arrayWords : Nat := 1920

/-- What an erased word reads. -/
def erased : Word := 0xFFFFFFFF

/-- The word at an address. -/
def readWord (a : StoreArray) (addr : Nat) : Word :=
  match a with
  | [] => erased
  | (k, w) :: rest => if k = addr then w else readWord rest addr

/-- The array with an entry for an address put in its place, or removed when the word is erased. -/
def putWord (a : StoreArray) (addr : Nat) (x : Word) : StoreArray :=
  match a with
  | [] => if x = erased then [] else [(addr, x)]
  | (k, w) :: rest =>
    if k < addr then (k, w) :: putWord rest addr x
    else if k = addr then (if x = erased then rest else (addr, x) :: rest)
    else (if x = erased then (k, w) :: rest else (addr, x) :: (k, w) :: rest)

/-- Programming a word turns 1 bits into 0 and no 0 bit into 1 (chapter 11). -/
def programWord (a : StoreArray) (addr : Nat) (x : Word) : StoreArray :=
  if addr < arrayWords then putWord a addr (readWord a addr &&& x) else a

/-- Erasing a sector erases its 128 words (chapter 11). -/
def eraseSector (a : StoreArray) (sector : Nat) : StoreArray :=
  a.filter fun e => !(sector * 128 ≤ e.1 && e.1 < sector * 128 + 128)

/-- The canonical form of the array: addresses strictly rising and inside the array, no entry erased. -/
def StoreArray.wf : StoreArray → Bool
  | [] => true
  | [(k, w)] => k < arrayWords && w != erased
  | (k, w) :: (k', w') :: rest => k < k' && w != erased && StoreArray.wf ((k', w') :: rest)

/-- One step of a store job: an erase of a sector or the programming of a word (R176). -/
inductive Prim where
  | erase (sector : Nat)
  | program (addr : Nat) (x : Word)
  deriving DecidableEq, Repr

/-- The array after one step. -/
def Prim.apply (a : StoreArray) : Prim → StoreArray
  | .erase s => eraseSector a s
  | .program addr x => programWord a addr x

/-- The array after steps taken in order. -/
def applySteps (a : StoreArray) (ps : List Prim) : StoreArray := ps.foldl Prim.apply a

/-! ## Upstream lanes and the transmitter (R44 to R50) -/

/-- The three lanes. -/
inductive Lane where
  | l0
  | l1
  | l2
  deriving DecidableEq, Repr

/-- A lane's capacity (Table 3.4). -/
def Lane.capacity : Lane → Nat
  | .l0 => 8
  | .l1 => 16
  | .l2 => 16

/-- The lane a rule's lane field names. Above 2 it stands in no enabled rule of a LIVE table (R55, R68; log 24). -/
def Lane.ofByte (b : Byte) : Lane := if b = 0 then .l0 else if b = 1 then .l1 else .l2

/-- The frames of a lane. -/
def Tlp.lane (t : Tlp) : Lane → List Frame
  | .l0 => t.lane0
  | .l1 => t.lane1
  | .l2 => t.lane2

/-- The port with the frames of a lane replaced. -/
def Tlp.setLane (t : Tlp) (k : Lane) (fs : List Frame) : Tlp :=
  match k with
  | .l0 => { t with lane0 := fs }
  | .l1 => { t with lane1 := fs }
  | .l2 => { t with lane2 := fs }

/-- Whether two frames are of the same kind and the same socket (R46). -/
def sameKindSocket (f g : Frame) : Bool := f.kind == g.kind && f.socket == g.socket

/-- A lane after a frame has been placed into it (R45, R46). -/
def laneInsert (cap : Nat) (f : Frame) (l : List Frame) : List Frame :=
  if l.length < cap then l ++ [f]
  else if l.any (sameKindSocket f) then l.eraseP (sameKindSocket f) ++ [f] else l

/-- The request in flight after its response has left the response slot (R48, R162). -/
def endFlight (r : Option Request) : Option Request :=
  match r with
  | some q => (match q.phase with
    | .running => some q
    | .waiting => none)
  | none => none

/-- The idle transmitter's choice (R49): response slot, then lane 0, lane 1, lane 2. -/
def Part.transmit (p : Part) : Part :=
  match p.tlp.sending with
  | some _ => p
  | none =>
    match p.tlp.response with
    | some f => (p.setTlp { p.tlp with sending := some f, response := none }).setMgmt
        { p.mgmt with request := endFlight p.mgmt.request }
    | none =>
      match p.tlp.lane0, p.tlp.lane1, p.tlp.lane2 with
      | f :: r, _, _ => p.setTlp { p.tlp with sending := some f, lane0 := r }
      | [], f :: r, _ => p.setTlp { p.tlp with sending := some f, lane1 := r }
      | [], [], f :: r => p.setTlp { p.tlp with sending := some f, lane2 := r }
      | [], [], [] => p

/-- Placing a frame into a lane (R45, R46), after which an idle transmitter chooses (R49). -/
def Part.place (p : Part) (k : Lane) (f : Frame) : Part :=
  (p.setTlp (p.tlp.setLane k (laneInsert k.capacity f (p.tlp.lane k)))).transmit

/-- Placing a new AGGREGATE, which removes one still queued in lane 0 (R47). -/
def Part.placeAggregate (p : Part) (f : Frame) : Part :=
  (p.setTlp { p.tlp with lane0 := p.tlp.lane0.filter fun g => g.kind != kindAggregate }).place .l0 f

/-! ## Store job queue (R176) -/

/-- Whether a job writes a log entry. -/
def Job.isLog : Job → Bool
  | .log _ => true
  | .table _ => false
  | .watermark _ => false

/-- Whether a job is a table job. -/
def Job.isTable : Job → Bool
  | .log _ => false
  | .table _ => true
  | .watermark _ => false

/-- Whether a job is a watermark job. -/
def Job.isWatermark : Job → Bool
  | .log _ => false
  | .table _ => false
  | .watermark _ => true

/-- The controller takes the oldest job when none is in progress (R176). -/
def StoreCtl.start (c : StoreCtl) : StoreCtl :=
  match c.job, c.queue with
  | none, j :: q => { c with job := some j, queue := q }
  | none, [] => c
  | some _, _ => c

/-- A job put at the end of the queue. -/
def Part.queueJob (p : Part) (j : Job) : Part :=
  p.setCtl { p.ctl with queue := p.ctl.queue ++ [j] }.start

/-- A log entry handed to the controller: discarded while 16 are queued (R176). -/
def Part.log (p : Part) (e : LogEntry) : Part :=
  if p.ctl.queue.countP Job.isLog < 16 then p.queueJob (.log e) else p

/-- A TABLE_CHANGE log entry: table code, operation code, index (R14). -/
def tableChange (table op index : Nat) : LogEntry :=
  { type := 7, socket := 7, detail := halfOf (table * 4096 + op * 256 + index), data := [] }

/-- A STORE_BAD log entry (R14). -/
def storeBad (region : Nat) : LogEntry := { type := 9, socket := 7, detail := halfOf region, data := [] }

/-- The value of the watermark job that is queued and not begun, replaced (R108). -/
def replaceWatermark (v : Word) : List Job → List Job
  | [] => []
  | .watermark _ :: q => .watermark v :: q
  | .log e :: q => .log e :: replaceWatermark v q
  | .table j :: q => .table j :: replaceWatermark v q

/-- Whether a watermark job is in progress. -/
def StoreCtl.watermarkInProgress (c : StoreCtl) : Bool :=
  match c.job with
  | some j => j.isWatermark
  | none => false

/-- Whether a watermark job is queued and not begun. -/
def StoreCtl.watermarkQueued (c : StoreCtl) : Bool := c.queue.any Job.isWatermark

end Sys2Proof.Machine
end

