-- ==== Sys2Proof/Machine/Flags.lean ====
section
/-! DEFINITION. Flag bytes and masks: the STATUS flags (R8), the report flags byte (R166), condition and permit masks. -/

namespace Sys2Proof.Machine

/-- Whether a session is ADMITTED or SUSPECT. -/
def SessState.trusted : SessState → Bool
  | .none => false
  | .identifying => false
  | .verifying => false
  | .admitted => true
  | .suspect => true
  | .refused => false
  | .withdrawn => false

/-- Whether a session is VERIFYING, ADMITTED or SUSPECT, the states in which orders are acted on (R92). -/
def SessState.live : SessState → Bool
  | .none => false
  | .identifying => false
  | .verifying => true
  | .admitted => true
  | .suspect => true
  | .refused => false
  | .withdrawn => false

/-- UNVERIFIED of a stamped STATUS (Table 4.5). -/
def Part.unverified (p : Part) (n : Socket) : Bool := !(p.session n).state.trusted

/-- LIMITED of a stamped STATUS (Table 4.5). -/
def Part.limited (p : Part) (n : Socket) : Bool :=
  (p.session n).state.trusted && (p.grants.trust.get n < 100 || p.grants.derate.get n < 100)

/-- The flags byte of a STATUS after stamping: bits 0 to 3 as the pack sent them, VACANT clear (R8, Table 4.5). -/
def Part.stampedFlags (p : Part) (n : Socket) (b : Byte) : Byte :=
  (b &&& 0x0F) ||| byteOf (flagSet [false, false, false, false, p.unverified n, p.limited n, p.grants.stale.get n, false])

/-- The flags byte of a synthesized STATUS (Table 4.4a). -/
def Part.synthesizedFlags (p : Part) (n : Socket) : Byte :=
  byteOf (flagSet [false, false, false, false, true, false, false, (p.session n).state == .none])

/-- The trust marks as a set (Table 1.15). -/
def Marks.toFlags (m : Marks) : List Bool := [m.keyRetired, m.worn, m.suspect]

/-- The report flags byte of SOCKET-REPORT (R166). -/
def Part.reportFlags (p : Part) (n : Socket) : Byte :=
  let x := p.session n
  byteOf (flagSet (x.marks.toFlags ++ [p.grants.stale.get n, x.identity.isSome, x.telemetry.isSome, x.baseline.isSome,
    x.challenge.isSome]))

/-- The mask of the conditions in a state (R10). -/
def Part.condMask (p : Part) (st : CondState) : Byte :=
  byteOf (flagSet (Cond.all.map fun c => p.fault.conds.get c == st))

/-- The permit states byte: bit n set while PERMITn is asserted (R12). -/
def Part.permitMask (p : Part) : Byte := byteOf (flagSet (allSockets.map p.fault.permits.get))

/-- Whether a level cause is present; TRUST_BASE's while either of its inputs is (R152). -/
def Causes.present (k : Causes) (c : Cond) : Bool :=
  match c with
  | .lock => k.lock
  | .overdraw => k.overdraw
  | .toolSilent => k.silent
  | .overheat => k.overheat
  | .massFail => false
  | .trustBase => k.noUsableKey || k.exhausted
  | .clone => false
  | .store => k.store

/-- The cause mask of FAULT-REPORT; bits 4 and 6 are always 0 (R167). -/
def Part.causeMask (p : Part) : Byte := byteOf (flagSet (Cond.all.map p.fault.causes.present))

/-- The map byte of a condition (R167). -/
def MapEntry.byte (e : MapEntry) : Byte :=
  e.mask.setWidth 8 ||| byteOf (flagSet [false, false, false, false, e.latch, e.advise])

/-- A map entry from its byte. -/
def MapEntry.ofByte (b : Byte) : MapEntry :=
  { mask := b.setWidth 4, latch := b.getLsbD 4, advise := b.getLsbD 5 }

end Sys2Proof.Machine
end

