-- ==== Sys2Proof/Machine/Faults.lean ====
section
/-! DEFINITION. The fault unit: permit lines, condition changes, level and momentary causes (R142, chapter 9). -/

namespace Sys2Proof.Machine

/-! ## Permit lines (R142) -/

/-- Whether the topology is PAIRED (setting 0). -/
def Part.paired (p : Part) : Bool := p.settings.topology == 1

/-- The string a socket belongs to (R137): its own in PARALLEL, A (0) or B (1) in PAIRED. -/
def stringOf (paired : Bool) (n : Socket) : Socket :=
  if paired then (match n with
    | 0 => 0
    | 1 => 0
    | 2 => 1
    | 3 => 1) else n

/-- The share of socket n's string. -/
def Part.shareOf (p : Part) (n : Socket) : Nat := p.grants.shares.get (stringOf p.paired n)

/-- Whether a condition that masks line n is ACTIVE or HELD. -/
def Part.masked (p : Part) (n : Socket) : Bool :=
  Cond.all.any fun c => (p.fault.map.get c).mask.getLsbD n.val && p.fault.conds.get c != .inactive

/-- Whether R142's four terms hold for PERMITn. -/
def Part.permitDue (p : Part) (n : Socket) : Bool :=
  0 < p.shareOf n && !p.masked n && !p.mgmt.parked && !p.ctl.loading

/-- The permit lines re-evaluated by R142. -/
def Part.evalPermits (p : Part) : Part := p.setFault { p.fault with permits := .ofFn p.permitDue }

/-! ## Condition changes (R154) -/

/-- A FAULT log entry (R14). -/
def faultEntry (c : Cond) : LogEntry := { type := 6, socket := 7, detail := halfOf c.number, data := [] }

/-- The condition's state set and the permit lines re-evaluated (R154 step 1). -/
def Part.setCond (p : Part) (c : Cond) (st : CondState) : Part :=
  (p.setFault { p.fault with conds := p.fault.conds.set c st }).evalPermits

/-- The FAULT advisory of a condition's state, when its map entry has advise set (R154 step 2). -/
def Part.adviseCond (p : Part) (c : Cond) (st : CondState) : Part :=
  if (p.fault.map.get c).advise then p.place .l0 (faultAdvisory c st) else p

/-- A change of a condition's state that is no appearance of a cause (R154). -/
def Part.changeCond (p : Part) (c : Cond) (st : CondState) : Part := (p.setCond c st).adviseCond c st

/-- The appearance of a condition's cause: ACTIVE, with its FAULT log entry (R153, R154). -/
def Part.raiseCond (p : Part) (c : Cond) : Part := (p.changeCond c .active).log (faultEntry c)

/-- The departure of a condition's cause: HELD or INACTIVE by the latch field (R153). -/
def Part.clearCond (p : Part) (c : Cond) : Part :=
  match p.fault.conds.get c with
  | .active => p.changeCond c (if (p.fault.map.get c).latch then .held else .inactive)
  | .inactive => p
  | .held => p

/-- The causes recorded, with no change of any condition (R159, R160). -/
def Part.recordCauses (p : Part) (k : Causes) : Part := p.setFault { p.fault with causes := k }

/-- A report that leaves the level causes as `k`, which concerns condition `c` (R152, R153). While the store is being
loaded it is recorded alone (R159). -/
def Part.reportCause (p : Part) (c : Cond) (k : Causes) : Part :=
  if p.ctl.loading then p.recordCauses k
  else
    match p.fault.causes.present c, k.present c with
    | false, true => (p.recordCauses k).raiseCond c
    | true, false => (p.recordCauses k).clearCond c
    | true, true => p.recordCauses k
    | false, false => p.recordCauses k

/-- A momentary cause, CLONE or MASS_FAIL (R155). -/
def Part.momentary (p : Part) (c : Cond) : Part :=
  if (p.fault.map.get c).latch then
    (match p.fault.conds.get c with
      | .held => p
      | .inactive => p.changeCond c .held
      | .active => p.changeCond c .held).log (faultEntry c)
  else (p.raiseCond c).changeCond c .inactive

/-- The store controller's report of a job's end (R152, R176): a failure makes the STORE cause present, a success
makes it absent. -/
def Part.reportStore (p : Part) (ok : Bool) : Part :=
  p.reportCause .store { p.fault.causes with store := !ok }

end Sys2Proof.Machine
end

