-- ==== Sys2Proof/Machine/GrantCalc.lean ====
section
/-! DEFINITION. The grant calculator: derating, trust, socket and string grants, shares, overheat, AGGREGATE frames
(chapter 8). -/

namespace Sys2Proof.Machine

/-! ## Socket grant (R132 to R134) -/

/-- The derating percent of a temperature between a class's knee and cutoff (R132). -/
def deratePercent (t tk tc : Int) : Nat :=
  if t ≤ tk then 100
  else if tc ≤ t then 0
  else (100 * (tc - t) / (tc - tk)).toNat

/-- The class entry a session is bound to, as the class table holds it (R119); that a trusted session without one is derated to
100 and granted 0 is the model's choice (log 27). -/
def Part.classOf (p : Part) (n : Socket) : Option ClassEntry :=
  match (p.session n).classIndex with
  | some i => p.trust.classes[i]
  | none => none

/-- D of a socket (R132). -/
def Part.derateOf (p : Part) (n : Socket) : Nat :=
  match (p.session n).state.trusted, (p.session n).telemetry, p.classOf n with
  | true, some t, some c => deratePercent t.temperature c.tk c.tc
  | _, _, _ => 100

/-- The trust percent of a set of marks under the retired cap and the limp cap (R133). -/
def trustPercent (m : Marks) (retiredCap limpCap : Nat) : Nat :=
  min (if m.keyRetired || m.worn then min 100 retiredCap else 100) (if m.suspect then limpCap else 100)

/-- Tr of a socket (R133). -/
def Part.trustOf (p : Part) (n : Socket) : Nat :=
  if (p.session n).state.trusted then
    trustPercent (p.session n).marks p.settings.retiredCap p.settings.limpCap
  else 100

/-- The smaller of the pack's allowance and the class rating reduced by derating and trust (R134). -/
def grantLimit (allowance ic d tr : Nat) : Nat := min allowance (ic * d * tr / 10000)

/-- G of a socket (R134). -/
def Part.grantOf (p : Part) (n : Socket) : Nat :=
  match (p.session n).telemetry, p.classOf n with
  | some t, some c =>
    if (p.session n).state.trusted && (p.session n).baseline.isSome && !p.grants.stale.get n
        && c.cellFloor.toNat ≤ t.cellMin.toNat then
      grantLimit t.allowance.toNat c.ic.toNat (p.derateOf n) (p.trustOf n)
    else 0
  | _, _ => 0

/-! ## Strings, tool grant, shares (R137 to R139) -/

/-- The string grants, in string order: the smallest G of each string's members (R137). -/
def stringGrants (paired : Bool) (g : PerSocket Nat) : List Nat :=
  if paired then [min g.s0 g.s1, min g.s2 g.s3] else [g.s0, g.s1, g.s2, g.s3]

/-- One pass over the strings, each given as its grant and its share, handing one step to each that has room until the
remainder is 0 (R139). -/
def handOutPass (rem : Nat) : List (Nat × Nat) → Nat × List (Nat × Nat)
  | [] => (rem, [])
  | (s, sh) :: rest =>
    if 0 < rem && sh < s then
      ((handOutPass (rem - 1) rest).1, (s, sh + 1) :: (handOutPass (rem - 1) rest).2)
    else ((handOutPass rem rest).1, (s, sh) :: (handOutPass rem rest).2)

/-- Passes repeated until the remainder is 0 (R139), at most `fuel` of them. -/
def handOut (fuel rem : Nat) (xs : List (Nat × Nat)) : List (Nat × Nat) :=
  match fuel with
  | 0 => xs
  | fuel + 1 => if rem = 0 then xs else handOut fuel (handOutPass rem xs).1 (handOutPass rem xs).2

/-- The first share of a string (R139). -/
def firstShare (c sum s : Nat) : Nat := s * c / sum

/-- The shares of the strings under a tool ceiling (R139). -/
def apportion (c : Nat) (ss : List Nat) : List Nat :=
  if ss.sum ≤ c then ss
  else
    let first := ss.map (firstShare c ss.sum)
    (handOut (c - first.sum) (c - first.sum) (ss.zip first)).map Prod.snd

/-- A list of up to four values as values by string number, 0 where there is no string. -/
def perString (xs : List Nat) : PerSocket Nat := ⟨xs.getD 0 0, xs.getD 1 0, xs.getD 2 0, xs.getD 3 0⟩

/-! ## Overheat (R141) -/

/-- Whether a socket's last temperature is at or above its cutoff (R141). A trusted session whose class entry is not in use,
which a recomputation meets while a CLASS-ERASE refuses two sessions one after another (R122), has no cutoff: that it does not
count as hot is the model's choice (log 27). -/
def Part.hot (p : Part) (n : Socket) : Bool :=
  match (p.session n).telemetry, p.classOf n with
  | some t, some c => (p.session n).state.trusted && decide (c.tc ≤ t.temperature)
  | _, _ => false

/-! ## AGGREGATE (R12, R149) -/

/-- The AGGREGATE of this moment. -/
def Part.aggregateFrame (p : Part) : Frame :=
  let g := p.grants
  let st := fun n => (p.session n).state.code
  let lk := fun n => (p.link n).state.aggregateCode
  { kind := kindAggregate, socket := 0,
    payload := Half.bytes (halfOf g.toolGrant)
      ++ Half.bytes (halfOf g.published.s0) ++ Half.bytes (halfOf g.published.s1)
      ++ Half.bytes (halfOf g.published.s2) ++ Half.bytes (halfOf g.published.s3)
      ++ [p.permitMask, p.condMask .active, p.condMask .held,
          byteOf (st 0 * 16 + st 1), byteOf (st 2 * 16 + st 3),
          byteOf (lk 0 * 64 + lk 1 * 16 + lk 2 * 4 + lk 3)] }

/-- An AGGREGATE built and placed (R148, R149). -/
def Part.sendAggregate (p : Part) : Part := p.placeAggregate p.aggregateFrame

/-! ## Recomputation (R131) -/

/-- Steps 1 and 2: every D, Tr and G, the string grants, the tool grant, the shares and the published allowances. -/
def Part.computeGrants (p : Part) : Grants :=
  let g := PerSocket.ofFn p.grantOf
  let ss := stringGrants p.paired g
  let shares := perString (apportion p.settings.toolCeiling ss)
  { p.grants with
    derate := .ofFn p.derateOf, trust := .ofFn p.trustOf, grant := g, strings := perString ss,
    toolGrant := min p.settings.toolCeiling ss.sum, shares := shares,
    published := .ofFn fun n => shares.get (stringOf p.paired n) }

/-- Whether the tool grant or a published allowance is less than its previous value (R148). -/
def Grants.decreased (g : Grants) : Bool :=
  g.toolGrant < g.prevTool || allSockets.any fun n => g.published.get n < g.prevPublished.get n

/-- The present values become the previous ones (R131 step 5). -/
def Grants.keepPrevious (g : Grants) : Grants := { g with prevTool := g.toolGrant, prevPublished := g.published }

/-- Step 3: the overheat cause evaluated (R141). -/
def Part.evalOverheat (p : Part) : Part :=
  p.reportCause .overheat { p.fault.causes with overheat := allSockets.any p.hot }

/-- Step 5: an AGGREGATE when something decreased, and the present values kept (R131, R148). -/
def Part.noteDecrease (p : Part) : Part :=
  let p' := if p.grants.decreased then p.sendAggregate else p
  p'.setGrants p'.grants.keepPrevious

/-- A recomputation (R131). -/
def Part.recompute (p : Part) : Part :=
  ((p.setGrants p.computeGrants).evalOverheat.evalPermits).noteDecrease

/-! ## Telemetry hold (R135, R136) -/

/-- The hold window in milliseconds (R135). -/
def holdWindow (setting : Nat) : Nat := if setting = 0 then 500 else setting * 100

/-- The telemetry age in milliseconds, saturating at 65535 (R91). -/
def Telemetry.age (t : Telemetry) (now : Nat) : Nat := min 65535 ((now - t.since) / 1000)

/-- Whether socket n's hold timer runs (R135). -/
def Part.holdRunning (p : Part) (n : Socket) : Bool :=
  (p.session n).telemetry.isSome && !p.grants.stale.get n

/-- Whether socket n's hold timer has reached the hold window (R135). -/
def Part.holdElapsed (p : Part) (n : Socket) : Bool :=
  match (p.session n).telemetry with
  | some t => p.holdRunning n && holdWindow p.settings.telemetryHold ≤ t.age p.clock
  | none => false

/-- STALE of socket n set or cleared. -/
def Part.setStale (p : Part) (n : Socket) (b : Bool) : Part :=
  p.setGrants { p.grants with stale := p.grants.stale.set n b }

/-- The expiry of a hold timer (R135). -/
def Part.holdExpiry (p : Part) (n : Socket) : Part :=
  if p.holdRunning n then (p.setStale n true).recompute else p

/-! ## Overdraw (R143 to R145) and the aggregate timer (R146) -/

/-- The overdraw window in microseconds (R143). -/
def overdrawWindow (setting : Nat) : Nat := if setting = 0 then 200000 else setting * 10000

/-- The aggregate period in microseconds (R146). -/
def aggregatePeriod (setting : Nat) : Nat := if setting = 0 then 20000 else setting * 1000

/-- The overdraw timer set. -/
def Part.setOverdraw (p : Part) (t : Option Nat) : Part := p.setGrants { p.grants with overdraw := t }

/-- The draw of a POLL taken (R143). -/
def Part.takeDraw (p : Part) (draw : Nat) : Part :=
  if p.grants.toolGrant < draw then
    if p.grants.overdraw.isNone && !p.fault.causes.overdraw then
      p.setOverdraw (some (p.clock + overdrawWindow p.settings.overdrawWindow))
    else p
  else (p.setOverdraw none).reportCause .overdraw { p.fault.causes with overdraw := false }

/-- The expiry of the overdraw timer (R144). -/
def Part.overdrawExpiry (p : Part) : Part :=
  match p.grants.overdraw with
  | none => p
  | some _ => (p.setOverdraw none).reportCause .overdraw { p.fault.causes with overdraw := true }

/-- The aggregate timer started for a full period at the present setting (R146). -/
def Part.startAggregateTimer (p : Part) : Part :=
  p.setGrants { p.grants with aggregate := some (p.clock + aggregatePeriod p.settings.aggregatePeriod) }

/-- The expiry of the aggregate timer (R146). -/
def Part.aggregateExpiry (p : Part) : Part :=
  match p.grants.aggregate with
  | none => p
  | some _ => p.sendAggregate.startAggregateTimer

end Sys2Proof.Machine
end

