-- ==== Sys2Proof/Machine/ProofUnit.lean ====
section
/-! DEFINITION. The proof unit: counter reservations, draws, watermarks, the expected proof (chapter 6). -/

namespace Sys2Proof.Machine

/-! ## Reservations (R103) -/

/-- How many counter values can still be drawn (R103). -/
def ProofUnit.left (x : ProofUnit) : Nat := 0xFFFFFFFF - x.counter.toNat

/-- Whether a reservation is granted (R103). -/
def ProofUnit.canReserve (x : ProofUnit) : Bool := x.reserved < x.left

/-- A reservation made. -/
def Part.reserve (p : Part) : Part := p.setProof { p.proof with reserved := p.proof.reserved + 1 }

/-- A reservation released (R103). -/
def Part.release (p : Part) : Part := p.setProof { p.proof with reserved := p.proof.reserved - 1 }

/-! ## Watermarks (R107, R108) -/

/-- A watermark value plus 4096, at most 0xFFFFFFFF (R107, R108). -/
def nextWatermark (v : Word) : Word := if v.toNat + 4096 ≤ 0xFFFFFFFF then v + 4096 else 0xFFFFFFFF

/-- A watermark job handed to the store controller when none is queued or in progress; the value of a queued one is
replaced; while one is in progress nothing is queued before its completion (R108). -/
def Part.queueWatermark (p : Part) (v : Word) : Part :=
  if p.ctl.watermarkInProgress then p
  else if p.ctl.watermarkQueued then p.setCtl { p.ctl with queue := replaceWatermark v p.ctl.queue }
  else p.queueJob (.watermark v)

/-- The renewal test (R108). -/
def Part.renewalTest (p : Part) : Part :=
  if p.proof.counter = p.proof.pendingMark ∧ p.proof.pendingMark ≠ 0xFFFFFFFF then
    (p.setProof { p.proof with pendingMark := nextWatermark p.proof.pendingMark }).queueWatermark
      (nextWatermark p.proof.pendingMark)
  else if p.proof.pendingMark ≠ p.proof.committedMark ∧ p.ctl.watermarkInProgress = false ∧
      p.ctl.watermarkQueued = false then
    p.queueJob (.watermark p.proof.pendingMark)
  else p

/-- The exhaustion test (R109). -/
def Part.exhaustionTest (p : Part) : Part :=
  p.reportCause .trustBase { p.fault.causes with exhausted := p.proof.counter == 0xFFFFFFFF }

/-- The completion of a watermark job that carried `v` (R107, R108). A renewal that fell due while it was in progress is
queued now. -/
def Part.watermarkDone (p : Part) (v : Word) (ok : Bool) : Part :=
  let p' := if ok then p.setProof { p.proof with committedMark := v } else p
  if p'.proof.pendingMark = v then p' else p'.queueJob (.watermark p'.proof.pendingMark)

/-! ## Draws (R104) -/

/-- The nonce that the next draw gives: the counter value and the next entropy value (R104 steps 1 and 2). -/
def ProofUnit.nonce (x : ProofUnit) : Nonce :=
  { n0 := Word.hi x.counter, n1 := Word.lo x.counter, n2 := Word.hi (Config.entropy x.entropyDraws),
    n3 := Word.lo (Config.entropy x.entropyDraws) }

/-- The proof unit after a draw (R104 steps 4 and 5). -/
def ProofUnit.drawn (x : ProofUnit) : ProofUnit :=
  { x with counter := x.counter + 1, reserved := x.reserved - 1, drawMark := some x.counter,
           entropyDraws := x.entropyDraws + 1 }

/-- A draw with its two tests (R104 steps 4 to 6). -/
def Part.draw (p : Part) : Part := (p.setProof p.proof.drawn).renewalTest.exhaustionTest

/-! ## The expected proof (R105, R106) -/

/-- The modulus. -/
def proofModulus : Nat := 2147483647

/-- The eight words of a challenge's message (Table 6.2). -/
def message (x : Nonce) (i : Identity) (n : Socket) : List Nat :=
  [x.n0.toNat, x.n1.toNat, x.n2.toNat, x.n3.toNat, (Word.hi i.serial).toNat, (Word.lo i.serial).toNat, n.val,
   i.family.toNat * 256 + i.generation.toNat]

/-- The accumulator after the words have been taken (R106 step 2). -/
def accumulate (ka : Nat) (ws : List Nat) : Nat := ws.foldl (fun acc w => (acc + w) * ka % proofModulus) 0

/-- The expected proof of a message under a key (R106). -/
def expectedProof (ka kb : Nat) (ws : List Nat) : Nat := (accumulate ka ws + kb) % proofModulus

/-! ## Cold start (R107) -/

/-- The value from which counting resumes: the region's, or one above the draw mark when that is at or above it. -/
def resumeFrom (mark : Option Word) (region : Word) : Word :=
  match mark with
  | none => region
  | some d => if region.toNat ≤ d.toNat then d + 1 else region

end Sys2Proof.Machine
end

