-- ==== Sys2Proof/Machine/Links.lean ====
section
/-! DEFINITION. Pack links: the start and the abandonment of transactions, the poll queue, the challenge draw (R20 to R29,
R80); and the response to the request in flight (R48). -/

namespace Sys2Proof.Machine

/-! ## Starting a transaction (R21) -/

/-- Whether a link state lets transactions start (Table 2.2). -/
def LinkState.working : LinkState → Bool
  | .vacant => false
  | .settling => false
  | .active => true
  | .degraded => true
  | .halted => false

/-- The conditions of R21 other than that a frame waits; a frame that an abandoned transaction is still sending keeps the
line (R27, log 12). -/
def Part.canStart (p : Part) (n : Socket) : Bool :=
  (p.link n).tx.isNone && (p.link n).draining.isNone && (p.link n).state.working && p.contacts.get n &&
    (p.link n).drop.isNone && !p.mgmt.parked

/-- A transaction as it begins (R22). -/
def Transaction.begin (f : Frame) (src : TxSource) : Transaction :=
  { frame := f, source := src, phase := .sending, passedOver := false, sentAt := none, replyAt := none }

/-- The edit count of a session's key slot (R112). -/
def Part.editCount (p : Part) (slot : Option (Fin 16)) : Byte :=
  match slot with
  | some k => p.trust.edits[k]
  | none => 0

/-- The outstanding challenge becomes SENT with its nonce and edit-count snapshot (R80). -/
def Part.markSent (p : Part) (n : Socket) (x : Nonce) : Part :=
  match (p.session n).challenge with
  | none => p
  | some c => p.setSession n { p.session n with
      challenge := some { c with phase := .sent x (p.editCount (p.session n).keySlot) } }

/-- The CHALLENGE taken from the engine slot: the draw, the record of it, the transaction (R80, R104). -/
def Part.startChallenge (p : Part) (n : Socket) : Part :=
  let x := p.proof.nonce
  let p' := p.draw.markSent n x
  p'.setLink n { p'.link n with engineSlot := none, tx := some (.begin (challengeFrame n x) .engineSlot) }

/-- A transaction started if R21's conditions hold: the engine slot first, then the oldest frame of the poll queue. -/
def Part.tryStart (p : Part) (n : Socket) : Part :=
  if p.canStart n then
    match (p.link n).engineSlot, (p.link n).pollQueue with
    | some .identify, _ => p.setLink n { p.link n with
        engineSlot := none, tx := some (.begin (identifyFrame n) .engineSlot) }
    | some .challenge, _ => p.startChallenge n
    | none, f :: q => p.setLink n { p.link n with pollQueue := q, tx := some (.begin f .pollQueue) }
    | none, [] => p
  else p

/-! ## Abandoning and emptying -/

/-- A link after its transaction has been abandoned: a frame still being sent is sent to its end (R27). -/
def Link.abandon (l : Link) : Link :=
  match l.tx with
  | none => l
  | some t => { l with tx := none, draining := (match t.phase with
      | .sending => some t.frame
      | .waiting _ => l.draining
      | .collecting _ _ => l.draining) }

/-- A link with its engine slot and poll queue emptied. -/
def Link.empty (l : Link) : Link := { l with engineSlot := none, pollQueue := [] }

/-- A link with its three timers stopped and cleared. -/
def Link.stopTimers (l : Link) : Link := { l with settle := none, drop := none, recovery := none }

/-! ## Poll queue (R28, R29) -/

/-- A frame appended to a poll queue of at most four, the oldest giving way (R29). -/
def pollAppend (q : List Frame) (f : Frame) : List Frame := if q.length < 4 then q ++ [f] else q.drop 1 ++ [f]

/-- A forwarded frame taken by PLCn or discarded on arrival (R28). -/
def Part.pollTake (p : Part) (n : Socket) (f : Frame) : Part :=
  if (p.link n).state.working && !p.mgmt.parked then
    (p.setLink n { p.link n with pollQueue := pollAppend (p.link n).pollQueue f }).tryStart n
  else p

/-! ## Expected replies (R23) -/

/-- Whether a reply's kind is one the transaction expects (Table 2.4). -/
def replyExpected (sent reply : BitVec 4) : Bool :=
  if sent = kindIdentify then reply == kindIdentity
  else if sent = kindChallenge then reply == kindProof
  else if sent = kindPoll then reply == kindStatus
  else if sent = kindPackAux then reply == kindPackAux
  else reply == kindStatus || reply == kindPackAux || undefinedKind reply

/-- The latency of a CHALLENGE (R30). -/
def Transaction.latency (t : Transaction) : Option Nat :=
  match t.sentAt, t.replyAt with
  | some a, some b => some (b - a).toNat
  | _, _ => none

/-! ## The response to the request in flight (R48, R162) -/

/-- Whether the request in flight has this code and is running. -/
def Part.running (p : Part) (code : Byte) : Bool :=
  match p.mgmt.request with
  | none => false
  | some q => q.code == code && (match q.phase with
    | .running => true
    | .waiting => false)

/-- The phase of the request in flight set. -/
def Mgmt.toWaiting (m : Mgmt) : Mgmt :=
  { m with request := match m.request with
      | none => none
      | some q => some { q with phase := .waiting } }

/-- The response placed into the response slot; the request enters waiting and an idle transmitter chooses (R48, R49). -/
def Part.respond (p : Part) (code : Byte) (o : ReqOutcome) (words : List Word) : Part :=
  ((p.setTlp { p.tlp with response := some (response code o words) }).setMgmt p.mgmt.toWaiting).transmit

/-- The completion of the request in flight of this code, if it is still running: a superseded request places no
response (R173). -/
def Part.complete (p : Part) (code : Byte) (o : ReqOutcome) (words : List Word) : Part :=
  if p.running code then p.respond code o words else p

end Sys2Proof.Machine
end

