-- ==== Sys2Proof/Machine/Classifier.lean ====
section
/-! DEFINITION. The traffic classifier: matching, search, actions, stamping, decimation, fallback (chapter 4). -/

namespace Sys2Proof.Machine

/-! ## Matching and search (R56 to R58) -/

/-- Whether a rule matches a frame of this direction, kind, socket and session state (R56, R57). -/
def Rule.matches (r : Rule) (d : Direction) (k : BitVec 4) (n : Socket) (st : SessState) : Bool :=
  r.direction == d && (match r.kind with
    | none => true
    | some k' => k' == k) && !neverRelayed k && r.socketMask.getLsbD n.val && r.stateMask.getLsbD st.code

/-- The deciding rule: the first enabled rule that matches, in a LIVE table (R58). -/
def Part.decidingRule (p : Part) (d : Direction) (k : BitVec 4) (n : Socket) : Option Rule :=
  if p.classifier.editing then none
  else p.classifier.rules.toList.find? fun r => r.enabled && r.matches d k n (p.session n).state

/-! ## Stamping and decimation (R63, R64) -/

/-- A STATUS payload with an allowance and a flags byte written into it (Table 4.5). -/
def stampPayload (b : List Byte) (allowance : Half) (flags : Byte) : List Byte :=
  [byteAt b 0, byteAt b 1, byteAt b 2, byteAt b 3, byteAt b 4] ++ Half.bytes allowance ++
    [byteAt b 7, byteAt b 8, flags]

/-- A STATUS of socket n as stamped at this moment (R63). -/
def Part.stamp (p : Part) (n : Socket) (f : Frame) : Frame :=
  { f with payload := stampPayload f.payload (halfOf (p.grants.published.get n)) (p.stampedFlags n (byteAt f.payload 9)) }

/-- Whether a decimated STATUS of socket n passes now (R64). -/
def Part.decimationPasses (p : Part) (n : Socket) : Bool :=
  p.settings.decimation != 0 && p.classifier.decim.get n == 0

/-- The decimation counter of socket n set. -/
def Part.setDecim (p : Part) (n : Socket) (v : Nat) : Part :=
  p.setClassifier { p.classifier with decim := p.classifier.decim.set n v }

/-- The decimation counter of socket n advanced by one frame (R64). -/
def Part.advanceDecim (p : Part) (n : Socket) : Part :=
  if p.settings.decimation = 0 then p else p.setDecim n ((p.classifier.decim.get n + 1) % p.settings.decimation)

/-- All four decimation counters set to 0. -/
def Part.clearDecim (p : Part) : Part := p.setClassifier { p.classifier with decim := .all 0 }

/-! ## Actions (R59 to R62) -/

/-- FORWARD of an UP frame into a lane (R60). -/
def Part.forwardUp (p : Part) (n : Socket) (f : Frame) (k : Lane) (decimate : Bool) : Part :=
  if f.kind = kindStatus then
    if decimate then
      if p.decimationPasses n then (p.advanceDecim n).place k (p.stamp n f) else p.advanceDecim n
    else p.place k (p.stamp n f)
  else p.place k f

/-- The STATUS synthesized for socket n (R61). -/
def Part.synthesized (p : Part) (n : Socket) : Frame :=
  let t : Byte := match (p.session n).telemetry with
    | some x => BitVec.ofInt 8 x.temperature
    | none => 0
  { kind := kindStatus, socket := n, payload := [0, 0, 0, t, 0, 0, 0, 0, 0, p.synthesizedFlags n] }

/-- ANSWER of a DOWN POLL into a lane (R61). -/
def Part.answer (p : Part) (n : Socket) (k : Lane) : Part := p.place k (p.synthesized n)

/-- The fallback on an UP frame (R65). -/
def Part.fallbackUp (p : Part) (n : Socket) (f : Frame) : Part :=
  if f.kind = kindStatus then p.forwardUp n f .l1 true
  else if f.kind = kindPackAux ∧ (p.session n).state = .admitted then p.forwardUp n f .l2 false
  else p

/-- The fallback on a DOWN frame (R65). -/
def Part.fallbackDown (p : Part) (f : Frame) : Part :=
  if f.kind = kindPoll then
    if (p.session f.socket).state.trusted then p.pollTake f.socket f else p.answer f.socket .l1
  else if f.kind = kindPackAux ∧ (p.session f.socket).state = .admitted then p.pollTake f.socket f
  else p

/-- An UP frame decided (R58, R60, R62, R65). ANSWER cannot arise for it in a LIVE table (R68). -/
def Part.classifyUp (p : Part) (n : Socket) (f : Frame) : Part :=
  match p.decidingRule .up f.kind n with
  | none => p.fallbackUp n f
  | some r =>
    match r.action with
    | .forward => p.forwardUp n f (Lane.ofByte r.lane) r.decimate
    | .answer => p
    | .discard => p

/-- A DOWN frame decided (R58, R59, R61, R62, R65). ANSWER arises only for a POLL (R68). A STATUS that a FORWARD rule names
is relayed into the poll queue as Table 2.4 has it, though R7 says that a STATUS sent on a pack link does not exist: the
model's choice between the two (log 31). -/
def Part.classifyDown (p : Part) (f : Frame) : Part :=
  match p.decidingRule .down f.kind f.socket with
  | none => p.fallbackDown f
  | some r =>
    match r.action with
    | .forward => p.pollTake f.socket f
    | .answer => if f.kind = kindPoll then p.answer f.socket (Lane.ofByte r.lane) else p
    | .discard => p

/-- A frame other than a MGMT-REQ handed over by the TLP: a POLL's draw is shown to the grant calculator first (R41, R143),
and while PARKED the frame is discarded. -/
def Part.takeDown (p : Part) (f : Frame) : Part :=
  if p.mgmt.parked then p
  else if f.kind = kindPoll then (p.takeDraw (halfAt f.payload 0).toNat).classifyDown f
  else p.classifyDown f

end Sys2Proof.Machine
end

