-- ==== Sys2Proof/Machine/Audit.lean ====
section
/-! DEFINITION. The audit's record of results (R95, R98). -/

namespace Sys2Proof.Machine

/-- The code of the AUDIT request. -/
def codeAudit : Byte := 0x31

/-- Whether the audit still issues challenges and queues withdrawals: its request has not been superseded (R173). -/
def Part.auditLive (p : Part) : Bool := p.running codeAudit

/-- A socket's serial as its session holds it. -/
def Session.serial (x : Session) : Option Word := x.identity.map Identity.serial

/-- An audit with a socket's result set; a MISMATCH keeps the serial (R98, log 17). -/
def Audit.setResult (a : Audit) (n : Socket) (o : AuditOutcome) (serial : Option Word) : Audit :=
  { a with results := a.results.set n (some o),
           serials := a.serials.set n (if o = .mismatch then serial else none) }

/-- A socket's result set by the first event that reaches it (R98): only while the audit waits for it. -/
def Part.auditResult (p : Part) (n : Socket) (o : AuditOutcome) : Part :=
  match p.engine.audit with
  | none => p
  | some a =>
    if a.reached.get n && (a.results.get n).isNone then
      p.setAudit (some (a.setResult n o (p.session n).serial))
    else p

end Sys2Proof.Machine
end

