-- ==== Sys2Proof/Machine/Engine.lean ====
section
/-! DEFINITION. The admission engine: sessions, identity checks, challenges, judgements, refusals, orders (chapter 5). -/

namespace Sys2Proof.Machine

/-! ## Lookups in the trust tables (R112, R119) -/

/-- The slots in ascending order. -/
def allSlots : List (Fin 16) := [0, 1, 2, 3, 4, 5, 6, 7, 8, 9, 10, 11, 12, 13, 14, 15]

/-- The class and rule indices in ascending order. -/
def allIndices : List (Fin 32) :=
  [0, 1, 2, 3, 4, 5, 6, 7, 8, 9, 10, 11, 12, 13, 14, 15, 16, 17, 18, 19, 20, 21, 22, 23, 24, 25, 26, 27, 28, 29, 30, 31]

/-- Whether a slot holds a pair of family and generation. -/
def Trust.holdsPair (t : Trust) (family generation : Byte) (i : Fin 16) : Bool :=
  match t.keys[i] with
  | some k => k.family == family && k.generation == generation
  | none => false

/-- Lookup by pair: the slot that is ACTIVE or RETIRED and holds it (R112). -/
def Trust.findKey (t : Trust) (family generation : Byte) : Option (Fin 16) :=
  allSlots.find? (t.holdsPair family generation)

/-- Whether a slot is RETIRED. -/
def Trust.slotRetired (t : Trust) (i : Fin 16) : Bool :=
  match t.keys[i] with
  | some k => k.retired
  | none => false

/-- Whether an entry in use holds a class code. -/
def Trust.holdsCode (t : Trust) (code : Byte) (i : Fin 32) : Bool :=
  match t.classes[i] with
  | some e => e.code == code
  | none => false

/-- Lookup by class code (R119). -/
def Trust.findClass (t : Trust) (code : Byte) : Option (Fin 32) := allIndices.find? (t.holdsCode code)

/-- Whether a pack of this cycle count is WORN under an entry (R78, R92). -/
def Trust.wornUnder (t : Trust) (i : Fin 32) (cycles : Half) : Bool :=
  match t.classes[i] with
  | some e => e.wearLimit != 0 && e.wearLimit.toNat ≤ cycles.toNat
  | none => false

/-! ## Reports (R73) -/

/-- A change of a session's state reported: the SESSION advisory, and the grant calculator told (R73). -/
def Part.reportSession (p : Part) (n : Socket) : Part :=
  (p.place .l0 (sessionAdvisory n (p.session n).state (p.session n).reason)).recompute

/-- The trust marks set; a change is told to the grant calculator (R73). -/
def Part.setMarks (p : Part) (n : Socket) (m : Marks) : Part :=
  if m = (p.session n).marks then p else (p.setSession n { p.session n with marks := m }).recompute

/-! ## Discarding (R87) -/

/-- The cancel order for a transaction in flight (R20, R87). -/
def Link.passOver (l : Link) : Link :=
  match l.tx with
  | none => l
  | some t =>
    match t.source with
    | .engineSlot => { l with tx := some { t with passedOver := true } }
    | .pollQueue => l

/-- An outstanding challenge discarded, by phase (R87). -/
def Part.discardChallenge (p : Part) (n : Socket) : Part :=
  match (p.session n).challenge with
  | none => p
  | some c =>
    let p' := p.setSession n { p.session n with challenge := none }
    match c.phase with
    | .queued => (p'.setLink n { p'.link n with engineSlot := none }).release
    | .sent _ _ => p'.setLink n (p'.link n).passOver

/-! ## Recent refusals (R94) -/

/-- Whether a refusal reason is counted (R85 step 6). -/
def Reason.counted : Reason → Bool
  | .noIdentity => false
  | .badIdentity => false
  | .withdrawn => false
  | .repeated => false
  | .duplicate => true
  | .noClass => false
  | .noKey => false
  | .mismatch => true
  | .late => true
  | .noAnswer => true
  | .exhausted => false

/-- The recent-refusal table after a counted refusal of a serial (R94). -/
def countRefusal (x : Word) (t : List (Word × Nat)) : List (Word × Nat) :=
  match t.find? (fun e => e.1 == x) with
  | some e => (x, min 15 (e.2 + 1)) :: t.filter (fun e => e.1 != x)
  | none => (x, 1) :: t.take 15

/-- Whether a serial stands in the table with a count at or above a limit (R76 check 3). -/
def repeated (x : Word) (limit : Nat) (t : List (Word × Nat)) : Bool := t.any fun e => e.1 == x && limit ≤ e.2

/-! ## Refusal and withdrawal (R85, R86) -/

/-- A REFUSAL log entry (Table 1.21). -/
def refusalEntry (n : Socket) (r : Reason) (serial : Option Word) : LogEntry :=
  { type := 2, socket := n.val, detail := halfOf r.code, data := serial.toList }

/-- A WITHDRAWN_HIT log entry (Table 1.21). -/
def withdrawnHit (n : Socket) (serial : Option Word) : LogEntry :=
  { type := 3, socket := n.val, detail := 0, data := serial.toList }

/-- A counted refusal taken into the recent-refusal table (R85 step 6). -/
def Part.countReason (p : Part) (r : Reason) (serial : Option Word) : Part :=
  match r.counted, serial with
  | true, some x => p.setRecent (countRefusal x p.engine.recent)
  | true, none => p
  | false, _ => p

/-- A session refused (R85). An audit that still waits for the socket records REMOVED (R98). -/
def Part.refuse (p : Part) (n : Socket) (r : Reason) : Part :=
  let p1 := p.discardChallenge n
  let p2 := p1.setSession n { p1.session n with state := .refused, reason := some r, recheck := none }
  let p3 := (p2.auditResult n .removed).log (refusalEntry n r (p.session n).serial)
  (p3.countReason r (p.session n).serial).reportSession n

/-- A session entering WITHDRAWN (R86). -/
def Part.withdraw (p : Part) (n : Socket) : Part :=
  let p1 := p.discardChallenge n
  let p2 := p1.setSession n { p1.session n with state := .withdrawn, reason := some .withdrawn, recheck := none }
  ((p2.auditResult n .removed).log (withdrawnHit n (p.session n).serial)).reportSession n

/-! ## Issuing a challenge (R79) -/

/-- The CHALLENGE placed into the engine slot (R79 step 3), from where it may be taken at once (R21). -/
def Part.placeChallenge (p : Part) (n : Socket) (why : Purpose) : Part :=
  let p1 := p.setLink n { p.link n with engineSlot := some .challenge }
  (p1.setSession n { p1.session n with challenge := some { purpose := why, phase := .queued } }).tryStart n

/-- The counter reservation and the placing (R79 steps 2 and 3). -/
def Part.reserveAndPlace (p : Part) (n : Socket) (why : Purpose) : Part :=
  if p.proof.canReserve then p.reserve.placeChallenge n why else p.refuse n .exhausted

/-- The key slot found becomes the session's, and KEY-RETIRED follows it (R79 step 1). -/
def Part.bindKey (p : Part) (n : Socket) (k : Fin 16) : Part :=
  (p.setSession n { p.session n with keySlot := some k }).setMarks n
    { (p.session n).marks with keyRetired := p.trust.slotRetired k }

/-- A challenge issued to a session that has none outstanding (R79). -/
def Part.issueChallenge (p : Part) (n : Socket) (why : Purpose) : Part :=
  match (p.session n).identity with
  | none => p
  | some i =>
    match p.trust.findKey i.family i.generation with
    | none => p.refuse n .noKey
    | some k => (p.bindKey n k).reserveAndPlace n why

/-- A RECHECK issued if no challenge is outstanding (R77, R88, R90). -/
def Part.recheckNow (p : Part) (n : Socket) : Part :=
  match (p.session n).challenge with
  | none => p.issueChallenge n .recheck
  | some _ => p

/-! ## Rechecks (R88, R89) -/

/-- A socket's recheck interval in microseconds (R88). -/
def Part.recheckInterval (p : Part) (n : Socket) : Nat :=
  let v := if p.settings.recheckInterval = 0 then 60 else p.settings.recheckInterval
  (match (p.link n).state with
    | .degraded => min v 5
    | .vacant => v
    | .settling => v
    | .active => v
    | .halted => v) * 1000000

/-- The next recheck due set from a pass at this moment (R88). -/
def Part.passRecheck (p : Part) (n : Socket) : Option Recheck :=
  some { due := p.clock + p.recheckInterval n, lastPass := p.clock }

/-- The next recheck due of an ADMITTED session computed again from its last pass; a due time already past issues the
recheck (R89). -/
def Part.recomputeRecheck (n : Socket) (p : Part) : Part :=
  match (p.session n).state, (p.session n).recheck with
  | .admitted, some r =>
    let due := r.lastPass + p.recheckInterval n
    let p' := p.setSession n { p.session n with recheck := some { r with due := due } }
    if due ≤ p.clock then p'.recheckNow n else p'
  | _, _ => p

/-- The next recheck due is reached (R88). -/
def Part.recheckReached (p : Part) (n : Socket) : Part :=
  match (p.session n).state, (p.session n).recheck with
  | .admitted, some _ => p.recheckNow n
  | _, _ => p

/-! ## Session start (R74), IDENTIFY outcomes (R75) -/

/-- An IDENTIFY placed into the engine slot (R74, R75). -/
def Part.placeIdentify (p : Part) (n : Socket) : Part :=
  (p.setLink n { p.link n with engineSlot := some .identify }).tryStart n

/-- A session starts (R74). -/
def Part.startSession (p : Part) (n : Socket) : Part :=
  ((p.setSession n { Session.initial with state := .identifying }).reportSession n).placeIdentify n

/-- A missed IDENTIFY (R75). -/
def Part.identifyMiss (p : Part) (n : Socket) : Part :=
  let a := (p.session n).attempts + 1
  let p' := p.setSession n { p.session n with attempts := a }
  if a < 3 then p'.placeIdentify n else p'.refuse n .noIdentity

/-! ## Identity checks (R76 to R78) -/

/-- The identity that an IDENTITY payload carries (Table 1.5). -/
def identityOf (b : List Byte) : Identity :=
  { family := byteAt b 0, generation := byteAt b 1, serial := wordAt b 2, classCode := byteAt b 6, cycles := halfAt b 7 }

/-- Whether socket m's session holds a serial for check 4 (R76, R77). -/
def Part.holds (p : Part) (x : Word) (m : Socket) : Bool :=
  (p.session m).state.live && (p.session m).serial == some x

/-- The other socket that holds a serial (R76 check 4). -/
def Part.holder (p : Part) (n : Socket) (x : Word) : Option Socket :=
  allSockets.find? fun m => m != n && p.holds x m

/-- A duplicate serial: the newcomer refused, the holder rechecked, the CLONE cause given (R77). -/
def Part.duplicate (p : Part) (n m : Socket) : Part := ((p.refuse n .duplicate).recheckNow m).momentary .clone

/-- A session bound to its key slot and class, entering VERIFYING (R78 steps 1 to 5). -/
def Part.bindSession (p : Part) (n : Socket) (i : Identity) (k : Fin 16) (c : Fin 32) : Part :=
  (p.setSession n { p.session n with
    state := .verifying, attempts := 0, keySlot := some k, classIndex := some c,
    marks := { (p.session n).marks with
      keyRetired := (p.session n).marks.keyRetired || p.trust.slotRetired k,
      worn := (p.session n).marks.worn || p.trust.wornUnder c i.cycles } }).reportSession n

/-- The identity checks in the order of Table 5.3, and the binding with its ADMISSION challenge (R76, R78). -/
def Part.checkIdentity (p : Part) (n : Socket) (i : Identity) : Part :=
  if !validSerial i.serial then p.refuse n .badIdentity
  else if p.trust.withdrawn.contains i.serial then p.withdraw n
  else if repeated i.serial p.settings.repeatLimit p.engine.recent then p.refuse n .repeated
  else
    match p.holder n i.serial with
    | some m => p.duplicate n m
    | none =>
      match p.trust.findClass i.classCode with
      | none => p.refuse n .noClass
      | some c =>
        match p.trust.findKey i.family i.generation with
        | none => p.refuse n .noKey
        | some k => (p.bindSession n i k c).issueChallenge n .admission

/-- An IDENTITY reply accepted: stored and checked as one event (R76). -/
def Part.acceptIdentity (p : Part) (n : Socket) (b : List Byte) : Part :=
  (p.setSession n { p.session n with identity := some (identityOf b) }).checkIdentity n (identityOf b)

/-! ## Judgement (R81 to R84) -/

/-- The judged outcomes of a challenge (R81). -/
inductive Verdict where
  | pass
  | mismatch
  | late
  | noAnswer
  deriving DecidableEq, Repr

/-- The audit outcome of a verdict (R98). -/
def Verdict.outcome : Verdict → AuditOutcome
  | .pass => .pass
  | .mismatch => .mismatch
  | .late => .late
  | .noAnswer => .noAnswer

/-- A session admitted by a pass (R82, R84). -/
def Part.openAdmission (p : Part) (n : Socket) : Part :=
  (p.setSession n { p.session n with
    state := .admitted, attempts := 0, marks := { (p.session n).marks with suspect := false },
    recheck := p.passRecheck n }).reportSession n

/-- A failure that is retried until it is the third of the episode (R82, R84). -/
def Part.failAttempt (p : Part) (n : Socket) (r : Reason) (why : Purpose) : Part :=
  let a := (p.session n).attempts + 1
  let p' := p.setSession n { p.session n with attempts := a }
  if a < 3 then p'.issueChallenge n why else p'.refuse n r

/-- A failure in ADMITTED: SUSPECT, with its retry (R83). -/
def Part.suspectNow (p : Part) (n : Socket) : Part :=
  ((p.setSession n { p.session n with
    state := .suspect, attempts := 1, marks := { (p.session n).marks with suspect := true },
    recheck := none }).reportSession n).issueChallenge n .recheck

/-- A judged outcome applied by state (R82 to R84). -/
def Part.applyVerdict (p : Part) (n : Socket) (v : Verdict) : Part :=
  match (p.session n).state, v with
  | .verifying, .pass => p.openAdmission n
  | .verifying, .late => p.failAttempt n .late .admission
  | .verifying, .noAnswer => p.failAttempt n .noAnswer .admission
  | .verifying, .mismatch => p.refuse n .mismatch
  | .admitted, .pass => p.setSession n { p.session n with recheck := p.passRecheck n }
  | .admitted, .late => p.suspectNow n
  | .admitted, .noAnswer => p.suspectNow n
  | .admitted, .mismatch => p.refuse n .mismatch
  | .suspect, .pass => p.openAdmission n
  | .suspect, .late => p.failAttempt n .late .recheck
  | .suspect, .noAnswer => p.failAttempt n .noAnswer .recheck
  | .suspect, .mismatch => p.refuse n .mismatch
  | .none, _ => p
  | .identifying, _ => p
  | .refused, _ => p
  | .withdrawn, _ => p

/-- The outcome of a transaction (R23). -/
inductive TxOutcome where
  | good (f : Frame)
  | malformed
  | wrongKind
  | expired
  deriving DecidableEq, Repr

/-- The expected proof of a session's challenge (R106). -/
def Part.expected (p : Part) (n : Socket) (x : Nonce) : Option Nat :=
  match (p.session n).keySlot, (p.session n).identity with
  | some k, some i =>
    match p.trust.keys[k] with
    | some e => some (expectedProof e.ka.toNat e.kb.toNat (message x i n))
    | none => none
  | _, _ => none

/-- The verdict on a PROOF in time order: LATE, MISMATCH, PASS (R81 steps 3 to 5). -/
def Part.verdict (p : Part) (n : Socket) (x : Nonce) (latency : Nat) (proof : Word) : Verdict :=
  if p.settings.proofWindow * 1000 < latency then .late
  else if p.expected n x = some proof.toNat then .pass else .mismatch

/-- A judged outcome: recorded by an audit that waits for it (R98), then applied by state. -/
def Part.judged (p : Part) (n : Socket) (v : Verdict) : Part := (p.auditResult n v.outcome).applyVerdict n v

/-- The outcome of a SENT challenge judged (R81). -/
def Part.judge (p : Part) (n : Socket) (t : Transaction) (o : TxOutcome) : Part :=
  match (p.session n).challenge with
  | some { purpose := why, phase := .sent x snapshot } =>
    let p' := p.setSession n { p.session n with challenge := none }
    match o with
    | .good f =>
      if p.editCount (p.session n).keySlot ≠ snapshot then p'.issueChallenge n why
      else p'.judged n (p.verdict n x (t.latency.getD 0) (wordAt f.payload 0))
    | .malformed => p'.judged n .noAnswer
    | .wrongKind => p'.judged n .noAnswer
    | .expired => p'.judged n .noAnswer
  | _ => p

/-- The outcome of an IDENTIFY judged (R75). -/
def Part.identifyOutcome (p : Part) (n : Socket) (o : TxOutcome) : Part :=
  match (p.session n).state with
  | .identifying =>
    match o with
    | .good f => p.acceptIdentity n f.payload
    | .malformed => p.identifyMiss n
    | .wrongKind => p.identifyMiss n
    | .expired => p.identifyMiss n
  | _ => p

/-- The report of an engine transaction (R24). A cancelled one is passed over (R87). -/
def Part.engineReport (p : Part) (n : Socket) (t : Transaction) (o : TxOutcome) : Part :=
  if t.passedOver then p
  else if t.frame.kind = kindIdentify then p.identifyOutcome n o
  else p.judge n t o

/-! ## Relayed STATUS (R90, R91) -/

/-- The sequence check of a STATUS in ADMITTED or SUSPECT (R90). -/
def Part.checkSequence (p : Part) (n : Socket) (v : Byte) : Part :=
  let p' := p.setSession n { p.session n with baseline := some v }
  match (p.session n).baseline with
  | none => p'
  | some b =>
    if v = b + 1 then p'
    else
      (p'.setSession n { p'.session n with breaks := min 255 ((p.session n).breaks + 1) }).recheckNow n

/-- The clamp of a temperature field into −40..125 °C (R91). -/
def clampTemperature (b : Byte) : Int := max (-40) (min 125 b.toInt)

/-- The telemetry and peak temperature refreshed from a STATUS payload (R91). -/
def Session.refresh (x : Session) (b : List Byte) (now : Nat) : Session :=
  let t := clampTemperature (byteAt b 3)
  { x with
    telemetry := some { temperature := t, allowance := halfAt b 5, cellMin := halfAt b 7, since := now },
    peak := some (match x.peak with
      | none => t
      | some y => max y t) }

/-- A relayed STATUS shown to the engine: sequence first, then telemetry (log 28). -/
def Part.engineStatus (p : Part) (n : Socket) (b : List Byte) : Part :=
  let p1 := if (p.session n).state.trusted then p.checkSequence n (byteAt b 0) else p
  if (p1.session n).state = .none then p1 else p1.setSession n ((p1.session n).refresh b p1.clock)

/-- A relayed STATUS taken by the engine and then by the grant calculator (R25, R131, R135). -/
def Part.showStatus (p : Part) (n : Socket) (b : List Byte) : Part :=
  ((p.engineStatus n b).setStale n false).recompute

/-! ## Orders (R92) -/

/-- An order of the trust tables. -/
inductive Order where
  | relookup
  | refuse (r : Reason)
  | withdraw
  | mark
  deriving DecidableEq, Repr

/-- The trust marks of a session re-evaluated from its key slot and class entry (R92). -/
def Part.remark (p : Part) (n : Socket) : Part :=
  let x := p.session n
  p.setMarks n { x.marks with
    keyRetired := match x.keySlot with
      | some k => p.trust.slotRetired k
      | none => x.marks.keyRetired
    worn := match x.classIndex, x.identity with
      | some c, some i => p.trust.wornUnder c i.cycles
      | _, _ => x.marks.worn }

/-- A re-lookup order (R92, R115). -/
def Part.relookup (p : Part) (n : Socket) : Part :=
  let why : Purpose := if (p.session n).state = .verifying then .admission else .recheck
  match (p.session n).challenge with
  | none => p.issueChallenge n why
  | some { phase := .queued, .. } => (p.discardChallenge n).issueChallenge n why
  | some { phase := .sent _ _, .. } => p

/-- An order acted on in VERIFYING, ADMITTED and SUSPECT (R92). -/
def Part.order (p : Part) (n : Socket) (o : Order) : Part :=
  if (p.session n).state.live then
    match o with
    | .relookup => p.relookup n
    | .refuse r => p.refuse n r
    | .withdraw => p.withdraw n
    | .mark => p.remark n
  else p

/-! ## Session end (R93) -/

/-- A PEAK_TEMP log entry (Table 1.21). -/
def peakEntry (n : Socket) (i : Identity) (peak : Option Int) : LogEntry :=
  { type := 4, socket := n.val, detail := BitVec.ofInt 16 (peak.getD (-40)), data := [i.serial, i.cycles.setWidth 32] }

/-- The PEAK_TEMP log entry of a session's end, if identity is present (R93 step 2). -/
def Part.logPeak (p : Part) (n : Socket) : Part :=
  match (p.session n).identity with
  | none => p
  | some i => p.log (peakEntry n i (p.session n).peak)

/-- A session ended but for its report (R93 steps 1 to 3): the record at NONE, STALE and the decimation counter cleared
(R64, R135), an audit that waits for the socket told (R98). -/
def Part.closeSession (p : Part) (n : Socket) : Part :=
  let p1 := ((p.discardChallenge n).logPeak n).auditResult n .removed
  ((p1.setSession n Session.initial).setStale n false).setDecim n 0

/-- A session ended with its SESSION advisory (R93, R73). A session at NONE is not ended again. -/
def Part.endSession (p : Part) (n : Socket) : Part :=
  match (p.session n).state with
  | .none => p
  | _ => (p.closeSession n).reportSession n

/-- A session ended without a SESSION advisory, as the in-band reset ends it (R73, R102). -/
def Part.endSessionSilently (n : Socket) (p : Part) : Part :=
  match (p.session n).state with
  | .none => p
  | _ => p.closeSession n

end Sys2Proof.Machine
end

