-- ==== Sys2Proof/Machine/AuditSteps.lean ====
section
/-! DEFINITION. The audit's course: reaching sockets, the mass test, withdrawals, completion (R95 to R101, R128). -/

namespace Sys2Proof.Machine

/-! ## Reaching sockets (R95, R97) -/

/-- Whether a socket can be challenged by an audit when it is reached (R95). -/
def Part.auditable (p : Part) (n : Socket) : Bool := (p.session n).state.trusted && (p.link n).state.working

/-- An audit with a socket marked as reached. -/
def Audit.reach (a : Audit) (n : Socket) : Audit := { a with reached := a.reached.set n true }

/-- A socket reached: SKIPPED, or the outstanding challenge adopted, or an AUDIT challenge issued (R95). -/
def Part.auditReach (p : Part) (n : Socket) (a : Audit) : Part :=
  let p' := p.setAudit (some (a.reach n))
  if p.auditable n then
    match (p.session n).challenge with
    | some _ => p'
    | none => p'.issueChallenge n .audit
  else p'.auditResult n .skipped

/-- Whether every socket of the mask below socket n has a result. -/
def Audit.turn (a : Audit) (n : Socket) : Bool :=
  allSockets.all fun m => !(m < n && a.mask.getLsbD m.val) || (a.results.get m).isSome

/-- Whether socket n is to be reached now: with ALL always, with ONE_AT_A_TIME when its turn has come (R97). -/
def Audit.due (a : Audit) (n : Socket) : Bool :=
  a.mask.getLsbD n.val && !a.reached.get n && (!a.oneAtATime || a.turn n)

/-- Socket n reached if it is due, while the audit still issues challenges (R97, R173; log 21). -/
def Part.auditTurn (n : Socket) (p : Part) : Part :=
  match p.engine.audit with
  | none => p
  | some a => if a.due n && p.auditLive then p.auditReach n a else p

/-! ## When every socket has a result (R99, R128) -/

/-- How many results satisfy a test. -/
def Audit.count (a : Audit) (f : AuditOutcome → Bool) : Nat :=
  allSockets.countP fun n => match a.results.get n with
    | some o => f o
    | none => false

/-- The number of MISMATCH results. -/
def Audit.mismatches (a : Audit) : Nat := a.count (· == .mismatch)

/-- Whether mass failure holds (R99). -/
def Audit.massFailure (a : Audit) : Bool :=
  2 ≤ a.mismatches && a.count (fun o => o != .skipped && o != .removed) < 2 * a.mismatches

/-- The serials of the MISMATCH results, in ascending socket order (R99). -/
def Audit.failedSerials (a : Audit) : List Word := allSockets.filterMap a.serials.get

/-- The next step of the withdrawals: the serials left, and the one to withdraw by a job, or whether the list is full
(R99, R128). -/
inductive NextSerial where
  | done
  | full
  | job (serial : Word) (rest : List Word)
  deriving DecidableEq, Repr

/-- The next serial that needs a job: one already in the list is passed over, a full list ends the withdrawals (R128). -/
def nextSerial (list : List Word) : List Word → NextSerial
  | [] => .done
  | x :: xs => if list.contains x then nextSerial list xs else if 256 ≤ list.length then .full else .job x xs

/-- The next withdrawal of an audit queued, or its withdrawals ended; a superseded audit queues none (R99, R128, R173). -/
def Part.auditWithdrawNext (p : Part) (a : Audit) (serials : List Word) : Part :=
  match nextSerial p.trust.withdrawn serials with
  | .done => p.setAudit (some { a with phase := .ready })
  | .full => p.setAudit (some { a with phase := .ready, full := true })
  | .job x rest =>
    if p.auditLive then
      (p.setAudit (some { a with phase := .withdrawing rest })).queueJob (.table (.auditWithdrawal x))
    else p.setAudit (some { a with phase := .ready })

/-- The mass failure test and what follows it (R99). -/
def Part.massTest (p : Part) (a : Audit) : Part :=
  if !a.withdraw || a.mismatches = 0 then p.setAudit (some { a with phase := .ready })
  else if a.massFailure then (p.setAudit (some { a with phase := .ready, mass := true })).momentary .massFail
  else p.auditWithdrawNext a a.failedSerials

/-- Whether every socket has a result. -/
def Audit.allResults (a : Audit) : Bool := allSockets.all fun n => (a.results.get n).isSome

/-- An audit whose sockets all have results goes on to the mass test (R99). -/
def Part.auditTest (p : Part) : Part :=
  match p.engine.audit with
  | none => p
  | some a =>
    match a.phase with
    | .collecting => if a.allResults then p.massTest a else p
    | .withdrawing _ => p
    | .ready => p

/-- What an audit does after an event that may have set a result: further sockets reached, then the test (R97, R99; log
11). -/
def Part.auditProgress (p : Part) : Part := (forSockets Part.auditTurn p).auditTest

/-! ## Completion (R100) -/

/-- The outcomes word: one code byte for each socket (R14, 5.9.1). -/
def Audit.outcomes (a : Audit) : Word :=
  Word.ofBytes (auditCode a.results.s0) (auditCode a.results.s1) (auditCode a.results.s2) (auditCode a.results.s3)

/-- The flags MASS and FULL (Table 1.15). -/
def Audit.flags (a : Audit) : Byte := byteOf (flagSet [a.mass, a.full])

/-- The result words (5.9.1). -/
def Audit.words (a : Audit) : List Word := [a.outcomes, Word.ofBytes (byteOf a.withdrawnCount) a.flags 0 0]

/-- The AUDIT log entry (Table 1.21). -/
def Audit.entry (a : Audit) : LogEntry :=
  { type := 8, socket := 7, detail := halfOf (a.mask.toNat * 4096 + a.flags.toNat * 256 + a.withdrawnCount),
    data := [a.outcomes] }

/-- The outcome of the AUDIT request (R99, R100). -/
def Audit.outcome (a : Audit) : ReqOutcome := if a.failed then .storeFault else .done

/-- An audit that has nothing left to do completes: its response, its log entry, and it ceases to exist (R100). A superseded
one does not complete (R101, R173; log 21). -/
def Part.auditFinish (p : Part) : Part :=
  match p.engine.audit with
  | none => p
  | some a =>
    match a.phase with
    | .ready =>
      if p.auditLive then ((p.respond codeAudit a.outcome a.words).log a.entry).setAudit none else p
    | .collecting => p
    | .withdrawing _ => p

/-- An audit's withdrawal job has ended (R99, R128). -/
def Part.auditJobEnded (p : Part) (ok : Bool) : Part :=
  match p.engine.audit with
  | none => p
  | some a =>
    match a.phase with
    | .withdrawing rest =>
      if ok then p.auditWithdrawNext { a with withdrawnCount := a.withdrawnCount + 1 } rest
      else p.setAudit (some { a with failed := true, phase := .ready })
    | .collecting => p
    | .ready => p

end Sys2Proof.Machine
end

