-- ==== Sys2Proof/Machine/LinkEvents.lean ====
section
/-! DEFINITION. Pack link events: presence, timers, ends of transactions, error counts, HALTED, and the links at restart,
in-band reset, PARK and start-up (chapter 2). -/

namespace Sys2Proof.Machine

/-! ## Presence (R16 to R19, R34, R35) -/

/-- The LINK advisory of a link's state and error count (R35). -/
def Part.adviseLink (p : Part) (n : Socket) : Part :=
  p.place .l0 (linkAdvisory n (p.link n).state (p.link n).errors)

/-- The settle timer as it stands on entry to SETTLING: stopped while the part is PARKED (R16). -/
def Part.settleStart (p : Part) : Option Nat := if p.mgmt.parked then none else some (p.clock + settleTime)

/-- A link entering SETTLING with its error count at 0 (R16, R34). -/
def Part.enterSettling (p : Part) (n : Socket) : Part :=
  p.setLink n { p.link n with state := .settling, settle := p.settleStart, recovery := none, errors := 0 }

/-- Whether the recovery timer of a HALTED link runs (R34). -/
def Part.recoveryRuns (p : Part) (n : Socket) : Bool :=
  (p.link n).state == .halted && p.settings.haltRecovery == 0 && p.contacts.get n && !p.mgmt.parked

/-- The recovery timer started from a full 2 s where R34's conditions hold. -/
def Part.startRecovery (p : Part) (n : Socket) : Part :=
  if p.recoveryRuns n then p.setLink n { p.link n with recovery := some (p.clock + recoveryTime) } else p

/-- The level of a contact. -/
def Part.setContact (p : Part) (n : Socket) (b : Bool) : Part := { p with contacts := p.contacts.set n b }

/-- What an assertion of contact n does at the link (R16, R18, R34). During loading the contact is not watched (R39). -/
def Part.contactRose (n : Socket) (p : Part) : Part :=
  if p.ctl.loading then p
  else
    match (p.link n).state with
    | .vacant => (p.enterSettling n).adviseLink n
    | .settling => p
    | .active => (p.setLink n { p.link n with drop := none }).tryStart n
    | .degraded => (p.setLink n { p.link n with drop := none }).tryStart n
    | .halted => (p.setLink n { p.link n with drop := none }).startRecovery n

/-- What a deassertion of contact n does at the link (R16, R18, R34). -/
def Part.contactFell (n : Socket) (p : Part) : Part :=
  if p.ctl.loading then p
  else
    match (p.link n).state with
    | .vacant => p
    | .settling => (p.setLink n { p.link n with state := .vacant, settle := none }).adviseLink n
    | .active => p.setLink n { p.link n with drop := some (p.clock + dropTime) }
    | .degraded => p.setLink n { p.link n with drop := some (p.clock + dropTime) }
    | .halted => p.setLink n { p.link n with drop := some (p.clock + dropTime), recovery := none }

/-- The expiry of the settle timer (R17). -/
def Part.settleExpiry (n : Socket) (p : Part) : Part :=
  match (p.link n).state, (p.link n).settle with
  | .settling, some _ =>
    ((p.setLink n { p.link n with state := .active, settle := none, errors := 0 }).startSession n).adviseLink n
  | _, _ => p

/-- A link after removal: abandoned, emptied, VACANT, count 0, timers stopped (R19 steps 1 to 5). -/
def Link.removed (l : Link) : Link :=
  { l.abandon.empty with state := .vacant, errors := 0, drop := none, recovery := none }

/-- The expiry of the drop timer: the pack is taken as removed (R19, R34). -/
def Part.dropExpiry (n : Socket) (p : Part) : Part :=
  match (p.link n).drop with
  | none => p
  | some _ => (((p.setLink n (p.link n).removed).endSession n).adviseLink n).auditProgress

/-- The expiry of the recovery timer (R34). -/
def Part.recoveryExpiry (n : Socket) (p : Part) : Part :=
  match (p.link n).recovery with
  | none => p
  | some _ => (p.enterSettling n).adviseLink n

/-! ## Error count and line health (R31 to R33) -/

/-- The error count after a transaction (R31). -/
def errorsAfter (good : Bool) (e : Nat) : Nat := if good then e - 1 else min 255 (e + 8)

/-- A change between ACTIVE and DEGRADED: the engine told (R89), the LINK advisory (R35). -/
def Part.regrade (p : Part) (n : Socket) (st : LinkState) : Part :=
  (Part.recomputeRecheck n (p.setLink n { p.link n with state := st })).adviseLink n

/-- A HALT log entry (Table 1.21). -/
def haltEntry (n : Socket) : LogEntry := { type := 5, socket := n.val, detail := 0, data := [] }

/-- The link enters HALTED (R33 steps 2 to 6). -/
def Part.halt (p : Part) (n : Socket) : Part :=
  ((((p.setLink n { (p.link n).empty with state := .halted }).endSession n).log (haltEntry n)).adviseLink n).startRecovery n

/-- The thresholds compared after a change of the error count, when the count is below 255 (R32). -/
def Part.compareThresholds (p : Part) (n : Socket) : Part :=
  match (p.link n).state with
  | .active => if 96 ≤ (p.link n).errors then p.regrade n .degraded else p
  | .degraded => if (p.link n).errors < 64 then p.regrade n .active else p
  | .vacant => p
  | .settling => p
  | .halted => p

/-! ## The end of a transaction (R23 to R26, R31) -/

/-- Whether an outcome is a good reply. -/
def TxOutcome.isGood : TxOutcome → Bool
  | .good _ => true
  | .malformed => false
  | .wrongKind => false
  | .expired => false

/-- A good reply to a relayed frame handed on: engine and grant calculator first, then the classifier (R25). -/
def Part.relayReply (p : Part) (n : Socket) (f : Frame) : Part :=
  if f.kind = kindStatus then (p.showStatus n f.payload).classifyUp n f else p.classifyUp n f

/-- The outcome of a transaction reported or handed on (R24, R25). The reply concerns socket n whatever its header says
(R2). -/
def Part.reportOutcome (p : Part) (n : Socket) (t : Transaction) (o : TxOutcome) : Part :=
  match t.source, o with
  | .engineSlot, o => p.engineReport n t o
  | .pollQueue, .good f => p.relayReply n { f with socket := n }
  | .pollQueue, .malformed => p
  | .pollQueue, .wrongKind => p
  | .pollQueue, .expired => p

/-- The end of a transaction that is not abandoned: the error count, the thresholds or HALTED, the report, the next
transaction (R21, R24, R31 to R33). -/
def Part.endTransaction (p : Part) (n : Socket) (t : Transaction) (o : TxOutcome) : Part :=
  let p1 := p.setLink n { p.link n with tx := none, errors := errorsAfter o.isGood (p.link n).errors }
  (if (p1.link n).errors = 255 then p1.halt n
    else ((p1.compareThresholds n).reportOutcome n t o).tryStart n).auditProgress

/-- A link's transaction replaced. -/
def Part.setTx (p : Part) (n : Socket) (t : Option Transaction) : Part := p.setLink n { p.link n with tx := t }

/-- The last bit of a frame has been sent (R22, R27, R30): the reply window opens, or an abandoned frame is done. -/
def Part.frameSent (n : Socket) (p : Part) : Part :=
  match (p.link n).draining with
  | some _ => (p.setLink n { p.link n with draining := none }).tryStart n
  | none =>
    match (p.link n).tx with
    | none => p
    | some t =>
      match t.phase with
      | .sending => p.setTx n (some { t with
          phase := .waiting (p.clock + replyWindow t.frame.kind),
          sentAt := if t.frame.kind = kindChallenge then some p.microCounter else none })
      | .waiting _ => p
      | .collecting _ _ => p

/-- A sync byte arrives while the reply window is open (R22, R30). -/
def Part.replyBegins (n : Socket) (p : Part) : Part :=
  match (p.link n).tx with
  | none => p
  | some t =>
    match t.phase with
    | .waiting _ => p.setTx n (some { t with
        phase := .collecting .header p.clock,
        replyAt := if t.frame.kind = kindChallenge then some p.microCounter else none })
    | .sending => p
    | .collecting _ _ => p

/-- The reply window closes while the transaction waits (R22, R23). -/
def Part.windowExpiry (n : Socket) (p : Part) : Part :=
  match (p.link n).tx with
  | none => p
  | some t =>
    match t.phase with
    | .waiting _ => p.endTransaction n t .expired
    | .sending => p
    | .collecting _ _ => p

/-- The outcome of a collected reply (R23, Table 2.4). -/
def replyOutcome (sent : BitVec 4) : RxResult → TxOutcome
  | .malformed => .malformed
  | .wellFormed f => if replyExpected sent f.kind then .good f else .wrongKind

/-- Bytes of a reply that is being collected (R4, R22): the transaction ends when the frame is finished, and as malformed
when the bytes come more than 2 ms after the one before. -/
def Part.replyBytes (n : Socket) (bytes : List Byte) (p : Part) : Part :=
  match (p.link n).tx with
  | none => p
  | some t =>
    match t.phase with
    | .collecting rx last =>
      if rx.overdue last p.clock then p.endTransaction n t .malformed
      else match rx.runFirst bytes with
        | (rx', none) => p.setTx n (some { t with phase := .collecting rx' (rx'.stamp bytes last p.clock) })
        | (_, some r) => p.endTransaction n t (replyOutcome t.frame.kind r)
    | .sending => p
    | .waiting _ => p

/-- A byte of a reply that is being collected is late: the reply is malformed (R4, R23). -/
def Part.packByteTimeout (n : Socket) (p : Part) : Part :=
  match (p.link n).tx with
  | none => p
  | some t =>
    match t.phase with
    | .collecting _ _ => p.endTransaction n t .malformed
    | .sending => p
    | .waiting _ => p

/-- The same on the tool link: the frame being collected is malformed and discarded (R4, R40). -/
def Part.toolByteTimeout (p : Part) : Part := p.setTlp { p.tlp with rx := .hunting }

/-- The next recheck due of a socket is reached (R88). -/
def Part.recheckExpiry (n : Socket) (p : Part) : Part := (p.recheckReached n).auditProgress

/-! ## Restart, in-band reset, PARK, start-up (R36 to R39) -/

/-- A link cleared as SOCKET-RESTART and the in-band reset clear it (R36 and R37, steps 1 to 4). -/
def Link.cleared (l : Link) : Link := { l.abandon.empty.stopTimers with errors := 0 }

/-- A link whose contact has been sampled: SETTLING with its settle timer started, or VACANT (R36, R37, R39). -/
def Part.sampleContact (n : Socket) (p : Part) : Part :=
  if p.contacts.get n then p.setLink n { p.link n with state := .settling, settle := some (p.clock + settleTime) }
  else p.setLink n { p.link n with state := .vacant }

/-- SOCKET-RESTART at the link and the engine (R36). -/
def Part.restartSocket (n : Socket) (p : Part) : Part :=
  (Part.sampleContact n ((p.setLink n (p.link n).cleared).endSession n)).adviseLink n

/-- The in-band reset at one link (R37). -/
def Part.resetLink (n : Socket) (p : Part) : Part := Part.sampleContact n (p.setLink n (p.link n).cleared)

/-- PARK at one link (R38). -/
def Part.parkLink (n : Socket) (p : Part) : Part :=
  p.setLink n { (p.link n).abandon.empty with settle := none, recovery := none }

end Sys2Proof.Machine
end

