-- ==== Sys2Proof/Machine/Store.lean ====
section
/-! DEFINITION. The store controller: regions and their layout, the steps of each job, loading, the event log (chapter 11). -/

namespace Sys2Proof.Machine

/-! ## Regions (R175; the sector numbers and the word layouts are the model's, log 8 and log 9) -/

/-- The regions that a job or a load concerns. -/
inductive Region where
  | settings
  | keys
  | classes
  | rules
  | withdrawal
  | watermark
  deriving DecidableEq, Repr

/-- A region's code (Table 11.2). -/
def Region.code : Region → Nat
  | .settings => 1
  | .keys => 2
  | .classes => 3
  | .rules => 4
  | .withdrawal => 5
  | .watermark => 6

/-- A region's first sector. -/
def Region.sector : Region → Nat
  | .settings => 0
  | .keys => 1
  | .classes => 2
  | .rules => 3
  | .withdrawal => 4
  | .watermark => 6

/-- A region's number of sectors (Table 11.2). -/
def Region.sectors : Region → Nat
  | .settings => 1
  | .keys => 1
  | .classes => 1
  | .rules => 1
  | .withdrawal => 2
  | .watermark => 1

/-- A region's first word address. -/
def Region.base (r : Region) : Nat := r.sector * 128

/-- The first word address of a log sector: the eight sectors after the watermark's. -/
def logBase (k : Fin 8) : Nat := (7 + k.val) * 128

/-! ## Check word (R175) -/

/-- One step of the 16-bit check register. -/
def crc16Shift (r : Half) : Half := if r.msb then (r <<< 1) ^^^ 0x1021 else r <<< 1

/-- One byte taken into the 16-bit check register, combined into its most significant bits. -/
def crc16Byte (r : Half) (b : Byte) : Half :=
  crc16Shift (crc16Shift (crc16Shift (crc16Shift (crc16Shift (crc16Shift (crc16Shift (crc16Shift
    (r ^^^ (b ++ (0 : Byte))))))))))

/-- One word taken, most significant byte first. -/
def crc16Word (r : Half) (w : Word) : Half := (Word.bytes w).foldl crc16Byte r

/-- The CRC over words, from 0xFFFF. -/
def crc16 (ws : List Word) : Half := ws.foldl crc16Word 0xFFFF

/-- The check word over words 0 to 126 of a sector. -/
def checkWord (ws : List Word) : Word := (crc16 ws).setWidth 32

/-- Words of the array from an address on. -/
def readWords (a : StoreArray) (base n : Nat) : List Word := (List.range n).map fun i => readWord a (base + i)

/-- Content words padded with erased words to the 127 that the check word covers. -/
def padSector (ws : List Word) : List Word := ws ++ List.replicate (127 - ws.length) erased

/-! ## Content words of the table regions (log 9) -/

/-- The 13 settings as numbers, in order of their setting number. -/
def Settings.toList (x : Settings) : List Nat :=
  [x.topology, x.toolCeiling, x.retiredCap, x.limpCap, x.proofWindow, x.recheckInterval, x.telemetryHold,
   x.overdrawWindow, x.aggregatePeriod, x.decimation, x.haltRecovery, x.revertOnReset, x.repeatLimit]

/-- The settings from a value for each setting number. -/
def Settings.ofFn (f : Nat → Nat) : Settings :=
  { topology := f 0, toolCeiling := f 1, retiredCap := f 2, limpCap := f 3, proofWindow := f 4,
    recheckInterval := f 5, telemetryHold := f 6, overdrawWindow := f 7, aggregatePeriod := f 8, decimation := f 9,
    haltRecovery := f 10, revertOnReset := f 11, repeatLimit := f 12 }

/-- The value of a setting number. -/
def Settings.value (x : Settings) (id : Nat) : Nat := x.toList.getD id 0

/-- The settings with one value replaced. -/
def Settings.set (x : Settings) (id v : Nat) : Settings := .ofFn fun i => if i = id then v else x.value i

/-- The content words of the settings and fault map region. -/
def settingsWords (x : Settings) (m : PerCond MapEntry) : List Word :=
  x.toList.map (fun v => BitVec.ofNat 32 v) ++ Cond.all.map fun c => (m.get c).byte.setWidth 32

/-- The content words of a key slot. -/
def keyWords : Option KeyEntry → List Word
  | none => [0, 0, 0]
  | some k => [Word.ofBytes (if k.retired then 2 else 1) k.family k.generation 0, k.ka, k.kb]

/-- A key slot from its words. R130 does not say what a region that passes its check loads for a state byte other than 0, 1
and 2, or for a field out of range: the model takes such a state as ACTIVE and keeps the fields as read (log 33). -/
def keyOfWords (w0 w1 w2 : Word) : Option KeyEntry :=
  if Word.byte w0 0 = 0 then none
  else some { retired := Word.byte w0 0 == 2, family := Word.byte w0 1, generation := Word.byte w0 2, ka := w1, kb := w2 }

/-- The content words of a class entry. -/
def classWords : Option ClassEntry → List Word
  | none => [0, 0, 0]
  | some e => e.words 1

/-- A class entry from its words. R130 does not say what a region that passes its check loads for an in-use byte other than
0 and 1, or for a field out of range: the model takes the entry as in use and keeps the fields as read (log 33). -/
def classOfWords (w0 w1 w2 : Word) : Option ClassEntry :=
  if Word.byte w0 0 = 0 then none else some (ClassEntry.ofWords w0 w1 w2)

/-- The content words of the rules region. -/
def ruleTableWords (rs : Vector Rule 32) : List Word := rs.toList.flatMap (Rule.words 0)

/-! ## The steps of the jobs (R177, R178, R180) -/

/-- Words programmed one after another from an address. -/
def programAll (base : Nat) : List Word → List Prim
  | [] => []
  | w :: ws => .program base w :: programAll (base + 1) ws

/-- A single-sector region rewritten: erase, content words, check word (R177). -/
def rewriteRegion (r : Region) (content : List Word) : List Prim :=
  .erase r.sector :: programAll r.base content ++ [.program (r.base + 127) (checkWord (padSector content))]

/-- The addresses of the erased words of the withdrawal list region, ascending (R177). -/
def withdrawalFree (a : StoreArray) : List Nat :=
  ((List.range 256).map fun i => Region.withdrawal.base + i).filter fun addr => readWord a addr == erased

/-- Serials appended to the withdrawal list region: programmed into its first erased words, wherever these stand, or after
the working copy in the region compacted, when fewer erased words remain than there are serials (R177). -/
def appendSteps (a : StoreArray) (working new : List Word) : List Prim :=
  let free := withdrawalFree a
  if new.length ≤ free.length then (free.zip new).map fun x => .program x.1 x.2
  else .erase Region.withdrawal.sector :: .erase (Region.withdrawal.sector + 1) ::
    (programAll Region.withdrawal.base working ++ programAll (Region.withdrawal.base + working.length) new)

/-- The words of watermark record position `i`. -/
def watermarkRecord (a : StoreArray) (i : Nat) : Word × Word :=
  (readWord a (Region.watermark.base + 2 * i), readWord a (Region.watermark.base + 2 * i + 1))

/-- The first record position whose two words are both erased (R178). -/
def freeRecord (a : StoreArray) : Option Nat :=
  (List.range 64).find? fun i => decide (watermarkRecord a i = (erased, erased))

/-- The steps of a watermark job (R178). -/
def watermarkSteps (a : StoreArray) (v : Word) : List Prim :=
  let write := fun (i : Nat) =>
    [Prim.program (Region.watermark.base + 2 * i) v, Prim.program (Region.watermark.base + 2 * i + 1) (~~~ v)]
  match freeRecord a with
  | some i => write i
  | none => .erase Region.watermark.sector :: write 0

/-- A key entry made RETIRED. -/
def retire : Option KeyEntry → Option KeyEntry
  | none => none
  | some e => some { e with retired := true }

/-- The steps of a table job, from the working copies (R177). A WITHDRAW-CLEAR that stops between its two erases while the
second sector holds no words leaves the region erased throughout: R177 has it found damaged, R175's definition has it blank,
and blank, without a STORE_BAD entry, is the model's choice; so is a cut compaction's judgement by that definition, where R183
calls a region caught in mid-rewrite damaged (log 39). -/
def TableJob.steps (t : Trust) (a : StoreArray) : TableJob → List Prim
  | .keyWrite slot e => rewriteRegion .keys ((t.keys.set slot (some e)).toList.flatMap keyWords)
  | .keyRetire slot => rewriteRegion .keys ((t.keys.set slot (retire t.keys[slot])).toList.flatMap keyWords)
  | .keyErase slot => rewriteRegion .keys ((t.keys.set slot none).toList.flatMap keyWords)
  | .classWrite i e => rewriteRegion .classes ((t.classes.set i (some e)).toList.flatMap classWords)
  | .classErase i => rewriteRegion .classes ((t.classes.set i none).toList.flatMap classWords)
  | .withdrawAdd serials => appendSteps a t.withdrawn serials
  | .withdrawClear => [.erase Region.withdrawal.sector, .erase (Region.withdrawal.sector + 1)]
  | .auditWithdrawal serial => appendSteps a t.withdrawn [serial]
  | .rulesApply rules => rewriteRegion .rules (ruleTableWords rules)
  | .settingWrite _ _ settings map => rewriteRegion .settings (settingsWords settings map)
  | .mapWrite _ settings map => rewriteRegion .settings (settingsWords settings map)

/-! ## Event log (R13, R180 to R182) -/

/-- A log entry's header word with its commit bit 1 (Table 1.20). -/
def logHeader (firstMark : Bool) (e : LogEntry) : Word :=
  BitVec.ofNat 32 (2 ^ 31 + (if firstMark then 0 else 2 ^ 30) + e.type * 2 ^ 26 + e.socket * 2 ^ 23
    + e.data.length * 2 ^ 21 + e.detail.toNat)

/-- A header word with its commit bit 0. -/
def committed (w : Word) : Word := w &&& 0x7FFFFFFF

/-- Whether a log sector is in use: its first word is not erased (R179). -/
def logInUse (a : StoreArray) (k : Fin 8) : Bool := readWord a (logBase k) != erased

/-- A log sector's sequence number. -/
def logSeq (a : StoreArray) (k : Fin 8) : Word := readWord a (logBase k)

/-- The log sectors in ascending order. -/
def logSectors : List (Fin 8) := [0, 1, 2, 3, 4, 5, 6, 7]

/-- The log sectors after a given one, ascending and wrapping from 7 to 0. -/
def sectorsAfter (k : Fin 8) : List (Fin 8) := [k + 1, k + 2, k + 3, k + 4, k + 5, k + 6, k + 7]

/-- Of some sectors, the one that a comparison of sequence numbers prefers. -/
def bestSector (a : StoreArray) (better : Word → Word → Bool) : List (Fin 8) → Option (Fin 8)
  | [] => none
  | k :: ks =>
    match bestSector a better ks with
    | none => some k
    | some j => if better (logSeq a j) (logSeq a k) then some j else some k

/-- The sector that a new entry takes (R180 step 1). -/
def newLogSector (a : StoreArray) (pos : Option LogPos) : Fin 8 :=
  match pos with
  | none => 0
  | some q =>
    match (sectorsAfter q.sector).find? (fun k => !logInUse a k) with
    | some k => k
    | none => (bestSector a (fun x y => x.toNat < y.toNat) logSectors).getD 0

/-- The first word a new log sector gets (R180 step 1). -/
def newLogSeq (pos : Option LogPos) : Word :=
  match pos with
  | none => 0
  | some q => q.seq + 1

/-- Whether a log sector reads erased throughout. -/
def logErased (a : StoreArray) (k : Fin 8) : Bool := a.all fun e => e.1 < logBase k || logBase k + 128 ≤ e.1

/-- What writing one entry takes: the steps of R180 step 1, the steps of its steps 2 to 4, and where the entry stands. -/
structure LogPlan where
  room : List Prim
  body : List Prim
  pos : LogPos
  deriving DecidableEq, Repr

/-- Where an entry of `n` words goes when the write sector has room for it. -/
def logRoom (pos : Option LogPos) (n : Nat) : Option LogPos :=
  match pos with
  | none => none
  | some q => if q.offset + n ≤ 128 then some q else none

/-- The steps that write an entry at a place: header, data, header again with commit 0. -/
def entrySteps (firstMark : Bool) (e : LogEntry) (q : LogPos) : List Prim :=
  let h := logHeader firstMark e
  let at0 := logBase q.sector + q.offset
  .program at0 h :: programAll (at0 + 1) e.data ++ [.program at0 (committed h)]

/-- The plan of a log entry job (R180). After the programming of a new sector's first word has failed, R180 has the sector
taken again erased first, and has a sector erased unless every word of it reads erased: the model does not erase a sector that
reads wholly erased then either (log 38). -/
def logPlan (a : StoreArray) (pos : Option LogPos) (firstMark : Bool) (e : LogEntry) : LogPlan :=
  match logRoom pos (1 + e.data.length) with
  | some q => { room := [], body := entrySteps firstMark e q, pos := q }
  | none =>
    let k := newLogSector a pos
    let q : LogPos := { sector := k, seq := newLogSeq pos, offset := 1 }
    { room := (if logErased a k then [] else [.erase (7 + k.val)]) ++ [.program (logBase k) q.seq],
      body := entrySteps firstMark e q, pos := q }

/-- The steps of a job. -/
def Job.steps (p : Part) (a : StoreArray) : Job → List Prim
  | .log e =>
    let plan := logPlan a p.ctl.logPos p.ctl.firstMark e
    plan.room ++ plan.body
  | .table j => j.steps p.trust a
  | .watermark v => watermarkSteps a v

/-- The single-sector region that a job rewrites, if it is such a job. -/
def Job.rewrites : Job → Option Region
  | .log _ => none
  | .watermark _ => none
  | .table j =>
    match j with
    | .keyWrite _ _ => some .keys
    | .keyRetire _ => some .keys
    | .keyErase _ => some .keys
    | .classWrite _ _ => some .classes
    | .classErase _ => some .classes
    | .withdrawAdd _ => none
    | .withdrawClear => none
    | .auditWithdrawal _ => none
    | .rulesApply _ => some .rules
    | .settingWrite _ _ _ _ => some .settings
    | .mapWrite _ _ _ => some .settings

/-- A word that is neither erased nor any sector's check word, whose bits 31 to 16 are 0 (R175; log 30). -/
def spoiled : Word := 0x7FFFFFFF

/-- Whether a step programs a word that is not the erased word. -/
def Prim.writes : Prim → Bool
  | .erase _ => false
  | .program _ x => x != erased

/-- What a job that stopped after its first `k` steps has done to the array: those steps and nothing else (R176, R183). While
a single-sector region is erased and no content word programmed yet, R175's definition alone would find it blank, where R177
and R183 have it damaged: the model has it damaged, by a word of its own choice in the region's last word (log 30). -/
def Job.stopped (j : Job) (ps : List Prim) (k : Nat) : List Prim :=
  match j.rewrites with
  | none => ps.take k
  | some r => ps.take k ++ (if 0 < k && !(ps.take k).any Prim.writes then [.program (r.base + 127) spoiled] else [])

/-- The least number of steps that a failed job has behind it: a single-sector region is left partly written by a failure at
any step, its erase included (R177). -/
def Job.leastTaken (j : Job) : Nat := if j.rewrites.isSome then 1 else 0

/-- What the end of a job did to the array: all its steps on a success; on a failure the steps before the one that failed, a
step number beyond the job's last step being taken as its last (log 10). -/
def Job.taken (j : Job) (ps : List Prim) : JobEnd → List Prim
  | .success => ps
  | .failedAt k => j.stopped ps (max j.leastTaken (min k (ps.length - 1)))

/-- Whether a job's end is a success. -/
def jobOk : JobEnd → Bool
  | .success => true
  | .failedAt _ => false

/-- What the controller itself keeps of a finished job: the log write position and first-entry mark (R180), the stored
copies (R183). -/
def StoreCtl.keep (c : StoreCtl) (a : StoreArray) (j : Job) (r : JobEnd) : StoreCtl :=
  match j, r with
  | .log e, .success =>
    let q := (logPlan a c.logPos c.firstMark e).pos
    { c with logPos := some { q with offset := q.offset + 1 + e.data.length }, firstMark := false }
  | .log e, .failedAt k =>
    let plan := logPlan a c.logPos c.firstMark e
    if k < plan.room.length then c else { c with logPos := some { plan.pos with offset := 128 } }
  | .table (.settingWrite _ _ settings map), .success => { c with storedSettings := settings, storedMap := map }
  | .table (.mapWrite _ settings map), .success => { c with storedSettings := settings, storedMap := map }
  | .table _, _ => c
  | .watermark _, _ => c

/-- The controller after the job in progress has ended: the oldest job in the queue is taken (R176). -/
def StoreCtl.next (c : StoreCtl) : StoreCtl := { c with job := none }.start

/-! ### Reading the log -/

/-- Whether a word is a header (R181). -/
def isLogHeader (w : Word) : Bool :=
  w.extractLsb' 16 5 == 0 && 1 ≤ (w.extractLsb' 26 4).toNat && (w.extractLsb' 26 4).toNat ≤ 9

/-- The number of words that an entry with this header takes. -/
def entryLength (w : Word) : Nat := 1 + (w.extractLsb' 21 2).toNat

/-- A sector read under R181 from an offset on: the offsets of the words of complete entries, and where reading stops. -/
def scanLog (a : StoreArray) (base : Nat) (fuel off : Nat) : List Nat × Nat :=
  match fuel with
  | 0 => ([], min off 128)
  | fuel + 1 =>
    if 128 ≤ off then ([], 128)
    else
      let w := readWord a (base + off)
      if w = erased then ([], off)
      else if isLogHeader w then
        let next := off + entryLength w
        let rest := scanLog a base fuel next
        if w.msb then rest
        else (((List.range (entryLength w)).map fun i => off + i).filter (fun i => i < 128) ++ rest.1, rest.2)
      else ([], off)

/-- A log sector read from offset 1. -/
def readSector (a : StoreArray) (k : Fin 8) : List Nat × Nat := scanLog a (logBase k) 128 1

/-- The log scan of cold start (R179 step 1): the write position. -/
def logScan (a : StoreArray) : Option LogPos :=
  match bestSector a (fun x y => y.toNat < x.toNat) (logSectors.filter (logInUse a)) with
  | none => none
  | some k => some { sector := k, seq := logSeq a k, offset := (readSector a k).2 }

/-- The sector in use whose sequence number is one greater (R182). -/
def nextSector (a : StoreArray) (seq : Word) : Option (Fin 8) :=
  logSectors.find? fun k => logInUse a k && logSeq a k == seq + 1

/-- A log sector read from offset 1; one that is not in use holds nothing to read, whatever its other words are (R180). -/
def readInUse (a : StoreArray) (c : LogPos) : List Nat × Nat :=
  if logInUse a c.sector then readSector a c.sector else ([], c.offset)

/-- Log words read forward from a cursor, at most `want`, sector after sector: the words and the cursor afterwards (R182). -/
def readLog (a : StoreArray) (fuel want : Nat) (c : LogPos) : List Word × LogPos :=
  match fuel with
  | 0 => ([], c)
  | fuel + 1 =>
    let sector := readInUse a c
    let offs := sector.1.filter fun o => c.offset ≤ o
    let ws := (offs.take want).map fun o => readWord a (logBase c.sector + o)
    if want ≤ offs.length then
      (ws, { c with offset := ((offs.take want).getLast?.map (· + 1)).getD c.offset })
    else
      match nextSector a c.seq with
      | some k =>
        let rest := readLog a fuel (want - offs.length) { sector := k, seq := c.seq + 1, offset := 1 }
        (ws ++ rest.1, rest.2)
      | none => (ws, { c with offset := max c.offset sector.2 })

/-- The sectors in use from the lowest sequence number on, with the first complete entry of each. -/
def firstEntry (a : StoreArray) (fuel : Nat) (ks : List (Fin 8)) : Option LogPos :=
  match fuel with
  | 0 => none
  | fuel + 1 =>
    match bestSector a (fun x y => x.toNat < y.toNat) ks with
    | none => none
    | some k =>
      match (readSector a k).1.head? with
      | some o => some { sector := k, seq := logSeq a k, offset := o }
      | none => firstEntry a fuel (ks.filter (· != k))

/-- Where LOG-START places the cursor (R182): the oldest committed entry, else the write position, else sector 0 with
sequence number 0 and offset 1. -/
def oldestEntry (a : StoreArray) (pos : Option LogPos) : LogPos :=
  match firstEntry a 8 (logSectors.filter (logInUse a)) with
  | some q => q
  | none => pos.getD { sector := 0, seq := 0, offset := 1 }

/-- Whether the cursor's sector was reused under it (R182). While sector 0 still reads erased, a cursor that stands where
the first entry will be written is not taken as reused. -/
def cursorReused (a : StoreArray) (pos : Option LogPos) (c : LogPos) : Bool :=
  if pos.isNone && c == { sector := 0, seq := 0, offset := 1 } then logInUse a 0 && logSeq a 0 != 0
  else !logInUse a c.sector || logSeq a c.sector != c.seq

/-! ## Loading (R175 to R179) -/

/-- Whether every word of a region reads erased. -/
def regionBlank (a : StoreArray) (r : Region) : Bool :=
  a.all fun e => e.1 < r.base || r.base + 128 * r.sectors ≤ e.1

/-- Whether a single-sector table region's check word is right. -/
def checkHolds (a : StoreArray) (r : Region) : Bool :=
  readWord a (r.base + 127) == checkWord (readWords a r.base 127)

/-- Whether the withdrawal list region is valid: every word before the first erased one is in 1..0xFFFFFFFE and every
word after it is erased (R177). -/
def withdrawalValid (a : StoreArray) : Bool :=
  let ws := readWords a Region.withdrawal.base 256
  (ws.takeWhile (· != erased)).all (· != 0) && (ws.dropWhile (· != erased)).all (· == erased)

/-- A valid watermark record (R178). -/
def recordValid (a : StoreArray) (i : Nat) : Bool := (watermarkRecord a i).2 == ~~~ (watermarkRecord a i).1

/-- The resumed value: that of the valid record at the highest position, 0 when there is none (R107, R178). -/
def resumedValue (a : StoreArray) : Word :=
  match (List.range 64).reverse.find? (recordValid a) with
  | some i => (watermarkRecord a i).1
  | none => 0

/-- Whether a region that is not blank is valid. -/
def regionValid (a : StoreArray) : Region → Bool
  | .settings => checkHolds a .settings
  | .keys => checkHolds a .keys
  | .classes => checkHolds a .classes
  | .rules => checkHolds a .rules
  | .withdrawal => withdrawalValid a
  | .watermark => (List.range 64).any (recordValid a)

/-- How a region is judged at cold start (R175). By R175 alone a table region erased with nothing programmed is blank; one
that a job left so in mid-rewrite holds the word of `Job.stopped` and is damaged, as R177 and R183 have it (log 30). -/
inductive Judgement where
  | blank
  | valid
  | damaged
  deriving DecidableEq, Repr

/-- The judgement of a region. -/
def judgeRegion (a : StoreArray) (r : Region) : Judgement :=
  if regionBlank a r then .blank else if regionValid a r then .valid else .damaged

/-- The STORE_BAD log entries of the damaged regions among those given, in their order. -/
def storeBads (a : StoreArray) (rs : List Region) (p : Part) : Part :=
  rs.foldl (fun p r => match judgeRegion a r with
    | .damaged => p.log (storeBad r.code)
    | .blank => p
    | .valid => p) p

/-- Settings as loaded. The manual does not say what a region that passes its check loads for a word outside a setting's
range: the model keeps the number as read (log 36). -/
def loadSettings (a : StoreArray) : Settings :=
  match judgeRegion a .settings with
  | .valid => .ofFn fun i => (readWord a (Region.settings.base + i)).toNat
  | .blank => .default
  | .damaged => .default

/-- The fault map as loaded. The manual does not say what a region that passes its check loads for a map word with bits above
the three fields set: the model ignores those bits (log 36). -/
def loadMap (a : StoreArray) : PerCond MapEntry :=
  match judgeRegion a .settings with
  | .valid => .ofFn fun c => MapEntry.ofByte (Word.byte (readWord a (Region.settings.base + 13 + c.number)) 3)
  | .blank => defaultMap
  | .damaged => defaultMap

/-- The key table as loaded. R130 does not say what a region that passes its check loads with the same pair in two slots, which
R111 excludes: the model loads both, and a lookup takes the lowest (log 33). -/
def loadKeys (a : StoreArray) : Vector (Option KeyEntry) 16 :=
  match judgeRegion a .keys with
  | .valid => Vector.ofFn fun i : Fin 16 =>
      let b := Region.keys.base + 3 * i.val
      keyOfWords (readWord a b) (readWord a (b + 1)) (readWord a (b + 2))
  | .blank => Trust.initial.keys
  | .damaged => Trust.initial.keys

/-- The class table as loaded. R130 does not say what a region that passes its check loads with the same code in two entries,
which R119 excludes: the model loads both, and a lookup takes the lowest (log 33). -/
def loadClasses (a : StoreArray) : Vector (Option ClassEntry) 32 :=
  match judgeRegion a .classes with
  | .valid => Vector.ofFn fun i : Fin 32 =>
      let b := Region.classes.base + 3 * i.val
      classOfWords (readWord a b) (readWord a (b + 1)) (readWord a (b + 2))
  | .blank => Trust.initial.classes
  | .damaged => Trust.initial.classes

/-- A serial put into an ascending list that holds each serial once. -/
def insertSerial (x : Word) : List Word → List Word
  | [] => [x]
  | y :: ys => if x.toNat < y.toNat then x :: y :: ys else if x = y then y :: ys else y :: insertSerial x ys

/-- Serials sorted into ascending order, repeated ones kept once (R179 step 5). -/
def sortSerials (ws : List Word) : List Word := ws.foldr insertSerial []

/-- The withdrawal list as loaded. -/
def loadWithdrawn (a : StoreArray) : List Word :=
  match judgeRegion a .withdrawal with
  | .valid => sortSerials ((readWords a Region.withdrawal.base 256).takeWhile (· != erased))
  | .blank => []
  | .damaged => []

/-- The rules as loaded. R70 loads the stored rules of a region that passes its check and does not say what is loaded where
words give no rule (a code without meaning, a mask out of range): that one rule is then the default rule, the model's choice
(log 32). -/
def loadRules (a : StoreArray) : Vector Rule 32 :=
  match judgeRegion a .rules with
  | .valid => Vector.ofFn fun i : Fin 32 =>
      let b := Region.rules.base + 3 * i.val
      (Rule.ofWords (readWord a b) (readWord a (b + 1)) (readWord a (b + 2))).getD Rule.default
  | .blank => Classifier.initial.rules
  | .damaged => Classifier.initial.rules

end Sys2Proof.Machine
end

