-- ==== Sys2Proof/Machine/Completion.lean ====
section
/-! DEFINITION. Ends of store jobs: what every end has in common (R176), and what the owner of each job does (R107, R113,
R115 to R117, R121, R122, R125, R126, R128, R69, R157, R170). -/

namespace Sys2Proof.Machine

/-! ## Request codes (Table 10.2) -/

def codeSettingWrite : Byte := 0x05
def codeKeyWrite : Byte := 0x10
def codeKeyRetire : Byte := 0x11
def codeKeyErase : Byte := 0x12
def codeClassWrite : Byte := 0x14
def codeClassErase : Byte := 0x15
def codeWithdrawAdd : Byte := 0x18
def codeWithdrawClear : Byte := 0x19
def codeRulesApply : Byte := 0x22
def codeMapWrite : Byte := 0x28
def codePark : Byte := 0x3E
def codeReset : Byte := 0x3F

/-! ## What every end of a job has in common (R176) -/

/-- A wait of PARK or RESET after one more job has ended: jobs end in the order of the queue (R172, R174). -/
def Request.countDown (q : Request) (ok : Bool) : Request :=
  if q.wait = 0 then q else { q with wait := q.wait - 1, waitFailed := q.waitFailed || !ok }

/-- The request in flight told of the end of a job. -/
def Part.countDown (p : Part) (ok : Bool) : Part :=
  p.setMgmt { p.mgmt with request := match p.mgmt.request with
    | none => none
    | some q => some (q.countDown ok) }

/-- The part after the job in progress has ended: the controller takes the next job, the owner acts, the fault unit is told,
a waiting PARK or RESET counts (R176). The completion is one event, whose changes of conditions are handled in ascending
number: those that the owner's action makes, OVERHEAT or TRUST_BASE among them, before STORE, the last (R154). -/
def Part.jobEnded (p : Part) (a : StoreArray) (j : Job) (r : JobEnd) (own : Bool → Part → Part) : Part :=
  ((own (jobOk r) (p.setCtl (p.ctl.keep a j r).next)).reportStore (jobOk r)).countDown (jobOk r)

/-- The end of the job in progress, when it is a job that `own` knows: the steps that took effect change the array (log 10),
and the part acts. Otherwise there is no such event and nothing happens (log 3). -/
def State.endJob (s : State) (r : JobEnd) (own : Job → Option (Bool → Part → Part)) :
    Host.Outcome State Fault Refusal :=
  match s.part.power, s.part.ctl.job with
  | .on, some j =>
    match own j with
    | some f => .next { s with
        part := s.part.jobEnded s.array j r f
        array := applySteps s.array (j.taken (j.steps s.part s.array) r) }
    | none => .next s
  | _, _ => .next s

/-! ## The key table (R115 to R118) -/

/-- Whether no slot is ACTIVE or RETIRED (R118). -/
def Trust.noUsableKey (t : Trust) : Bool := t.keys.toList.all Option.isNone

/-- The no-usable-key cause brought up to date and reported (R118). -/
def Part.reportKeys (p : Part) : Part :=
  p.reportCause .trustBase { p.fault.causes with noUsableKey := p.trust.noUsableKey }

/-- A slot of the working copy replaced. -/
def Part.setKey (p : Part) (k : Fin 16) (e : Option KeyEntry) : Part :=
  p.setTrust { p.trust with keys := p.trust.keys.set k e }

/-- A slot's edit count increased by one, from 255 to 0 (R111). -/
def Part.bumpEdit (p : Part) (k : Fin 16) : Part :=
  p.setTrust { p.trust with edits := p.trust.edits.set k (p.trust.edits[k] + 1) }

/-- The word that carries one byte in byte 0. -/
def byteWord (b : Byte) : Word := Word.ofBytes b 0 0 0

/-- An order to every session that a test names, in ascending socket order. -/
def Part.orderAll (p : Part) (test : Session → Bool) (o : Order) : Part :=
  forSockets (fun n p => if test (p.session n) then p.order n o else p) p

/-- Whether a session is bound to a key slot. -/
def boundTo (k : Fin 16) (x : Session) : Bool := x.keySlot == some k

/-- Whether a session has a class index. -/
def ofClass (i : Fin 32) (x : Session) : Bool := x.classIndex == some i

/-- The end of a KEY-WRITE's job (R115). -/
def Part.keyWriteDone (k : Fin 16) (e : KeyEntry) (ok : Bool) (p : Part) : Part :=
  if ok then
    let p1 := ((p.setKey k (some e)).bumpEdit k).orderAll (boundTo k) .relookup
    (p1.reportKeys.log (tableChange 1 1 k.val)).complete codeKeyWrite .done [byteWord (p.trust.edits[k] + 1)]
  else p.complete codeKeyWrite .storeFault []

/-- The end of a KEY-RETIRE's job (R116). -/
def Part.keyRetireDone (k : Fin 16) (ok : Bool) (p : Part) : Part :=
  if ok then
    (((p.setKey k (retire p.trust.keys[k])).orderAll (boundTo k) .mark).log (tableChange 1 2 k.val)).complete
      codeKeyRetire .done []
  else p.complete codeKeyRetire .storeFault []

/-- The end of a KEY-ERASE's job (R117). -/
def Part.keyEraseDone (k : Fin 16) (ok : Bool) (p : Part) : Part :=
  if ok then
    let p1 := ((p.setKey k none).bumpEdit k).orderAll (boundTo k) (.refuse .noKey)
    (p1.reportKeys.log (tableChange 1 3 k.val)).complete codeKeyErase .done [byteWord (p.trust.edits[k] + 1)]
  else p.complete codeKeyErase .storeFault []

/-! ## The class table (R121, R122) -/

/-- A class entry of the working copy replaced. -/
def Part.setClass (p : Part) (i : Fin 32) (e : Option ClassEntry) : Part :=
  p.setTrust { p.trust with classes := p.trust.classes.set i e }

/-- Whether a session's identity holds a class code. -/
def reportsCode (c : Byte) (x : Session) : Bool :=
  match x.identity with
  | some i => i.classCode == c
  | none => false

/-- The end of a CLASS-WRITE's job (R121). -/
def Part.classWriteDone (i : Fin 32) (e : ClassEntry) (ok : Bool) (p : Part) : Part :=
  if ok then
    let p1 := forSockets (fun n p =>
      if ofClass i (p.session n) then
        p.order n (if reportsCode e.code (p.session n) then .mark else .refuse .noClass)
      else p) (p.setClass i (some e))
    (p1.recompute.log (tableChange 2 1 i.val)).complete codeClassWrite .done []
  else p.complete codeClassWrite .storeFault []

/-- The end of a CLASS-ERASE's job (R122). -/
def Part.classEraseDone (i : Fin 32) (ok : Bool) (p : Part) : Part :=
  if ok then
    (((p.setClass i none).orderAll (ofClass i) (.refuse .noClass)).log (tableChange 2 3 i.val)).complete
      codeClassErase .done []
  else p.complete codeClassErase .storeFault []

/-! ## The withdrawal list (R125, R126, R128) -/

/-- The working copy of the withdrawal list replaced. -/
def Part.setWithdrawn (p : Part) (ws : List Word) : Part := p.setTrust { p.trust with withdrawn := ws }

/-- Serials merged into the working copy in ascending order. -/
def mergeSerials (new list : List Word) : List Word := new.foldr insertSerial list

/-- Whether a session's identity holds one of some serials. -/
def holdsOne (ws : List Word) (x : Session) : Bool :=
  match x.serial with
  | some w => ws.contains w
  | none => false

/-- New serials taking effect: the merge, the withdraw orders, the TABLE_CHANGE entry (R125, R128). -/
def Part.takeSerials (p : Part) (new : List Word) : Part :=
  ((p.setWithdrawn (mergeSerials new p.trust.withdrawn)).orderAll (holdsOne new) .withdraw).log
    (tableChange 3 4 new.length)

/-- The result word of WITHDRAW-ADD and WITHDRAW-QUERY: a byte, and the list's size. -/
def Part.listWord (p : Part) (b : Byte) : Word := Word.ofBytesHalf b 0 (halfOf p.trust.withdrawn.length)

/-- The end of a WITHDRAW-ADD's job (R125). -/
def Part.withdrawAddDone (new : List Word) (ok : Bool) (p : Part) : Part :=
  if ok then
    let p1 := p.takeSerials new
    p1.complete codeWithdrawAdd .done [p1.listWord (byteOf new.length)]
  else p.complete codeWithdrawAdd .storeFault []

/-- The end of a WITHDRAW-CLEAR's job (R126). -/
def Part.withdrawClearDone (ok : Bool) (p : Part) : Part :=
  if ok then ((p.setWithdrawn []).log (tableChange 3 5 0)).complete codeWithdrawClear .done []
  else p.complete codeWithdrawClear .storeFault []

/-- The end of an audit's withdrawal job (R99, R128). -/
def Part.auditWithdrawalDone (x : Word) (ok : Bool) (p : Part) : Part :=
  if ok then (p.takeSerials [x]).auditJobEnded true else p.auditJobEnded false

/-! ## Rules, settings, fault map (R69, R170, R157) -/

/-- The end of a RULES-APPLY's job (R69). -/
def Part.rulesApplyDone (ok : Bool) (p : Part) : Part :=
  if ok then
    ((p.setClassifier { p.classifier with editing := false }).log (tableChange 4 6 0)).complete codeRulesApply .done []
  else p.complete codeRulesApply .storeFault []

/-- The end of a SETTING-WRITE's job (R170). -/
def Part.settingWriteDone (id value : Nat) (ok : Bool) (p : Part) : Part :=
  if ok then
    (p.log (tableChange 5 1 id)).complete codeSettingWrite .done [Word.ofHalves (halfOf value) 0]
  else p.complete codeSettingWrite .storeFault []

/-- The end of a MAP-WRITE's job (R157). Which moment's condition state the response carries is left open: the model takes
that of the completion, before the STORE report of this job (log 34). -/
def Part.mapWriteDone (c : Cond) (ok : Bool) (p : Part) : Part :=
  if ok then
    (p.log (tableChange 6 1 c.number)).complete codeMapWrite .done [byteWord (byteOf (p.fault.conds.get c).code)]
  else p.complete codeMapWrite .storeFault []

/-! ## The commands -/

/-- LOG_ENTRY_JOB_COMPLETE (R176, R180). -/
def execLogEntryJobComplete (r : JobEnd) (s : State) : Host.Outcome State Fault Refusal :=
  s.endJob r fun j => match j with
    | .log _ => some fun _ p => p
    | .table _ => none
    | .watermark _ => none

/-- WATERMARK_JOB_COMPLETE (R107, R108). -/
def execWatermarkJobComplete (r : JobEnd) (s : State) : Host.Outcome State Fault Refusal :=
  s.endJob r fun j => match j with
    | .watermark v => some fun ok p => p.watermarkDone v ok
    | .log _ => none
    | .table _ => none

/-- KEY_WRITE_COMPLETE (R115). -/
def execKeyWriteComplete (r : JobEnd) (s : State) : Host.Outcome State Fault Refusal :=
  s.endJob r fun j => match j with
    | .table (.keyWrite k e) => some (Part.keyWriteDone k e)
    | _ => none

/-- KEY_RETIRE_COMPLETE (R116). -/
def execKeyRetireComplete (r : JobEnd) (s : State) : Host.Outcome State Fault Refusal :=
  s.endJob r fun j => match j with
    | .table (.keyRetire k) => some (Part.keyRetireDone k)
    | _ => none

/-- KEY_ERASE_COMPLETE (R117). -/
def execKeyEraseComplete (r : JobEnd) (s : State) : Host.Outcome State Fault Refusal :=
  s.endJob r fun j => match j with
    | .table (.keyErase k) => some (Part.keyEraseDone k)
    | _ => none

/-- CLASS_WRITE_COMPLETE (R121). -/
def execClassWriteComplete (r : JobEnd) (s : State) : Host.Outcome State Fault Refusal :=
  s.endJob r fun j => match j with
    | .table (.classWrite i e) => some (Part.classWriteDone i e)
    | _ => none

/-- CLASS_ERASE_COMPLETE (R122). -/
def execClassEraseComplete (r : JobEnd) (s : State) : Host.Outcome State Fault Refusal :=
  s.endJob r fun j => match j with
    | .table (.classErase i) => some (Part.classEraseDone i)
    | _ => none

/-- WITHDRAW_ADD_COMPLETE (R125). -/
def execWithdrawAddComplete (r : JobEnd) (s : State) : Host.Outcome State Fault Refusal :=
  s.endJob r fun j => match j with
    | .table (.withdrawAdd new) => some (Part.withdrawAddDone new)
    | _ => none

/-- WITHDRAW_CLEAR_COMPLETE (R126). -/
def execWithdrawClearComplete (r : JobEnd) (s : State) : Host.Outcome State Fault Refusal :=
  s.endJob r fun j => match j with
    | .table .withdrawClear => some Part.withdrawClearDone
    | _ => none

/-- AUDIT_WITHDRAWAL_COMPLETE (R99, R128). -/
def execAuditWithdrawalComplete (r : JobEnd) (s : State) : Host.Outcome State Fault Refusal :=
  s.endJob r fun j => match j with
    | .table (.auditWithdrawal x) => some (Part.auditWithdrawalDone x)
    | _ => none

/-- RULES_APPLY_COMPLETE (R69). -/
def execRulesApplyComplete (r : JobEnd) (s : State) : Host.Outcome State Fault Refusal :=
  s.endJob r fun j => match j with
    | .table (.rulesApply _) => some Part.rulesApplyDone
    | _ => none

/-- SETTING_WRITE_COMPLETE (R170). -/
def execSettingWriteComplete (r : JobEnd) (s : State) : Host.Outcome State Fault Refusal :=
  s.endJob r fun j => match j with
    | .table (.settingWrite id value _ _) => some (Part.settingWriteDone id value)
    | _ => none

/-- MAP_WRITE_COMPLETE (R157). -/
def execMapWriteComplete (r : JobEnd) (s : State) : Host.Outcome State Fault Refusal :=
  s.endJob r fun j => match j with
    | .table (.mapWrite c _ _) => some (Part.mapWriteDone c)
    | _ => none

end Sys2Proof.Machine
end

