-- ==== Sys2Proof/Machine/Requests.lean ====
section
/-! DEFINITION. How a management request is taken: loading, silence, BUSY, the checks of R164 (R40, R43, R162 to R164). -/

namespace Sys2Proof.Machine

/-! ## The silence timer (R42, R43) -/

/-- The silence timer restarted at a full 500 ms, its cause absent (R43). -/
def Part.restartSilence (p : Part) : Part :=
  (p.setTlp { p.tlp with silence := some (p.clock + silenceTime) }).reportCause .toolSilent
    { p.fault.causes with silent := false }

/-- The expiry of the silence timer (R42). -/
def Part.silenceExpiry (p : Part) : Part :=
  match p.tlp.silence with
  | none => p
  | some _ => (p.setTlp { p.tlp with silence := none }).reportCause .toolSilent { p.fault.causes with silent := true }

/-! ## Taking a request -/

/-- The request in flight set. -/
def Part.setRequest (p : Part) (q : Option Request) : Part := p.setMgmt { p.mgmt with request := q }

/-- A request as it is taken. -/
def Request.new (code : Byte) (words : List Word) : Request :=
  { code := code, words := words, phase := .running, wait := 0, waitFailed := false }

/-- A request refused BUSY (R163). -/
def Part.busy (p : Part) (code : Byte) : Part := p.place .l0 (response code .busy [])

/-- A request refused or completed at once. -/
def Part.refuseWith (p : Part) (code : Byte) (o : ReqOutcome) : Part := p.respond code o []

/-- What a request meets before its own checks: nothing happens while the store is being loaded (R40); the silence timer
restarts (R43); a request in flight makes it BUSY (R163); the number of parameter words and the part state are checked (R164
checks 1 and 2). Then `f` acts. A FAULT-ACK whose frame itself ends the silence cause so finds TOOL_SILENT (2) gone from ACTIVE
before it releases LOCK (0) or OVERDRAW (1): R154 has the conditions that one event changes handled in ascending number, R40
has the timer restarted and the frame then handed on; the order is the model's choice (log 11). -/
def Part.request (code : Byte) (least most : Nat) (whileParked : Bool) (words : List Word) (f : Part → Part) (p : Part) :
    Part :=
  if p.ctl.loading then p
  else
    let p1 := p.restartSilence
    match p1.mgmt.request with
    | some _ => p1.busy code
    | none =>
      let p2 := p1.setRequest (some (.new code words))
      if words.length < least ∨ most < words.length then p2.refuseWith code .invalid
      else if p2.mgmt.parked && !whileParked then p2.refuseWith code .wrongState
      else f p2

/-- A request that fails the shape check (R164 check 1): an unknown code, a payload length of no valid request, or a RESET
with parameter words. While a request is in flight it is refused BUSY without being examined (R163), but for a RESET, which
is taken whenever it arrives and so fails its check (R173): INVALID, with nothing changed. That this response goes to lane 0,
since the response slot belongs to the request in flight, is the model's choice, as it is that a payload of a length of no
valid request whose first byte is RESET's code counts as a RESET there, not as another request that is BUSY (log 15). -/
def Part.badShape (code : Byte) (p : Part) : Part :=
  if p.ctl.loading then p
  else
    let p1 := p.restartSilence
    match p1.mgmt.request with
    | some _ => if code = codeReset then p1.place .l0 (response code .invalid []) else p1.busy code
    | none => (p1.setRequest (some (.new code []))).refuseWith code .invalid

end Sys2Proof.Machine
end

