-- ==== Sys2Proof/Machine/Reports.lean ====
section
/-! DEFINITION. Report requests: DESCRIBE, SOCKET-REPORT, FAULT-REPORT, TABLE-READ (R165 to R168). -/

namespace Sys2Proof.Machine

def codeDescribe : Byte := 0x01
def codeSocketReport : Byte := 0x02
def codeFaultReport : Byte := 0x03
def codeTableRead : Byte := 0x06

/-! ## DESCRIBE (R165) -/

/-- The words of Table 10.3. -/
def Part.describeWords (p : Part) : List Word :=
  [0x0C4A0104, 0x10202010, 0x0100040D, 0x08101008,
   byteWord (byteOf (flagSet [p.mgmt.parked, p.classifier.editing, p.mgmt.superseded]))]

/-- DESCRIBE at the management unit. -/
def Part.onDescribe (words : List Word) (p : Part) : Part :=
  Part.request codeDescribe 0 0 true words (fun p =>
    (p.respond codeDescribe .done p.describeWords).setMgmt
      { (p.respond codeDescribe .done p.describeWords).mgmt with superseded := false }) p

/-- DESCRIBE. -/
def execDescribe (words : List Word) (s : State) : Host.Outcome State Fault Refusal :=
  s.onPart (Part.onDescribe words)

/-! ## SOCKET-REPORT (R166) -/

/-- A signed number as a byte. -/
def signedByte (t : Int) : Byte := BitVec.ofInt 8 t

/-- Page 0: identity and verdict. -/
def Part.reportPage0 (p : Part) (n : Socket) : List Word :=
  let x := p.session n
  let i : Identity := x.identity.getD ⟨0, 0, 0, 0, 0⟩
  [Word.ofBytes (byteOf x.state.code) (byteOf (p.link n).state.code) (byteOf (reasonCode x.reason))
      (byteOf (p.link n).errors),
   i.serial,
   Word.ofBytes i.family i.generation i.classCode (p.reportFlags n),
   Word.ofHalves i.cycles (byteOf x.attempts ++ byteOf x.breaks)]

/-- Page 1: grant and telemetry. -/
def Part.reportPage1 (p : Part) (n : Socket) : List Word :=
  let x := p.session n
  let t : Telemetry := x.telemetry.getD ⟨0, 0, 0, 0⟩
  let age : Nat := match x.telemetry with
    | some t => t.age p.clock
    | none => 0
  [Word.ofBytes (byteOf x.state.code) (byteOf (p.link n).state.code) (p.reportFlags n) 0,
   Word.ofHalves (halfOf (p.grants.grant.get n)) (halfOf (p.grants.published.get n)),
   Word.ofBytesHalf (signedByte t.temperature) (signedByte (x.peak.getD 0)) (halfOf age),
   Word.ofHalves t.allowance t.cellMin]

/-- The checked SOCKET-REPORT. -/
def Part.socketReport (w : Word) (p : Part) : Part :=
  match socketOf (Word.byte w 0) with
  | none => p.refuseWith codeSocketReport .invalid
  | some n =>
    if Word.byte w 1 = 0 then p.respond codeSocketReport .done (p.reportPage0 n)
    else if Word.byte w 1 = 1 then p.respond codeSocketReport .done (p.reportPage1 n)
    else p.refuseWith codeSocketReport .invalid

/-- SOCKET-REPORT at the management unit. -/
def Part.onSocketReport (words : List Word) (p : Part) : Part :=
  Part.request codeSocketReport 1 1 false words (Part.socketReport (param words 0)) p

/-- SOCKET_REPORT. -/
def execSocketReport (words : List Word) (s : State) : Host.Outcome State Fault Refusal :=
  s.onPart (Part.onSocketReport words)

/-! ## FAULT-REPORT (R167) -/

/-- The three words of FAULT-REPORT. -/
def Part.faultWords (p : Part) : List Word :=
  let m := p.fault.map
  [Word.ofBytes (p.condMask .active) (p.condMask .held) p.permitMask p.causeMask,
   Word.ofBytes m.lock.byte m.overdraw.byte m.toolSilent.byte m.overheat.byte,
   Word.ofBytes m.massFail.byte m.trustBase.byte m.clone.byte m.store.byte]

/-- FAULT-REPORT at the management unit. -/
def Part.onFaultReport (words : List Word) (p : Part) : Part :=
  Part.request codeFaultReport 0 0 false words (fun p => p.respond codeFaultReport .done p.faultWords) p

/-- FAULT_REPORT. -/
def execFaultReport (words : List Word) (s : State) : Host.Outcome State Fault Refusal :=
  s.onPart (Part.onFaultReport words)

/-! ## TABLE-READ (R168) -/

/-- The state code of a key slot (Table 1.16). -/
def slotState : Option KeyEntry → Byte
  | none => 0
  | some e => if e.retired then 2 else 1

/-- A key slot without its key. -/
def Trust.slotWord (t : Trust) (k : Fin 16) : Word :=
  match t.keys[k] with
  | none => Word.ofBytes 0 0 0 t.edits[k]
  | some e => Word.ofBytes (slotState (some e)) e.family e.generation t.edits[k]

/-- The three words of a rule, the table state in byte 1 of the last. -/
def Part.ruleWords (p : Part) (i : Fin 32) : List Word :=
  match Rule.words (byteOf i.val) p.classifier.rules[i] with
  | [w1, w2, w3] => [w1, w2, Word.ofBytes (Word.byte w3 0) (flagByte p.classifier.editing) 0 0]
  | ws => ws

/-- The checked TABLE-READ. -/
def Part.tableRead (w : Word) (p : Part) : Part :=
  let table := (Word.byte w 0).toNat
  let index := Word.byte w 1
  if table = 1 then
    match slotOf index with
    | none => p.refuseWith codeTableRead .invalid
    | some k => p.respond codeTableRead .done [p.trust.slotWord k]
  else if table = 2 then
    match indexOf index with
    | none => p.refuseWith codeTableRead .invalid
    | some i => p.respond codeTableRead .done (classWords p.trust.classes[i])
  else if table = 3 then
    match p.trust.withdrawn[index.toNat]? with
    | none => p.refuseWith codeTableRead .absent
    | some x => p.respond codeTableRead .done [x, Word.ofHalves (halfOf p.trust.withdrawn.length) 0]
  else if table = 4 then
    match indexOf index with
    | none => p.refuseWith codeTableRead .invalid
    | some i => p.respond codeTableRead .done (p.ruleWords i)
  else p.refuseWith codeTableRead .invalid

/-- TABLE-READ at the management unit. -/
def Part.onTableRead (words : List Word) (p : Part) : Part :=
  Part.request codeTableRead 1 1 false words (Part.tableRead (param words 0)) p

/-- TABLE_READ. -/
def execTableRead (words : List Word) (s : State) : Host.Outcome State Fault Refusal :=
  s.onPart (Part.onTableRead words)

end Sys2Proof.Machine
end

