-- ==== Sys2Proof/Machine/SettingRequests.lean ====
section
/-! DEFINITION. SETTING-READ, SETTING-WRITE, MAP-WRITE, FAULT-ACK (R169 to R171, R157, R158). -/

namespace Sys2Proof.Machine

def codeSettingRead : Byte := 0x04
def codeFaultAck : Byte := 0x29

/-! ## SETTING-READ (R169) -/

/-- The checked SETTING-READ. -/
def Part.settingRead (w : Word) (p : Part) : Part :=
  let id := (Word.byte w 0).toNat
  if 12 < id then p.refuseWith codeSettingRead .invalid
  else p.respond codeSettingRead .done
    [Word.ofHalves (halfOf (p.settings.value id)) (halfOf (p.ctl.storedSettings.value id))]

/-- SETTING-READ at the management unit. -/
def Part.onSettingRead (words : List Word) (p : Part) : Part :=
  Part.request codeSettingRead 1 1 false words (Part.settingRead (param words 0)) p

/-- SETTING_READ. -/
def execSettingRead (words : List Word) (s : State) : Host.Outcome State Fault Refusal :=
  s.onPart (Part.onSettingRead words)

/-! ## SETTING-WRITE (R170, R171) -/

/-- The values that the status decimation setting takes. -/
def decimationOk (v : Nat) : Bool := v == 0 || v == 1 || v == 2 || v == 4 || v == 8 || v == 16

/-- A value brought into the range of Table 10.4, or `none` where it is refused. -/
def settingValue (id v : Nat) : Option Nat :=
  match id with
  | 0 => if v ≤ 1 then some v else none
  | 1 => some (min v 8000)
  | 2 => some (min v 100)
  | 3 => some (min v 100)
  | 4 => some (max 2 (min v 31))
  | 5 => some (min v 255)
  | 6 => some (min v 50)
  | 7 => some (min v 100)
  | 8 => some (if v = 0 then 0 else max 10 (min v 250))
  | 9 => if decimationOk v then some v else none
  | 10 => if v ≤ 1 then some v else none
  | 11 => if v ≤ 1 then some v else none
  | 12 => some (max 1 (min v 15))
  | _ => none

/-- The runtime settings replaced. -/
def Part.setSettings (p : Part) (x : Settings) : Part := p.setMgmt { p.mgmt with settings := x }

/-- The recovery timer of a link after halt recovery has been written (R34): AUTO starts one that does not run, MANUAL
stops it. What a write of AUTO that changes nothing does to a running timer is left open between R34 and R170: the model lets
it run on (log 37). -/
def Part.haltRecoveryWritten (n : Socket) (p : Part) : Part :=
  if p.settings.haltRecovery = 0 then
    (match (p.link n).recovery with
      | none => p.startRecovery n
      | some _ => p)
  else p.setLink n { p.link n with recovery := none }

/-- A running hold timer under a new window (R136). -/
def Part.holdWritten (n : Socket) (p : Part) : Part := if p.holdElapsed n then p.holdExpiry n else p

/-- The effect of a write in the setting's reader (R170). -/
def Part.settingTakesEffect (p : Part) (id : Nat) : Part :=
  match id with
  | 0 => p.recompute
  | 1 => p.recompute
  | 2 => p.recompute
  | 3 => p.recompute
  | 5 => forSockets Part.recomputeRecheck p
  | 6 => forSockets Part.holdWritten p
  | 8 => p.startAggregateTimer
  | 9 => p.clearDecim
  | 10 => forSockets Part.haltRecoveryWritten p
  | _ => p

/-- A valid SETTING-WRITE: the runtime copy, its effect, then the answer or the store job (R170). -/
def Part.writeSetting (p : Part) (id v : Nat) (store : Bool) : Part :=
  let p1 := (p.setSettings (p.settings.set id v)).settingTakesEffect id
  if store then p1.queueJob (.table (.settingWrite id v (p1.ctl.storedSettings.set id v) p1.ctl.storedMap))
  else (p1.respond codeSettingWrite .done [Word.ofHalves (halfOf v) 0]).log (tableChange 5 1 id)

/-- The refusal of a decimation value outside its set (R171; log 16). -/
def Part.refuseDecimation (p : Part) : Part :=
  ((p.setSettings (p.settings.set 9 0)).clearDecim).refuseWith codeSettingWrite .invalid

/-- The checked SETTING-WRITE. -/
def Part.settingWrite (w : Word) (p : Part) : Part :=
  let id := (Word.byte w 0).toNat
  let v := (Word.lo w).toNat
  if id = 9 ∧ decimationOk v = false then p.refuseDecimation
  else
    match settingValue id v, yesNo (Word.byte w 1) with
    | some v', some store => p.writeSetting id v' store
    | _, _ => p.refuseWith codeSettingWrite .invalid

/-- SETTING-WRITE at the management unit. -/
def Part.onSettingWrite (words : List Word) (p : Part) : Part :=
  Part.request codeSettingWrite 1 1 false words (Part.settingWrite (param words 0)) p

/-- SETTING_WRITE. -/
def execSettingWrite (words : List Word) (s : State) : Host.Outcome State Fault Refusal :=
  s.onPart (Part.onSettingWrite words)

/-! ## MAP-WRITE (R157) -/

/-- An entry of the runtime map replaced, the permit lines re-evaluated. -/
def Part.setMapEntry (p : Part) (c : Cond) (e : MapEntry) : Part :=
  (p.setFault { p.fault with map := p.fault.map.set c e }).evalPermits

/-- A valid MAP-WRITE (R157). -/
def Part.writeMap (p : Part) (c : Cond) (e : MapEntry) (store : Bool) : Part :=
  let p1 := p.setMapEntry c e
  if store then p1.queueJob (.table (.mapWrite c p1.ctl.storedSettings p1.fault.map))
  else (p1.respond codeMapWrite .done [byteWord (byteOf (p1.fault.conds.get c).code)]).log
    (tableChange 6 1 c.number)

/-- The checked MAP-WRITE. -/
def Part.mapWrite (w1 w2 : Word) (p : Part) : Part :=
  match Cond.ofNumber (Word.byte w1 0).toNat, yesNo (Word.byte w1 2), yesNo (Word.byte w1 3), yesNo (Word.byte w2 0) with
  | some c, some latch, some advise, some store =>
    if 15 < (Word.byte w1 1).toNat then p.refuseWith codeMapWrite .invalid
    else p.writeMap c { mask := (Word.byte w1 1).setWidth 4, latch := latch, advise := advise } store
  | _, _, _, _ => p.refuseWith codeMapWrite .invalid

/-- MAP-WRITE at the management unit. -/
def Part.onMapWrite (words : List Word) (p : Part) : Part :=
  Part.request codeMapWrite 2 2 false words (Part.mapWrite (param words 0) (param words 1)) p

/-- MAP_WRITE. -/
def execMapWrite (words : List Word) (s : State) : Host.Outcome State Fault Refusal :=
  s.onPart (Part.onMapWrite words)

/-! ## FAULT-ACK (R158) -/

/-- A HELD condition named by the mask taken to INACTIVE. -/
def Part.ackCond (mask : Byte) (p : Part) (c : Cond) : Part :=
  if mask.getLsbD c.number && p.fault.conds.get c == .held then p.changeCond c .inactive else p

/-- The checked FAULT-ACK. -/
def Part.faultAck (w : Word) (p : Part) : Part :=
  let mask := Word.byte w 0
  let p1 := Cond.all.foldl (Part.ackCond mask) p
  p1.respond codeFaultAck .done
    [Word.ofBytes (mask &&& p.condMask .held) (p1.condMask .active) (p1.condMask .held) 0]

/-- FAULT-ACK at the management unit. -/
def Part.onFaultAck (words : List Word) (p : Part) : Part :=
  Part.request codeFaultAck 1 1 false words (Part.faultAck (param words 0)) p

/-- FAULT_ACK. -/
def execFaultAck (words : List Word) (s : State) : Host.Outcome State Fault Refusal :=
  s.onPart (Part.onFaultAck words)

end Sys2Proof.Machine
end

