-- ==== Sys2Proof/Machine/TableRequests.lean ====
section
/-! DEFINITION. Requests that edit or query the trust tables and the rule table (R113 to R127, R66 to R68). -/

namespace Sys2Proof.Machine

def codeWithdrawQuery : Byte := 0x1A
def codeRulesEdit : Byte := 0x20
def codeRuleWrite : Byte := 0x21

/-- A table job handed to the store controller (R113 step 2). -/
def Part.tableJob (p : Part) (j : TableJob) : Part := p.queueJob (.table j)

/-! ## Key requests (R114, R116, R117) -/

/-- Whether another slot than `k` holds a pair (R114). -/
def Trust.pairElsewhere (t : Trust) (k : Fin 16) (family generation : Byte) : Bool :=
  allSlots.any fun i => i != k && t.holdsPair family generation i

/-- The key entry of a KEY-WRITE, or `none` when a field is out of range (R114). -/
def keyEntryOf (w1 w2 w3 : Word) : Option KeyEntry :=
  let family := Word.byte w1 1
  if family = 0 ∨ family = 255 ∨ w2.toNat < 2 ∨ 2147483646 < w2.toNat ∨ 2147483646 < w3.toNat then none
  else some { retired := false, family := family, generation := Word.byte w1 2, ka := w2, kb := w3 }

/-- The checked KEY-WRITE. -/
def Part.keyWrite (w1 w2 w3 : Word) (p : Part) : Part :=
  match slotOf (Word.byte w1 0), keyEntryOf w1 w2 w3 with
  | some k, some e =>
    if p.trust.pairElsewhere k e.family e.generation then p.refuseWith codeKeyWrite .invalid
    else p.tableJob (.keyWrite k e)
  | _, _ => p.refuseWith codeKeyWrite .invalid

/-- KEY-WRITE at the management unit. -/
def Part.onKeyWrite (words : List Word) (p : Part) : Part :=
  Part.request codeKeyWrite 3 3 false words (Part.keyWrite (param words 0) (param words 1) (param words 2)) p

/-- KEY_WRITE. -/
def execKeyWrite (words : List Word) (s : State) : Host.Outcome State Fault Refusal :=
  s.onPart (Part.onKeyWrite words)

/-- The checked KEY-RETIRE. -/
def Part.keyRetire (w : Word) (p : Part) : Part :=
  match slotOf (Word.byte w 0) with
  | none => p.refuseWith codeKeyRetire .invalid
  | some k =>
    match p.trust.keys[k] with
    | none => p.refuseWith codeKeyRetire .absent
    | some e => if e.retired then p.respond codeKeyRetire .done [] else p.tableJob (.keyRetire k)

/-- KEY-RETIRE at the management unit. -/
def Part.onKeyRetire (words : List Word) (p : Part) : Part :=
  Part.request codeKeyRetire 1 1 false words (Part.keyRetire (param words 0)) p

/-- KEY_RETIRE. -/
def execKeyRetire (words : List Word) (s : State) : Host.Outcome State Fault Refusal :=
  s.onPart (Part.onKeyRetire words)

/-- The checked KEY-ERASE. -/
def Part.keyErase (w : Word) (p : Part) : Part :=
  match slotOf (Word.byte w 0) with
  | none => p.refuseWith codeKeyErase .invalid
  | some k =>
    match p.trust.keys[k] with
    | none => p.refuseWith codeKeyErase .absent
    | some _ => p.tableJob (.keyErase k)

/-- KEY-ERASE at the management unit. -/
def Part.onKeyErase (words : List Word) (p : Part) : Part :=
  Part.request codeKeyErase 1 1 false words (Part.keyErase (param words 0)) p

/-- KEY_ERASE. -/
def execKeyErase (words : List Word) (s : State) : Host.Outcome State Fault Refusal :=
  s.onPart (Part.onKeyErase words)

/-! ## Class requests (R120, R122) -/

/-- Whether another index than `i` holds a class code (R120). -/
def Trust.codeElsewhere (t : Trust) (i : Fin 32) (code : Byte) : Bool :=
  allIndices.any fun j => j != i && t.holdsCode code j

/-- Whether a class entry's fields are in range (R120). -/
def ClassEntry.inRange (e : ClassEntry) : Bool :=
  decide (e.code ≠ 0 ∧ e.code ≠ 255 ∧ 1 ≤ e.ic.toNat ∧ e.ic.toNat ≤ 2000 ∧ -40 ≤ e.tk ∧ e.tk ≤ 124 ∧ e.tk < e.tc ∧
    e.tc ≤ 125 ∧ 2000 ≤ e.cellFloor.toNat ∧ e.cellFloor.toNat ≤ 4000)

/-- The checked CLASS-WRITE. -/
def Part.classWrite (w1 w2 w3 : Word) (p : Part) : Part :=
  match indexOf (Word.byte w1 0) with
  | none => p.refuseWith codeClassWrite .invalid
  | some i =>
    let e := ClassEntry.ofWords w1 w2 w3
    if e.inRange && !p.trust.codeElsewhere i e.code then p.tableJob (.classWrite i e)
    else p.refuseWith codeClassWrite .invalid

/-- CLASS-WRITE at the management unit. -/
def Part.onClassWrite (words : List Word) (p : Part) : Part :=
  Part.request codeClassWrite 3 3 false words (Part.classWrite (param words 0) (param words 1) (param words 2)) p

/-- CLASS_WRITE. -/
def execClassWrite (words : List Word) (s : State) : Host.Outcome State Fault Refusal :=
  s.onPart (Part.onClassWrite words)

/-- The checked CLASS-ERASE. -/
def Part.classErase (w : Word) (p : Part) : Part :=
  match indexOf (Word.byte w 0) with
  | none => p.refuseWith codeClassErase .invalid
  | some i =>
    match p.trust.classes[i] with
    | none => p.refuseWith codeClassErase .absent
    | some _ => p.tableJob (.classErase i)

/-- CLASS-ERASE at the management unit. -/
def Part.onClassErase (words : List Word) (p : Part) : Part :=
  Part.request codeClassErase 1 1 false words (Part.classErase (param words 0)) p

/-- CLASS_ERASE. -/
def execClassErase (words : List Word) (s : State) : Host.Outcome State Fault Refusal :=
  s.onPart (Part.onClassErase words)

/-! ## Withdrawal list requests (R124, R126, R127) -/

/-- The serials of a request that are not in the list, each counted once, in the order the request carries them (R124). -/
def newSerials (list : List Word) : List Word → List Word
  | [] => []
  | x :: xs => if list.contains x then newSerials list xs else x :: newSerials (x :: list) xs

/-- The checked WITHDRAW-ADD. -/
def Part.withdrawAdd (words : List Word) (p : Part) : Part :=
  if words.all validSerial then
    let new := newSerials p.trust.withdrawn words
    match new with
    | [] => (p.respond codeWithdrawAdd .done [p.listWord 0]).log (tableChange 3 4 0)
    | _ :: _ =>
      if 256 < p.trust.withdrawn.length + new.length then p.refuseWith codeWithdrawAdd .full
      else p.tableJob (.withdrawAdd new)
  else p.refuseWith codeWithdrawAdd .invalid

/-- WITHDRAW-ADD at the management unit. -/
def Part.onWithdrawAdd (words : List Word) (p : Part) : Part :=
  Part.request codeWithdrawAdd 1 3 false words (Part.withdrawAdd words) p

/-- WITHDRAW_ADD. -/
def execWithdrawAdd (words : List Word) (s : State) : Host.Outcome State Fault Refusal :=
  s.onPart (Part.onWithdrawAdd words)

/-- WITHDRAW-CLEAR at the management unit (R126). -/
def Part.onWithdrawClear (words : List Word) (p : Part) : Part :=
  Part.request codeWithdrawClear 0 0 false words (fun p => p.tableJob .withdrawClear) p

/-- WITHDRAW_CLEAR. -/
def execWithdrawClear (words : List Word) (s : State) : Host.Outcome State Fault Refusal :=
  s.onPart (Part.onWithdrawClear words)

/-- The checked WITHDRAW-QUERY (R127). -/
def Part.withdrawQuery (w : Word) (p : Part) : Part :=
  if validSerial w then
    p.respond codeWithdrawQuery .done [p.listWord (flagByte (p.trust.withdrawn.contains w))]
  else p.refuseWith codeWithdrawQuery .invalid

/-- WITHDRAW-QUERY at the management unit. -/
def Part.onWithdrawQuery (words : List Word) (p : Part) : Part :=
  Part.request codeWithdrawQuery 1 1 false words (Part.withdrawQuery (param words 0)) p

/-- WITHDRAW_QUERY. -/
def execWithdrawQuery (words : List Word) (s : State) : Host.Outcome State Fault Refusal :=
  s.onPart (Part.onWithdrawQuery words)

/-! ## Rule table requests (R66 to R68) -/

/-- RULES-EDIT: the table set aside (R66). -/
def Part.rulesEdit (p : Part) : Part :=
  (p.setClassifier { p.classifier with editing := true }).respond codeRulesEdit .done [byteWord 1]

/-- RULES-EDIT at the management unit. -/
def Part.onRulesEdit (words : List Word) (p : Part) : Part :=
  Part.request codeRulesEdit 0 0 false words Part.rulesEdit p

/-- RULES_EDIT. -/
def execRulesEdit (words : List Word) (s : State) : Host.Outcome State Fault Refusal :=
  s.onPart (Part.onRulesEdit words)

/-- The checked RULE-WRITE (R67). -/
def Part.ruleWrite (w1 w2 w3 : Word) (p : Part) : Part :=
  match indexOf (Word.byte w1 0), Rule.ofWords w1 w2 w3 with
  | some i, some r =>
    if p.classifier.editing then
      (p.setClassifier { p.classifier with rules := p.classifier.rules.set i r }).respond codeRuleWrite .done []
    else p.refuseWith codeRuleWrite .wrongState
  | _, _ => p.refuseWith codeRuleWrite .invalid

/-- RULE-WRITE at the management unit. -/
def Part.onRuleWrite (words : List Word) (p : Part) : Part :=
  Part.request codeRuleWrite 3 3 false words (Part.ruleWrite (param words 0) (param words 1) (param words 2)) p

/-- RULE_WRITE. -/
def execRuleWrite (words : List Word) (s : State) : Host.Outcome State Fault Refusal :=
  s.onPart (Part.onRuleWrite words)

/-- Whether an enabled rule cannot stand in a LIVE table (R68). -/
def Rule.invalid (r : Rule) : Bool :=
  r.enabled && (2 < r.lane.toNat || (r.action == .answer && (r.direction != .down || r.kind != some kindPoll)) ||
    (match r.kind with
      | none => false
      | some k => neverRelayed k))

/-- The index of the first invalid rule (R68). -/
def Classifier.firstInvalid (x : Classifier) : Option (Fin 32) := allIndices.find? fun i => x.rules[i].invalid

/-- The checked RULES-APPLY (R68). -/
def Part.rulesApply (p : Part) : Part :=
  if p.classifier.editing then
    match p.classifier.firstInvalid with
    | some i => p.respond codeRulesApply .invalid [BitVec.ofNat 32 i.val]
    | none => p.tableJob (.rulesApply p.classifier.rules)
  else p.refuseWith codeRulesApply .wrongState

/-- RULES-APPLY at the management unit. -/
def Part.onRulesApply (words : List Word) (p : Part) : Part :=
  Part.request codeRulesApply 0 0 false words Part.rulesApply p

/-- RULES_APPLY. -/
def execRulesApply (words : List Word) (s : State) : Host.Outcome State Fault Refusal :=
  s.onPart (Part.onRulesApply words)

end Sys2Proof.Machine
end

