-- ==== Sys2Proof/Machine/ControlRequests.lean ====
section
/-! DEFINITION. SOCKET-RESTART, AUDIT and its completion, LOG-START, LOG-NEXT (R36, R95 to R100, R182). -/

namespace Sys2Proof.Machine

def codeSocketRestart : Byte := 0x30
def codeLogStart : Byte := 0x38
def codeLogNext : Byte := 0x39

/-! ## SOCKET-RESTART (R36) -/

/-- The checked SOCKET-RESTART. -/
def Part.socketRestart (w : Word) (p : Part) : Part :=
  match socketOf (Word.byte w 0) with
  | none => p.refuseWith codeSocketRestart .invalid
  | some n =>
    let p1 := Part.restartSocket n p
    p1.respond codeSocketRestart .done [byteWord (byteOf (p1.link n).state.code)]

/-- SOCKET-RESTART at the management unit. -/
def Part.onSocketRestart (words : List Word) (p : Part) : Part :=
  Part.request codeSocketRestart 1 1 false words (Part.socketRestart (param words 0)) p

/-- SOCKET_RESTART. -/
def execSocketRestart (words : List Word) (s : State) : Host.Outcome State Fault Refusal :=
  s.onPart (Part.onSocketRestart words)

/-! ## AUDIT (R95, R97) -/

/-- The audit as it is created: sockets outside the mask SKIPPED, the others without a result (R95). -/
def Audit.new (mask : BitVec 4) (oneAtATime withdraw : Bool) : Audit :=
  { mask := mask, oneAtATime := oneAtATime, withdraw := withdraw,
    results := .ofFn fun n => if mask.getLsbD n.val then none else some .skipped,
    reached := .all false, serials := .all none, phase := .collecting, withdrawnCount := 0, mass := false,
    full := false, failed := false }

/-- The checked AUDIT: it completes at once when nothing is left to challenge or to withdraw (R95, R162). -/
def Part.audit (w : Word) (p : Part) : Part :=
  match yesNo (Word.byte w 1), yesNo (Word.byte w 2) with
  | some one, some wd =>
    if 15 < (Word.byte w 0).toNat then p.refuseWith codeAudit .invalid
    else ((p.setAudit (some (.new ((Word.byte w 0).setWidth 4) one wd))).auditProgress).auditFinish
  | _, _ => p.refuseWith codeAudit .invalid

/-- AUDIT at the management unit. -/
def Part.onAudit (words : List Word) (p : Part) : Part :=
  Part.request codeAudit 1 1 false words (Part.audit (param words 0)) p

/-- AUDIT. -/
def execAudit (words : List Word) (s : State) : Host.Outcome State Fault Refusal := s.onPart (Part.onAudit words)

/-- AUDIT_COMPLETE (R100). -/
def execAuditComplete (s : State) : Host.Outcome State Fault Refusal := s.onPart Part.auditFinish

/-! ## LOG-START and LOG-NEXT (R182) -/

/-- The result words of a log read: read flags, number of log words, the log words. -/
def logWords (moved : Bool) (ws : List Word) : List Word :=
  Word.ofBytes (byteOf (flagSet [decide (ws.length < 4), moved])) (byteOf ws.length) 0 0 :: ws

/-- The read cursor set. -/
def Part.setCursor (p : Part) (c : Option LogPos) : Part := p.setCtl { p.ctl with cursor := c }

/-- Log words read from a cursor, which is left after them, and the response (R182). -/
def Part.readFrom (a : StoreArray) (code : Byte) (moved : Bool) (c : LogPos) (p : Part) : Part :=
  (p.setCursor (some (readLog a 9 4 c).2)).respond code .done (logWords moved (readLog a 9 4 c).1)

/-- LOG-START (R182). -/
def Part.logStart (a : StoreArray) (p : Part) : Part :=
  Part.readFrom a codeLogStart false (oldestEntry a p.ctl.logPos) p

/-- LOG-START at the management unit. -/
def Part.onLogStart (a : StoreArray) (words : List Word) (p : Part) : Part :=
  Part.request codeLogStart 0 0 true words (Part.logStart a) p

/-- LOG_START. -/
def execLogStart (words : List Word) (s : State) : Host.Outcome State Fault Refusal :=
  s.onPart (Part.onLogStart s.array words)

/-- LOG-NEXT (R182). A reused cursor moves to the oldest committed entry. R182 does not say where it moves when the log holds
none: the model takes the place that LOG-START would take, the write position or sector 0, offset 1 (log 35). -/
def Part.logNext (a : StoreArray) (p : Part) : Part :=
  match p.ctl.cursor with
  | none => p.refuseWith codeLogNext .wrongState
  | some c =>
    if cursorReused a p.ctl.logPos c then Part.readFrom a codeLogNext true (oldestEntry a p.ctl.logPos) p
    else Part.readFrom a codeLogNext false c p

/-- LOG-NEXT at the management unit. -/
def Part.onLogNext (a : StoreArray) (words : List Word) (p : Part) : Part :=
  Part.request codeLogNext 0 0 true words (Part.logNext a) p

/-- LOG_NEXT. -/
def execLogNext (words : List Word) (s : State) : Host.Outcome State Fault Refusal :=
  s.onPart (Part.onLogNext s.array words)

end Sys2Proof.Machine
end

