-- ==== Sys2Proof/Machine/Reset.lean ====
section
/-! DEFINITION. PARK, RESET, the in-band reset, cold start, the end of loading, and the cut of power or RESETn (R172 to R174,
R160, R179, R183). -/

namespace Sys2Proof.Machine

/-! ## PARK (R172) -/

/-- The jobs in progress and queued, oldest first. -/
def StoreCtl.jobs (c : StoreCtl) : List Job := c.job.toList ++ c.queue

/-- PARKED entered in every block (R38, R52, R102, R142, R145, R172). -/
def Part.enterParked (p : Part) : Part :=
  let p1 := forSockets Part.parkLink (p.setMgmt { p.mgmt with parked := true })
  (forSockets (fun n p => p.endSession n) (p1.setOverdraw none)).evalPermits

/-- The number of jobs that the request in flight waits for. -/
def Part.setWait (p : Part) (k : Nat) : Part :=
  p.setMgmt { p.mgmt with request := match p.mgmt.request with
    | none => none
    | some q => some { q with wait := k } }

/-- PARK: PARKED is entered, and the request waits for the jobs that stand in the queue at that moment, the job in progress
among them (R172; log 13). A renewal that fell due behind a watermark job in progress is queued only when that job ends (R108):
R172 and R183 do not have PARK wait for it, R110 has a PARKED part hold equal watermarks; not to wait is the model's choice
(log 13). -/
def Part.park (p : Part) : Part :=
  let p1 := p.enterParked
  if p1.ctl.jobs.length = 0 then p1.respond codePark .done [] else p1.setWait p1.ctl.jobs.length

/-- PARK at the management unit. -/
def Part.onPark (words : List Word) (p : Part) : Part := Part.request codePark 0 0 false words Part.park p

/-- PARK. -/
def execPark (words : List Word) (s : State) : Host.Outcome State Fault Refusal := s.onPart (Part.onPark words)

/-- Whether the request in flight has this code, runs, and waits for no further job. -/
def Part.waited (p : Part) (code : Byte) : Bool :=
  match p.mgmt.request with
  | none => false
  | some q => p.running code && q.wait == 0

/-- Whether a job that the request in flight waited for has failed. -/
def Part.waitFailed (p : Part) : Bool :=
  match p.mgmt.request with
  | none => false
  | some q => q.waitFailed

/-- The completion of PARK (R172). -/
def Part.parkDone (p : Part) : Part :=
  if p.waited codePark then p.respond codePark (if p.waitFailed then .storeFault else .done) [] else p

/-- PARK_COMPLETE. -/
def execParkComplete (s : State) : Host.Outcome State Fault Refusal := s.onPart Part.parkDone

/-! ## RESET (R173, R174) -/

/-- How many jobs, oldest first, end before the last of those that RESET waits for has ended: log entries, and a table job
in progress. A watermark job behind the last of them is not waited for (R174, R176). -/
def waitedJobs : List Job → Nat
  | [] => 0
  | j :: js =>
    match waitedJobs js with
    | 0 => if j.isWatermark then 0 else 1
    | k + 1 => k + 2

/-- The superseding of the request in flight: its queued table job withdrawn, the superseded flag set (R129, R173). -/
def Part.supersede (p : Part) : Part :=
  (p.setCtl { p.ctl with queue := p.ctl.queue.filter fun j => !j.isTable }).setMgmt
    { p.mgmt with superseded := p.mgmt.superseded || p.mgmt.request.isSome }

/-- RESET as it is taken. -/
def Part.takeReset (p : Part) : Part :=
  let p1 := p.supersede
  p1.setRequest (some { Request.new codeReset [] with wait := waitedJobs p1.ctl.jobs })

/-- RESET at the management unit: taken whenever it arrives, once loading has finished (R173). -/
def Part.onReset (words : List Word) (p : Part) : Part :=
  match words with
  | [] => if p.ctl.loading then p else p.restartSilence.takeReset
  | _ :: _ => p.badShape codeReset

/-- RESET. -/
def execReset (words : List Word) (s : State) : Host.Outcome State Fault Refusal := s.onPart (Part.onReset words)

/-! ## The in-band reset (R174) -/

/-- The runtime settings and map set from their stored copies when revert on reset is YES (R160 step 1, R174). -/
def Part.revert (p : Part) : Part :=
  if p.settings.revertOnReset = 1 then
    (p.setSettings p.ctl.storedSettings).setFault { p.fault with map := p.ctl.storedMap }
  else p

/-- The sessions ended, the audit abandoned, the recent-refusal table emptied, the links re-evaluated (R37, R101, R102). -/
def Part.resetSockets (p : Part) : Part :=
  let p1 := (p.setAudit none).setRecent []
  forSockets Part.resetLink (forSockets Part.endSessionSilently
    (forSockets (fun n p => p.setLink n (p.link n).cleared) p1))

/-- The lanes and the response slot emptied, the silence timer restarted (R51). -/
def Part.resetTlp (p : Part) : Part :=
  p.setTlp { p.tlp with lane0 := [], lane1 := [], lane2 := [], response := none, silence := some (p.clock + silenceTime) }

/-- An EDITING rule table reloaded from the rules region, the decimation counters at 0 (R71). R71 has a STORE_BAD entry for a
region that fails its check; R175 exempts a blank region, which it judges at cold start: that a blank region makes no entry
here either is the model's choice (log 40). -/
def Part.resetRules (a : StoreArray) (p : Part) : Part :=
  if p.classifier.editing then
    (storeBads a [.rules] p).setClassifier { rules := loadRules a, editing := false, decim := .all 0 }
  else p.clearDecim

/-- The grant calculator's values at 0 and its timers cleared, the aggregate timer started (R151). -/
def Part.resetGrants (p : Part) : Part := (p.setGrants Grants.initial).startAggregateTimer

/-- The causes that the reset makes absent, recorded (R160 step 3). -/
def Part.resetCauses (p : Part) : Part :=
  p.recordCauses { p.fault.causes with overdraw := false, silent := false, overheat := false }

/-- A condition whose cause is present taken to ACTIVE (R159, R160 step 4). -/
def Part.raisePresent (p : Part) (c : Cond) : Part := if p.fault.causes.present c then p.raiseCond c else p

/-- Every condition set INACTIVE and those whose cause is present taken to ACTIVE, in ascending number (R159, R160). -/
def Part.resetConditions (p : Part) : Part :=
  Cond.all.foldl Part.raisePresent (p.setFault { p.fault with conds := .all .inactive }).evalPermits

/-- The in-band reset performed in every block, and RESET's completion (R174; log 20). -/
def Part.performReset (a : StoreArray) (p : Part) : Part :=
  let p1 := (Part.resetRules a p.revert.resetSockets.resetTlp).resetGrants.resetCauses
  let p2 := (p1.setMgmt { p1.mgmt with parked := false }).setCursor none
  (p2.respond codeReset .done []).resetConditions.sendAggregate

/-- The in-band reset when RESET's waits hold. -/
def Part.inBandReset (a : StoreArray) (p : Part) : Part := if p.waited codeReset then Part.performReset a p else p

/-- IN_BAND_RESET. -/
def execInBandReset (s : State) : Host.Outcome State Fault Refusal := s.onPart (Part.inBandReset s.array)

/-! ## Cold start (R179, R107) -/

/-- The regions in the order they are loaded (R179). -/
def loadOrder : List Region := [.settings, .keys, .classes, .withdrawal, .rules, .watermark]

/-- The trust tables as loaded (R130). -/
def loadTrust (a : StoreArray) : Trust :=
  { keys := loadKeys a, edits := Trust.initial.edits, classes := loadClasses a, withdrawn := loadWithdrawn a }

/-- The proof unit as loaded (R107). -/
def loadProof (a : StoreArray) (mark : Option Word) (draws : Nat) : ProofUnit :=
  { counter := resumeFrom mark (resumedValue a), reserved := 0, drawMark := mark,
    pendingMark := nextWatermark (resumeFrom mark (resumedValue a)), committedMark := resumedValue a,
    entropyDraws := draws }

/-- The causes recorded during loading (R159). -/
def loadCauses (a : StoreArray) (x : ProofUnit) (lock : Bool) : Causes :=
  { Causes.absent with
    lock := lock, noUsableKey := (loadTrust a).noUsableKey, exhausted := x.counter == 0xFFFFFFFF }

/-- The part with its volatile items at their cold-start values and the regions loaded, before any job is queued. -/
def Part.loaded (a : StoreArray) (clock : Nat) (mark : Option Word) (p : Part) : Part :=
  let x := loadProof a mark p.proof.entropyDraws
  { power := .on, clock := clock, contacts := p.contacts, lockPin := p.lockPin, links := .all Link.initial,
    tlp := Tlp.initial, classifier := { Classifier.initial with rules := loadRules a }, engine := Engine.initial,
    proof := x, trust := loadTrust a, grants := Grants.initial,
    fault := { conds := .all .inactive, causes := loadCauses a x p.lockPin, map := loadMap a, permits := .all false },
    mgmt := { request := none, parked := false, settings := loadSettings a, superseded := false },
    ctl := { queue := [], job := none, logPos := logScan a, firstMark := true, cursor := none, loading := true,
             storedSettings := loadSettings a, storedMap := loadMap a } }

/-- Whether power was applied anew: the microsecond counter then starts at 0 and the draw mark is absent (R30, Table 6.1). -/
def Part.poweredAnew (p : Part) : ColdStartCause → Bool
  | .powerOn => true
  | .resetReleased => match p.power with
    | .off => true
    | .on => false
    | .resetHeld => false

/-- Cold start: loading, the STORE_BAD entries, the cold-start watermark job (R107, R179). -/
def Part.coldStart (a : StoreArray) (cause : ColdStartCause) (p : Part) : Part :=
  let fresh := p.poweredAnew cause
  let p1 := Part.loaded a (if fresh then 0 else p.clock) (if fresh then none else p.proof.drawMark) p
  (storeBads a loadOrder p1).queueJob (.watermark p1.proof.pendingMark)

/-- COLD_START. -/
def execColdStart (cause : ColdStartCause) (s : State) : Host.Outcome State Fault Refusal :=
  .next { s with part := Part.coldStart s.array cause s.part }

/-! ## The end of loading (R179) -/

/-- Whether loading waits for nothing: the cold-start watermark job has completed (R107). -/
def Part.loadingDone (p : Part) : Bool :=
  p.ctl.loading && !p.ctl.watermarkInProgress && !p.ctl.watermarkQueued

/-- The COLD_START log entry (Table 1.21). -/
def coldStartEntry (v : Word) : LogEntry := { type := 1, socket := 7, detail := 0, data := [v] }

/-- Every block takes its start (R39, R53, R150, R159, R179). The links and the conditions stand as cold start left them, so
clearing them here changes nothing in a run. -/
def Part.finishLoading (p : Part) : Part :=
  let p1 := p.log (coldStartEntry p.proof.pendingMark)
  let p2 := (p1.setCtl { p1.ctl with loading := false }).setTlp
    { p1.tlp with silence := some (p1.clock + silenceTime) }
  ((forSockets Part.resetLink (p2.place .l0 (startedAdvisory p2.proof.pendingMark))).startAggregateTimer).resetConditions

/-- The end of loading, when its watermark job has completed. -/
def Part.loadingFinished (p : Part) : Part := if p.loadingDone then p.finishLoading else p

/-- LOADING_FINISHED. -/
def execLoadingFinished (s : State) : Host.Outcome State Fault Refusal := s.onPart Part.loadingFinished

/-! ## Power and RESETn (R183) -/

/-- The part once power has failed or RESETn is asserted: the job in progress and the queue are gone, the permit lines are
deasserted, and without power the draw mark is lost (R183, Table 6.1; log 18). -/
def Part.cut (c : CutCause) (p : Part) : Part :=
  let p1 := (p.setCtl { p.ctl with job := none, queue := [] }).setFault { p.fault with permits := .all false }
  match c with
  | .powerFails => { p1.setProof { p1.proof with drawMark := none } with power := .off }
  | .resetAsserted => { p1 with power := match p.power with
      | .off => .off
      | .on => .resetHeld
      | .resetHeld => .resetHeld }

/-- The array keeps what the job in progress had erased or programmed: its first `steps` steps (R183; log 10). While nothing
of a single-sector region's content is programmed yet, `Job.stopped` adds the model's mark (log 30). -/
def State.cutArray (s : State) (steps : Nat) : StoreArray :=
  match s.part.ctl.job with
  | none => s.array
  | some j => applySteps s.array (j.stopped (j.steps s.part s.array) steps)

/-- POWER_FAILS_OR_RESETN_ASSERTED. -/
def execPowerFailsOrResetnAsserted (c : CutCause) (steps : Nat) (s : State) : Host.Outcome State Fault Refusal :=
  .next { s with part := Part.cut c s.part, array := s.cutArray steps }

end Sys2Proof.Machine
end

