-- ==== Sys2Proof/Machine/ToolLink.lean ====
section
/-! DEFINITION. Tool link events: frames received, requests by code, the end of a transmission, silence (R40 to R43, R50). -/

namespace Sys2Proof.Machine

/-! ## A MGMT-REQ payload (R9, Table 10.2) -/

/-- The parameter words of a payload whose length is 1, 5, 9, 13 or 17. -/
def payloadWords (b : List Byte) : Option (List Word) :=
  match b.length with
  | 1 => some []
  | 5 => some [wordAt b 1]
  | 9 => some [wordAt b 1, wordAt b 5]
  | 13 => some [wordAt b 1, wordAt b 5, wordAt b 9]
  | 17 => some [wordAt b 1, wordAt b 5, wordAt b 9, wordAt b 13]
  | _ => none

/-- A request handed over by its code (Table 10.2). -/
def Part.onRequest (a : StoreArray) (code : Byte) (words : List Word) (p : Part) : Part :=
  match code.toNat with
  | 0x01 => p.onDescribe words
  | 0x02 => p.onSocketReport words
  | 0x03 => p.onFaultReport words
  | 0x04 => p.onSettingRead words
  | 0x05 => p.onSettingWrite words
  | 0x06 => p.onTableRead words
  | 0x10 => p.onKeyWrite words
  | 0x11 => p.onKeyRetire words
  | 0x12 => p.onKeyErase words
  | 0x14 => p.onClassWrite words
  | 0x15 => p.onClassErase words
  | 0x18 => p.onWithdrawAdd words
  | 0x19 => p.onWithdrawClear words
  | 0x1A => p.onWithdrawQuery words
  | 0x20 => p.onRulesEdit words
  | 0x21 => p.onRuleWrite words
  | 0x22 => p.onRulesApply words
  | 0x28 => p.onMapWrite words
  | 0x29 => p.onFaultAck words
  | 0x30 => p.onSocketRestart words
  | 0x31 => p.onAudit words
  | 0x38 => p.onLogStart a words
  | 0x39 => p.onLogNext a words
  | 0x3E => p.onPark words
  | 0x3F => p.onReset words
  | _ => p.badShape code

/-- A MGMT-REQ payload handed to the management unit (R9, R41, R164 check 1). -/
def Part.mgmtFrame (a : StoreArray) (b : List Byte) (p : Part) : Part :=
  match payloadWords b with
  | some words => p.onRequest a (byteAt b 0) words
  | none => p.badShape (byteAt b 0)

/-- UNKNOWN_REQUEST (R9, R164). -/
def execUnknownRequest (payload : List Byte) (s : State) : Host.Outcome State Fault Refusal :=
  s.onPart (Part.mgmtFrame s.array payload)

/-! ## Frames received (R40, R41) -/

/-- A finished frame: a malformed one is discarded, as is every frame while the store is being loaded; a well-formed one
restarts the silence timer and is handed on by its kind (R40, R41). A POLL that ends both the silence cause and the overdraw
cause so ends TOOL_SILENT (2) before OVERDRAW (1): R154 has the conditions that one event changes handled in ascending number,
R40 has the timer restarted and the frame then handed on; the order is the model's choice (log 11). -/
def Part.toolFrame (a : StoreArray) (p : Part) (r : RxResult) : Part :=
  match r with
  | .malformed => p
  | .wellFormed f =>
    if p.ctl.loading then p
    else if f.kind = kindMgmtReq then p.mgmtFrame a f.payload
    else p.restartSilence.takeDown f

/-- The tool receiver given bytes at a moment: the port afterwards, and the frames finished (R4). -/
def Tlp.receive (t : Tlp) (bytes : List Byte) (now : Nat) : Tlp × List RxResult :=
  let r := (t.rx.atArrival t.lastByte now).run bytes
  ({ t with rx := r.1, lastByte := r.1.stamp bytes t.lastByte now }, r.2)

/-- Bytes arriving on the tool link: the receiver collects, and each finished frame is taken in order (R4, R40). -/
def Part.toolBytes (a : StoreArray) (bytes : List Byte) (p : Part) : Part :=
  (p.tlp.receive bytes p.clock).2.foldl (Part.toolFrame a) (p.setTlp (p.tlp.receive bytes p.clock).1)

/-- TOOL_FRAME_RECEIVED. -/
def execToolFrameReceived (bytes : List Byte) (s : State) : Host.Outcome State Fault Refusal :=
  s.onPart (Part.toolBytes s.array bytes)

/-! ## Silence and the end of a transmission -/

/-- SILENCE_TIMER_EXPIRY (R42). -/
def execSilenceTimerExpiry (s : State) : Host.Outcome State Fault Refusal := s.onPart Part.silenceExpiry

/-- The end of a transmission: the transmitter is idle and chooses again (R50). -/
def Part.txEnd (p : Part) : Part := (p.setTlp { p.tlp with sending := none }).transmit

/-- TOOL_TX_END. -/
def execToolTxEnd (s : State) : Host.Outcome State Fault Refusal := s.onPart Part.txEnd

end Sys2Proof.Machine
end

