-- ==== Sys2Proof/Machine/Events.lean ====
section
/-! DEFINITION. The commands that are events at the pack links, the grant calculator and the LOCK input, and the events that
have fallen due at a moment. -/

namespace Sys2Proof.Machine

/-! ## Pins: the level is known even while the part is held (log 18) -/

/-- CONTACT_ASSERTS (R16, R18). A contact that is asserted already does not assert. -/
def execContactAsserts (n : Socket) (s : State) : Host.Outcome State Fault Refusal :=
  .next { s with part := if s.part.contacts.get n then s.part
    else (s.part.setContact n true).whileOn (Part.contactRose n) }

/-- CONTACT_DEASSERTS (R16, R18). -/
def execContactDeasserts (n : Socket) (s : State) : Host.Outcome State Fault Refusal :=
  .next { s with part := if s.part.contacts.get n then (s.part.setContact n false).whileOn (Part.contactFell n)
    else s.part }

/-- The LOCK level reported to the fault unit (R152). -/
def Part.reportLock (b : Bool) (p : Part) : Part := p.reportCause .lock { p.fault.causes with lock := b }

/-- LOCK_CHANGE (R152). -/
def execLockChange (asserted : Bool) (s : State) : Host.Outcome State Fault Refusal :=
  .next { s with part := Part.whileOn { s.part with lockPin := asserted } (Part.reportLock asserted) }

/-! ## Timers and pack links -/

/-- SETTLE_TIMER_EXPIRY (R17). -/
def execSettleTimerExpiry (n : Socket) (s : State) : Host.Outcome State Fault Refusal := s.onPart (Part.settleExpiry n)

/-- DROP_TIMER_EXPIRY (R19). -/
def execDropTimerExpiry (n : Socket) (s : State) : Host.Outcome State Fault Refusal := s.onPart (Part.dropExpiry n)

/-- RECOVERY_TIMER_EXPIRY (R34). -/
def execRecoveryTimerExpiry (n : Socket) (s : State) : Host.Outcome State Fault Refusal :=
  s.onPart (Part.recoveryExpiry n)

/-- PACK_FRAME_SENT (R22). -/
def execPackFrameSent (n : Socket) (s : State) : Host.Outcome State Fault Refusal := s.onPart (Part.frameSent n)

/-- REPLY_START (R22, R30). -/
def execReplyStart (n : Socket) (s : State) : Host.Outcome State Fault Refusal := s.onPart (Part.replyBegins n)

/-- REPLY_WINDOW_EXPIRY (R22). -/
def execReplyWindowExpiry (n : Socket) (s : State) : Host.Outcome State Fault Refusal := s.onPart (Part.windowExpiry n)

/-- A receiver's 2 ms have passed without the next byte (R4). -/
def Part.byteTimeout (r : Receiver) (p : Part) : Part :=
  match r with
  | .pack n => Part.packByteTimeout n p
  | .tool => p.toolByteTimeout

/-- RECEIVER_BYTE_TIMEOUT (R4). -/
def execReceiverByteTimeout (r : Receiver) (s : State) : Host.Outcome State Fault Refusal := s.onPart (Part.byteTimeout r)

/-- PACK_REPLY_COLLECTED (R23). -/
def execPackReplyCollected (n : Socket) (bytes : List Byte) (s : State) : Host.Outcome State Fault Refusal :=
  s.onPart (Part.replyBytes n bytes)

/-- RECHECK_DUE (R88). -/
def execRecheckDue (n : Socket) (s : State) : Host.Outcome State Fault Refusal := s.onPart (Part.recheckExpiry n)

/-- HOLD_TIMER_EXPIRY (R135). -/
def execHoldTimerExpiry (n : Socket) (s : State) : Host.Outcome State Fault Refusal := s.onPart fun p => p.holdExpiry n

/-- OVERDRAW_TIMER_EXPIRY (R144). -/
def execOverdrawTimerExpiry (s : State) : Host.Outcome State Fault Refusal := s.onPart Part.overdrawExpiry

/-- AGGREGATE_TIMER_EXPIRY (R146). -/
def execAggregateTimerExpiry (s : State) : Host.Outcome State Fault Refusal := s.onPart Part.aggregateExpiry

/-! ## What has fallen due (log 1) -/

/-- Whether a timer's expiry has been reached. -/
def reached (t : Option Nat) (now : Nat) : Bool :=
  match t with
  | none => false
  | some d => d ≤ now

/-- When the reply window of a link closes, if its transaction waits. -/
def Link.closes (l : Link) : Option Nat :=
  match l.tx with
  | none => none
  | some t => match t.phase with
    | .waiting d => some d
    | .sending => none
    | .collecting _ _ => none

/-- Whether the reply being collected on a link has waited longer than R4 allows for its next byte. -/
def Link.byteOverdue (l : Link) (now : Nat) : Bool :=
  match l.tx with
  | none => false
  | some t => match t.phase with
    | .collecting rx last => rx.overdue last now
    | .sending => false
    | .waiting _ => false

/-- When a recheck that can be issued falls due. -/
def Session.recheckAt (x : Session) : Option Nat :=
  match x.state, x.challenge, x.recheck with
  | .admitted, none, some r => some r.due
  | _, _, _ => none

/-- The events of socket n that have fallen due. -/
def Part.dueAt (p : Part) (n : Socket) : List Instr :=
  let l := p.link n
  (if reached l.settle p.clock then [.settleTimerExpiry n] else [])
    ++ (if reached l.drop p.clock then [.dropTimerExpiry n] else [])
    ++ (if reached l.recovery p.clock then [.recoveryTimerExpiry n] else [])
    ++ (if reached l.closes p.clock then [.replyWindowExpiry n] else [])
    ++ (if l.byteOverdue p.clock then [.receiverByteTimeout (.pack n)] else [])
    ++ (if reached (p.session n).recheckAt p.clock then [.recheckDue n] else [])
    ++ (if p.holdElapsed n then [.holdTimerExpiry n] else [])

/-- Whether the audit in progress has nothing left but its completion. -/
def Part.auditReady (p : Part) : Bool :=
  match p.engine.audit with
  | none => false
  | some a => a.phase == .ready && p.auditLive

/-- The tool receiver's timeout, when it has fallen due (R4). The receiver collects during loading too (R40). -/
def Part.toolByteDue (p : Part) : List Instr :=
  if p.tlp.rx.overdue p.tlp.lastByte p.clock then [.receiverByteTimeout .tool] else []

/-- The events that have fallen due: the end of loading, timers, ends of waits. -/
def Part.due (p : Part) : List Instr :=
  if p.ctl.loading then (if p.loadingDone then [.loadingFinished] else []) ++ p.toolByteDue
  else
    allSockets.flatMap p.dueAt
      ++ p.toolByteDue
      ++ (if reached p.tlp.silence p.clock then [.silenceTimerExpiry] else [])
      ++ (if reached p.grants.overdraw p.clock then [.overdrawTimerExpiry] else [])
      ++ (if reached p.grants.aggregate p.clock then [.aggregateTimerExpiry] else [])
      ++ (if p.auditReady then [.auditComplete] else [])
      ++ (if p.waited codePark then [.parkComplete] else [])
      ++ (if p.waited codeReset then [.inBandReset] else [])

/-- One microsecond. -/
def Part.tick (p : Part) : Part := { p with clock := p.clock + 1 }

/-- What the block does while no command waits: the events that have fallen due come to wait, or a microsecond passes
(log 1). Without power there is no time. -/
def State.idle (s : State) : State :=
  match s.part.power with
  | .off => s
  | .resetHeld => { s with part := s.part.tick }
  | .on =>
    match s.part.due with
    | [] => { s with part := s.part.tick }
    | e :: es => { s with pending := e :: es }

end Sys2Proof.Machine
end

