-- ==== Sys2Proof/Machine/Dispatch.lean ====
section
/-! DEFINITION. One arm per command. -/

namespace Sys2Proof.Machine

/-- The effect of a command on everything but the queue. -/
def exec (i : Instr) (s : State) : Host.Outcome State Fault Refusal :=
  match i with
  | .coldStart cause => Sys2Proof.Machine.execColdStart cause s
  | .loadingFinished => Sys2Proof.Machine.execLoadingFinished s
  | .contactAsserts n => Sys2Proof.Machine.execContactAsserts n s
  | .contactDeasserts n => Sys2Proof.Machine.execContactDeasserts n s
  | .settleTimerExpiry n => Sys2Proof.Machine.execSettleTimerExpiry n s
  | .dropTimerExpiry n => Sys2Proof.Machine.execDropTimerExpiry n s
  | .recoveryTimerExpiry n => Sys2Proof.Machine.execRecoveryTimerExpiry n s
  | .packFrameSent n => Sys2Proof.Machine.execPackFrameSent n s
  | .replyWindowExpiry n => Sys2Proof.Machine.execReplyWindowExpiry n s
  | .receiverByteTimeout r => Sys2Proof.Machine.execReceiverByteTimeout r s
  | .packReplyCollected n bytes => Sys2Proof.Machine.execPackReplyCollected n bytes s
  | .toolFrameReceived bytes => Sys2Proof.Machine.execToolFrameReceived bytes s
  | .silenceTimerExpiry => Sys2Proof.Machine.execSilenceTimerExpiry s
  | .toolTxEnd => Sys2Proof.Machine.execToolTxEnd s
  | .recheckDue n => Sys2Proof.Machine.execRecheckDue n s
  | .holdTimerExpiry n => Sys2Proof.Machine.execHoldTimerExpiry n s
  | .overdrawTimerExpiry => Sys2Proof.Machine.execOverdrawTimerExpiry s
  | .aggregateTimerExpiry => Sys2Proof.Machine.execAggregateTimerExpiry s
  | .lockChange asserted => Sys2Proof.Machine.execLockChange asserted s
  | .logEntryJobComplete r => Sys2Proof.Machine.execLogEntryJobComplete r s
  | .watermarkJobComplete r => Sys2Proof.Machine.execWatermarkJobComplete r s
  | .keyWriteComplete r => Sys2Proof.Machine.execKeyWriteComplete r s
  | .keyRetireComplete r => Sys2Proof.Machine.execKeyRetireComplete r s
  | .keyEraseComplete r => Sys2Proof.Machine.execKeyEraseComplete r s
  | .classWriteComplete r => Sys2Proof.Machine.execClassWriteComplete r s
  | .classEraseComplete r => Sys2Proof.Machine.execClassEraseComplete r s
  | .withdrawAddComplete r => Sys2Proof.Machine.execWithdrawAddComplete r s
  | .withdrawClearComplete r => Sys2Proof.Machine.execWithdrawClearComplete r s
  | .auditWithdrawalComplete r => Sys2Proof.Machine.execAuditWithdrawalComplete r s
  | .rulesApplyComplete r => Sys2Proof.Machine.execRulesApplyComplete r s
  | .settingWriteComplete r => Sys2Proof.Machine.execSettingWriteComplete r s
  | .mapWriteComplete r => Sys2Proof.Machine.execMapWriteComplete r s
  | .auditComplete => Sys2Proof.Machine.execAuditComplete s
  | .parkComplete => Sys2Proof.Machine.execParkComplete s
  | .inBandReset => Sys2Proof.Machine.execInBandReset s
  | .describe words => Sys2Proof.Machine.execDescribe words s
  | .socketReport words => Sys2Proof.Machine.execSocketReport words s
  | .faultReport words => Sys2Proof.Machine.execFaultReport words s
  | .settingRead words => Sys2Proof.Machine.execSettingRead words s
  | .settingWrite words => Sys2Proof.Machine.execSettingWrite words s
  | .tableRead words => Sys2Proof.Machine.execTableRead words s
  | .keyWrite words => Sys2Proof.Machine.execKeyWrite words s
  | .keyRetire words => Sys2Proof.Machine.execKeyRetire words s
  | .keyErase words => Sys2Proof.Machine.execKeyErase words s
  | .classWrite words => Sys2Proof.Machine.execClassWrite words s
  | .classErase words => Sys2Proof.Machine.execClassErase words s
  | .withdrawAdd words => Sys2Proof.Machine.execWithdrawAdd words s
  | .withdrawClear words => Sys2Proof.Machine.execWithdrawClear words s
  | .withdrawQuery words => Sys2Proof.Machine.execWithdrawQuery words s
  | .rulesEdit words => Sys2Proof.Machine.execRulesEdit words s
  | .ruleWrite words => Sys2Proof.Machine.execRuleWrite words s
  | .rulesApply words => Sys2Proof.Machine.execRulesApply words s
  | .mapWrite words => Sys2Proof.Machine.execMapWrite words s
  | .faultAck words => Sys2Proof.Machine.execFaultAck words s
  | .socketRestart words => Sys2Proof.Machine.execSocketRestart words s
  | .audit words => Sys2Proof.Machine.execAudit words s
  | .logStart words => Sys2Proof.Machine.execLogStart words s
  | .logNext words => Sys2Proof.Machine.execLogNext words s
  | .park words => Sys2Proof.Machine.execPark words s
  | .reset words => Sys2Proof.Machine.execReset words s
  | .unknownRequest payload => Sys2Proof.Machine.execUnknownRequest payload s
  | .replyStart n => Sys2Proof.Machine.execReplyStart n s
  | .powerFailsOrResetnAsserted cause steps => Sys2Proof.Machine.execPowerFailsOrResetnAsserted cause steps s

end Sys2Proof.Machine
end

