-- ==== Sys2Proof/Safety.lean ====
section
/-! DEFINITION. What it means for a state to be safe: the invariants that the statements are about. -/

namespace Sys2Proof.Machine

/-- R142: each permit line is asserted exactly when its four terms hold. -/
def Part.PermitsRight (p : Part) : Prop := ∀ n, p.fault.permits.get n = p.permitDue n

/-- R152, R153, R155: once loading has finished, a condition is ACTIVE exactly while its level cause is present; the
momentary conditions have no level cause and are never at rest in ACTIVE. -/
def Part.CondsRight (p : Part) : Prop :=
  p.ctl.loading = false → ∀ c, p.fault.conds.get c = .active ↔ p.fault.causes.present c = true

/-- R152, R118, R109: the causes that follow an input or a table hold what the input or the table holds. -/
def Part.CausesRight (p : Part) : Prop :=
  p.fault.causes.lock = p.lockPin ∧ p.fault.causes.noUsableKey = p.trust.noUsableKey ∧
    p.fault.causes.exhausted = (p.proof.counter == 0xFFFFFFFF)

/-- R45, Table 3.4, R49: each lane holds no more frames than its capacity, and nothing waits while the transmitter is
idle. -/
def Part.LanesFit (p : Part) : Prop :=
  p.tlp.lane0.length ≤ 8 ∧ p.tlp.lane1.length ≤ 16 ∧ p.tlp.lane2.length ≤ 16 ∧
    (p.tlp.sending = none → p.tlp.response = none ∧ p.tlp.lane0 = [] ∧ p.tlp.lane1 = [] ∧ p.tlp.lane2 = [])

/-- Table 2.2, R29, R31, R33, R34: what a link's state says of its other items. -/
def Link.Sound (l : Link) : Prop :=
  (l.tx.isSome = true → l.state.working = true) ∧ (l.errors = 255 ↔ l.state = .halted) ∧ l.errors ≤ 255 ∧
    l.pollQueue.length ≤ 4 ∧ (l.pollQueue ≠ [] → l.state.working = true) ∧
    (l.settle.isSome = true → l.state = .settling) ∧
    (l.drop.isSome = true → l.state ≠ .vacant ∧ l.state ≠ .settling) ∧
    (l.recovery.isSome = true → l.state = .halted ∧ l.drop = none) ∧
    (l.state = .vacant ∨ l.state = .settling → l.errors = 0)

/-- Link n is sound, and its drop timer runs only while its contact is deasserted and loading has finished (R18, R39). -/
def Part.LinkSound (p : Part) (n : Socket) : Prop :=
  (p.link n).Sound ∧ ((p.link n).drop.isSome = true → p.contacts.get n = false ∧ p.ctl.loading = false)

/-- Every link is sound. -/
def Part.LinksSound (p : Part) : Prop := ∀ n, p.LinkSound n

/-- R138 to R140: the shares sum to the tool grant, which does not exceed the tool ceiling; no share exceeds its string
grant; each published allowance is the share of its socket's string. -/
def Part.GrantsSound (p : Part) : Prop :=
  p.grants.shares.s0 + p.grants.shares.s1 + p.grants.shares.s2 + p.grants.shares.s3 = p.grants.toolGrant ∧
    p.grants.toolGrant ≤ p.settings.toolCeiling ∧ (∀ k, p.grants.shares.get k ≤ p.grants.strings.get k) ∧
    (∀ n, p.grants.published.get n = p.shareOf n)

/-- R94: at most 16 entries, each with a count of 1..15, no serial twice. -/
def Part.RecentFit (p : Part) : Prop :=
  p.engine.recent.length ≤ 16 ∧ (∀ e ∈ p.engine.recent, 1 ≤ e.2 ∧ e.2 ≤ 15) ∧
    (p.engine.recent.map Prod.fst).Nodup

/-- R176: at most 16 log entry jobs queued, at most one watermark job queued or in progress. -/
def Part.JobsFit (p : Part) : Prop :=
  p.ctl.queue.countP Job.isLog ≤ 16 ∧ p.ctl.jobs.countP Job.isWatermark ≤ 1

end Sys2Proof.Machine
end

