-- ==== Sys2Proof/WellFormed.lean ====
section
/-! DEFINITION. Which commands are well-formed: operands that an event of the opcode table can have (log 6). -/

namespace Sys2Proof

open Sys2Proof.Machine

/-- The request codes of Table 10.2. -/
def requestCodes : List Byte :=
  [0x01, 0x02, 0x03, 0x04, 0x05, 0x06, 0x10, 0x11, 0x12, 0x14, 0x15, 0x18, 0x19, 0x1A, 0x20, 0x21, 0x22, 0x28, 0x29,
   0x30, 0x31, 0x38, 0x39, 0x3E, 0x3F]

/-- At most four parameter words fit a MGMT-REQ (Table 1.10). -/
def paramsFit (words : List Word) : Bool := words.length ≤ 4

/-- A payload of a frame, of no known request code or of no valid length (R9, R164 check 1). -/
def unknownPayload (b : List Byte) : Bool :=
  b.length ≤ 24 && ((payloadWords b).isNone || !requestCodes.contains (byteAt b 0))

/-- Whether a received frame is a management request. -/
def isRequestFrame : RxResult → Bool
  | .malformed => false
  | .wellFormed f => f.kind == kindMgmtReq

/-- Bytes on the tool link that finish at most one frame from hunting, and no management request. -/
def toolBytesFit (bytes : List Byte) : Bool :=
  !bytes.isEmpty && (Rx.run .hunting bytes).2.length ≤ 1 && !(Rx.run .hunting bytes).2.any isRequestFrame

/-- Bytes after the sync byte of a reply that finish at most one frame. -/
def replyBytesFit (bytes : List Byte) : Bool := !bytes.isEmpty && (Rx.run .header bytes).2.length ≤ 1

/-- Whether a command's operands are those of an event of the table. -/
def Instr.wellFormed : Instr → Bool
  | .packReplyCollected _ bytes => replyBytesFit bytes
  | .toolFrameReceived bytes => toolBytesFit bytes
  | .describe ws => paramsFit ws
  | .socketReport ws => paramsFit ws
  | .faultReport ws => paramsFit ws
  | .settingRead ws => paramsFit ws
  | .settingWrite ws => paramsFit ws
  | .tableRead ws => paramsFit ws
  | .keyWrite ws => paramsFit ws
  | .keyRetire ws => paramsFit ws
  | .keyErase ws => paramsFit ws
  | .classWrite ws => paramsFit ws
  | .classErase ws => paramsFit ws
  | .withdrawAdd ws => paramsFit ws
  | .withdrawClear ws => paramsFit ws
  | .withdrawQuery ws => paramsFit ws
  | .rulesEdit ws => paramsFit ws
  | .ruleWrite ws => paramsFit ws
  | .rulesApply ws => paramsFit ws
  | .mapWrite ws => paramsFit ws
  | .faultAck ws => paramsFit ws
  | .socketRestart ws => paramsFit ws
  | .audit ws => paramsFit ws
  | .logStart ws => paramsFit ws
  | .logNext ws => paramsFit ws
  | .park ws => paramsFit ws
  | .reset ws => paramsFit ws
  | .unknownRequest payload => unknownPayload payload
  | _ => true

end Sys2Proof
end

