-- ==== Sys2Proof/Certificates/Slice0/Obligations.lean ====
section
/-! DEFINITION. The statements for the provers. -/

namespace Sys2Proof.Claims

open Sys2Proof.Machine

/-! ## Words the statements use -/

/-- The part is powered, out of reset, and loading has finished (R179). -/
abbrev Loaded (s : State) : Prop := s.part.power = .on ∧ s.part.ctl.loading = false

/-- No request is in flight either (R162). -/
abbrev Free (s : State) : Prop := Loaded s ∧ s.part.mgmt.request = none

/-- Nor is the part PARKED (R172). -/
abbrev Ready (s : State) : Prop := Free s ∧ s.part.mgmt.parked = false

/-- A request as it is taken (R162): running, waiting for no job. -/
def request (code : Byte) (words : List Word) : Request :=
  { code := code, words := words, phase := .running, wait := 0, waitFailed := false }

/-- The part once a request has been taken: the silence timer restarted (R40, R43), the request in flight (R162). -/
def taken (code : Byte) (words : List Word) (p : Part) : Part :=
  p.restartSilence.setRequest (some (request code words))

/-- The part once the response `f` of the request in flight has been placed (R48, R49, R162): an idle transmitter takes it
at once and the flight ends; otherwise it stands in the response slot and the request waits. -/
def answered (p : Part) (f : Frame) : Part :=
  match p.tlp.sending with
  | none => { p with tlp := { p.tlp with sending := some f, response := none }, mgmt := { p.mgmt with request := none } }
  | some _ => { p with tlp := { p.tlp with response := some f }, mgmt := p.mgmt.toWaiting }

/-- The command is answered with these result words, and does nothing else but what every request does on being taken. -/
def Answers (c : Instr) (code : Byte) (words : List Word) (o : ReqOutcome) (results : List Word) (s : State) : Prop :=
  exec c s = .next { s with part := answered (taken code words s.part) (response code o results) }

/-- A response stands in the response slot or is being sent (R48, R49). -/
def Carries (p : Part) (f : Frame) : Prop := p.tlp.response = some f ∨ p.tlp.sending = some f

/-- A job put at the end of the store job queue, or begun when no job is in progress (R176). -/
def withJob (p : Part) (j : Job) : Part :=
  match p.ctl.job, p.ctl.queue with
  | none, [] => { p with ctl := { p.ctl with job := some j } }
  | none, k :: q => { p with ctl := { p.ctl with job := some k, queue := q ++ [j] } }
  | some _, q => { p with ctl := { p.ctl with queue := q ++ [j] } }

/-- A command that the part answers with a next state that has a property. -/
def Gives (c : Instr) (s : State) (f : State → Prop) : Prop := ∃ t, exec c s = .next t ∧ f t

/-- The command changes the part into `p` and nothing else. -/
def Becomes (c : Instr) (s : State) (p : Part) : Prop := exec c s = .next { s with part := p }

/-- The command is handed to the store controller as a table job, and does nothing else but what every request does on being
taken (R113). -/
def Queues (c : Instr) (code : Byte) (words : List Word) (j : TableJob) (s : State) : Prop :=
  exec c s = .next { s with part := withJob (taken code words s.part) (.table j) }

/-- A log entry stands in the queue or is being written (R176). -/
def Logged (p : Part) (e : LogEntry) : Prop := .log e ∈ p.ctl.jobs

/-- Fewer than 16 log entries are queued, so that another is not lost (R176). -/
def LogRoom (p : Part) : Prop := p.ctl.queue.countP Job.isLog < 16

/-- Every session but socket n's is as before. -/
def OthersKept (n : Socket) (p q : Part) : Prop := ∀ m, m ≠ n → q.session m = p.session m

/-- What a job's end leaves alone in the part, whatever its kind: pins, links' presence, settings, map, part state. -/
def JobFrame (p q : Part) : Prop :=
  q.power = p.power ∧ q.clock = p.clock ∧ q.contacts = p.contacts ∧ q.lockPin = p.lockPin ∧
    q.mgmt.settings = p.mgmt.settings ∧ q.fault.map = p.fault.map ∧ q.mgmt.parked = p.mgmt.parked ∧
    q.mgmt.superseded = p.mgmt.superseded ∧ q.ctl.loading = p.ctl.loading ∧ q.ctl.cursor = p.ctl.cursor

/-- The key that a session is looked up by is found, and a counter value is left for it (R79, R103). -/
def CanChallenge (p : Part) (n : Socket) : Prop :=
  (∃ i k, (p.session n).identity = some i ∧ p.trust.findKey i.family i.generation = some k) ∧
    p.proof.reserved < 0xFFFFFFFF - p.proof.counter.toNat

/-- A request of this code is in flight and running (R162). -/
def Running (p : Part) (code : Byte) : Prop :=
  ∃ q, p.mgmt.request = some q ∧ q.code = code ∧ q.phase = .running

/-- A job of this request has failed: STORE's cause is present, tables, sessions and links are as before, and the request
that still waits for it is answered STORE_FAULT (R113, R176). -/
def JobFailed (code : Byte) (s t : State) : Prop :=
  t.part.trust = s.part.trust ∧ t.part.engine = s.part.engine ∧ t.part.links = s.part.links ∧
    t.part.classifier = s.part.classifier ∧ t.part.proof = s.part.proof ∧ t.part.grants = s.part.grants ∧
    t.part.fault.causes = { s.part.fault.causes with store := true } ∧
    (Running s.part code → Carries t.part (response code .storeFault []))

/-- What every end of the job in progress has in common: the steps that took effect have changed the array (log 10; what a
failed rewriting of a region leaves besides, log 30), the STORE cause says how it ended, and the rest of the part stands. -/
def JobEnded (c : JobEnd → Instr) (s : State) (j : Job) (f : JobEnd → State → Prop) : Prop :=
  s.part.power = .on → s.part.ctl.job = some j → ∀ r, Gives (c r) s (fun t =>
    t.array = applySteps s.array (j.taken (j.steps s.part s.array) r) ∧ JobFrame s.part t.part ∧
    t.part.fault.causes.store = !jobOk r ∧ f r t)

/-- The management requests but RESET, with their code, the least and the most parameter words, whether they are taken
while PARKED, and their words (Table 10.2). -/
def requestOf : Instr → Option (Byte × Nat × Nat × Bool × List Word)
  | .describe ws => some (0x01, 0, 0, true, ws)
  | .socketReport ws => some (0x02, 1, 1, false, ws)
  | .faultReport ws => some (0x03, 0, 0, false, ws)
  | .settingRead ws => some (0x04, 1, 1, false, ws)
  | .settingWrite ws => some (0x05, 1, 1, false, ws)
  | .tableRead ws => some (0x06, 1, 1, false, ws)
  | .keyWrite ws => some (0x10, 3, 3, false, ws)
  | .keyRetire ws => some (0x11, 1, 1, false, ws)
  | .keyErase ws => some (0x12, 1, 1, false, ws)
  | .classWrite ws => some (0x14, 3, 3, false, ws)
  | .classErase ws => some (0x15, 1, 1, false, ws)
  | .withdrawAdd ws => some (0x18, 1, 3, false, ws)
  | .withdrawClear ws => some (0x19, 0, 0, false, ws)
  | .withdrawQuery ws => some (0x1A, 1, 1, false, ws)
  | .rulesEdit ws => some (0x20, 0, 0, false, ws)
  | .ruleWrite ws => some (0x21, 3, 3, false, ws)
  | .rulesApply ws => some (0x22, 0, 0, false, ws)
  | .mapWrite ws => some (0x28, 2, 2, false, ws)
  | .faultAck ws => some (0x29, 1, 1, false, ws)
  | .socketRestart ws => some (0x30, 1, 1, false, ws)
  | .audit ws => some (0x31, 1, 1, false, ws)
  | .logStart ws => some (0x38, 0, 0, true, ws)
  | .logNext ws => some (0x39, 0, 0, true, ws)
  | .park ws => some (0x3E, 0, 0, false, ws)
  | _ => none

/-- The commands that end a store job in progress (R176). -/
def endsJob : Instr → Bool
  | .logEntryJobComplete _ => true
  | .watermarkJobComplete _ => true
  | .keyWriteComplete _ => true
  | .keyRetireComplete _ => true
  | .keyEraseComplete _ => true
  | .classWriteComplete _ => true
  | .classEraseComplete _ => true
  | .withdrawAddComplete _ => true
  | .withdrawClearComplete _ => true
  | .auditWithdrawalComplete _ => true
  | .rulesApplyComplete _ => true
  | .settingWriteComplete _ => true
  | .mapWriteComplete _ => true
  | _ => false

/-- Whether a command is a loss of power or an assertion of RESETn. -/
def cutsPower : Instr → Bool
  | .powerFailsOrResetnAsserted _ _ => true
  | _ => false

/-- Whether a command is a cold start or the in-band reset, the two that leave PARKED (R172). -/
def leavesParked : Instr → Bool
  | .coldStart _ => true
  | .inBandReset => true
  | _ => false

end Sys2Proof.Claims

open Sys2Proof Sys2Proof.Machine Sys2Proof.Claims

/-! ## The machine -/

/-- The queue is served first in, first out: a step with a command at the front is that command on the rest. -/
def Obligations.StepRunsTheFrontCommand : Prop :=
  ∀ (c : Instr) (s : State), step { s with pending := c :: s.pending } = exec c s

/-- While no command waits: without power nothing; held by RESETn a microsecond; otherwise the events that have fallen due
come to wait, or a microsecond passes. The model's own choice (log 1). A timer's event is due once the clock has reached its
deadline: settle (R16), drop (R18), recovery (R34), reply window (R22), next recheck of an ADMITTED session without a challenge
(R88), telemetry hold (R135), silence (R42), overdraw (R143), aggregate (R146); while the store is being loaded none of these
is. -/
def Obligations.EmptyQueueStepQueuesDueEventsOrTicks : Prop :=
  (∀ (s : State), s.pending = [] →
    (s.part.power = .off → step s = .next s) ∧
    (s.part.power = .resetHeld → step s = .next { s with part := { s.part with clock := s.part.clock + 1 } }) ∧
    (s.part.power = .on → s.part.due = [] →
      step s = .next { s with part := { s.part with clock := s.part.clock + 1 } }) ∧
    (s.part.power = .on → s.part.due ≠ [] → step s = .next { s with pending := s.part.due })) ∧
  (∀ p : Part, p.ctl.loading = true → ∀ c ∈ p.due, c = .loadingFinished ∨ c = .receiverByteTimeout .tool) ∧
  (∀ p : Part, p.ctl.loading = false →
    (∀ n : Socket,
      (.settleTimerExpiry n ∈ p.due ↔ ∃ d, (p.link n).settle = some d ∧ d ≤ p.clock) ∧
      (.dropTimerExpiry n ∈ p.due ↔ ∃ d, (p.link n).drop = some d ∧ d ≤ p.clock) ∧
      (.recoveryTimerExpiry n ∈ p.due ↔ ∃ d, (p.link n).recovery = some d ∧ d ≤ p.clock) ∧
      (.replyWindowExpiry n ∈ p.due ↔ ∃ x d, (p.link n).tx = some x ∧ x.phase = .waiting d ∧ d ≤ p.clock) ∧
      (.recheckDue n ∈ p.due ↔ (p.session n).state = .admitted ∧ (p.session n).challenge = none ∧
        ∃ x, (p.session n).recheck = some x ∧ x.due ≤ p.clock) ∧
      (.holdTimerExpiry n ∈ p.due ↔ p.grants.stale.get n = false ∧ ∃ x, (p.session n).telemetry = some x ∧
        (if p.mgmt.settings.telemetryHold = 0 then 500 else p.mgmt.settings.telemetryHold * 100) ≤
          min 65535 ((p.clock - x.since) / 1000))) ∧
    (.silenceTimerExpiry ∈ p.due ↔ ∃ d, p.tlp.silence = some d ∧ d ≤ p.clock) ∧
    (.overdrawTimerExpiry ∈ p.due ↔ ∃ d, p.grants.overdraw = some d ∧ d ≤ p.clock) ∧
    (.aggregateTimerExpiry ∈ p.due ↔ ∃ d, p.grants.aggregate = some d ∧ d ≤ p.clock))

/-- Every command is carried out: none faults, none is refused, and none touches the queue. That a command whose event
cannot occur answers a next state too is the model's choice (log 3). -/
def Obligations.EveryCommandAnswersNext : Prop :=
  ∀ (c : Instr) (s : State), ∃ t, exec c s = .next t ∧ t.pending = s.pending

/-- R176, R183: only store jobs change the store array, and a job leaves every word that none of its steps touches. That the
words change at the end of the job or at the cut that stops it, and not in between, is the model's choice (log 10). -/
def Obligations.OnlyStoreJobsChangeTheArray : Prop :=
  ∀ (c : Instr) (s t : State), s.array.wf = true → exec c s = .next t →
    (endsJob c = false → cutsPower c = false → t.array = s.array) ∧
    (s.part.ctl.job = none → t.array = s.array) ∧
    (∀ j, s.part.ctl.job = some j → ∀ addr,
      (∀ k x, Prim.program k x ∈ j.steps s.part s.array → k ≠ addr) →
      (∀ k, Prim.erase k ∈ j.steps s.part s.array → addr < 128 * k ∨ 128 * k + 128 ≤ addr) →
      readWord t.array addr = readWord s.array addr)

/-! ## Invariants that every step keeps -/

/-- The store array keeps its one canonical form: addresses strictly rising and inside the array, no erased word listed. -/
def Obligations.ArrayStaysCanonical : Prop :=
  ∀ (s t : State), s.array.wf = true → step s = .next t → t.array.wf = true

/-- R142: while the part operates each permit line is asserted exactly when its four terms hold. -/
def Obligations.PermitLinesStayRight : Prop :=
  ∀ (s t : State), (s.part.power = .on → s.part.PermitsRight) → step s = .next t →
    (t.part.power = .on → t.part.PermitsRight)

/-- R152, R153, R155, R159, R160: once loading has finished a condition is ACTIVE exactly while its level cause is
present. -/
def Obligations.ConditionsFollowTheirCauses : Prop :=
  ∀ (s t : State), s.part.CondsRight → step s = .next t → t.part.CondsRight

/-- R152, R118, R109: while the part operates the LOCK cause is the input's level, the no-usable-key cause and the
exhaustion cause are what the key table and the challenge counter say. -/
def Obligations.CausesFollowTheirSources : Prop :=
  ∀ (s t : State), (s.part.power = .on → s.part.CausesRight) → step s = .next t →
    (t.part.power = .on → t.part.CausesRight)

/-- Table 2.2, R18, R21, R29, R31 to R34, R39: while the part operates, what each link's state says of its timers, its
error count, its poll queue and its transaction stays true. -/
def Obligations.LinksStaySound : Prop :=
  ∀ (s t : State), (s.part.power = .on → s.part.LinksSound) → step s = .next t →
    (t.part.power = .on → t.part.LinksSound)

/-- R45, R49: no lane ever holds more frames than its capacity, and nothing waits while the transmitter is idle. -/
def Obligations.LanesStayWithinCapacity : Prop :=
  ∀ (s t : State), s.part.LanesFit → step s = .next t → t.part.LanesFit

/-- R138 to R140: the shares always sum to the tool grant, which never exceeds the tool ceiling, no share exceeds its
string grant, and each published allowance is the share of its socket's string. -/
def Obligations.SharesAlwaysSumToTheToolGrant : Prop :=
  ∀ (s t : State), s.part.GrantsSound → step s = .next t → t.part.GrantsSound

/-- R94, R176: the recent-refusal table holds at most 16 entries with counts of 1..15 and no serial twice; at most 16 log
entry jobs are queued and at most one watermark job is queued or in progress. -/
def Obligations.RefusalTableAndJobQueueStayBounded : Prop :=
  ∀ (s t : State), s.part.RecentFit → s.part.JobsFit → step s = .next t → t.part.RecentFit ∧ t.part.JobsFit

/-- R172: PARKED is left by the in-band reset and by cold start alone. -/
def Obligations.ParkedIsLeftOnlyByResets : Prop :=
  ∀ (c : Instr) (s t : State), s.part.mgmt.parked = true → leavesParked c = false → exec c s = .next t →
    t.part.mgmt.parked = true

/-- State.reset meets every one of these invariants. -/
def Obligations.ResetStateMeetsTheInvariants : Prop :=
  State.reset.array.wf = true ∧ State.reset.part.PermitsRight ∧ State.reset.part.CondsRight ∧
    State.reset.part.CausesRight ∧ State.reset.part.LinksSound ∧ State.reset.part.LanesFit ∧
    State.reset.part.GrantsSound ∧ State.reset.part.RecentFit ∧ State.reset.part.JobsFit

/-! ## Frames, the check byte, the lanes (chapters 1 and 3) -/

/-- R1, R4: a hunting receiver that is given the bytes of a frame that may be sent finishes exactly that frame, well-formed,
and hunts again. -/
def Obligations.SentFrameIsReceivedWhole : Prop :=
  ∀ (f : Frame), f.wf = true → Rx.run .hunting f.bytes = (.hunting, [.wellFormed f])

/-- R3: the check byte is the register that starts at 0xFF, takes each byte by exclusive-or and eight steps, over header,
length and payload; continued over the check byte the register ends at 0x00 exactly when that byte is correct. -/
def Obligations.CheckByteProcess : Prop :=
  (∀ f : Frame, f.bytes = 0xB6 :: ((f.header :: byteOf f.payload.length :: f.payload) ++
    [crc8 (f.header :: byteOf f.payload.length :: f.payload)])) ∧
  crc8 [] = 0xFF ∧
  (∀ (bs : List Byte) (b : Byte), crc8 (bs ++ [b]) =
    (fun r : Byte => if r.getLsbD 7 then (r <<< 1) ^^^ 0x31 else r <<< 1)^[8] (crc8 bs ^^^ b)) ∧
  (∀ (bs : List Byte) (c : Byte), crc8 (bs ++ [c]) = 0 ↔ c = crc8 bs)

/-- R4: a hunting receiver discards every byte but the sync byte; a length above 24 is malformed at once; a collected frame
is well-formed exactly when its spare bits are 0, its kind's fixed length holds and its check byte is right. -/
def Obligations.ReceiverFollowsItsTest : Prop :=
  (∀ b : Byte, b ≠ 0xB6 → Rx.feed .hunting b = (.hunting, none)) ∧ Rx.feed .hunting 0xB6 = (.header, none) ∧
  (∀ h b : Byte, Rx.feed .header b = (.length b, none) ∧
    (24 < b.toNat → Rx.feed (.length h) b = (.hunting, some .malformed)) ∧
    (b.toNat ≤ 24 → Rx.feed (.length h) b = (.body h b [], none))) ∧
  (∀ (h len check : Byte) (got : List Byte), got.length = len.toNat →
    ∃ r, Rx.feed (.body h len got) check = (.hunting, some r) ∧
      (r ≠ .malformed ↔ h.extractLsb' 2 2 = (0 : BitVec 2) ∧
        (∀ n, fixedLength (h.extractLsb' 4 4) = some n → len.toNat = n) ∧ check = crc8 (h :: len :: got)))

/-- R45 to R47: a frame placed into a lane with room is appended; a full lane gives up its oldest frame of the same kind and
socket for it, or, holding none, is left as it is. Lane 0 has room for 8 frames, lanes 1 and 2 for 16 each (Table 3.4); a frame
placed while the transmitter is idle and nothing waits is sent at once (R49). A new AGGREGATE takes every other AGGREGATE out
of lane 0 and stands behind the frames that stay, in their order, unless these fill the lane. -/
def Obligations.LaneAppendsReplacesOrDiscards : Prop :=
  (∀ (cap : Nat) (f : Frame) (l : List Frame), l.length < cap → laneInsert cap f l = l ++ [f]) ∧
  (∀ (cap : Nat) (f g : Frame) (a b : List Frame), cap ≤ (a ++ g :: b).length → g.kind = f.kind → g.socket = f.socket →
    (∀ x ∈ a, ¬(x.kind = f.kind ∧ x.socket = f.socket)) → laneInsert cap f (a ++ g :: b) = a ++ b ++ [f]) ∧
  (∀ (cap : Nat) (f : Frame) (l : List Frame), cap ≤ l.length →
    (∀ x ∈ l, ¬(x.kind = f.kind ∧ x.socket = f.socket)) → laneInsert cap f l = l) ∧
  (∀ (p : Part) (f : Frame), p.tlp.sending = none → p.tlp.response = none → p.tlp.lane0 = [] → p.tlp.lane1 = [] →
    p.tlp.lane2 = [] →
    (∀ k, p.place k f = { p with tlp := { p.tlp with sending := some f } }) ∧
    p.placeAggregate f = { p with tlp := { p.tlp with sending := some f } }) ∧
  (∀ (p : Part) (f g : Frame), p.tlp.sending = some g →
    p.place .l0 f = { p with tlp := { p.tlp with lane0 := laneInsert 8 f p.tlp.lane0 } } ∧
    p.place .l1 f = { p with tlp := { p.tlp with lane1 := laneInsert 16 f p.tlp.lane1 } } ∧
    p.place .l2 f = { p with tlp := { p.tlp with lane2 := laneInsert 16 f p.tlp.lane2 } } ∧
    (f.kind = kindAggregate → ∀ l : List Frame, l = p.tlp.lane0.filter (fun h => h.kind != kindAggregate) →
      p.placeAggregate f = { p with tlp := { p.tlp with lane0 := if l.length < 8 then l ++ [f] else l } })) ∧
  (∀ (p : Part) (f : Frame), f.kind = kindAggregate →
    (p.placeAggregate f).tlp.lane0.countP (fun g => g.kind == kindAggregate) ≤ 1)

/-- R49, R50: at the end of a transmission the transmitter takes the response, else the oldest frame of lane 0, else of
lane 1, else of lane 2, else it is idle. R48, R162: a request waits once its response is placed; a response that leaves its
slot ends the flight of a waiting request, and not that of a running one. -/
def Obligations.TransmitterTakesTheNextFrame : Prop :=
  (∀ (m : Mgmt) (q : Request), m.request = some q → m.toWaiting = { m with request := some { q with phase := .waiting } }) ∧
  (∀ m : Mgmt, m.request = none → m.toWaiting = m) ∧
  endFlight none = none ∧
  (∀ q : Request, (q.phase = .waiting → endFlight (some q) = none) ∧ (q.phase = .running → endFlight (some q) = some q)) ∧
  ∀ (s : State), s.part.power = .on →
    (∀ f, s.part.tlp.response = some f → exec .toolTxEnd s = .next { s with part := { s.part with
      tlp := { s.part.tlp with sending := some f, response := none },
      mgmt := { s.part.mgmt with request := endFlight s.part.mgmt.request } } }) ∧
    (∀ f r, s.part.tlp.response = none → s.part.tlp.lane0 = f :: r → exec .toolTxEnd s = .next { s with part :=
      { s.part with tlp := { s.part.tlp with sending := some f, lane0 := r } } }) ∧
    (∀ f r, s.part.tlp.response = none → s.part.tlp.lane0 = [] → s.part.tlp.lane1 = f :: r →
      exec .toolTxEnd s = .next { s with part :=
        { s.part with tlp := { s.part.tlp with sending := some f, lane1 := r } } }) ∧
    (∀ f r, s.part.tlp.response = none → s.part.tlp.lane0 = [] → s.part.tlp.lane1 = [] → s.part.tlp.lane2 = f :: r →
      exec .toolTxEnd s = .next { s with part :=
        { s.part with tlp := { s.part.tlp with sending := some f, lane2 := r } } }) ∧
    (s.part.tlp.response = none → s.part.tlp.lane0 = [] → s.part.tlp.lane1 = [] → s.part.tlp.lane2 = [] →
      exec .toolTxEnd s = .next { s with part := { s.part with tlp := { s.part.tlp with sending := none } } })

/-! ## Frames from the tool link (R40 to R43, R65) -/

/-- R4, R40, R41, R43, R143: bytes go to the receiver, which hunts again when they come more than 2 ms after the one before;
bytes that finish no well-formed frame only move it; a well-formed frame other than a request restarts the silence timer at a
full 500 ms and makes its cause absent, and, unless the part is PARKED, goes on to the classifier; while the store is being
loaded it does neither. A POLL's draw is taken first: above the tool grant it starts a stopped overdraw timer while the cause
is absent, else it stops the timer and makes the cause absent. That a POLL which ends both causes ends the silence cause first
is the model's choice (log 11). -/
def Obligations.ToolFramesAreTakenByKind : Prop :=
  (∀ (s : State) (bytes : List Byte) (rx : Rx) (rs : List RxResult) (u : Tlp), s.part.power = .on →
    Rx.run (if s.part.tlp.lastByte + 2000 < s.part.clock then .hunting else s.part.tlp.rx) bytes = (rx, rs) →
    u = { s.part.tlp with
      rx := rx, lastByte := if rx = .hunting ∨ bytes = [] then s.part.tlp.lastByte else s.part.clock } →
    (rs = [] ∨ rs = [.malformed] ∨ (s.part.ctl.loading = true ∧ ∃ f, rs = [.wellFormed f]) →
      exec (.toolFrameReceived bytes) s = .next { s with part := { s.part with tlp := u } }) ∧
    (∀ f, s.part.ctl.loading = false → rs = [.wellFormed f] → f.kind ≠ kindMgmtReq →
      ∃ q : Part,
        q = ({ s.part with tlp := u } : Part).restartSilence ∧
        q.tlp.silence = some (s.part.clock + 500000) ∧ q.fault.causes.silent = false ∧
        (s.part.mgmt.parked = true → exec (.toolFrameReceived bytes) s = .next { s with part := q }) ∧
        (s.part.mgmt.parked = false → f.kind ≠ kindPoll →
          exec (.toolFrameReceived bytes) s = .next { s with part := q.classifyDown f }) ∧
        (s.part.mgmt.parked = false → f.kind = kindPoll →
          exec (.toolFrameReceived bytes) s = .next
            { s with part := (q.takeDraw (halfAt f.payload 0).toNat).classifyDown f }))) ∧
  (∀ (p : Part) (draw : Nat),
    (p.grants.toolGrant < draw →
      (p.grants.overdraw = none → p.fault.causes.overdraw = false → p.takeDraw draw =
        { p with grants := { p.grants with overdraw := some (p.clock +
            if p.mgmt.settings.overdrawWindow = 0 then 200000 else p.mgmt.settings.overdrawWindow * 10000) } }) ∧
      (p.grants.overdraw ≠ none ∨ p.fault.causes.overdraw = true → p.takeDraw draw = p)) ∧
    (draw ≤ p.grants.toolGrant →
      (p.takeDraw draw).grants = { p.grants with overdraw := none } ∧
      (p.takeDraw draw).fault.causes = { p.fault.causes with overdraw := false } ∧
      (p.takeDraw draw).fault.map = p.fault.map ∧ (p.takeDraw draw).engine = p.engine ∧
      (p.takeDraw draw).links = p.links ∧ (p.takeDraw draw).ctl = p.ctl ∧
      (p.ctl.loading = false → p.fault.causes.overdraw = true → p.fault.conds.overdraw = .active →
        (p.takeDraw draw).fault.conds = p.fault.conds.set .overdraw
          (if p.fault.map.overdraw.latch then .held else .inactive)) ∧
      (p.fault.causes.overdraw = false ∨ p.fault.conds.overdraw ≠ .active →
        (p.takeDraw draw).fault.conds = p.fault.conds)))

/-- R56, R57: a rule matches a frame of its direction and of its kind, or of any with kind ANY, but never one of the kinds
that are not relayed, when its masks hold the frame's socket and the session's state. R58, R59, R61, R62, R65: a DOWN frame is
decided by the first enabled rule that matches it while the table is LIVE, and by the fallback otherwise: relayed into its
socket's poll queue, answered with a STATUS in the pack's name, or dropped. The STATUS so built holds the last temperature,
UNVERIFIED, VACANT for a session at NONE, and zeros (R8, R61). That a rule relays a DOWN STATUS too is the model's choice
between R7 and R23 (log 31). -/
def Obligations.DownFramesAreDecidedByTheFirstMatch : Prop :=
  (∀ (r : Rule) (d : Direction) (k : BitVec 4) (n : Socket) (st : SessState) (i : Nat),
    [SessState.none, .identifying, .verifying, .admitted, .suspect, .refused, .withdrawn][i]? = some st →
    (r.matches d k n st = true ↔ r.direction = d ∧ (r.kind = none ∨ r.kind = some k) ∧
      k ∉ [(3 : BitVec 4), 4, 5, 6, 8, 9, 10, 11] ∧ r.socketMask.getLsbD n.val = true ∧ r.stateMask.getLsbD i = true)) ∧
  (∀ (p : Part) (n : Socket), ∃ t fl : Byte,
    p.synthesized n = { kind := 2, socket := n, payload := [0, 0, 0, t, 0, 0, 0, 0, 0, fl] } ∧
    (∀ x, (p.session n).telemetry = some x → t = BitVec.ofInt 8 x.temperature) ∧
    ((p.session n).telemetry = none → t = 0) ∧
    (∀ i, i < 4 → fl.getLsbD i = false) ∧ fl.getLsbD 4 = true ∧ fl.getLsbD 5 = false ∧ fl.getLsbD 6 = false ∧
    (fl.getLsbD 7 = true ↔ (p.session n).state = .none)) ∧
  ∀ (p : Part) (f : Frame),
    (∀ (a b : List Rule) (r : Rule), p.classifier.editing = false → p.classifier.rules.toList = a ++ r :: b →
      r.enabled = true → r.matches .down f.kind f.socket (p.session f.socket).state = true →
      (∀ x ∈ a, x.enabled = true → x.matches .down f.kind f.socket (p.session f.socket).state = false) →
      (r.action = .forward → p.classifyDown f = p.pollTake f.socket f) ∧
      (r.action = .discard → p.classifyDown f = p) ∧
      (r.action = .answer → f.kind = kindPoll →
        p.classifyDown f = p.place (Lane.ofByte r.lane) (p.synthesized f.socket))) ∧
    ((p.classifier.editing = true ∨ ∀ x ∈ p.classifier.rules.toList, x.enabled = true →
        x.matches .down f.kind f.socket (p.session f.socket).state = false) →
      (f.kind = kindPoll → (p.session f.socket).state.trusted = true → p.classifyDown f = p.pollTake f.socket f) ∧
      (f.kind = kindPoll → (p.session f.socket).state.trusted = false →
        p.classifyDown f = p.place .l1 (p.synthesized f.socket)) ∧
      (f.kind = kindPackAux → (p.session f.socket).state = .admitted → p.classifyDown f = p.pollTake f.socket f) ∧
      (f.kind = kindPackAux → (p.session f.socket).state ≠ .admitted → p.classifyDown f = p) ∧
      (f.kind ≠ kindPoll → f.kind ≠ kindPackAux → p.classifyDown f = p))

/-- R42: an expiry of the silence timer stops it and makes the cause present; once loading has finished TOOL_SILENT is
ACTIVE. No session, link, table, grant or rule is changed, and a job in progress stays in progress. -/
def Obligations.SilenceTimerRaisesToolSilent : Prop :=
  ∀ (s : State) (d : Nat), s.part.power = .on → s.part.tlp.silence = some d →
    ∃ t, exec .silenceTimerExpiry s = .next t ∧ t.part.tlp.silence = none ∧ t.part.fault.causes.silent = true ∧
      (s.part.ctl.loading = false → s.part.fault.causes.silent = false →
        t.part.fault.conds = s.part.fault.conds.set .toolSilent .active) ∧
      t.part.links = s.part.links ∧ t.part.engine = s.part.engine ∧ t.part.trust = s.part.trust ∧
      t.part.grants = s.part.grants ∧ t.part.proof = s.part.proof ∧ t.part.classifier = s.part.classifier ∧
      t.part.fault.map = s.part.fault.map ∧ (∀ j, s.part.ctl.job = some j → t.part.ctl.job = some j) ∧
      t.array = s.array

/-! ## Pack links (chapter 2) -/

/-- R16, R18, R34: an assertion of a contact, by the link's state: VACANT goes to SETTLING with the 250 ms settle timer
(stopped while PARKED) and its advisory; ACTIVE and DEGRADED ignore the drop and may send again; HALTED ignores the drop and
starts a full 2 s of recovery under AUTO. -/
def Obligations.ContactAssertsByLinkState : Prop :=
  ∀ (s : State) (n : Socket), Loaded s → s.part.contacts.get n = false →
    ∃ q : Part, q = { s.part with contacts := s.part.contacts.set n true } ∧
      ((q.link n).state = .vacant → exec (.contactAsserts n) s = .next
        { s with part := (q.setLink n { q.link n with
            state := .settling, settle := (if q.mgmt.parked then none else some (q.clock + 250000)),
            recovery := none, errors := 0 }).place .l0 (linkAdvisory n .settling 0) }) ∧
      ((q.link n).state = .settling → exec (.contactAsserts n) s = .next { s with part := q }) ∧
      ((q.link n).state = .active ∨ (q.link n).state = .degraded → exec (.contactAsserts n) s = .next
        { s with part := (q.setLink n { q.link n with drop := none }).tryStart n }) ∧
      ((q.link n).state = .halted → exec (.contactAsserts n) s = .next
        { s with part := q.setLink n { q.link n with
            drop := none,
            recovery := if q.settings.haltRecovery = 0 ∧ q.mgmt.parked = false then some (q.clock + 2000000)
              else (q.link n).recovery } })

/-- R16, R18, R34: a deassertion of a contact: SETTLING goes back to VACANT with its advisory; ACTIVE, DEGRADED and HALTED
start the 30 ms drop timer, HALTED stopping its recovery timer; VACANT stays as it is. -/
def Obligations.ContactDeassertsByLinkState : Prop :=
  ∀ (s : State) (n : Socket), Loaded s → s.part.contacts.get n = true →
    ∃ q : Part, q = { s.part with contacts := s.part.contacts.set n false } ∧
      ((q.link n).state = .vacant → exec (.contactDeasserts n) s = .next { s with part := q }) ∧
      ((q.link n).state = .settling → exec (.contactDeasserts n) s = .next
        { s with part := (q.setLink n { q.link n with state := .vacant, settle := none }).place .l0
                   (linkAdvisory n .vacant (q.link n).errors) }) ∧
      ((q.link n).state = .active ∨ (q.link n).state = .degraded → exec (.contactDeasserts n) s = .next
        { s with part := q.setLink n { q.link n with drop := some (q.clock + 30000) } }) ∧
      ((q.link n).state = .halted → exec (.contactDeasserts n) s = .next
        { s with part := q.setLink n { q.link n with drop := some (q.clock + 30000), recovery := none } })

/-- R39, log 18: while the part is held or without power, contacts and LOCK have their levels tracked, a cold start or a cut
acts, and no other command does anything; while the store is being loaded a contact's level is tracked alone. -/
def Obligations.HeldPartOnlyTracksItsPins : Prop :=
  ∀ (s : State),
    (∀ n, s.part.power ≠ .on ∨ s.part.ctl.loading = true →
      exec (.contactAsserts n) s = .next { s with part := { s.part with contacts := s.part.contacts.set n true } } ∧
      exec (.contactDeasserts n) s = .next { s with part := { s.part with contacts := s.part.contacts.set n false } }) ∧
    (s.part.power ≠ .on →
      (∀ b, exec (.lockChange b) s = .next { s with part := { s.part with lockPin := b } }) ∧
      (∀ c, (∀ k, c ≠ .coldStart k) → (∀ k i, c ≠ .powerFailsOrResetnAsserted k i) → (∀ n, c ≠ .contactAsserts n) →
        (∀ n, c ≠ .contactDeasserts n) → (∀ b, c ≠ .lockChange b) → exec c s = .next s))

/-- R17, R73, R74: an expiry of the settle timer takes the link to ACTIVE with count 0 and opens a session in IDENTIFYING
with a fresh record, whose IDENTIFY is on the line, or waits in the engine slot where R21 does not let it start, or while an
abandoned frame is still on the line (log 12); no other link and no other session is changed. The SESSION advisory of
IDENTIFYING goes into lane 0 and the grants are recomputed (R73), then the IDENTIFY is placed, then the LINK advisory (R35). -/
def Obligations.SettleTimerOpensASession : Prop :=
  ∀ (s : State) (n : Socket) (d : Nat), s.part.power = .on → (s.part.link n).state = .settling →
    (s.part.link n).settle = some d → (s.part.link n).tx = none →
    ∃ t, exec (.settleTimerExpiry n) s = .next t ∧
      (t.part.link n).state = .active ∧ (t.part.link n).settle = none ∧ (t.part.link n).errors = 0 ∧
      t.part.session n = { Session.initial with state := .identifying } ∧
      (∀ (l : Link) (q : Part), l = { s.part.link n with state := .active, settle := none, errors := 0 } →
        q = (s.part.setLink n l).setSession n { Session.initial with state := .identifying } →
        t.part = ((((q.place .l0 { kind := 10, socket := n, payload := [2, byteOf n.val, 1, 0, 0, 0] }).recompute.setLink n
          { l with engineSlot := some .identify }).tryStart n).place .l0
            { kind := 10, socket := n, payload := [3, byteOf n.val, 2, 0, 0, 0] })) ∧
      ((t.part.link n).engineSlot = none ∧ (t.part.link n).tx = some
          { frame := { kind := 3, socket := n, payload := [] }, source := .engineSlot, phase := .sending,
            passedOver := false, sentAt := none, replyAt := none } ∨
        (t.part.link n).engineSlot = some .identify ∧ (t.part.link n).tx = none ∧
          ((s.part.link n).draining ≠ none ∨ s.part.contacts.get n = false ∨ (s.part.link n).drop ≠ none ∨
            s.part.mgmt.parked = true)) ∧
      (∀ m, m ≠ n → t.part.link m = s.part.link m ∧ t.part.session m = s.part.session m) ∧
      t.part.trust = s.part.trust ∧ t.part.proof = s.part.proof ∧ t.array = s.array

/-- R19, R34, R93: an expiry of the drop timer removes the pack: the link is VACANT with count 0, its slot, queue and
transaction gone, a frame being sent left to end (R27), its session at NONE; without an audit in progress no other link
and no other session is changed. An expiry of the recovery timer takes the link to SETTLING with count 0 and its settle
timer started, and reports it. -/
def Obligations.DropAndRecoveryTimersAct : Prop :=
  (∀ (s : State) (n : Socket) (d : Nat), s.part.power = .on → (s.part.link n).drop = some d →
    s.part.engine.audit = none →
    ∃ t, exec (.dropTimerExpiry n) s = .next t ∧
      (t.part.link n).state = .vacant ∧ (t.part.link n).errors = 0 ∧ (t.part.link n).drop = none ∧
      (t.part.link n).recovery = none ∧ (t.part.link n).engineSlot = none ∧ (t.part.link n).pollQueue = [] ∧
      (t.part.link n).tx = none ∧
      (∀ x, (s.part.link n).tx = some x → x.phase = .sending → (t.part.link n).draining = some x.frame) ∧
      ((s.part.session n).state ≠ .none → t.part.session n = Session.initial) ∧
      (∀ m, m ≠ n → t.part.link m = s.part.link m ∧ t.part.session m = s.part.session m) ∧
      t.part.trust = s.part.trust ∧ t.array = s.array) ∧
  (∀ (s : State) (n : Socket) (d : Nat), s.part.power = .on → (s.part.link n).recovery = some d →
    exec (.recoveryTimerExpiry n) s = .next
      { s with part := (s.part.setLink n { s.part.link n with
          state := .settling, settle := (if s.part.mgmt.parked then none else some (s.part.clock + 250000)),
          recovery := none, errors := 0 }).place .l0 (linkAdvisory n .settling 0) })

/-- R21, R28, R29, R80, R104: a transaction starts exactly when the link is ACTIVE or DEGRADED with its contact asserted, no
drop timer, no transaction, no abandoned frame on the line (log 12) and the part not PARKED: the engine slot's frame first,
else the oldest of the poll queue; a CHALLENGE draws the counter, whose value and the next entropy value make its nonce. A
relayed frame is taken into the poll queue of four while the link works, the oldest giving way; else it is discarded. -/
def Obligations.TransactionsStartFromSlotAndQueue : Prop :=
  (∀ (p : Part) (n : Socket),
    (¬((p.link n).tx = none ∧ (p.link n).draining = none ∧ ((p.link n).state = .active ∨ (p.link n).state = .degraded) ∧
        p.contacts.get n = true ∧ (p.link n).drop = none ∧ p.mgmt.parked = false) → p.tryStart n = p) ∧
    ((p.link n).tx = none → (p.link n).draining = none → ((p.link n).state = .active ∨ (p.link n).state = .degraded) →
      p.contacts.get n = true → (p.link n).drop = none → p.mgmt.parked = false →
      ((p.link n).engineSlot = none → (p.link n).pollQueue = [] → p.tryStart n = p) ∧
      (∀ f q, (p.link n).engineSlot = none → (p.link n).pollQueue = f :: q → p.tryStart n = p.setLink n { p.link n with
        pollQueue := q, tx := some (.begin f .pollQueue) }) ∧
      ((p.link n).engineSlot = some .identify → p.tryStart n = p.setLink n { p.link n with
        engineSlot := none, tx := some (.begin (identifyFrame n) .engineSlot) }) ∧
      ((p.link n).engineSlot = some .challenge →
        (p.tryStart n).link n = { p.link n with engineSlot := none, tx := some (.begin
          { kind := 5, socket := n, payload := Word.bytes p.proof.counter ++
              Word.bytes (Config.entropy p.proof.entropyDraws) ++ [byteOf n.val] } .engineSlot) } ∧
        (p.tryStart n).proof.counter = p.proof.counter + 1 ∧
        (p.tryStart n).proof.reserved = p.proof.reserved - 1 ∧
        (p.tryStart n).proof.drawMark = some p.proof.counter ∧
        (∀ c, (p.session n).challenge = some c → ((p.tryStart n).session n).challenge = some { c with
          phase := .sent p.proof.nonce (p.editCount (p.session n).keySlot) })))) ∧
  (∀ (p : Part) (n : Socket) (f : Frame),
    (((p.link n).state = .active ∨ (p.link n).state = .degraded) → p.mgmt.parked = false →
      ((p.link n).pollQueue.length < 4 → p.pollTake n f =
        (p.setLink n { p.link n with pollQueue := (p.link n).pollQueue ++ [f] }).tryStart n) ∧
      (∀ g q, (p.link n).pollQueue = g :: q → q.length = 3 → p.pollTake n f =
        (p.setLink n { p.link n with pollQueue := q ++ [f] }).tryStart n)) ∧
    ((p.link n).state = .vacant ∨ (p.link n).state = .settling ∨ (p.link n).state = .halted ∨ p.mgmt.parked = true →
      p.pollTake n f = p))

/-- R4, R22, R27, R30: the end of a frame's sending opens the reply window, 40 ms for a CHALLENGE and 10 ms for every other
frame, a CHALLENGE being stamped with the microsecond counter; the end of an abandoned frame frees the line, on which the next
transaction may start (the model's deduction, log 12); a sync byte in the window begins the reply, stamped alike; bytes that
come in time and do not finish the reply only move the receiver; when more than 2 ms pass without the next byte the receiver's
timeout falls due, bytes that come later still act as that timeout on a pack link, and on the tool link it sends the receiver
back to hunting. R25, R56, R58, R60, R62 to R65: a good reply to a relayed frame is shown, if it is a STATUS, and then decided
by the first enabled UP rule that matches it while the table is LIVE, and by the fallback otherwise; a STATUS that is
forwarded is stamped with the published allowance and the part's own flags, and one that is decimated advances the socket's
counter and passes when that stood at 0. -/
def Obligations.SendingAndReplyAreStamped : Prop :=
  (∀ (s : State) (n : Socket) (l : Link), s.part.power = .on → l = s.part.link n →
    (∀ x, l.tx = some x → x.phase = .sending → l.draining = none →
      exec (.packFrameSent n) s = .next { s with part := s.part.setLink n { l with tx := some { x with
        phase := .waiting (s.part.clock + if x.frame.kind = kindChallenge then 40000 else 10000),
        sentAt := if x.frame.kind = kindChallenge then some (BitVec.ofNat 32 s.part.clock) else none } } }) ∧
    (∀ f, l.tx = none → l.draining = some f →
      exec (.packFrameSent n) s = .next { s with part := (s.part.setLink n { l with draining := none }).tryStart n }) ∧
    (∀ x closes, l.tx = some x → x.phase = .waiting closes →
      exec (.replyStart n) s = .next { s with part := s.part.setLink n { l with tx := some { x with
        phase := .collecting .header s.part.clock,
        replyAt := if x.frame.kind = kindChallenge then some (BitVec.ofNat 32 s.part.clock) else none } } }) ∧
    (∀ (x : Transaction) (rx : Rx) (last : Nat), l.tx = some x → x.phase = .collecting rx last → rx ≠ .hunting →
      (∀ bytes rx', s.part.clock ≤ last + 2000 → bytes ≠ [] → rx.runFirst bytes = (rx', none) → rx' ≠ .hunting →
        exec (.packReplyCollected n bytes) s = .next { s with part := s.part.setLink n { l with
          tx := some { x with phase := .collecting rx' s.part.clock } } }) ∧
      (∀ bytes, last + 2000 < s.part.clock →
        exec (.packReplyCollected n bytes) s = exec (.receiverByteTimeout (.pack n)) s) ∧
      (s.part.ctl.loading = false → (.receiverByteTimeout (.pack n) ∈ s.part.due ↔ last + 2000 < s.part.clock)))) ∧
  (∀ s : State, s.part.power = .on →
    (.receiverByteTimeout .tool ∈ s.part.due ↔
      s.part.tlp.rx ≠ .hunting ∧ s.part.tlp.lastByte + 2000 < s.part.clock) ∧
    exec (.receiverByteTimeout .tool) s = .next
      { s with part := { s.part with tlp := { s.part.tlp with rx := .hunting } } }) ∧
  (∀ (p : Part) (n : Socket) (t : Transaction) (f : Frame), t.source = .pollQueue → f.socket = n →
    (f.kind = kindStatus → p.reportOutcome n t (.good f) = (p.showStatus n f.payload).classifyUp n f) ∧
    (f.kind ≠ kindStatus → p.reportOutcome n t (.good f) = p.classifyUp n f) ∧
    (∀ o, o = .malformed ∨ o = .wrongKind ∨ o = .expired → p.reportOutcome n t o = p)) ∧
  (∀ (p : Part) (n : Socket) (f : Frame),
    (∀ (a b : List Rule) (r : Rule), p.classifier.editing = false → p.classifier.rules.toList = a ++ r :: b →
      r.enabled = true → r.matches .up f.kind n (p.session n).state = true →
      (∀ x ∈ a, x.enabled = true → x.matches .up f.kind n (p.session n).state = false) →
      (r.action = .forward → p.classifyUp n f = p.forwardUp n f (Lane.ofByte r.lane) r.decimate) ∧
      (r.action = .discard → p.classifyUp n f = p)) ∧
    ((p.classifier.editing = true ∨ ∀ x ∈ p.classifier.rules.toList, x.enabled = true →
        x.matches .up f.kind n (p.session n).state = false) →
      (f.kind = kindStatus → p.classifyUp n f = p.forwardUp n f .l1 true) ∧
      (f.kind = kindPackAux → (p.session n).state = .admitted → p.classifyUp n f = p.forwardUp n f .l2 false) ∧
      (f.kind = kindPackAux → (p.session n).state ≠ .admitted → p.classifyUp n f = p) ∧
      (f.kind ≠ kindStatus → f.kind ≠ kindPackAux → p.classifyUp n f = p)) ∧
    (∀ k : Lane,
      (∀ d, f.kind ≠ kindStatus → p.forwardUp n f k d = p.place k f) ∧
      (f.kind = kindStatus → p.forwardUp n f k false = p.place k (p.stamp n f)) ∧
      (f.kind = kindStatus → p.mgmt.settings.decimation = 0 → p.forwardUp n f k true = p) ∧
      (∀ (q : Part) (v : Nat), f.kind = kindStatus → p.mgmt.settings.decimation ≠ 0 →
        v = (p.classifier.decim.get n + 1) % p.mgmt.settings.decimation →
        q = { p with classifier := { p.classifier with decim := p.classifier.decim.set n v } } →
        (p.classifier.decim.get n = 0 → p.forwardUp n f k true = q.place k (p.stamp n f)) ∧
        (p.classifier.decim.get n ≠ 0 → p.forwardUp n f k true = q))) ∧
    (∀ b0 b1 b2 b3 b4 b5 b6 b7 b8 b9 : Byte, f.payload = [b0, b1, b2, b3, b4, b5, b6, b7, b8, b9] →
      ∃ fl : Byte, p.stamp n f = { f with payload :=
          [b0, b1, b2, b3, b4] ++ Half.bytes (halfOf (p.grants.published.get n)) ++ [b7, b8, fl] } ∧
        (∀ i, i < 4 → fl.getLsbD i = b9.getLsbD i) ∧
        (fl.getLsbD 4 = true ↔ (p.session n).state ≠ .admitted ∧ (p.session n).state ≠ .suspect) ∧
        (fl.getLsbD 5 = true ↔ ((p.session n).state = .admitted ∨ (p.session n).state = .suspect) ∧
          (p.grants.trust.get n < 100 ∨ p.grants.derate.get n < 100)) ∧
        fl.getLsbD 6 = p.grants.stale.get n ∧ fl.getLsbD 7 = false))

/-- R4, R22, R23, R31 to R33: the end of a transaction by a reply, judged by Table 2.4, by a byte that comes late or by the
window's closing. A good reply takes one off the error count, any other end adds 8 up to 255; at 96 an ACTIVE link is DEGRADED,
below 64 a DEGRADED one is ACTIVE, its next recheck computed again (R89) and its LINK advisory sent (R35); at 255 the link is
HALTED, its slot and queue empty and its session at NONE. R21, R24, R25: below 255 the outcome is then reported, to the engine
for an engine transaction, with the link's socket for a relayed one, the next transaction is started, and an audit moves on
(that it does so last is the model's choice, log 11). -/
def Obligations.TransactionEndsCountLineErrors : Prop :=
  (∀ sent reply : BitVec 4, replyExpected sent reply = true ↔
    if sent = 3 then reply = 4 else if sent = 5 then reply = 6 else if sent = 1 then reply = 2
    else if sent = 7 then reply = 7 else reply = 2 ∨ reply = 7 ∨ reply = 0 ∨ 12 ≤ reply.toNat) ∧
  (∀ (p : Part) (n : Socket) (l : Link), l = p.link n →
    (l.state = .active → l.errors < 96 → p.compareThresholds n = p) ∧
    (l.state = .active → 96 ≤ l.errors → p.compareThresholds n = (Part.recomputeRecheck n
      (p.setLink n { l with state := .degraded })).place .l0 (linkAdvisory n .degraded l.errors)) ∧
    (l.state = .degraded → 64 ≤ l.errors → p.compareThresholds n = p) ∧
    (l.state = .degraded → l.errors < 64 → p.compareThresholds n = (Part.recomputeRecheck n
      (p.setLink n { l with state := .active })).place .l0 (linkAdvisory n .active l.errors))) ∧
  (∀ (p : Part) (n : Socket), ((p.session n).state ≠ .admitted ∨ (p.session n).recheck = none → Part.recomputeRecheck n p = p) ∧
    (∀ (r : Recheck) (v d : Nat) (q : Part), (p.session n).state = .admitted → (p.session n).recheck = some r →
      v = (if p.mgmt.settings.recheckInterval = 0 then 60 else p.mgmt.settings.recheckInterval) →
      d = r.lastPass + (if (p.link n).state = .degraded then min v 5 else v) * 1000000 →
      q = p.setSession n { p.session n with recheck := some { r with due := d } } →
      (p.clock < d ∨ (p.session n).challenge ≠ none → Part.recomputeRecheck n p = q) ∧
      (d ≤ p.clock → (p.session n).challenge = none → Part.recomputeRecheck n p = q.issueChallenge n .recheck))) ∧
  (∀ (p : Part) (n : Socket) (t : Transaction),
    (t.source = .engineSlot → ∀ o, p.reportOutcome n t o = p.engineReport n t o) ∧
    (t.source = .pollQueue → ∀ f, p.reportOutcome n t (.good f) = p.reportOutcome n t (.good { f with socket := n }))) ∧
  ∀ (s : State) (n : Socket) (x : Transaction) (c : Instr) (o : TxOutcome), s.part.power = .on →
    (s.part.link n).tx = some x → ((s.part.link n).state = .active ∨ (s.part.link n).state = .degraded) →
    ((c = .replyWindowExpiry n ∧ (∃ d, x.phase = .waiting d) ∧ o = .expired) ∨
      (c = .receiverByteTimeout (.pack n) ∧ (∃ rx last, x.phase = .collecting rx last) ∧ o = .malformed) ∨
      (∃ bytes rx last, c = .packReplyCollected n bytes ∧ x.phase = .collecting rx last ∧ rx ≠ .hunting ∧
        (last + 2000 < s.part.clock ∧ o = .malformed ∨
          s.part.clock ≤ last + 2000 ∧
            ((rx.runFirst bytes).2 = some .malformed ∧ o = .malformed ∨
              ∃ f, (rx.runFirst bytes).2 = some (.wellFormed f) ∧
                o = if replyExpected x.frame.kind f.kind = true then .good f else .wrongKind)))) →
    ∃ t, exec c s = .next t ∧
      (∀ e, ((∃ f, o = .good f) → e = (s.part.link n).errors - 1) →
        ((∀ f, o ≠ .good f) → e = min 255 ((s.part.link n).errors + 8)) →
        (t.part.link n).errors = e ∧
        (e ≠ 255 → ∀ q, q = s.part.setLink n { s.part.link n with tx := none, errors := e } →
          t.part = (((q.compareThresholds n).reportOutcome n x o).tryStart n).auditProgress) ∧
        (e = 255 → (t.part.link n).state = .halted ∧ (t.part.link n).engineSlot = none ∧
          (t.part.link n).pollQueue = [] ∧ (t.part.link n).tx = none ∧ (t.part.session n).state = .none) ∧
        (e ≠ 255 → (s.part.link n).state = .active →
          (t.part.link n).state = if 96 ≤ e then .degraded else .active) ∧
        (e ≠ 255 → (s.part.link n).state = .degraded →
          (t.part.link n).state = if e < 64 then .active else .degraded)) ∧
      t.part.trust = s.part.trust ∧ t.array = s.array

/-! ## Cold start, the end of loading, the cut (chapters 6 and 11) -/

/-- R30, R39, R53, R70, R102, R107, R130, R150, R159, R175, R177, R179: a cold start puts every volatile item at its
cold-start value, loads each region and the log's write position from the words of the array, taking a blank or damaged region
as empty, resumes counting above the draw mark, and hands over the watermark job. That it is accepted in any state, and counts
as a power-on after a loss of power, is the model's choice (log 18), as are the words of the settings region, that a valid one
loads each number as read and ignores a map word's further bits (log 36), and the sectors whose words are named (log 9, log
8); the entropy values taken are the model's own count and stay (log 5). From power-on with a store that was never written it
gives State.reset but for the pins and the entropy already drawn (log 4). -/
def Obligations.ColdStartLoadsTheStore : Prop :=
  ∀ (s : State) (c : ColdStartCause),
    Gives (.coldStart c) s (fun t =>
      t.array = s.array ∧ t.part.power = .on ∧ t.part.ctl.loading = true ∧ t.part.contacts = s.part.contacts ∧
      t.part.lockPin = s.part.lockPin ∧
      t.part.clock = (if c = .powerOn ∨ s.part.power = .off then 0 else s.part.clock) ∧
      (∀ n, t.part.link n = Link.initial ∧ t.part.session n = Session.initial) ∧ t.part.engine.recent = [] ∧
      t.part.engine.audit = none ∧ t.part.tlp = Tlp.initial ∧ t.part.grants = Grants.initial ∧
      t.part.fault.conds = .all .inactive ∧ t.part.fault.permits = .all false ∧
      t.part.fault.causes = { Causes.absent with lock := s.part.lockPin, noUsableKey := t.part.trust.noUsableKey,
                                                 exhausted := t.part.proof.counter == 0xFFFFFFFF } ∧
      t.part.mgmt.request = none ∧ t.part.mgmt.parked = false ∧ t.part.mgmt.superseded = false ∧
      t.part.classifier.editing = false ∧ t.part.classifier.decim = .all 0 ∧ t.part.ctl.firstMark = true ∧
      t.part.ctl.cursor = none ∧
      t.part.ctl.storedSettings = t.part.mgmt.settings ∧ t.part.ctl.storedMap = t.part.fault.map ∧
      (∀ k : Fin 16, t.part.trust.edits[k] = 0) ∧
      t.part.mgmt.settings = loadSettings s.array ∧ t.part.fault.map = loadMap s.array ∧
      t.part.trust.keys = loadKeys s.array ∧ t.part.trust.classes = loadClasses s.array ∧
      t.part.trust.withdrawn = loadWithdrawn s.array ∧ t.part.classifier.rules = loadRules s.array ∧
      t.part.ctl.logPos = logScan s.array ∧
      (judgeRegion s.array .settings = .valid →
        (∀ i, i < 13 → t.part.mgmt.settings.value i = (readWord s.array i).toNat) ∧
        (∀ (c : Cond) (w : Word), w = readWord s.array (13 + c.number) → t.part.fault.map.get c =
          { mask := w.setWidth 4, latch := w.getLsbD 4, advise := w.getLsbD 5 })) ∧
      (judgeRegion s.array .withdrawal = .valid →
        t.part.trust.withdrawn.Pairwise (fun x y => x.toNat < y.toNat) ∧
        (∀ w, w ∈ t.part.trust.withdrawn ↔ ∃ i, i < 256 ∧ readWord s.array (512 + i) = w ∧
          ∀ k, k ≤ i → readWord s.array (512 + k) ≠ 0xFFFFFFFF)) ∧
      (judgeRegion s.array .settings ≠ .valid → t.part.mgmt.settings = Settings.default ∧ t.part.fault.map = defaultMap) ∧
      (judgeRegion s.array .keys ≠ .valid → ∀ k : Fin 16, t.part.trust.keys[k] = none) ∧
      (judgeRegion s.array .classes ≠ .valid → ∀ i : Fin 32, t.part.trust.classes[i] = none) ∧
      (judgeRegion s.array .withdrawal ≠ .valid → t.part.trust.withdrawn = []) ∧
      (judgeRegion s.array .rules ≠ .valid → ∀ i : Fin 32, t.part.classifier.rules[i] = Rule.default) ∧
      t.part.proof.reserved = 0 ∧ t.part.proof.committedMark = resumedValue s.array ∧
      t.part.proof.entropyDraws = s.part.proof.entropyDraws ∧
      (c = .powerOn ∨ s.part.power = .off → t.part.proof.drawMark = none ∧ t.part.proof.counter = resumedValue s.array) ∧
      (c = .resetReleased → s.part.power ≠ .off → t.part.proof.drawMark = s.part.proof.drawMark ∧
        (s.part.proof.drawMark = none → t.part.proof.counter = resumedValue s.array) ∧
        (∀ d, s.part.proof.drawMark = some d → t.part.proof.counter =
          if (resumedValue s.array).toNat ≤ d.toNat then d + 1 else resumedValue s.array)) ∧
      t.part.proof.pendingMark = BitVec.ofNat 32 (min (t.part.proof.counter.toNat + 4096) 0xFFFFFFFF) ∧
      .watermark t.part.proof.pendingMark ∈ t.part.ctl.jobs ∧ t.part.ctl.jobs.countP Job.isTable = 0 ∧
      (∀ r ∈ loadOrder, judgeRegion s.array r = .damaged → Logged t.part (storeBad r.code))) ∧
    (s.array = [] → exec (.coldStart .powerOn) s = .next { s with part :=
      { Part.reset with
        contacts := s.part.contacts, lockPin := s.part.lockPin,
        proof := { Part.reset.proof with entropyDraws := s.part.proof.entropyDraws },
        fault := { Part.reset.fault with causes := { Part.reset.fault.causes with lock := s.part.lockPin } } } })

/-- R113, R130, R175, R177: a key table written into its region by a job's steps is the key table that the next cold start
loads (the words of a slot are log 9's). R176, R183: a job that stops has done its first steps and nothing else, once a word
of a single-sector region's content is programmed. R177, R183: a job that stops between the first step and the last of its
rewriting of a single-sector region leaves that region damaged (while nothing is programmed, by a word of the model's choice,
log 30). -/
def Obligations.StoredKeyTableLoadsBack : Prop :=
  (∀ (j : Job) (ps : List Prim) (k : Nat),
    j.rewrites = none ∨ (∃ addr x, Prim.program addr x ∈ ps.take k ∧ x ≠ 0xFFFFFFFF) →
    j.stopped ps k = ps.take k ∧ (k < ps.length → j.taken ps (.failedAt k) = ps.take k)) ∧
  (∀ (a : StoreArray) (keys : Vector (Option KeyEntry) 16), a.wf = true →
    loadKeys (applySteps a (rewriteRegion .keys (keys.toList.flatMap keyWords))) = keys) ∧
  (∀ (a : StoreArray) (p : Part) (j : Job) (r : Region) (k : Nat), a.wf = true → j.rewrites = some r →
    (0 < k → k < (j.steps p a).length → judgeRegion (applySteps a (j.stopped (j.steps p a) k)) r = .damaged) ∧
    (∀ i, judgeRegion (applySteps a (j.taken (j.steps p a) (.failedAt i))) r = .damaged))

/-- R39, R53, R150, R159, R179: loading ends when its watermark job has ended. Hand-off opens, the silence and aggregate timers
start, asserted contacts settle, the causes that are present become ACTIVE, and an idle transmitter sends STARTED with the
new watermark; the COLD_START entry is handed over. Until then the event does not occur (log 3). -/
def Obligations.LoadingEndsWhenItsWatermarkJobHas : Prop :=
  ∀ (s : State), s.part.power = .on →
    (s.part.ctl.loading = false ∨ (∃ j ∈ s.part.ctl.jobs, j.isWatermark = true) → exec .loadingFinished s = .next s) ∧
    (s.part.ctl.loading = true → (∀ j ∈ s.part.ctl.jobs, j.isWatermark = false) →
      Gives .loadingFinished s (fun t =>
        t.array = s.array ∧ t.part.ctl.loading = false ∧ t.part.tlp.silence = some (s.part.clock + 500000) ∧
        t.part.grants = { s.part.grants with aggregate := some (s.part.clock +
          if s.part.mgmt.settings.aggregatePeriod = 0 then 20000 else s.part.mgmt.settings.aggregatePeriod * 1000) } ∧
        (∀ n, s.part.contacts.get n = true →
          (t.part.link n).state = .settling ∧ (t.part.link n).settle = some (s.part.clock + 250000)) ∧
        (∀ n, s.part.contacts.get n = false → (t.part.link n).state = .vacant ∧ (t.part.link n).settle = none) ∧
        (∀ c, t.part.fault.conds.get c = if s.part.fault.causes.present c then .active else .inactive) ∧
        t.part.fault.causes = s.part.fault.causes ∧ t.part.fault.map = s.part.fault.map ∧
        t.part.trust = s.part.trust ∧ t.part.proof = s.part.proof ∧ t.part.engine = s.part.engine ∧
        t.part.classifier = s.part.classifier ∧ t.part.mgmt.settings = s.part.mgmt.settings ∧
        (LogRoom s.part → Logged t.part { type := 1, socket := 7, detail := 0, data := [s.part.proof.pendingMark] }) ∧
        (s.part.tlp.sending = none → s.part.tlp.response = none → s.part.tlp.lane0 = [] →
          t.part.tlp.sending = some ⟨10, 0, 1 :: 0xFF :: Word.bytes s.part.proof.pendingMark⟩)))

/-- R183, Table 6.1, log 10, log 18, log 30: a loss of power or an assertion of RESETn ends the job in progress after some of
its steps, whose words the array keeps (with the mark of a region erased and not yet programmed), empties the job queue and
takes the permit lines down; a loss of power also loses the draw mark. Everything else stands as it did. -/
def Obligations.CutKeepsWhatTheJobHadWritten : Prop :=
  ∀ (s : State) (k : Nat), ∃ a : StoreArray,
    (s.part.ctl.job = none → a = s.array) ∧
    (∀ j, s.part.ctl.job = some j → a = applySteps s.array (j.stopped (j.steps s.part s.array) k)) ∧
    exec (.powerFailsOrResetnAsserted .powerFails k) s = .next
      { s with array := a, part := { s.part with
          power := .off, ctl := { s.part.ctl with job := none, queue := [] },
          fault := { s.part.fault with permits := .all false },
          proof := { s.part.proof with drawMark := none } } } ∧
    exec (.powerFailsOrResetnAsserted .resetAsserted k) s = .next
      { s with array := a, part := { s.part with
          power := if s.part.power = .off then .off else .resetHeld,
          ctl := { s.part.ctl with job := none, queue := [] },
          fault := { s.part.fault with permits := .all false } } }

/-! ## Admission (chapters 5 and 6) -/

/-- R76 to R79, R85, R86, R103: an accepted IDENTITY is stored and checked in the order of Table 5.3; the first check that
fails decides; when all hold the session is bound and its ADMISSION challenge issued, unless no counter value is left. A
duplicate is counted (R94), sends the session that holds the serial to a recheck, unless a challenge is outstanding, which then
stays, and gives the CLONE cause, with its log entry. -/
def Obligations.IdentityChecksInOrder : Prop :=
  ∀ (p : Part) (n : Socket) (b : List Byte) (i : Identity) (x : Session),
    i = { family := byteAt b 0, generation := byteAt b 1, serial := wordAt b 2, classCode := byteAt b 6,
          cycles := halfAt b 7 } →
    x = (p.acceptIdentity n b).session n →
    x.identity = some i ∧ (p.acceptIdentity n b).trust = p.trust ∧
    (i.serial = 0 ∨ i.serial = 0xFFFFFFFF → x.state = .refused ∧ x.reason = some .badIdentity) ∧
    (i.serial ≠ 0 → i.serial ≠ 0xFFFFFFFF →
      (i.serial ∈ p.trust.withdrawn → x.state = .withdrawn ∧ x.reason = some .withdrawn) ∧
      (i.serial ∉ p.trust.withdrawn →
        ((∃ e ∈ p.engine.recent, e.1 = i.serial ∧ p.mgmt.settings.repeatLimit ≤ e.2) →
          x.state = .refused ∧ x.reason = some .repeated) ∧
        ((∀ e ∈ p.engine.recent, e.1 = i.serial → e.2 < p.mgmt.settings.repeatLimit) →
          ((∃ m j, m ≠ n ∧ (p.session m).state.live = true ∧ (p.session m).identity = some j ∧ j.serial = i.serial) →
            x.state = .refused ∧ x.reason = some .duplicate ∧
            ((∀ e ∈ p.engine.recent, e.1 ≠ i.serial) →
              (p.acceptIdentity n b).engine.recent = (i.serial, 1) :: p.engine.recent.take 15) ∧
            (∀ l1 l2 k, p.engine.recent = l1 ++ (i.serial, k) :: l2 → (∀ e ∈ l1 ++ l2, e.1 ≠ i.serial) →
              (p.acceptIdentity n b).engine.recent = (i.serial, min 15 (k + 1)) :: (l1 ++ l2)) ∧
            (p.acceptIdentity n b).fault.conds.clone = (if p.fault.map.clone.latch then .held else .inactive) ∧
            (LogRoom (p.acceptIdentity n b) →
              Logged (p.acceptIdentity n b) { type := 6, socket := 7, detail := 6, data := [] })) ∧
          (∀ m j, m ≠ n → (p.session m).state.live = true → (p.session m).identity = some j → j.serial = i.serial →
            (∀ l y, l ≠ n → (p.session l).state.live = true → (p.session l).identity = some y → y.serial = i.serial →
              l = m) →
            (∀ l, l ≠ n → l ≠ m → (p.acceptIdentity n b).session l = p.session l) ∧
            ((p.session m).challenge ≠ none → (p.acceptIdentity n b).session m = p.session m) ∧
            ((p.session m).challenge = none → CanChallenge p m →
              ((p.acceptIdentity n b).session m).state = (p.session m).state ∧
              ∃ ph, ((p.acceptIdentity n b).session m).challenge = some ⟨.recheck, ph⟩)) ∧
          ((∀ m j, m ≠ n → (p.session m).state.live = true → (p.session m).identity = some j → j.serial ≠ i.serial) →
            ((∀ (c : Fin 32) e, p.trust.classes[c] = some e → e.code ≠ i.classCode) →
              x.state = .refused ∧ x.reason = some .noClass) ∧
            (∀ (c : Fin 32) e, p.trust.classes[c] = some e → e.code = i.classCode →
              (∀ (d : Fin 32) e', p.trust.classes[d] = some e' → e'.code = i.classCode → d = c) →
              ((∀ (k : Fin 16) y, p.trust.keys[k] = some y → ¬(y.family = i.family ∧ y.generation = i.generation)) →
                x.state = .refused ∧ x.reason = some .noKey) ∧
              (∀ (k : Fin 16) y, p.trust.keys[k] = some y → y.family = i.family → y.generation = i.generation →
                (∀ (l : Fin 16) y', p.trust.keys[l] = some y' → y'.family = i.family → y'.generation = i.generation →
                  l = k) →
                x.keySlot = some k ∧ x.classIndex = some c ∧ x.attempts = 0 ∧ x.marks.keyRetired = y.retired ∧
                x.marks.worn = ((p.session n).marks.worn ||
                  decide (e.wearLimit ≠ 0 ∧ e.wearLimit.toNat ≤ i.cycles.toNat)) ∧
                (p.proof.reserved < 0xFFFFFFFF - p.proof.counter.toNat →
                  x.state = .verifying ∧ ∃ ph, x.challenge = some ⟨.admission, ph⟩) ∧
                (∃ q : Part, p.acceptIdentity n b = (q.reportSession n).issueChallenge n .admission ∧
                  (q.session n).state = .verifying) ∧
                (0xFFFFFFFF - p.proof.counter.toNat ≤ p.proof.reserved →
                  x.state = .refused ∧ x.reason = some .exhausted)))))))

/-- R105, R106: the expected proof of a challenge is the sum of its eight message words times falling powers of ka, plus kb,
modulo 2147483647. -/
def Obligations.ExpectedProofIsThePolynomial : Prop :=
  ∀ (p : Part) (n : Socket) (x : Nonce) (i : Identity) (k : Fin 16) (e : KeyEntry),
    (p.session n).identity = some i → (p.session n).keySlot = some k → p.trust.keys[k] = some e →
    p.expected n x = some
      ((x.n0.toNat * e.ka.toNat ^ 8 + x.n1.toNat * e.ka.toNat ^ 7 + x.n2.toNat * e.ka.toNat ^ 6 +
        x.n3.toNat * e.ka.toNat ^ 5 + i.serial.toNat / 65536 * e.ka.toNat ^ 4 + i.serial.toNat % 65536 * e.ka.toNat ^ 3 +
        n.val * e.ka.toNat ^ 2 + (i.family.toNat * 256 + i.generation.toNat) * e.ka.toNat + e.kb.toNat) % 2147483647)

/-- R81, R87: the report of a challenge's transaction is passed over when it was cancelled, is NO_ANSWER without a good reply,
is discarded and asked again when the slot's edit count has moved, and else is LATE, MISMATCH or PASS in that order. R98: a
judged outcome is the result of a socket that an audit waits for, and of no other; that the audit keeps a MISMATCH session's
serial with the result is the model's deduction (log 17). R75: the report of an IDENTIFY is taken in
IDENTIFYING: a good reply is accepted (R76); any other is a miss, after which a new IDENTIFY is placed, or at the third the
session is refused NO_IDENTITY, which is not counted. -/
def Obligations.VerdictsComeInOrder : Prop :=
  (∀ (p : Part) (n : Socket) (t : Transaction) (o : TxOutcome), t.frame.kind = kindIdentify →
    (t.passedOver = true ∨ (p.session n).state ≠ .identifying → p.engineReport n t o = p) ∧
    (t.passedOver = false → (p.session n).state = .identifying →
      (∀ f, o = .good f → p.engineReport n t o = p.acceptIdentity n f.payload) ∧
      (o = .malformed ∨ o = .wrongKind ∨ o = .expired →
        ((p.session n).attempts < 2 → p.engineReport n t o =
          ((p.setSession n { p.session n with attempts := (p.session n).attempts + 1 }).setLink n
            { p.link n with engineSlot := some .identify }).tryStart n) ∧
        (2 ≤ (p.session n).attempts →
          ((p.engineReport n t o).session n).state = .refused ∧
          ((p.engineReport n t o).session n).reason = some .noIdentity ∧
          ((p.engineReport n t o).session n).attempts = (p.session n).attempts + 1 ∧
          (p.engineReport n t o).engine.recent = p.engine.recent ∧ OthersKept n p (p.engineReport n t o))))) ∧
  (∀ (p : Part) (n : Socket) (o : AuditOutcome),
    (p.engine.audit = none → p.auditResult n o = p) ∧
    (∀ a, p.engine.audit = some a →
      (a.reached.get n = false ∨ a.results.get n ≠ none → p.auditResult n o = p) ∧
      (a.reached.get n = true → a.results.get n = none →
        p.auditResult n o = { p with engine := { p.engine with audit := some { a with
          results := a.results.set n (some o),
          serials := a.serials.set n
            (if o = .mismatch then (p.session n).identity.map Identity.serial else none) } } }))) ∧
  (∀ (p : Part) (n : Socket),
    p.judged n .pass = (p.auditResult n .pass).applyVerdict n .pass ∧
    p.judged n .mismatch = (p.auditResult n .mismatch).applyVerdict n .mismatch ∧
    p.judged n .late = (p.auditResult n .late).applyVerdict n .late ∧
    p.judged n .noAnswer = (p.auditResult n .noAnswer).applyVerdict n .noAnswer) ∧
  ∀ (p : Part) (n : Socket) (t : Transaction) (o : TxOutcome), t.frame.kind = kindChallenge →
    (t.passedOver = true → p.engineReport n t o = p) ∧
    (∀ (why : Purpose) (x : Nonce) (snap : Byte) (q : Part), t.passedOver = false →
      (p.session n).challenge = some ⟨why, .sent x snap⟩ →
      q = p.setSession n { p.session n with challenge := none } →
      (o = .malformed ∨ o = .wrongKind ∨ o = .expired → p.engineReport n t o = q.judged n .noAnswer) ∧
      (∀ f, o = .good f →
        (p.editCount (p.session n).keySlot ≠ snap → p.engineReport n t o = q.issueChallenge n why) ∧
        (∀ sent came l : Word, p.editCount (p.session n).keySlot = snap → t.sentAt = some sent → t.replyAt = some came →
          l = came - sent →
          (p.mgmt.settings.proofWindow * 1000 < l.toNat → p.engineReport n t o = q.judged n .late) ∧
          (l.toNat ≤ p.mgmt.settings.proofWindow * 1000 →
            (p.expected n x = some (wordAt f.payload 0).toNat → p.engineReport n t o = q.judged n .pass) ∧
            (p.expected n x ≠ some (wordAt f.payload 0).toNat → p.engineReport n t o = q.judged n .mismatch)))))

/-- R82 to R85, R88, R94: what a judged outcome does, by the session's state: a pass admits or schedules the next recheck; a
failure in ADMITTED makes it SUSPECT; the third failure of an episode and every mismatch refuse it, and the refusal of its
serial is counted (R85 step 6); a failure before that is tried again. No other session is changed. R73: a change of a session's
state is reported at once, by a SESSION advisory in lane 0 with the state's and the reason's code, and the grants are
recomputed: at a refusal, a withdrawal, a session's end, an admission and a fall to SUSPECT. -/
def Obligations.VerdictsActByState : Prop :=
  (∀ (p : Part) (n : Socket) (st k : Nat),
    [SessState.none, .identifying, .verifying, .admitted, .suspect, .refused, .withdrawn][st]? = some (p.session n).state →
    [none, some Reason.noIdentity, some .badIdentity, some .withdrawn, some .repeated, some .duplicate, some .noClass,
      some .noKey, some .mismatch, some .late, some .noAnswer, some .exhausted][k]? = some (p.session n).reason →
    p.reportSession n =
      (p.place .l0 { kind := 10, socket := n, payload := [2, byteOf n.val, byteOf st, byteOf k, 0, 0] }).recompute) ∧
  (∀ (p : Part) (n : Socket),
    (∀ r, ∃ q : Part, p.refuse n r = q.reportSession n ∧ (q.session n).state = .refused ∧ (q.session n).reason = some r) ∧
    (∃ q : Part, p.withdraw n = q.reportSession n ∧ (q.session n).state = .withdrawn ∧
      (q.session n).reason = some .withdrawn) ∧
    ((p.session n).state = .none → p.endSession n = p) ∧
    ((p.session n).state ≠ .none → ∃ q : Part, p.endSession n = q.reportSession n ∧ q.session n = Session.initial) ∧
    ((p.session n).state = .verifying ∨ (p.session n).state = .suspect →
      ∃ q : Part, p.applyVerdict n .pass = q.reportSession n ∧ (q.session n).state = .admitted) ∧
    ((p.session n).state = .admitted → ∀ v, v = .late ∨ v = .noAnswer →
      ∃ q : Part, p.applyVerdict n v = (q.reportSession n).issueChallenge n .recheck ∧ (q.session n).state = .suspect)) ∧
  ∀ (p : Part) (n : Socket) (v : Verdict) (s x : Session), s = p.session n → x = (p.applyVerdict n v).session n →
    OthersKept n p (p.applyVerdict n v) ∧ (p.applyVerdict n v).trust = p.trust ∧
    (v = .pass → s.state.live = true →
      x.state = .admitted ∧ x.recheck = some
        { due := p.clock + (if (p.link n).state = .degraded then
            min (if p.mgmt.settings.recheckInterval = 0 then 60 else p.mgmt.settings.recheckInterval) 5
            else if p.mgmt.settings.recheckInterval = 0 then 60 else p.mgmt.settings.recheckInterval) * 1000000,
          lastPass := p.clock } ∧
      (s.state ≠ .admitted → x.attempts = 0 ∧ x.marks = { s.marks with suspect := false }) ∧
      (s.state = .admitted → x = { s with recheck := x.recheck })) ∧
    (v = .mismatch → s.state.live = true →
      x.state = .refused ∧ x.reason = some .mismatch ∧ x.challenge = none ∧ x.recheck = none) ∧
    (v = .mismatch ∧ s.state.live = true ∨
        (v = .late ∨ v = .noAnswer) ∧ (s.state = .verifying ∨ s.state = .suspect) ∧ 2 ≤ s.attempts →
      (s.identity = none → (p.applyVerdict n v).engine.recent = p.engine.recent) ∧
      (∀ i, s.identity = some i →
        ((∀ e ∈ p.engine.recent, e.1 ≠ i.serial) →
          (p.applyVerdict n v).engine.recent = (i.serial, 1) :: p.engine.recent.take 15) ∧
        (∀ a b k, p.engine.recent = a ++ (i.serial, k) :: b → (∀ e ∈ a ++ b, e.1 ≠ i.serial) →
          (p.applyVerdict n v).engine.recent = (i.serial, min 15 (k + 1)) :: (a ++ b)))) ∧
    (∀ r, v = .late ∧ r = Reason.late ∨ v = .noAnswer ∧ r = Reason.noAnswer →
      (s.state = .admitted → CanChallenge p n →
        x.state = .suspect ∧ x.attempts = 1 ∧ x.marks.suspect = true ∧ x.recheck = none ∧
        ∃ ph, x.challenge = some ⟨.recheck, ph⟩) ∧
      (s.state = .verifying ∨ s.state = .suspect → 2 ≤ s.attempts →
        x.state = .refused ∧ x.reason = some r ∧ x.challenge = none ∧ x.recheck = none) ∧
      (s.state = .verifying ∨ s.state = .suspect → s.attempts < 2 → CanChallenge p n →
        x.state = s.state ∧ x.attempts = s.attempts + 1 ∧
        ∃ ph, x.challenge = some ⟨if s.state = .verifying then .admission else .recheck, ph⟩)) ∧
    (s.state.live = false → p.applyVerdict n v = p)

/-- R90, R91, R131, R135: a relayed STATUS shown to the part: the sequence is checked in ADMITTED and SUSPECT, a break being
counted and rechecked; the telemetry and the peak temperature are refreshed and STALE is cleared. -/
def Obligations.StatusRefreshesTheSession : Prop :=
  ∀ (p : Part) (n : Socket) (b : List Byte) (s x : Session), s = p.session n → x = (p.showStatus n b).session n →
    OthersKept n p (p.showStatus n b) ∧ (p.showStatus n b).grants.stale.get n = false ∧
    (s.state ≠ .none →
      x.telemetry = some { temperature := max (-40) (min 125 (byteAt b 3).toInt), allowance := halfAt b 5,
                           cellMin := halfAt b 7, since := p.clock } ∧
      x.peak = some (match s.peak with
        | none => max (-40) (min 125 (byteAt b 3).toInt)
        | some y => max y (max (-40) (min 125 (byteAt b 3).toInt)))) ∧
    (s.state = .admitted ∨ s.state = .suspect →
      x.baseline = some (byteAt b 0) ∧
      (s.baseline = none → x.breaks = s.breaks ∧ x.challenge = s.challenge ∧ x.state = s.state) ∧
      (∀ v, s.baseline = some v →
        (byteAt b 0 = v + 1 → x.breaks = s.breaks ∧ x.challenge = s.challenge ∧ x.state = s.state) ∧
        (byteAt b 0 ≠ v + 1 → x.breaks = min 255 (s.breaks + 1) ∧
          (∀ c, s.challenge = some c → x.challenge = some c ∧ x.state = s.state) ∧
          (s.challenge = none → CanChallenge p n → x.state = s.state ∧ ∃ ph, x.challenge = some ⟨.recheck, ph⟩)))) ∧
    (s.state ≠ .admitted → s.state ≠ .suspect →
      x.baseline = s.baseline ∧ x.breaks = s.breaks ∧ x.challenge = s.challenge ∧ x.state = s.state)

/-! ## Grants, timers, LOCK (chapters 8 and 9) -/

/-- R138: the tool grant is the smaller of the tool ceiling and the sum of the string grants. While no class entry is rated
above 2000 and the ceiling is at most 8000, the sum is at most 8000 and the tool grant lies in 0..8000. -/
def Obligations.ToolGrantIsTheSmallerOfCeilingAndSum : Prop :=
  ∀ (p : Part) (g : Grants) (c sum : Nat), g = p.computeGrants → c = p.mgmt.settings.toolCeiling →
    sum = g.strings.s0 + g.strings.s1 + g.strings.s2 + g.strings.s3 →
    g.toolGrant = min c sum ∧ g.toolGrant ≤ c ∧ (sum = 0 → g.toolGrant = 0) ∧ (c = 0 → g.toolGrant = 0) ∧
    ((∀ (i : Fin 32) e, p.trust.classes[i] = some e → e.ic.toNat ≤ 2000) → sum ≤ 4 * 2000) ∧
    (c ≤ 8000 → g.toolGrant ≤ 8000)

/-- R132 to R134, R137, R139: the derating, the trust percent and the grant of a socket, the grouping into strings, and the
shares: the grants themselves when the ceiling suffices, else the truncated parts, with less than one step for each string
left over, which go one step each to the strings with a grant above 0 in ascending order, none above its grant. R131, R140: a
recomputation leaves every D, Tr, G, string grant and share by these formulas, and each socket's published allowance is its
string's share. R141: it evaluates the overheat cause, present while a trusted session's last temperature is at or above its
cutoff. R142, R148: it re-evaluates the permit lines, and places one AGGREGATE when the tool grant or a published allowance
fell. -/
def Obligations.GrantsFollowTheirFormulas : Prop :=
  (∀ (p : Part) (g : Grants) (paired : Bool) (ss sh : List Nat), g = p.computeGrants →
    (paired = true ↔ p.mgmt.settings.topology = 1) → ss = stringGrants paired g.grant →
    sh = apportion p.mgmt.settings.toolCeiling ss →
    g = { p.grants with derate := g.derate, trust := g.trust, grant := g.grant, strings := g.strings,
                        toolGrant := g.toolGrant, shares := g.shares, published := g.published } ∧
    (∀ n, g.grant.get n = p.grantOf n ∧
      ((p.session n).state ≠ .admitted ∧ (p.session n).state ≠ .suspect →
        g.derate.get n = 100 ∧ g.trust.get n = 100) ∧
      ((p.session n).telemetry = none → g.derate.get n = 100) ∧
      ((p.session n).state = .admitted ∨ (p.session n).state = .suspect →
        g.trust.get n = trustPercent (p.session n).marks p.mgmt.settings.retiredCap p.mgmt.settings.limpCap ∧
        ∀ (t : Telemetry) (i : Fin 32) (e : ClassEntry), (p.session n).telemetry = some t →
          (p.session n).classIndex = some i → p.trust.classes[i] = some e →
          g.derate.get n = deratePercent t.temperature e.tk e.tc)) ∧
    (paired = false → [g.strings.s0, g.strings.s1, g.strings.s2, g.strings.s3] = ss ∧
      [g.shares.s0, g.shares.s1, g.shares.s2, g.shares.s3] = sh ∧ g.published = g.shares) ∧
    (paired = true → [g.strings.s0, g.strings.s1] = ss ∧ g.strings.s2 = 0 ∧ g.strings.s3 = 0 ∧
      [g.shares.s0, g.shares.s1] = sh ∧ g.shares.s2 = 0 ∧ g.shares.s3 = 0 ∧
      g.published = ⟨g.shares.s0, g.shares.s0, g.shares.s1, g.shares.s1⟩)) ∧
  (∀ (p : Part) (n : Socket),
    ((p.session n).state ≠ .admitted ∧ (p.session n).state ≠ .suspect ∨ (p.session n).telemetry = none →
      p.hot n = false) ∧
    (∀ (t : Telemetry) (i : Fin 32) (e : ClassEntry), (p.session n).state = .admitted ∨ (p.session n).state = .suspect →
      (p.session n).telemetry = some t → (p.session n).classIndex = some i → p.trust.classes[i] = some e →
      (p.hot n = true ↔ e.tc ≤ t.temperature))) ∧
  (∀ (p : Part) (g : Grants) (hot : Bool), g = p.computeGrants → (hot = true ↔ ∃ n, p.hot n = true) →
    ∃ q : Part, q = { p with grants := g, fault := q.fault, tlp := q.tlp, mgmt := q.mgmt, ctl := q.ctl } ∧
      q.fault.causes = { p.fault.causes with overheat := hot } ∧ q.fault.map = p.fault.map ∧
      (∀ n, q.fault.permits.get n = q.permitDue n) ∧
      (p.ctl.loading = true ∨ p.fault.causes.overheat = hot →
        q.fault.conds = p.fault.conds ∧ q.tlp = p.tlp ∧ q.mgmt = p.mgmt ∧ q.ctl = p.ctl) ∧
      (p.ctl.loading = false → p.fault.causes.overheat = false → hot = true →
        q.fault.conds = p.fault.conds.set .overheat .active ∧
        (LogRoom q → Logged q { type := 6, socket := 7, detail := 3, data := [] })) ∧
      (p.ctl.loading = false → p.fault.causes.overheat = true → hot = false → p.fault.conds.overheat = .active →
        q.fault.conds = p.fault.conds.set .overheat (if p.fault.map.overheat.latch then .held else .inactive)) ∧
      (g.toolGrant < p.grants.prevTool ∨ (∃ n, g.published.get n < p.grants.prevPublished.get n) →
        p.recompute = { q.placeAggregate q.aggregateFrame with
          grants := { g with prevTool := g.toolGrant, prevPublished := g.published } }) ∧
      (p.grants.prevTool ≤ g.toolGrant → (∀ n, p.grants.prevPublished.get n ≤ g.published.get n) →
        p.recompute = { q with grants := { g with prevTool := g.toolGrant, prevPublished := g.published } })) ∧
  (∀ t tk tc : Int, tk < tc →
    (t ≤ tk → deratePercent t tk tc = 100) ∧ (tc ≤ t → deratePercent t tk tc = 0) ∧
    (tk < t → t < tc → (deratePercent t tk tc : Int) = 100 * (tc - t) / (tc - tk) ∧ deratePercent t tk tc < 100)) ∧
  (∀ (m : Marks) (r l : Nat), trustPercent m r l =
    min (min 100 (if m.keyRetired = true ∨ m.worn = true then r else 100)) (if m.suspect = true then l else 100)) ∧
  (∀ (p : Part) (n : Socket),
    ((p.session n).state ≠ .admitted ∧ (p.session n).state ≠ .suspect ∨ (p.session n).baseline = none ∨
      p.grants.stale.get n = true → p.grantOf n = 0) ∧
    (∀ (t : Telemetry) (i : Fin 32) (e : ClassEntry), (p.session n).telemetry = some t →
      (p.session n).classIndex = some i → p.trust.classes[i] = some e →
      (t.cellMin.toNat < e.cellFloor.toNat → p.grantOf n = 0) ∧
      ((p.session n).state = .admitted ∨ (p.session n).state = .suspect → (p.session n).baseline.isSome = true →
        p.grants.stale.get n = false → e.cellFloor.toNat ≤ t.cellMin.toNat →
        p.grantOf n = min t.allowance.toNat (e.ic.toNat * deratePercent t.temperature e.tk e.tc *
          trustPercent (p.session n).marks p.mgmt.settings.retiredCap p.mgmt.settings.limpCap / 10000)))) ∧
  (∀ g : PerSocket Nat, stringGrants false g = [g.s0, g.s1, g.s2, g.s3] ∧
    stringGrants true g = [min g.s0 g.s1, min g.s2 g.s3]) ∧
  (∀ (c : Nat) (ss : List Nat), (ss.sum ≤ c → apportion c ss = ss) ∧
    (c < ss.sum → (apportion c ss).length = ss.length ∧ (apportion c ss).sum = c ∧
      ∀ k : Nat, ∀ s ∈ ss[k]?, ∀ h ∈ (apportion c ss)[k]?,
        s * c / ss.sum ≤ h ∧ h ≤ s * c / ss.sum + 1 ∧ h ≤ s ∧
        h = s * c / ss.sum + (if 0 < s ∧ (ss.take k).countP (fun x => decide (0 < x)) <
          c - (ss.map fun x => x * c / ss.sum).sum then 1 else 0)))

/-- R88, R135, R144, R146, R152, R153: what the events of the recheck, hold, overdraw and aggregate timers and of the LOCK
input do, and that an event that cannot occur does nothing (log 3). R12, R149: what an AGGREGATE holds. R155: a
momentary cause takes a latching condition to HELD, reported once, and one that does not latch through ACTIVE to INACTIVE,
reported twice; each time a FAULT entry is logged. -/
def Obligations.TimersAndLockAct : Prop :=
  (∀ (p q : Part) (c : Cond), q = p.momentary c →
    (LogRoom q → Logged q { type := 6, socket := 7, detail := halfOf c.number, data := [] }) ∧
    q.fault.causes = p.fault.causes ∧ q.fault.map = p.fault.map ∧ q.links = p.links ∧ q.engine = p.engine ∧
    q.trust = p.trust ∧ q.grants = p.grants ∧ q.proof = p.proof ∧ q.classifier = p.classifier ∧
    ((p.fault.map.get c).latch = true → p.fault.conds.get c = .held → q.fault = p.fault ∧ q.tlp = p.tlp) ∧
    ((p.fault.map.get c).latch = false ∨ p.fault.conds.get c ≠ .held →
      q.fault.conds = p.fault.conds.set c (if (p.fault.map.get c).latch then .held else .inactive) ∧
      (∀ n, q.fault.permits.get n = q.permitDue n) ∧
      ((p.fault.map.get c).advise = false → q.tlp = p.tlp) ∧
      (∀ (g : Frame) (adv : Byte → Frame), p.tlp.sending = some g → (p.fault.map.get c).advise = true →
        (∀ st, adv st = { kind := 10, socket := 0, payload := [4, 0xFF, byteOf c.number, st, 0, 0] }) →
        q.tlp = p.tlp.setLane .l0 (if (p.fault.map.get c).latch then laneInsert 8 (adv 2) p.tlp.lane0
          else laneInsert 8 (adv 0) (laneInsert 8 (adv 1) p.tlp.lane0))))) ∧
  (∀ p : Part, ∃ (permits active held s01 s23 links : Byte) (code : Socket → Nat),
    p.aggregateFrame = { kind := 11, socket := 0, payload := Half.bytes (halfOf p.grants.toolGrant) ++
      (Half.bytes (halfOf (p.grants.published.get 0)) ++ Half.bytes (halfOf (p.grants.published.get 1)) ++
        Half.bytes (halfOf (p.grants.published.get 2)) ++ Half.bytes (halfOf (p.grants.published.get 3))) ++
      [permits, active, held, s01, s23, links] } ∧
    (∀ n : Socket, permits.getLsbD n.val = p.fault.permits.get n) ∧ (∀ i, 4 ≤ i → permits.getLsbD i = false) ∧
    (∀ c : Cond, active.getLsbD c.number = decide (p.fault.conds.get c = .active) ∧
      held.getLsbD c.number = decide (p.fault.conds.get c = .held)) ∧
    (∀ n, [SessState.none, .identifying, .verifying, .admitted, .suspect, .refused, .withdrawn][code n]? =
      some (p.session n).state) ∧
    s01.toNat = 16 * code 0 + code 1 ∧ s23.toNat = 16 * code 2 + code 3 ∧
    (∀ n : Socket, (links.toNat >>> (6 - 2 * n.val)) % 4 =
      if (p.link n).state = .vacant then 0 else if (p.link n).state = .settling then 1
      else if (p.link n).state = .active then 2 else 3)) ∧
  ∀ (s : State), s.part.power = .on →
    (∀ n, s.part.engine.audit = none → (s.part.session n).state = .admitted → (s.part.session n).recheck.isSome = true →
      (∀ c, (s.part.session n).challenge = some c → exec (.recheckDue n) s = .next s) ∧
      ((s.part.session n).challenge = none → CanChallenge s.part n → Gives (.recheckDue n) s (fun t =>
        (t.part.session n).state = .admitted ∧ (∃ ph, (t.part.session n).challenge = some ⟨.recheck, ph⟩) ∧
        OthersKept n s.part t.part ∧ t.part.trust = s.part.trust ∧ t.array = s.array))) ∧
    (∀ n, ((s.part.session n).telemetry = none ∨ s.part.grants.stale.get n = true →
        exec (.holdTimerExpiry n) s = .next s) ∧
      (∀ x, (s.part.session n).telemetry = some x → s.part.grants.stale.get n = false →
        Gives (.holdTimerExpiry n) s (fun t =>
          t.part.grants.stale = s.part.grants.stale.set n true ∧ t.part.grants.grant.get n = 0 ∧
          t.part.engine = s.part.engine ∧ t.part.links = s.part.links ∧ t.part.trust = s.part.trust ∧
          t.part.proof = s.part.proof ∧ t.array = s.array))) ∧
    (s.part.grants.overdraw = none → exec .overdrawTimerExpiry s = .next s) ∧
    (∀ d, s.part.grants.overdraw = some d → Gives .overdrawTimerExpiry s (fun t =>
      t.part.grants = { s.part.grants with overdraw := none } ∧
      t.part.fault.causes = { s.part.fault.causes with overdraw := true } ∧
      (s.part.ctl.loading = false → s.part.fault.causes.overdraw = false →
        t.part.fault.conds = s.part.fault.conds.set .overdraw .active) ∧
      t.part.engine = s.part.engine ∧ t.part.links = s.part.links ∧ t.part.trust = s.part.trust ∧
      t.part.proof = s.part.proof ∧ t.array = s.array)) ∧
    (s.part.grants.aggregate = none → exec .aggregateTimerExpiry s = .next s) ∧
    (∀ d, s.part.grants.aggregate = some d → exec .aggregateTimerExpiry s = .next { s with part :=
      { s.part.placeAggregate s.part.aggregateFrame with grants := { s.part.grants with aggregate := some (s.part.clock +
          if s.part.mgmt.settings.aggregatePeriod = 0 then 20000 else s.part.mgmt.settings.aggregatePeriod * 1000) } } }) ∧
    (∀ b, Gives (.lockChange b) s (fun t =>
      t.part.lockPin = b ∧ t.part.fault.causes = { s.part.fault.causes with lock := b } ∧
      (s.part.ctl.loading = true ∨ s.part.fault.causes.lock = b → t.part.fault.conds = s.part.fault.conds) ∧
      (s.part.ctl.loading = false → s.part.fault.causes.lock = false → b = true →
        t.part.fault.conds = s.part.fault.conds.set .lock .active ∧
        (LogRoom s.part → Logged t.part { type := 6, socket := 7, detail := 0, data := [] })) ∧
      (s.part.ctl.loading = false → s.part.fault.causes.lock = true → b = false → s.part.fault.conds.lock = .active →
        t.part.fault.conds = s.part.fault.conds.set .lock (if s.part.fault.map.lock.latch then .held else .inactive)) ∧
      t.part.fault.map = s.part.fault.map ∧ t.part.engine = s.part.engine ∧ t.part.links = s.part.links ∧
      t.part.trust = s.part.trust ∧ t.part.grants = s.part.grants ∧ t.part.proof = s.part.proof ∧
      t.part.classifier = s.part.classifier ∧ t.array = s.array))

/-! ## Ends of store jobs (chapters 4, 6, 7, 9 to 11) -/

/-- R79, R92, R113, R115 to R118: the ends of the key table jobs. The slot and its edit count change at the completion alone;
the sessions bound to the slot are looked up again, and challenged anew or refused, or marked, or refused; no other session is
changed. A TABLE_CHANGE entry follows each success. -/
def Obligations.KeyJobsLandAtTheirCompletion : Prop :=
  ∀ (s : State) (k : Fin 16),
    (∀ e, JobEnded .keyWriteComplete s (.table (.keyWrite k e)) (fun r t =>
      (r = .success →
        t.part.trust = { s.part.trust with
          keys := s.part.trust.keys.set k (some e), edits := s.part.trust.edits.set k (s.part.trust.edits[k] + 1) } ∧
        t.part.fault.causes.noUsableKey = false ∧
        (LogRoom t.part → Logged t.part { type := 7, socket := 7, detail := halfOf (0x1100 + k.val), data := [] }) ∧
        (Running s.part 0x10 →
          Carries t.part (response 0x10 .done [Word.ofBytes (s.part.trust.edits[k] + 1) 0 0 0])) ∧
        (∀ n, (s.part.session n).keySlot ≠ some k ∨ (s.part.session n).state.live = false →
          t.part.session n = s.part.session n) ∧
        (∀ n why x snap, (s.part.session n).challenge = some ⟨why, .sent x snap⟩ →
          t.part.session n = s.part.session n) ∧
        (∀ n i, (s.part.session n).keySlot = some k → (s.part.session n).state.live = true →
          (s.part.session n).identity = some i → (∀ why x snap, (s.part.session n).challenge ≠ some ⟨why, .sent x snap⟩) →
          (∀ (l : Fin 16) y, (s.part.trust.keys.set k (some e))[l] = some y →
            ¬(y.family = i.family ∧ y.generation = i.generation)) →
          (t.part.session n).state = .refused ∧ (t.part.session n).reason = some .noKey) ∧
        (∀ n i (l : Fin 16) y, (s.part.session n).keySlot = some k → (s.part.session n).state.live = true →
          (s.part.session n).identity = some i → (∀ why x snap, (s.part.session n).challenge ≠ some ⟨why, .sent x snap⟩) →
          (s.part.trust.keys.set k (some e))[l] = some y → y.family = i.family → y.generation = i.generation →
          (∀ (l' : Fin 16) y', (s.part.trust.keys.set k (some e))[l'] = some y' → y'.family = i.family →
            y'.generation = i.generation → l' = l) →
          s.part.proof.reserved + 4 ≤ 0xFFFFFFFF - s.part.proof.counter.toNat →
          (t.part.session n).state = (s.part.session n).state ∧ (t.part.session n).keySlot = some l ∧
          (t.part.session n).marks.keyRetired = y.retired ∧
          ∃ ph, (t.part.session n).challenge =
            some ⟨if (s.part.session n).state = .verifying then .admission else .recheck, ph⟩)) ∧
      (r ≠ .success → JobFailed 0x10 s t))) ∧
    (∀ y, s.part.trust.keys[k] = some y → JobEnded .keyRetireComplete s (.table (.keyRetire k)) (fun r t =>
      (r = .success →
        t.part.trust = { s.part.trust with keys := s.part.trust.keys.set k (some { y with retired := true }) } ∧
        (LogRoom t.part → Logged t.part { type := 7, socket := 7, detail := halfOf (0x1200 + k.val), data := [] }) ∧
        (Running s.part 0x11 → Carries t.part (response 0x11 .done [])) ∧
        (∀ n, (s.part.session n).keySlot ≠ some k ∨ (s.part.session n).state.live = false →
          t.part.session n = s.part.session n) ∧
        (∀ n, (s.part.session n).keySlot = some k → (s.part.session n).state.live = true → ∃ m : Marks,
          m.keyRetired = true ∧ m.suspect = (s.part.session n).marks.suspect ∧
          t.part.session n = { s.part.session n with marks := m })) ∧
      (r ≠ .success → JobFailed 0x11 s t))) ∧
    JobEnded .keyEraseComplete s (.table (.keyErase k)) (fun r t =>
      (r = .success →
        t.part.trust = { s.part.trust with
          keys := s.part.trust.keys.set k none, edits := s.part.trust.edits.set k (s.part.trust.edits[k] + 1) } ∧
        (LogRoom t.part → Logged t.part { type := 7, socket := 7, detail := halfOf (0x1300 + k.val), data := [] }) ∧
        (t.part.fault.causes.noUsableKey = true ↔ ∀ l : Fin 16, l ≠ k → s.part.trust.keys[l] = none) ∧
        (Running s.part 0x12 →
          Carries t.part (response 0x12 .done [Word.ofBytes (s.part.trust.edits[k] + 1) 0 0 0])) ∧
        (∀ n, (s.part.session n).keySlot ≠ some k ∨ (s.part.session n).state.live = false →
          t.part.session n = s.part.session n) ∧
        (∀ n, (s.part.session n).keySlot = some k → (s.part.session n).state.live = true →
          (t.part.session n).state = .refused ∧ (t.part.session n).reason = some .noKey ∧
          (t.part.session n).challenge = none)) ∧
      (r ≠ .success → JobFailed 0x12 s t))

/-- R113, R121, R122, R131: the ends of the class table jobs. Sessions of the entry are marked against its new fields, or
refused when it no longer holds their code; after a CLASS-WRITE every grant is what the new fields give, after a CLASS-ERASE
the refused sessions have a grant of 0. A TABLE_CHANGE entry follows each success. -/
def Obligations.ClassJobsLandAtTheirCompletion : Prop :=
  ∀ (s : State) (i : Fin 32),
    (∀ e, JobEnded .classWriteComplete s (.table (.classWrite i e)) (fun r t =>
      (r = .success →
        t.part.trust = { s.part.trust with classes := s.part.trust.classes.set i (some e) } ∧
        (LogRoom t.part → Logged t.part { type := 7, socket := 7, detail := halfOf (0x2100 + i.val), data := [] }) ∧
        (Running s.part 0x14 → Carries t.part (response 0x14 .done [])) ∧
        (∀ n, t.part.grants.grant.get n = t.part.grantOf n) ∧
        (∀ n, (s.part.session n).classIndex ≠ some i ∨ (s.part.session n).state.live = false →
          t.part.session n = s.part.session n) ∧
        (∀ n d, (s.part.session n).classIndex = some i → (s.part.session n).state.live = true →
          (s.part.session n).identity = some d →
          (d.classCode = e.code → ∃ m : Marks,
            m.worn = decide (e.wearLimit ≠ 0 ∧ e.wearLimit.toNat ≤ d.cycles.toNat) ∧
            m.suspect = (s.part.session n).marks.suspect ∧ t.part.session n = { s.part.session n with marks := m }) ∧
          (d.classCode ≠ e.code →
            (t.part.session n).state = .refused ∧ (t.part.session n).reason = some .noClass ∧
            (t.part.session n).challenge = none))) ∧
      (r ≠ .success → JobFailed 0x14 s t))) ∧
    JobEnded .classEraseComplete s (.table (.classErase i)) (fun r t =>
      (r = .success →
        t.part.trust = { s.part.trust with classes := s.part.trust.classes.set i none } ∧
        (LogRoom t.part → Logged t.part { type := 7, socket := 7, detail := halfOf (0x2300 + i.val), data := [] }) ∧
        (∀ n, (s.part.session n).classIndex = some i → (s.part.session n).state.live = true →
          t.part.grants.grant.get n = 0) ∧
        (Running s.part 0x15 → Carries t.part (response 0x15 .done [])) ∧
        (∀ n, (s.part.session n).classIndex ≠ some i ∨ (s.part.session n).state.live = false →
          t.part.session n = s.part.session n) ∧
        (∀ n, (s.part.session n).classIndex = some i → (s.part.session n).state.live = true →
          (t.part.session n).state = .refused ∧ (t.part.session n).reason = some .noClass ∧
          (t.part.session n).challenge = none)) ∧
      (r ≠ .success → JobFailed 0x15 s t))

/-- R99, R113, R123, R125, R126, R128: the ends of the withdrawal list jobs. New serials are merged into the list, which stays
in ascending order, and the live sessions that hold one are withdrawn; a clear empties the list and tells no session. A
TABLE_CHANGE entry follows each success. After an audit's withdrawal the next serial that is not in the list gets its job,
unless the list is full. When every socket of an audit has a result, nothing is withdrawn without the withdraw flag or a
MISMATCH; on a mass failure the MASS flag and the MASS_FAIL cause are given; else the serials of the MISMATCH results, as kept
when these were set (log 17), are withdrawn one by one. -/
def Obligations.WithdrawalJobsLandAtTheirCompletion : Prop :=
  (∀ (p : Part) (a : Audit) (m k : Nat), p.engine.audit = some a →
    m = allSockets.countP (fun n => a.results.get n == some .mismatch) →
    k = allSockets.countP (fun n => a.results.get n != some .skipped && a.results.get n != some .removed) →
    (a.phase ≠ .collecting ∨ (∃ n, a.results.get n = none) → p.auditTest = p) ∧
    (a.phase = .collecting → (∀ n, a.results.get n ≠ none) →
      (a.withdraw = false ∨ m = 0 →
        p.auditTest = { p with engine := { p.engine with audit := some { a with phase := .ready } } }) ∧
      (a.withdraw = true → 2 ≤ m → k < 2 * m →
        p.auditTest = ({ p with engine := { p.engine with
          audit := some { a with phase := .ready, mass := true } } } : Part).momentary .massFail) ∧
      (a.withdraw = true → 0 < m → m < 2 ∨ 2 * m ≤ k → ∀ l : List Word, l = allSockets.filterMap a.serials.get →
        ((∀ w ∈ l, w ∈ p.trust.withdrawn) →
          p.auditTest = { p with engine := { p.engine with audit := some { a with phase := .ready } } }) ∧
        (∀ l1 y l2, l = l1 ++ y :: l2 → (∀ w ∈ l1, w ∈ p.trust.withdrawn) → y ∉ p.trust.withdrawn →
          (256 ≤ p.trust.withdrawn.length → p.auditTest =
            { p with engine := { p.engine with audit := some { a with phase := .ready, full := true } } }) ∧
          (p.trust.withdrawn.length < 256 → Running p 0x31 → p.auditTest = withJob
            { p with engine := { p.engine with audit := some { a with phase := .withdrawing l2 } } }
            (.table (.auditWithdrawal y))))))) ∧
  ∀ (s : State),
    (∀ new, JobEnded .withdrawAddComplete s (.table (.withdrawAdd new)) (fun r t =>
      (r = .success →
        (∀ w, w ∈ t.part.trust.withdrawn ↔ w ∈ s.part.trust.withdrawn ∨ w ∈ new) ∧
        (s.part.trust.withdrawn.Pairwise (fun x y => x.toNat < y.toNat) →
          t.part.trust.withdrawn.Pairwise (fun x y => x.toNat < y.toNat)) ∧
        t.part.trust = { s.part.trust with withdrawn := t.part.trust.withdrawn } ∧
        (LogRoom t.part → Logged t.part
          { type := 7, socket := 7, detail := halfOf (0x3400 + new.length), data := [] }) ∧
        (Running s.part 0x18 → Carries t.part (response 0x18 .done
          [Word.ofBytesHalf (byteOf new.length) 0 (halfOf t.part.trust.withdrawn.length)])) ∧
        (∀ n, (s.part.session n).state.live = false ∨ (∀ i, (s.part.session n).identity = some i → i.serial ∉ new) →
          t.part.session n = s.part.session n) ∧
        (∀ n i, (s.part.session n).state.live = true → (s.part.session n).identity = some i → i.serial ∈ new →
          (t.part.session n).state = .withdrawn ∧ (t.part.session n).reason = some .withdrawn ∧
          (t.part.session n).challenge = none)) ∧
      (r ≠ .success → JobFailed 0x18 s t))) ∧
    JobEnded .withdrawClearComplete s (.table .withdrawClear) (fun r t =>
      (r = .success →
        t.part.trust = { s.part.trust with withdrawn := [] } ∧ t.part.engine = s.part.engine ∧
        (LogRoom t.part → Logged t.part { type := 7, socket := 7, detail := 0x3500, data := [] }) ∧
        (Running s.part 0x19 → Carries t.part (response 0x19 .done []))) ∧
      (r ≠ .success → JobFailed 0x19 s t)) ∧
    (∀ x a rest, s.part.engine.audit = some a → a.phase = .withdrawing rest →
      JobEnded .auditWithdrawalComplete s (.table (.auditWithdrawal x)) (fun r t =>
        ∃ a', t.part.engine.audit = some a' ∧
          (r = .success →
            (∀ w, w ∈ t.part.trust.withdrawn ↔ w ∈ s.part.trust.withdrawn ∨ w = x) ∧
            (s.part.trust.withdrawn.Pairwise (fun x y => x.toNat < y.toNat) →
              t.part.trust.withdrawn.Pairwise (fun x y => x.toNat < y.toNat)) ∧
            t.part.trust = { s.part.trust with withdrawn := t.part.trust.withdrawn } ∧
            (LogRoom t.part → Logged t.part { type := 7, socket := 7, detail := 0x3401, data := [] }) ∧
            a'.withdrawnCount = a.withdrawnCount + 1 ∧
            ((∀ w ∈ rest, w ∈ t.part.trust.withdrawn) → a'.phase = .ready ∧ a'.full = a.full) ∧
            (∀ l1 y l2, rest = l1 ++ y :: l2 → (∀ w ∈ l1, w ∈ t.part.trust.withdrawn) → y ∉ t.part.trust.withdrawn →
              (256 ≤ t.part.trust.withdrawn.length → a'.phase = .ready ∧ a'.full = true) ∧
              (t.part.trust.withdrawn.length < 256 → Running s.part 0x31 →
                a'.phase = .withdrawing l2 ∧ .table (.auditWithdrawal y) ∈ t.part.ctl.jobs)) ∧
            (∀ n i, (s.part.session n).state.live = true → (s.part.session n).identity = some i → i.serial = x →
              (t.part.session n).state = .withdrawn ∧ (t.part.session n).reason = some .withdrawn ∧
              (t.part.session n).challenge = none) ∧
            (∀ n, (s.part.session n).state.live = false ∨
                (∀ i, (s.part.session n).identity = some i → i.serial ≠ x) →
              t.part.session n = s.part.session n)) ∧
          (r ≠ .success →
            t.part.trust = s.part.trust ∧ a' = { a with failed := true, phase := .ready } ∧
            (∀ n, t.part.session n = s.part.session n))))

/-- R69, R108, R157, R170, R176, R180: the ends of the rules, setting and fault map jobs, of log entry jobs and of watermark
jobs: the table goes LIVE, the stored copies follow, the write position and the first-entry mark move, the watermark is
committed; sessions, links and trust tables are left alone; TABLE_CHANGE entries follow the successes. A stored MAP-WRITE is
answered with its condition's state as it stands at the completion, before the STORE report of its own job: the model's choice
(log 34). R13, R14, R180: the place and the words that a log entry job writes (sector numbers: log 8; a sector that reads
wholly erased is not erased: log 38), and the REFUSAL, WITHDRAWN_HIT and PEAK_TEMP entries of sessions without an audit. -/
def Obligations.OtherJobsLandAtTheirCompletion : Prop :=
  (∀ (a : StoreArray) (pos : Option LogPos) (first : Bool) (e : LogEntry) (plan : LogPlan) (base : Nat),
    a.wf = true → plan = logPlan a pos first e → base = 128 * (7 + plan.pos.sector.val) →
    (∀ p : Part, p.ctl.logPos = pos → p.ctl.firstMark = first → Job.steps p a (.log e) = plan.room ++ plan.body) ∧
    (e.type < 16 → e.socket < 8 → e.data.length < 4 → ∃ h : Word,
      plan.body = [.program (base + plan.pos.offset) h] ++
        (e.data.zipIdx (base + plan.pos.offset + 1)).map (fun x => .program x.2 x.1) ++
        [.program (base + plan.pos.offset) (h &&& 0x7FFFFFFF)] ∧
      h.getLsbD 31 = true ∧ h.getLsbD 30 = !first ∧ (h.extractLsb' 26 4).toNat = e.type ∧
      (h.extractLsb' 23 3).toNat = e.socket ∧ (h.extractLsb' 21 2).toNat = e.data.length ∧
      h.extractLsb' 16 5 = (0 : BitVec 5) ∧ h.extractLsb' 0 16 = e.detail) ∧
    (∀ q, pos = some q → q.offset + 1 + e.data.length ≤ 128 → plan.room = [] ∧ plan.pos = q) ∧
    (pos = none ∨ (∃ q, pos = some q ∧ 128 < q.offset + 1 + e.data.length) →
      plan.pos.offset = 1 ∧
      ((∀ i, i < 128 → readWord a (base + i) = 0xFFFFFFFF) → plan.room = [.program base plan.pos.seq]) ∧
      (∀ i, i < 128 → readWord a (base + i) ≠ 0xFFFFFFFF →
        plan.room = [.erase (7 + plan.pos.sector.val), .program base plan.pos.seq]) ∧
      (pos = none → plan.pos.sector = 0 ∧ plan.pos.seq = 0) ∧
      (∀ q, pos = some q → plan.pos.seq = q.seq + 1 ∧
        (∀ j : Fin 8, j ≠ 0 → logInUse a (q.sector + j) = false →
          (∀ i : Fin 8, i ≠ 0 → i < j → logInUse a (q.sector + i) = true) → plan.pos.sector = q.sector + j) ∧
        ((∀ k, logInUse a k = true) → ∀ k, (logSeq a plan.pos.sector).toNat ≤ (logSeq a k).toNat)))) ∧
  (∀ (p : Part) (n : Socket), p.engine.audit = none → LogRoom p →
    (∀ (r : Reason) (k : Nat),
      [Reason.noIdentity, .badIdentity, .withdrawn, .repeated, .duplicate, .noClass, .noKey, .mismatch, .late, .noAnswer,
        .exhausted][k]? = some r →
      ((p.session n).identity = none →
        Logged (p.refuse n r) { type := 2, socket := n.val, detail := halfOf (k + 1), data := [] }) ∧
      (∀ i, (p.session n).identity = some i →
        Logged (p.refuse n r) { type := 2, socket := n.val, detail := halfOf (k + 1), data := [i.serial] })) ∧
    (∀ i, (p.session n).identity = some i →
      Logged (p.withdraw n) { type := 3, socket := n.val, detail := 0, data := [i.serial] } ∧
      ((p.session n).state ≠ .none →
        (∀ t, (p.session n).peak = some t → Logged (p.endSession n)
          { type := 4, socket := n.val, detail := BitVec.ofInt 16 t, data := [i.serial, i.cycles.setWidth 32] }) ∧
        ((p.session n).peak = none → Logged (p.endSession n)
          { type := 4, socket := n.val, detail := BitVec.ofInt 16 (-40), data := [i.serial, i.cycles.setWidth 32] })))) ∧
  ∀ (s : State),
    (∀ rules, JobEnded .rulesApplyComplete s (.table (.rulesApply rules)) (fun r t =>
      (r = .success →
        t.part.classifier = { s.part.classifier with editing := false } ∧ t.part.engine = s.part.engine ∧
        t.part.trust = s.part.trust ∧ t.part.links = s.part.links ∧
        (LogRoom t.part → Logged t.part { type := 7, socket := 7, detail := 0x4600, data := [] }) ∧
        (Running s.part 0x22 → Carries t.part (response 0x22 .done []))) ∧
      (r ≠ .success → JobFailed 0x22 s t))) ∧
    (∀ id v x m, JobEnded .settingWriteComplete s (.table (.settingWrite id v x m)) (fun r t =>
      (r = .success →
        t.part.ctl.storedSettings = x ∧ t.part.ctl.storedMap = m ∧ t.part.engine = s.part.engine ∧
        t.part.trust = s.part.trust ∧ t.part.links = s.part.links ∧
        (LogRoom t.part → Logged t.part { type := 7, socket := 7, detail := halfOf (0x5100 + id), data := [] }) ∧
        (Running s.part 0x05 → Carries t.part (response 0x05 .done [Word.ofHalves (halfOf v) 0]))) ∧
      (r ≠ .success → JobFailed 0x05 s t ∧ t.part.ctl.storedSettings = s.part.ctl.storedSettings ∧
        t.part.ctl.storedMap = s.part.ctl.storedMap))) ∧
    (∀ c x m, JobEnded .mapWriteComplete s (.table (.mapWrite c x m)) (fun r t =>
      (r = .success →
        t.part.ctl.storedSettings = x ∧ t.part.ctl.storedMap = m ∧ t.part.engine = s.part.engine ∧
        t.part.trust = s.part.trust ∧ t.part.links = s.part.links ∧
        (LogRoom t.part → Logged t.part { type := 7, socket := 7, detail := halfOf (0x6100 + c.number), data := [] }) ∧
        (Running s.part 0x28 → Carries t.part (response 0x28 .done
          [Word.ofBytes (byteOf (s.part.fault.conds.get c).code) 0 0 0]))) ∧
      (r ≠ .success → JobFailed 0x28 s t ∧ t.part.ctl.storedSettings = s.part.ctl.storedSettings ∧
        t.part.ctl.storedMap = s.part.ctl.storedMap))) ∧
    (∀ e plan, plan = logPlan s.array s.part.ctl.logPos s.part.ctl.firstMark e →
      JobEnded .logEntryJobComplete s (.log e) (fun r t =>
        t.part.engine = s.part.engine ∧ t.part.trust = s.part.trust ∧ t.part.links = s.part.links ∧
        t.part.proof = s.part.proof ∧ t.part.classifier = s.part.classifier ∧ t.part.grants = s.part.grants ∧
        (r = .success → t.part.ctl.firstMark = false ∧
          t.part.ctl.logPos = some { plan.pos with offset := plan.pos.offset + 1 + e.data.length }) ∧
        (∀ i, r = .failedAt i → t.part.ctl.firstMark = s.part.ctl.firstMark ∧
          t.part.ctl.logPos = if i < plan.room.length then s.part.ctl.logPos
            else some { plan.pos with offset := 128 }))) ∧
    (∀ v, JobEnded .watermarkJobComplete s (.watermark v) (fun r t =>
      t.part.engine = s.part.engine ∧ t.part.trust = s.part.trust ∧ t.part.links = s.part.links ∧
      t.part.grants = s.part.grants ∧
      t.part.proof = { s.part.proof with
        committedMark := if r = .success then v else s.part.proof.committedMark } ∧
      (s.part.proof.pendingMark ≠ v → .watermark s.part.proof.pendingMark ∈ t.part.ctl.jobs)))

/-! ## Ends of waits, the in-band reset (chapters 5, 9, 10) -/

/-- R100, R172, R174, log 3: an audit with nothing left to do is answered with its results and ceases to exist; PARK is
answered when the jobs it waited for have ended; without these waits the two events, and the in-band reset, do nothing. -/
def Obligations.AuditAndParkCompleteWhenTheirWaitsEnd : Prop :=
  ∀ (s : State), s.part.power = .on →
    (∀ a, s.part.engine.audit = some a → a.phase = .ready → Running s.part 0x31 → Gives .auditComplete s (fun t =>
      t.part.engine = { s.part.engine with audit := none } ∧
      Carries t.part (response 0x31 (if a.failed then .storeFault else .done)
        [Word.ofBytes (auditCode a.results.s0) (auditCode a.results.s1) (auditCode a.results.s2) (auditCode a.results.s3),
         Word.ofBytes (byteOf a.withdrawnCount) (byteOf (flagSet [a.mass, a.full])) 0 0]) ∧
      (LogRoom s.part → Logged t.part a.entry) ∧ t.part.links = s.part.links ∧ t.part.trust = s.part.trust ∧
      t.part.proof = s.part.proof ∧ t.part.grants = s.part.grants ∧ t.part.fault = s.part.fault ∧
      t.part.classifier = s.part.classifier ∧ t.array = s.array)) ∧
    (s.part.engine.audit = none ∨ ¬Running s.part 0x31 ∨ (∃ a, s.part.engine.audit = some a ∧ a.phase ≠ .ready) →
      exec .auditComplete s = .next s) ∧
    (∀ q, s.part.mgmt.request = some q → q.code = 0x3E → q.phase = .running → q.wait = 0 →
      exec .parkComplete s = .next
        { s with part := answered s.part (response 0x3E (if q.waitFailed then .storeFault else .done) []) }) ∧
    ((∀ q, s.part.mgmt.request = some q → q.code = 0x3E → q.phase = .running → q.wait ≠ 0) →
      exec .parkComplete s = .next s) ∧
    ((∀ q, s.part.mgmt.request = some q → q.code = 0x3F → q.phase = .running → q.wait ≠ 0) →
      exec .inBandReset s = .next s)

/-- R37, R51, R71, R101, R102, R110, R129, R151, R160, R174: the in-band reset, once RESET's waits hold: sessions, audit and
refusals gone, links re-evaluated, queues emptied (lane 0 holds nothing but the advisories of the conditions re-evaluated and
one AGGREGATE of the part as it then stands, in this order), an EDITING rule table reloaded, settings and map reverted,
conditions re-evaluated from the causes left, grants at 0, PARKED left, RESET answered DONE; trust tables, counter and store
kept. -/
def Obligations.InBandResetReturnsThePart : Prop :=
  ∀ (s : State) (q : Request), s.part.power = .on → s.part.mgmt.request = some q →
    q.code = 0x3F → q.phase = .running → q.wait = 0 →
    Gives .inBandReset s (fun t =>
      t.array = s.array ∧ t.part.mgmt.parked = false ∧ t.part.engine.audit = none ∧ t.part.engine.recent = [] ∧
      (∀ n, (t.part.session n).state = .none) ∧
      (∀ n, (s.part.session n).state ≠ .none → t.part.session n = Session.initial) ∧
      (∀ n, (t.part.link n).tx = none ∧ (t.part.link n).engineSlot = none ∧ (t.part.link n).pollQueue = [] ∧
        (t.part.link n).errors = 0 ∧ (t.part.link n).drop = none ∧ (t.part.link n).recovery = none ∧
        (s.part.contacts.get n = true →
          (t.part.link n).state = .settling ∧ (t.part.link n).settle = some (s.part.clock + 250000)) ∧
        (s.part.contacts.get n = false → (t.part.link n).state = .vacant ∧ (t.part.link n).settle = none)) ∧
      t.part.tlp.lane0 = (Cond.all.filter fun c => t.part.fault.causes.present c && (t.part.fault.map.get c).advise).map
        (fun c => faultAdvisory c .active) ++ [t.part.aggregateFrame] ∧
      t.part.tlp.lane1 = [] ∧ t.part.tlp.lane2 = [] ∧ t.part.tlp.silence = some (s.part.clock + 500000) ∧
      Carries t.part (response 0x3F .done []) ∧
      t.part.classifier.editing = false ∧ t.part.classifier.decim = .all 0 ∧
      t.part.classifier.rules =
        (if s.part.classifier.editing then loadRules s.array else s.part.classifier.rules) ∧
      (s.part.mgmt.settings.revertOnReset = 1 →
        t.part.mgmt.settings = s.part.ctl.storedSettings ∧ t.part.fault.map = s.part.ctl.storedMap) ∧
      (s.part.mgmt.settings.revertOnReset ≠ 1 →
        t.part.mgmt.settings = s.part.mgmt.settings ∧ t.part.fault.map = s.part.fault.map) ∧
      t.part.fault.causes = { s.part.fault.causes with overdraw := false, silent := false, overheat := false } ∧
      (∀ c, t.part.fault.conds.get c = if t.part.fault.causes.present c then .active else .inactive) ∧
      (∀ n, t.part.fault.permits.get n = false) ∧
      t.part.grants = { Grants.initial with aggregate := some (s.part.clock +
        if t.part.mgmt.settings.aggregatePeriod = 0 then 20000 else t.part.mgmt.settings.aggregatePeriod * 1000) } ∧
      t.part.trust = s.part.trust ∧ t.part.proof.counter = s.part.proof.counter ∧
      t.part.proof.pendingMark = s.part.proof.pendingMark ∧ t.part.proof.committedMark = s.part.proof.committedMark ∧
      t.part.ctl.cursor = none ∧ t.part.ctl.logPos = s.part.ctl.logPos ∧ t.part.ctl.firstMark = s.part.ctl.firstMark ∧
      (∀ j ∈ s.part.ctl.jobs, j ∈ t.part.ctl.jobs))

/-! ## Management requests (chapter 10, and 2, 4, 5, 7, 9, 11) -/

/-- R165: DESCRIBE is answered DONE in any part state, PARKED included, with the words of Table 10.3, of which only word 5
varies, and clears the superseded flag it reports; a RESET that finds a request in flight sets it, a cold start clears it. -/
def Obligations.DescribeReportsThePart : Prop :=
  ∀ (s : State),
    (Free s → ∃ (f : Word) (q : Part),
      f = BitVec.ofNat 32 ((if s.part.mgmt.parked then 2 ^ 24 else 0) + (if s.part.classifier.editing then 2 ^ 25 else 0) +
        (if s.part.mgmt.superseded then 2 ^ 26 else 0)) ∧
      q = answered (taken 0x01 [] s.part) (response 0x01 .done [0x0C4A0104, 0x10202010, 0x0100040D, 0x08101008, f]) ∧
      exec (.describe []) s = .next { s with part := { q with mgmt := { q.mgmt with superseded := false } } }) ∧
    (Loaded s → s.part.LanesFit → s.part.mgmt.request ≠ none →
      Gives (.reset []) s (fun t => t.part.mgmt.superseded = true)) ∧
    (∀ c, s.part.power ≠ .on → Gives (.coldStart c) s (fun t => t.part.mgmt.superseded = false))

/-- R40, R162 to R164, R173: what a request meets before its own checks: nothing while the store is being loaded; BUSY, in
lane 0, while a request is in flight; INVALID for a wrong number of words, an unknown code or a length of no request;
WRONG_STATE while PARKED, unless the request is one of those taken then. A RESET of bad shape is INVALID, with nothing changed,
while a request is in flight too; that its response then goes to lane 0 is the model's choice (log 15), as it is that a payload
of a length of no request that begins with RESET's code is INVALID there, not BUSY (log 15). -/
def Obligations.RequestsAreCheckedBeforeTheyAct : Prop :=
  ∀ (s : State), s.part.power = .on →
    (∀ (c : Instr) (code : Byte) (least most : Nat) (whileParked : Bool) (ws : List Word),
      requestOf c = some (code, least, most, whileParked, ws) →
      (s.part.ctl.loading = true → exec c s = .next s) ∧
      (Loaded s → s.part.LanesFit → s.part.mgmt.request ≠ none →
        exec c s = .next { s with part := s.part.restartSilence.place .l0 (response code .busy []) }) ∧
      (Free s → (ws.length < least ∨ most < ws.length) → Answers c code ws .invalid [] s) ∧
      (Free s → least ≤ ws.length → ws.length ≤ most → s.part.mgmt.parked = true → whileParked = false →
        Answers c code ws .wrongState [] s)) ∧
    (∀ (w : Word) (ws : List Word),
      (s.part.ctl.loading = true → exec (.reset (w :: ws)) s = .next s ∧ exec (.reset []) s = .next s) ∧
      (Loaded s → s.part.LanesFit → s.part.mgmt.request ≠ none →
        exec (.reset (w :: ws)) s = .next { s with part := s.part.restartSilence.place .l0 (response 0x3F .invalid []) }) ∧
      (Free s → exec (.reset (w :: ws)) s = .next
        { s with part := answered (taken 0x3F [] s.part) (response 0x3F .invalid []) })) ∧
    (∀ payload : List Byte, payload.length ∉ [1, 5, 9, 13, 17] ∨ payload.headD 0 ∉ requestCodes →
      (s.part.ctl.loading = true → exec (.unknownRequest payload) s = .next s) ∧
      (Loaded s → s.part.LanesFit → s.part.mgmt.request ≠ none → exec (.unknownRequest payload) s = .next
        { s with part := s.part.restartSilence.place .l0 (response (payload.headD 0)
                   (if payload.headD 0 = 0x3F then .invalid else .busy) []) }) ∧
      (Free s → exec (.unknownRequest payload) s = .next
        { s with part := answered (taken (payload.headD 0) [] s.part) (response (payload.headD 0) .invalid []) }))

/-- R9, R41: a MGMT-REQ frame that arrives whole on the tool link acts as the command of its request (log 19). -/
def Obligations.RequestFramesActAsTheirCommands : Prop :=
  ∀ (s : State) (c : Instr) (code : Byte) (ws : List Word) (f : Frame), s.part.tlp.rx = .hunting →
    ((∃ least most whileParked, requestOf c = some (code, least, most, whileParked, ws)) ∨ c = .reset ws ∧ code = 0x3F) →
    ws.length ≤ 4 → f.kind = kindMgmtReq → f.payload = code :: ws.flatMap Word.bytes →
    exec (.toolFrameReceived f.bytes) s = exec c s

/-- R127, R166 to R169: the report requests are answered with their words, field by field, and do nothing else but what every
request does on being taken. -/
def Obligations.ReportsReadTheState : Prop :=
  ∀ (s : State) (w : Word) (p : Part), Ready s →
    (∀ (n : Socket) (x : Session) (l : Link), x = s.part.session n → l = s.part.link n → Word.byte w 0 = byteOf n.val →
      ∃ fl : Byte,
        fl.getLsbD 0 = x.marks.keyRetired ∧ fl.getLsbD 1 = x.marks.worn ∧ fl.getLsbD 2 = x.marks.suspect ∧
        fl.getLsbD 3 = s.part.grants.stale.get n ∧ fl.getLsbD 4 = x.identity.isSome ∧
        fl.getLsbD 5 = x.telemetry.isSome ∧ fl.getLsbD 6 = x.baseline.isSome ∧ fl.getLsbD 7 = x.challenge.isSome ∧
        (Word.byte w 1 = 0 → Answers (.socketReport [w]) 0x02 [w] .done
          [Word.ofBytes (byteOf x.state.code) (byteOf l.state.code) (byteOf (reasonCode x.reason)) (byteOf l.errors),
           (x.identity.map Identity.serial).getD 0,
           Word.ofBytes ((x.identity.map Identity.family).getD 0) ((x.identity.map Identity.generation).getD 0)
             ((x.identity.map Identity.classCode).getD 0) fl,
           Word.ofHalves ((x.identity.map Identity.cycles).getD 0) (byteOf x.attempts ++ byteOf x.breaks)] s) ∧
        (Word.byte w 1 = 1 → Answers (.socketReport [w]) 0x02 [w] .done
          [Word.ofBytes (byteOf x.state.code) (byteOf l.state.code) fl 0,
           Word.ofHalves (halfOf (s.part.grants.grant.get n)) (halfOf (s.part.grants.published.get n)),
           Word.ofBytesHalf (BitVec.ofInt 8 ((x.telemetry.map Telemetry.temperature).getD 0))
             (BitVec.ofInt 8 (x.peak.getD 0))
             (halfOf ((x.telemetry.map fun t => min 65535 ((s.part.clock - t.since) / 1000)).getD 0)),
           Word.ofHalves ((x.telemetry.map Telemetry.allowance).getD 0) ((x.telemetry.map Telemetry.cellMin).getD 0)] s)) ∧
    (4 ≤ (Word.byte w 0).toNat ∨ 2 ≤ (Word.byte w 1).toNat → Answers (.socketReport [w]) 0x02 [w] .invalid [] s) ∧
    (p = taken 0x03 [] s.part → ∃ w1 w2 w3 : Word, Answers (.faultReport []) 0x03 [] .done [w1, w2, w3] s ∧
      (∀ c : Cond, w1.getLsbD (24 + c.number) = decide (p.fault.conds.get c = .active) ∧
        w1.getLsbD (16 + c.number) = decide (p.fault.conds.get c = .held) ∧
        w1.getLsbD c.number = p.fault.causes.present c) ∧
      (∀ n : Socket, w1.getLsbD (8 + n.val) = p.fault.permits.get n) ∧
      (∀ c : Cond, ∀ b : Byte, b = Word.byte (if c.number < 4 then w2 else w3) (c.number % 4) →
        b.extractLsb' 0 4 = (p.fault.map.get c).mask ∧ b.getLsbD 4 = (p.fault.map.get c).latch ∧
        b.getLsbD 5 = (p.fault.map.get c).advise ∧ b.getLsbD 6 = false ∧ b.getLsbD 7 = false)) ∧
    (∀ id : Nat, id = (Word.byte w 0).toNat →
      (id ≤ 12 → Answers (.settingRead [w]) 0x04 [w] .done
        [Word.ofHalves (halfOf (s.part.mgmt.settings.value id)) (halfOf (s.part.ctl.storedSettings.value id))] s) ∧
      (12 < id → Answers (.settingRead [w]) 0x04 [w] .invalid [] s)) ∧
    (∀ k : Fin 16, Word.byte w 0 = 1 → Word.byte w 1 = byteOf k.val →
      (s.part.trust.keys[k] = none →
        Answers (.tableRead [w]) 0x06 [w] .done [Word.ofBytes 0 0 0 s.part.trust.edits[k]] s) ∧
      (∀ e, s.part.trust.keys[k] = some e → Answers (.tableRead [w]) 0x06 [w] .done
        [Word.ofBytes (if e.retired then 2 else 1) e.family e.generation s.part.trust.edits[k]] s)) ∧
    (∀ i : Fin 32, Word.byte w 0 = 2 → Word.byte w 1 = byteOf i.val →
      (s.part.trust.classes[i] = none → Answers (.tableRead [w]) 0x06 [w] .done [0, 0, 0] s) ∧
      (∀ e, s.part.trust.classes[i] = some e → Answers (.tableRead [w]) 0x06 [w] .done
        [Word.ofBytesHalf 1 e.code e.ic, Word.ofBytesHalf (BitVec.ofInt 8 e.tk) (BitVec.ofInt 8 e.tc) e.cellFloor,
         Word.ofHalves e.wearLimit 0] s)) ∧
    (Word.byte w 0 = 3 →
      (∀ x, s.part.trust.withdrawn[(Word.byte w 1).toNat]? = some x → Answers (.tableRead [w]) 0x06 [w] .done
        [x, Word.ofHalves (halfOf s.part.trust.withdrawn.length) 0] s) ∧
      (s.part.trust.withdrawn[(Word.byte w 1).toNat]? = none → Answers (.tableRead [w]) 0x06 [w] .absent [] s)) ∧
    (∀ (i : Fin 32) (r : Rule), Word.byte w 0 = 4 → Word.byte w 1 = byteOf i.val → r = s.part.classifier.rules[i] →
      Answers (.tableRead [w]) 0x06 [w] .done
        [Word.ofBytes (byteOf i.val) (if r.enabled then 1 else 0) (if r.direction = .down then 1 else 0)
           ((r.kind.map fun k => k.setWidth 8).getD 0xFF),
         Word.ofBytes (r.socketMask.setWidth 8) (r.stateMask.setWidth 8)
           (if r.action = .forward then 0 else if r.action = .answer then 1 else 2) r.lane,
         Word.ofBytes (if r.decimate then 1 else 0) (if s.part.classifier.editing then 1 else 0) 0 0] s) ∧
    ((Word.byte w 0 ∉ [(1 : Byte), 2, 3, 4] ∨ Word.byte w 0 = 1 ∧ 16 ≤ (Word.byte w 1).toNat ∨
        (Word.byte w 0 = 2 ∨ Word.byte w 0 = 4) ∧ 32 ≤ (Word.byte w 1).toNat) →
      Answers (.tableRead [w]) 0x06 [w] .invalid [] s) ∧
    (w = 0 ∨ w = 0xFFFFFFFF → Answers (.withdrawQuery [w]) 0x1A [w] .invalid [] s) ∧
    (w ≠ 0 → w ≠ 0xFFFFFFFF → Answers (.withdrawQuery [w]) 0x1A [w] .done
      [Word.ofBytesHalf (if w ∈ s.part.trust.withdrawn then 1 else 0) 0 (halfOf s.part.trust.withdrawn.length)] s)

/-- R181, R182: a sector is read entry by entry; LOG-START reads from the oldest committed entry, or where the log holds none
from the write position, or with that unset from sector 0, offset 1, and LOG-NEXT from its cursor, or from LOG-START's place
when the cursor's sector was reused (with no committed entry the model's choice, log 35); each returns at most four words of
the array, END when fewer could be read, MOVED when the sector was reused, and leaves the cursor where reading stopped. A
cursor at the first entry's place is not taken as reused while the write position is unset and sector 0 is erased. LOG-NEXT
without a cursor is refused. Reading forward takes the words of complete entries at or after the cursor in the cursor's
sector and goes on at the start of the sector in use whose sequence number is one greater, until it has the words it wants; the
oldest committed entry is the first one of the sector in use with the lowest sequence number that holds one. That a sector is
read from its start and only the words at or after the cursor are returned, and that a sector not in use reads nothing, is the
model's deduction (log 23); the sectors' addresses are its choice (log 8). -/
def Obligations.LogReadsReturnWordsOfTheArray : Prop :=
  (∀ (a : StoreArray) (fuel want base : Nat) (c : LogPos) (offs : List Nat) (stop : Nat), base = 128 * (7 + c.sector.val) →
    (logInUse a c.sector = false → offs = [] ∧ stop = c.offset) →
    (logInUse a c.sector = true →
      offs = (scanLog a base 128 1).1.filter (fun o => decide (c.offset ≤ o)) ∧ stop = (scanLog a base 128 1).2) →
    (∀ o, 0 < want → want ≤ offs.length → (offs.take want).getLast? = some o →
      readLog a (fuel + 1) want c = ((offs.take want).map fun o => readWord a (base + o), { c with offset := o + 1 })) ∧
    (offs.length < want → (∀ k, logInUse a k = true → logSeq a k ≠ c.seq + 1) →
      readLog a (fuel + 1) want c = (offs.map fun o => readWord a (base + o), { c with offset := max c.offset stop })) ∧
    (∀ k, offs.length < want → logInUse a k = true → logSeq a k = c.seq + 1 →
      (∀ j, logInUse a j = true → logSeq a j = c.seq + 1 → j = k) →
      ∀ r, r = readLog a fuel (want - offs.length) ⟨k, c.seq + 1, 1⟩ →
        readLog a (fuel + 1) want c = ((offs.map fun o => readWord a (base + o)) ++ r.1, r.2))) ∧
  (∀ (a : StoreArray) (pos : Option LogPos),
    (∀ (k : Fin 8) (o : Nat) (rest : List Nat), logInUse a k = true →
      (scanLog a (128 * (7 + k.val)) 128 1).1 = o :: rest →
      (∀ j : Fin 8, j ≠ k → logInUse a j = true → (scanLog a (128 * (7 + j.val)) 128 1).1 ≠ [] →
        (logSeq a k).toNat < (logSeq a j).toNat) →
      oldestEntry a pos = ⟨k, logSeq a k, o⟩) ∧
    ((∀ k : Fin 8, logInUse a k = true → (scanLog a (128 * (7 + k.val)) 128 1).1 = []) →
      oldestEntry a pos = pos.getD ⟨0, 0, 1⟩)) ∧
  (∀ (a : StoreArray) (base fuel off : Nat) (w : Word), off < 128 → w = readWord a (base + off) →
    (w = 0xFFFFFFFF → scanLog a base (fuel + 1) off = ([], off)) ∧
    (w ≠ 0xFFFFFFFF → (w.extractLsb' 16 5 ≠ (0 : BitVec 5) ∨ w.extractLsb' 26 4 = (0 : BitVec 4) ∨
        9 < (w.extractLsb' 26 4).toNat) → scanLog a base (fuel + 1) off = ([], off)) ∧
    (w.extractLsb' 16 5 = (0 : BitVec 5) → 1 ≤ (w.extractLsb' 26 4).toNat → (w.extractLsb' 26 4).toNat ≤ 9 →
      ∀ n, n = off + 1 + (w.extractLsb' 21 2).toNat →
      (w.getLsbD 31 = true → scanLog a base (fuel + 1) off = scanLog a base fuel n) ∧
      (w.getLsbD 31 = false → n ≤ 128 → scanLog a base (fuel + 1) off =
        (List.range' off (n - off) ++ (scanLog a base fuel n).1, (scanLog a base fuel n).2)))) ∧
  (∀ (s : State) (p q : Part), Free s → p = taken 0x38 [] s.part → q = taken 0x39 [] s.part →
    (∀ (ws : List Word) (c : LogPos), (ws, c) = readLog s.array 9 4 (oldestEntry s.array s.part.ctl.logPos) →
      ws.length ≤ 4 ∧ (∀ w ∈ ws, ∃ k, w = readWord s.array k) ∧
      exec (.logStart []) s = .next
        { s with part := answered { p with ctl := { p.ctl with cursor := some c } } (response 0x38 .done
          (Word.ofBytes (if ws.length < 4 then 1 else 0) (byteOf ws.length) 0 0 :: ws)) } ∧
      ((∀ k, logInUse s.array k = false) → s.part.ctl.logPos = none → ws = [] ∧ c = ⟨0, 0, 1⟩)) ∧
    (s.part.ctl.cursor = none → Answers (.logNext []) 0x39 [] .wrongState [] s) ∧
    (∀ (c : LogPos) (moved : Bool) (ws : List Word) (d : LogPos), s.part.ctl.cursor = some c →
      (moved = true ↔
        if s.part.ctl.logPos = none ∧ c = ⟨0, 0, 1⟩ then logInUse s.array 0 = true ∧ logSeq s.array 0 ≠ 0
        else logInUse s.array c.sector = false ∨ logSeq s.array c.sector ≠ c.seq) →
      (ws, d) = readLog s.array 9 4 (if moved then oldestEntry s.array s.part.ctl.logPos else c) →
      ws.length ≤ 4 ∧ (∀ w ∈ ws, ∃ k, w = readWord s.array k) ∧
      exec (.logNext []) s = .next
        { s with part := answered { q with ctl := { q.ctl with cursor := some d } } (response 0x39 .done
          (Word.ofBytes ((if ws.length < 4 then 1 else 0) + (if moved then 2 else 0)) (byteOf ws.length) 0 0 :: ws)) }))

/-- R113, R114, R116, R117: KEY-WRITE, KEY-RETIRE and KEY-ERASE: what refuses each, what completes at once, and the store job
that everything else becomes, with no table changed. -/
def Obligations.KeyRequestsBecomeStoreJobs : Prop :=
  ∀ (s : State) (w1 w2 w3 : Word), Ready s →
    (∀ (k : Fin 16) (e : KeyEntry), Word.byte w1 0 = byteOf k.val → e.retired = false → e.family = Word.byte w1 1 →
      e.generation = Word.byte w1 2 → e.ka = w2 → e.kb = w3 → e.family ≠ 0 → e.family ≠ 255 → 2 ≤ w2.toNat →
      w2.toNat ≤ 2147483646 → w3.toNat ≤ 2147483646 →
      ((∀ (l : Fin 16) y, l ≠ k → s.part.trust.keys[l] = some y →
          ¬(y.family = e.family ∧ y.generation = e.generation)) →
        Queues (.keyWrite [w1, w2, w3]) 0x10 [w1, w2, w3] (.keyWrite k e) s) ∧
      ((∃ (l : Fin 16) (y : KeyEntry), l ≠ k ∧ s.part.trust.keys[l] = some y ∧ y.family = e.family ∧
          y.generation = e.generation) →
        Answers (.keyWrite [w1, w2, w3]) 0x10 [w1, w2, w3] .invalid [] s)) ∧
    (16 ≤ (Word.byte w1 0).toNat ∨ Word.byte w1 1 = 0 ∨ Word.byte w1 1 = 255 ∨ w2.toNat < 2 ∨ 2147483646 < w2.toNat ∨
        2147483646 < w3.toNat →
      Answers (.keyWrite [w1, w2, w3]) 0x10 [w1, w2, w3] .invalid [] s) ∧
    (16 ≤ (Word.byte w1 0).toNat →
      Answers (.keyRetire [w1]) 0x11 [w1] .invalid [] s ∧ Answers (.keyErase [w1]) 0x12 [w1] .invalid [] s) ∧
    (∀ k : Fin 16, Word.byte w1 0 = byteOf k.val →
      (s.part.trust.keys[k] = none →
        Answers (.keyRetire [w1]) 0x11 [w1] .absent [] s ∧ Answers (.keyErase [w1]) 0x12 [w1] .absent [] s) ∧
      (∀ e, s.part.trust.keys[k] = some e →
        (e.retired = true → Answers (.keyRetire [w1]) 0x11 [w1] .done [] s) ∧
        (e.retired = false → Queues (.keyRetire [w1]) 0x11 [w1] (.keyRetire k) s) ∧
        Queues (.keyErase [w1]) 0x12 [w1] (.keyErase k) s))

/-- R113, R120, R122: CLASS-WRITE and CLASS-ERASE: the ranges of Table 1.13's fields, the uniqueness of a class code, and the
store jobs. -/
def Obligations.ClassRequestsBecomeStoreJobs : Prop :=
  ∀ (s : State) (w1 w2 w3 : Word), Ready s →
    (∀ (i : Fin 32) (e : ClassEntry), Word.byte w1 0 = byteOf i.val →
      e = { code := Word.byte w1 1, ic := Word.lo w1, tk := (Word.byte w2 0).toInt, tc := (Word.byte w2 1).toInt,
            cellFloor := Word.lo w2, wearLimit := Word.hi w3 } →
      ∀ fits : Prop, (fits ↔ e.code ≠ 0 ∧ e.code ≠ 255 ∧ 1 ≤ e.ic.toNat ∧ e.ic.toNat ≤ 2000 ∧ -40 ≤ e.tk ∧ e.tk ≤ 124 ∧
        e.tk < e.tc ∧ e.tc ≤ 125 ∧ 2000 ≤ e.cellFloor.toNat ∧ e.cellFloor.toNat ≤ 4000 ∧
        ∀ (j : Fin 32) y, j ≠ i → s.part.trust.classes[j] = some y → y.code ≠ e.code) →
      (fits → Queues (.classWrite [w1, w2, w3]) 0x14 [w1, w2, w3] (.classWrite i e) s) ∧
      (¬fits → Answers (.classWrite [w1, w2, w3]) 0x14 [w1, w2, w3] .invalid [] s)) ∧
    (32 ≤ (Word.byte w1 0).toNat →
      Answers (.classWrite [w1, w2, w3]) 0x14 [w1, w2, w3] .invalid [] s ∧
      Answers (.classErase [w1]) 0x15 [w1] .invalid [] s) ∧
    (∀ i : Fin 32, Word.byte w1 0 = byteOf i.val →
      (s.part.trust.classes[i] = none → Answers (.classErase [w1]) 0x15 [w1] .absent [] s) ∧
      (∀ e, s.part.trust.classes[i] = some e → Queues (.classErase [w1]) 0x15 [w1] (.classErase i) s))

/-- R66 to R68, R124, R126: the withdrawal list and rule table requests: WITHDRAW-ADD by the number of its new serials,
WITHDRAW-CLEAR, and RULES-EDIT, RULE-WRITE and RULES-APPLY by the rule table's state. -/
def Obligations.ListAndRuleRequestsAct : Prop :=
  ∀ (s : State), Ready s →
    (∀ ws : List Word, 1 ≤ ws.length → ws.length ≤ 3 →
      ((∃ w ∈ ws, w = 0 ∨ w = 0xFFFFFFFF) → Answers (.withdrawAdd ws) 0x18 ws .invalid [] s) ∧
      ((∀ w ∈ ws, w ≠ 0 ∧ w ≠ 0xFFFFFFFF) → ∃ new : List Word,
        (∀ w, w ∈ new ↔ w ∈ ws ∧ w ∉ s.part.trust.withdrawn) ∧ new.Nodup ∧ new.Sublist ws ∧
        (new = [] → Becomes (.withdrawAdd ws) s
          ((answered (taken 0x18 ws s.part) (response 0x18 .done
              [Word.ofBytesHalf 0 0 (halfOf s.part.trust.withdrawn.length)])).log
            { type := 7, socket := 7, detail := 0x3400, data := [] })) ∧
        (new ≠ [] → 256 < s.part.trust.withdrawn.length + new.length →
          Answers (.withdrawAdd ws) 0x18 ws .full [] s) ∧
        (new ≠ [] → s.part.trust.withdrawn.length + new.length ≤ 256 →
          Queues (.withdrawAdd ws) 0x18 ws (.withdrawAdd new) s))) ∧
    Queues (.withdrawClear []) 0x19 [] .withdrawClear s ∧
    Becomes (.rulesEdit []) s
      (answered { taken 0x20 [] s.part with classifier := { s.part.classifier with editing := true } }
        (response 0x20 .done [0x01000000])) ∧
    (∀ (w1 w2 w3 : Word) (i : Fin 32) (r : Rule), Word.byte w1 0 = byteOf i.val →
      (Word.byte w1 1).toNat = (if r.enabled then 1 else 0) → (Word.byte w1 2).toNat = (if r.direction = .up then 0 else 1) →
      (r.kind = none ∧ Word.byte w1 3 = 0xFF ∨ ∃ k, r.kind = some k ∧ Word.byte w1 3 = k.setWidth 8) →
      Word.byte w2 0 = r.socketMask.setWidth 8 → Word.byte w2 1 = r.stateMask.setWidth 8 →
      (Word.byte w2 2).toNat = (if r.action = .forward then 0 else if r.action = .answer then 1 else 2) →
      Word.byte w2 3 = r.lane → (Word.byte w3 0).toNat = (if r.decimate then 1 else 0) →
      (s.part.classifier.editing = true → Becomes (.ruleWrite [w1, w2, w3]) s
        (answered { taken 0x21 [w1, w2, w3] s.part with
            classifier := { s.part.classifier with rules := s.part.classifier.rules.set i r } }
          (response 0x21 .done []))) ∧
      (s.part.classifier.editing = false → Answers (.ruleWrite [w1, w2, w3]) 0x21 [w1, w2, w3] .wrongState [] s)) ∧
    (∀ w1 w2 w3 : Word, 32 ≤ (Word.byte w1 0).toNat ∨ 2 ≤ (Word.byte w1 1).toNat ∨ 2 ≤ (Word.byte w1 2).toNat ∨
        16 ≤ (Word.byte w1 3).toNat ∧ Word.byte w1 3 ≠ 0xFF ∨ 16 ≤ (Word.byte w2 0).toNat ∨
        128 ≤ (Word.byte w2 1).toNat ∨ 3 ≤ (Word.byte w2 2).toNat ∨ 2 ≤ (Word.byte w3 0).toNat →
      Answers (.ruleWrite [w1, w2, w3]) 0x21 [w1, w2, w3] .invalid [] s) ∧
    (s.part.classifier.editing = false → Answers (.rulesApply []) 0x22 [] .wrongState [] s) ∧
    (∀ bad : Rule → Prop, (∀ r, bad r ↔ r.enabled = true ∧ (2 < r.lane.toNat ∨
        r.action = .answer ∧ (r.direction = .up ∨ r.kind ≠ some 1) ∨
        ∃ k : BitVec 4, r.kind = some k ∧ k ∈ [(3 : BitVec 4), 4, 5, 6, 8, 9, 10, 11])) →
      s.part.classifier.editing = true →
      (∀ i : Fin 32, bad s.part.classifier.rules[i] → (∀ j : Fin 32, j < i → ¬bad s.part.classifier.rules[j]) →
        Answers (.rulesApply []) 0x22 [] .invalid [BitVec.ofNat 32 i.val] s) ∧
      ((∀ i : Fin 32, ¬bad s.part.classifier.rules[i]) →
        Queues (.rulesApply []) 0x22 [] (.rulesApply s.part.classifier.rules) s))

/-- R170, Table 10.4: a SETTING-WRITE that passes its checks brings the value into range, sets it and takes effect at once;
then it is answered and logged, or becomes a store job; outside the codes it is refused. A decimation value outside its set
sets 0 also when the store flag is wrong too (the model's choice, log 16). That a write of halt recovery AUTO which changes
nothing lets a running recovery timer run on is the model's choice (log 37). -/
def Obligations.SettingWritesTakeEffectAtOnce : Prop :=
  ∀ (s : State) (w : Word) (id v : Nat), Ready s → id = (Word.byte w 0).toNat → v = (Word.lo w).toNat →
    (12 < id ∨ id ≠ 9 ∧ 2 ≤ (Word.byte w 1).toNat ∨ (id = 0 ∨ id = 10 ∨ id = 11) ∧ 1 < v ∨
        id = 9 ∧ v ∈ [0, 1, 2, 4, 8, 16] ∧ 2 ≤ (Word.byte w 1).toNat →
      Answers (.settingWrite [w]) 0x05 [w] .invalid [] s) ∧
    (id = 9 → v ∉ [0, 1, 2, 4, 8, 16] → 2 ≤ (Word.byte w 1).toNat → Becomes (.settingWrite [w]) s
      (answered { taken 0x05 [w] s.part with
          mgmt := { (taken 0x05 [w] s.part).mgmt with settings := { s.part.mgmt.settings with decimation := 0 } },
          classifier := { s.part.classifier with decim := .all 0 } }
        (response 0x05 .invalid []))) ∧
    (∀ v' : Nat,
      ((id = 0 ∨ id = 10 ∨ id = 11) ∧ v ≤ 1 ∧ v' = v ∨ id = 1 ∧ v' = min v 8000 ∨ (id = 2 ∨ id = 3 ∨ id = 7) ∧ v' = min v 100 ∨
        id = 4 ∧ v' = max 2 (min v 31) ∨ id = 5 ∧ v' = min v 255 ∨ id = 6 ∧ v' = min v 50 ∨
        id = 8 ∧ v' = (if v = 0 then 0 else max 10 (min v 250)) ∨ id = 9 ∧ v ∈ [0, 1, 2, 4, 8, 16] ∧ v' = v ∨
        id = 12 ∧ v' = max 1 (min v 15)) →
      (Word.byte w 1).toNat ≤ 1 → ∃ p q : Part,
        p.mgmt.settings.toList = s.part.mgmt.settings.toList.set id v' ∧
        p = { taken 0x05 [w] s.part with mgmt := { (taken 0x05 [w] s.part).mgmt with settings := p.mgmt.settings } } ∧
        q.mgmt = { p.mgmt with settings := q.mgmt.settings, request := q.mgmt.request } ∧
        q.mgmt.settings = p.mgmt.settings ∧
        (id ≤ 3 → q = p.recompute) ∧ (id = 4 ∨ id = 7 ∨ 11 ≤ id → q = p) ∧
        (id = 8 → q.grants.aggregate = some (p.clock + if v' = 0 then 20000 else v' * 1000)) ∧
        (id = 9 → q = { p with classifier := { p.classifier with decim := .all 0 } }) ∧
        (id = 10 → ∀ n, (q.link n).recovery =
          if v' = 1 then none
          else if (p.link n).recovery = none ∧ (p.link n).state = .halted ∧ p.contacts.get n = true then
            some (p.clock + 2000000)
          else (p.link n).recovery) ∧
        (id = 5 → ∀ n r, (p.session n).state = .admitted → (p.session n).recheck = some r → ∃ e,
          e = r.lastPass + (if (p.link n).state = .degraded then min (if v' = 0 then 60 else v') 5
            else if v' = 0 then 60 else v') * 1000000 ∧
          (p.clock < e → (q.session n) = { p.session n with recheck := some { r with due := e } })) ∧
        (id = 6 → ∀ n t, (p.session n).telemetry = some t →
          (q.grants.stale.get n = true ↔ p.grants.stale.get n = true ∨
            (if v' = 0 then 500 else v' * 100) ≤ min 65535 ((p.clock - t.since) / 1000))) ∧
        (Word.byte w 1 = 0 → Becomes (.settingWrite [w]) s
          ((answered q (response 0x05 .done [Word.ofHalves (halfOf v') 0])).log
            { type := 7, socket := 7, detail := halfOf (0x5100 + id), data := [] })) ∧
        (Word.byte w 1 = 1 → ∃ x : Settings, x.toList = s.part.ctl.storedSettings.toList.set id v' ∧
          Becomes (.settingWrite [w]) s (withJob q (.table (.settingWrite id v' x s.part.ctl.storedMap)))))

/-- R171: a SETTING-WRITE of the status decimation setting whose value is not 0, 1, 2, 4, 8 or 16 is refused INVALID and sets
the runtime value and the four decimation counters to 0, with no store job, no log entry and no change of the stored copy,
whatever the store flag; one of topology, halt recovery or revert on reset outside its codes changes nothing. -/
def Obligations.DecimationRefusalSetsZero : Prop :=
  ∀ (s : State) (w : Word), Ready s →
    (Word.byte w 0 = 9 → (Word.lo w).toNat ∉ [0, 1, 2, 4, 8, 16] → (Word.byte w 1).toNat ≤ 1 → Becomes (.settingWrite [w]) s
      (answered { taken 0x05 [w] s.part with
          mgmt := { (taken 0x05 [w] s.part).mgmt with settings := { s.part.mgmt.settings with decimation := 0 } },
          classifier := { s.part.classifier with decim := .all 0 } }
        (response 0x05 .invalid []))) ∧
    (Word.byte w 0 = 9 → (Word.lo w).toNat ∉ [0, 1, 2, 4, 8, 16] → (Word.byte w 1).toNat ≤ 1 → Gives (.settingWrite [w]) s (fun t =>
      t.part.mgmt.settings.decimation = 0 ∧ t.part.classifier.decim = .all 0 ∧
      t.part.ctl.storedSettings = s.part.ctl.storedSettings ∧ t.part.ctl.jobs = s.part.ctl.jobs ∧
      (∀ (n : Socket) (f : Frame) (k : Lane), f.kind = kindStatus → t.part.forwardUp n f k true = t.part))) ∧
    (Word.byte w 0 = 0 ∨ Word.byte w 0 = 10 ∨ Word.byte w 0 = 11 → 2 ≤ (Word.lo w).toNat →
      Answers (.settingWrite [w]) 0x05 [w] .invalid [] s)

/-- R157, R158: MAP-WRITE replaces an entry and re-evaluates the permit lines at once, then is answered and logged or becomes
a store job; FAULT-ACK takes the HELD conditions it names to INACTIVE and reports what it released. That a FAULT-ACK whose
frame ends the silence cause finds the conditions as that left them is the model's choice (log 11). -/
def Obligations.MapWritesAndAcknowledgements : Prop :=
  ∀ (s : State), Ready s →
    (∀ (w1 w2 : Word) (c : Cond) (e : MapEntry) (p q : Part), Word.byte w1 0 = byteOf c.number →
      Word.byte w1 1 = e.mask.setWidth 8 → (Word.byte w1 2).toNat = (if e.latch then 1 else 0) →
      (Word.byte w1 3).toNat = (if e.advise then 1 else 0) → p = taken 0x28 [w1, w2] s.part →
      q = { p with fault := { p.fault with map := p.fault.map.set c e, permits := q.fault.permits } } →
      (∀ n, q.fault.permits.get n = q.permitDue n) →
      (Word.byte w2 0 = 0 → Becomes (.mapWrite [w1, w2]) s
        ((answered q (response 0x28 .done [Word.ofBytes (byteOf (p.fault.conds.get c).code) 0 0 0])).log
          { type := 7, socket := 7, detail := halfOf (0x6100 + c.number), data := [] })) ∧
      (Word.byte w2 0 = 1 → Becomes (.mapWrite [w1, w2]) s
        (withJob q (.table (.mapWrite c s.part.ctl.storedSettings q.fault.map))))) ∧
    (∀ w1 w2 : Word, 8 ≤ (Word.byte w1 0).toNat ∨ 16 ≤ (Word.byte w1 1).toNat ∨ 2 ≤ (Word.byte w1 2).toNat ∨
        2 ≤ (Word.byte w1 3).toNat ∨ 2 ≤ (Word.byte w2 0).toNat →
      Answers (.mapWrite [w1, w2]) 0x28 [w1, w2] .invalid [] s) ∧
    (∀ (w : Word) (p : Part), p = taken 0x29 [w] s.part → Gives (.faultAck [w]) s (fun t =>
      (∀ c, t.part.fault.conds.get c = if (Word.byte w 0).getLsbD c.number = true ∧ p.fault.conds.get c = .held then
        .inactive else p.fault.conds.get c) ∧
      t.part.fault.causes = p.fault.causes ∧ t.part.fault.map = s.part.fault.map ∧
      (∃ r : Word, Carries t.part (response 0x29 .done [r]) ∧ ∀ c : Cond,
        r.getLsbD (24 + c.number) = ((Word.byte w 0).getLsbD c.number && decide (p.fault.conds.get c = .held)) ∧
        r.getLsbD (16 + c.number) = decide (t.part.fault.conds.get c = .active) ∧
        r.getLsbD (8 + c.number) = decide (t.part.fault.conds.get c = .held) ∧ r.getLsbD c.number = false) ∧
      t.part.links = s.part.links ∧ t.part.engine = s.part.engine ∧ t.part.trust = s.part.trust ∧
      t.part.grants = s.part.grants ∧ t.part.proof = s.part.proof ∧ t.part.classifier = s.part.classifier ∧
      t.array = s.array))

/-- R36, R38, R95, R97, R172 to R174: SOCKET-RESTART, AUDIT, PARK and RESET as they are taken. An audit tries its sockets in
ascending order, when it is taken and after each event that may have set a result, and completes when nothing is left: with ALL
each socket of its mask is reached at once, with ONE_AT_A_TIME each when every one below it has its result. A socket reached is
SKIPPED when it cannot be challenged, has its outstanding challenge adopted, or gets an AUDIT challenge. That PARK's wait
leaves out a renewal of the watermark queued later is the model's choice (log 13). That PARK's wait counts the job
in progress, so that PARK is answered at once only when there is none either, is the model's deduction (log 13); that RESET's
wait counts the job in progress, when it is a log entry or stands ahead of one, is the model's deduction from R174 (log 14). -/
def Obligations.RestartAuditParkAndResetAreTaken : Prop :=
  (∀ (s : State) (w : Word) (a : Audit) (q : Part), Ready s → (Word.byte w 0).toNat < 16 →
    (Word.byte w 1).toNat < 2 → (Word.byte w 2).toNat < 2 →
    a = { mask := (Word.byte w 0).setWidth 4, oneAtATime := decide (Word.byte w 1 = 1),
          withdraw := decide (Word.byte w 2 = 1),
          results := .ofFn fun n => if (Word.byte w 0).getLsbD n.val then none else some .skipped,
          reached := .all false, serials := .all none, phase := .collecting, withdrawnCount := 0, mass := false,
          full := false, failed := false } →
    q = { taken 0x31 [w] s.part with engine := { s.part.engine with audit := some a } } →
    Becomes (.audit [w]) s q.auditProgress.auditFinish) ∧
  (∀ s : State, s.part.power = .on → Becomes .auditComplete s s.part.auditFinish) ∧
  (∀ p : Part, p.auditProgress =
    (Part.auditTurn 3 (Part.auditTurn 2 (Part.auditTurn 1 (Part.auditTurn 0 p)))).auditTest) ∧
  (∀ (n : Socket) (p : Part), (p.engine.audit = none → Part.auditTurn n p = p) ∧
    (∀ a : Audit, p.engine.audit = some a →
      (a.mask.getLsbD n.val = false ∨ a.reached.get n = true ∨
          (a.oneAtATime = true ∧ ∃ m, m < n ∧ a.mask.getLsbD m.val = true ∧ a.results.get m = none) →
        Part.auditTurn n p = p) ∧
      (∀ q : Part, a.mask.getLsbD n.val = true → a.reached.get n = false → Running p 0x31 →
        a.oneAtATime = false ∨ (∀ m, m < n → a.mask.getLsbD m.val = true → a.results.get m ≠ none) →
        q = { p with engine := { p.engine with audit := some { a with reached := a.reached.set n true } } } →
        ((p.session n).state.trusted = false ∨ (p.link n).state ≠ .active ∧ (p.link n).state ≠ .degraded →
          Part.auditTurn n p = q.auditResult n .skipped) ∧
        ((p.session n).state.trusted = true → (p.link n).state = .active ∨ (p.link n).state = .degraded →
          ((p.session n).challenge ≠ none → Part.auditTurn n p = q) ∧
          ((p.session n).challenge = none → Part.auditTurn n p = q.issueChallenge n .audit))))) ∧
  (∀ (s : State) (w : Word), Ready s →
    (4 ≤ (Word.byte w 0).toNat → Answers (.socketRestart [w]) 0x30 [w] .invalid [] s) ∧
    (∀ n : Socket, Word.byte w 0 = byteOf n.val → Gives (.socketRestart [w]) s (fun t =>
      (t.part.link n).tx = none ∧ (t.part.link n).engineSlot = none ∧ (t.part.link n).pollQueue = [] ∧
      (t.part.link n).errors = 0 ∧ (t.part.link n).drop = none ∧ (t.part.link n).recovery = none ∧
      (s.part.contacts.get n = true → (t.part.link n).state = .settling ∧
        (t.part.link n).settle = some (s.part.clock + 250000) ∧ Carries t.part (response 0x30 .done [0x01000000])) ∧
      (s.part.contacts.get n = false → (t.part.link n).state = .vacant ∧ (t.part.link n).settle = none ∧
        Carries t.part (response 0x30 .done [0])) ∧
      (t.part.session n).state = .none ∧ ((s.part.session n).state ≠ .none → t.part.session n = Session.initial) ∧
      (∀ m, m ≠ n → t.part.link m = s.part.link m ∧ t.part.session m = s.part.session m) ∧
      t.part.trust = s.part.trust ∧ t.part.engine.recent = s.part.engine.recent ∧ t.array = s.array)) ∧
    (16 ≤ (Word.byte w 0).toNat ∨ 2 ≤ (Word.byte w 1).toNat ∨ 2 ≤ (Word.byte w 2).toNat →
      Answers (.audit [w]) 0x31 [w] .invalid [] s) ∧
    ((Word.byte w 0).toNat < 16 → (Word.byte w 1).toNat < 2 → (Word.byte w 2).toNat < 2 → Gives (.audit [w]) s (fun t =>
      ((∀ n : Socket, (Word.byte w 0).getLsbD n.val = true → (s.part.session n).state.trusted = false ∨
          (s.part.link n).state ≠ .active ∧ (s.part.link n).state ≠ .degraded) →
        t.part.engine = { s.part.engine with audit := none } ∧ Carries t.part (response 0x31 .done [0, 0])) ∧
      (∀ (n : Socket) (c : Challenge), (Word.byte w 0).getLsbD n.val = true →
        (∀ m : Socket, m < n → (Word.byte w 0).getLsbD m.val = false) → (s.part.session n).state.trusted = true →
        (s.part.link n).state = .active ∨ (s.part.link n).state = .degraded →
        (s.part.session n).challenge = some c →
        t.part.session n = s.part.session n ∧
        ∃ a, t.part.engine.audit = some a ∧ a.phase = .collecting ∧ a.results.get n = none ∧
          a.mask = (Word.byte w 0).setWidth 4 ∧ a.oneAtATime = decide (Word.byte w 1 = 1) ∧
          a.withdraw = decide (Word.byte w 2 = 1) ∧
          (∀ m : Socket, (Word.byte w 0).getLsbD m.val = false →
            a.results.get m = some .skipped ∧ t.part.session m = s.part.session m)) ∧
      (∀ n : Socket, (Word.byte w 0).getLsbD n.val = true →
        (∀ m : Socket, m < n → (Word.byte w 0).getLsbD m.val = false) → (s.part.session n).state.trusted = true →
        (s.part.link n).state = .active ∨ (s.part.link n).state = .degraded →
        (s.part.session n).challenge = none → CanChallenge s.part n →
        (t.part.session n).state = (s.part.session n).state ∧
        ∃ ph, (t.part.session n).challenge = some ⟨.audit, ph⟩)))) ∧
  (∀ s : State, Ready s → Gives (.park []) s (fun t =>
    t.part.mgmt.parked = true ∧ (∀ n, t.part.fault.permits.get n = false) ∧ t.part.grants.overdraw = none ∧
    (∀ n, (t.part.session n).state = .none ∧
      ((s.part.session n).state ≠ .none → t.part.session n = Session.initial) ∧
      (t.part.link n).tx = none ∧ (t.part.link n).engineSlot = none ∧ (t.part.link n).pollQueue = [] ∧
      (t.part.link n).settle = none ∧ (t.part.link n).recovery = none ∧
      (t.part.link n).state = (s.part.link n).state ∧ (t.part.link n).errors = (s.part.link n).errors ∧
      (t.part.link n).drop = (s.part.link n).drop) ∧
    (t.part.ctl.jobs = [] → Carries t.part (response 0x3E .done [])) ∧
    (t.part.ctl.jobs ≠ [] → t.part.mgmt.request = some
      { code := 0x3E, words := [], phase := .running, wait := t.part.ctl.jobs.length, waitFailed := false }) ∧
    t.part.trust = s.part.trust ∧ t.part.engine.recent = s.part.engine.recent ∧
    t.part.fault.map = s.part.fault.map ∧ t.part.mgmt.settings = s.part.mgmt.settings ∧
    t.part.classifier.rules = s.part.classifier.rules ∧ t.part.proof.counter = s.part.proof.counter ∧
    t.array = s.array)) ∧
  (∀ s : State, Loaded s → s.part.LanesFit → Gives (.reset []) s (fun t =>
    t.part.ctl.job = s.part.ctl.job ∧ t.part.ctl.queue = s.part.ctl.queue.filter (fun j => !j.isTable) ∧
    (∃ a b : List Job, t.part.ctl.jobs = a ++ b ∧ (∀ j ∈ b, j.isWatermark = true) ∧
      (∀ j, a.getLast? = some j → j.isWatermark = false) ∧
      t.part.mgmt.request = some
        { code := 0x3F, words := [], phase := .running, wait := a.length, waitFailed := false }) ∧
    t.part.mgmt.superseded = (s.part.mgmt.superseded || s.part.mgmt.request.isSome) ∧
    t.part.links = s.part.links ∧ t.part.engine = s.part.engine ∧ t.part.trust = s.part.trust ∧
    t.part.proof = s.part.proof ∧ t.part.grants = s.part.grants ∧ t.part.classifier = s.part.classifier ∧
    t.part.mgmt.parked = s.part.mgmt.parked ∧ t.array = s.array))
end

