-- ==== Sys2Proof/Laws/State.lean ====
section
/-! SUPPORT. Field lemmas: what each replacement of a piece of the part changes, and that it changes nothing else. -/

namespace Sys2Proof.Machine

/-! ## Families indexed by socket and by condition -/

@[simp] theorem PerSocket.get_set_self {α : Type} (v : PerSocket α) (n : Socket) (x : α) : (v.set n x).get n = x := by
  match n with
  | 0 => rfl
  | 1 => rfl
  | 2 => rfl
  | 3 => rfl

theorem PerSocket.get_set_ne {α : Type} (v : PerSocket α) {n m : Socket} (x : α) (h : m ≠ n) :
    (v.set n x).get m = v.get m := by
  revert h
  match n, m with
  | 0, 0 => exact fun h => absurd rfl h
  | 0, 1 => exact fun _ => rfl
  | 0, 2 => exact fun _ => rfl
  | 0, 3 => exact fun _ => rfl
  | 1, 0 => exact fun _ => rfl
  | 1, 1 => exact fun h => absurd rfl h
  | 1, 2 => exact fun _ => rfl
  | 1, 3 => exact fun _ => rfl
  | 2, 0 => exact fun _ => rfl
  | 2, 1 => exact fun _ => rfl
  | 2, 2 => exact fun h => absurd rfl h
  | 2, 3 => exact fun _ => rfl
  | 3, 0 => exact fun _ => rfl
  | 3, 1 => exact fun _ => rfl
  | 3, 2 => exact fun _ => rfl
  | 3, 3 => exact fun h => absurd rfl h

theorem PerSocket.get_set {α : Type} (v : PerSocket α) (n m : Socket) (x : α) :
    (v.set n x).get m = if m = n then x else v.get m := by
  by_cases h : m = n
  · subst h; simp
  · simp [h, PerSocket.get_set_ne v x h]

@[simp] theorem PerSocket.get_all {α : Type} (x : α) (n : Socket) : (PerSocket.all x).get n = x := by
  match n with
  | 0 => rfl
  | 1 => rfl
  | 2 => rfl
  | 3 => rfl

@[simp] theorem PerSocket.get_ofFn {α : Type} (f : Socket → α) (n : Socket) : (PerSocket.ofFn f).get n = f n := by
  match n with
  | 0 => rfl
  | 1 => rfl
  | 2 => rfl
  | 3 => rfl

/-- Two families that agree at every socket are equal. -/
theorem PerSocket.ext_get {α : Type} {v w : PerSocket α} (h : ∀ n, v.get n = w.get n) : v = w := by
  have h0 := h 0
  have h1 := h 1
  have h2 := h 2
  have h3 := h 3
  cases v; cases w
  simp_all [PerSocket.get]

theorem PerSocket.set_get_self {α : Type} (v : PerSocket α) (n : Socket) : v.set n (v.get n) = v := by
  apply PerSocket.ext_get
  intro m
  rw [PerSocket.get_set]
  split <;> simp_all

@[simp] theorem PerCond.get_set_self {α : Type} (v : PerCond α) (c : Cond) (x : α) : (v.set c x).get c = x := by
  cases c <;> rfl

theorem PerCond.get_set_ne {α : Type} (v : PerCond α) {c d : Cond} (x : α) (h : d ≠ c) :
    (v.set c x).get d = v.get d := by
  cases c <;> cases d <;> first | rfl | exact absurd rfl h

theorem PerCond.get_set {α : Type} (v : PerCond α) (c d : Cond) (x : α) :
    (v.set c x).get d = if d = c then x else v.get d := by
  by_cases h : d = c
  · subst h; simp
  · simp [h, PerCond.get_set_ne v x h]

@[simp] theorem PerCond.get_all {α : Type} (x : α) (c : Cond) : (PerCond.all x).get c = x := by cases c <;> rfl

/-! ## Replacements -/

@[simp] theorem Part.setLink_power (p : Part) (n : Socket) (x : Link) : (p.setLink n x).power = p.power := rfl
@[simp] theorem Part.setLink_clock (p : Part) (n : Socket) (x : Link) : (p.setLink n x).clock = p.clock := rfl
@[simp] theorem Part.setLink_contacts (p : Part) (n : Socket) (x : Link) : (p.setLink n x).contacts = p.contacts := rfl
@[simp] theorem Part.setLink_lockPin (p : Part) (n : Socket) (x : Link) : (p.setLink n x).lockPin = p.lockPin := rfl
@[simp] theorem Part.setLink_links (p : Part) (n : Socket) (x : Link) : (p.setLink n x).links = p.links.set n x := rfl
@[simp] theorem Part.setLink_tlp (p : Part) (n : Socket) (x : Link) : (p.setLink n x).tlp = p.tlp := rfl
@[simp] theorem Part.setLink_classifier (p : Part) (n : Socket) (x : Link) : (p.setLink n x).classifier = p.classifier := rfl
@[simp] theorem Part.setLink_engine (p : Part) (n : Socket) (x : Link) : (p.setLink n x).engine = p.engine := rfl
@[simp] theorem Part.setLink_proof (p : Part) (n : Socket) (x : Link) : (p.setLink n x).proof = p.proof := rfl
@[simp] theorem Part.setLink_trust (p : Part) (n : Socket) (x : Link) : (p.setLink n x).trust = p.trust := rfl
@[simp] theorem Part.setLink_grants (p : Part) (n : Socket) (x : Link) : (p.setLink n x).grants = p.grants := rfl
@[simp] theorem Part.setLink_fault (p : Part) (n : Socket) (x : Link) : (p.setLink n x).fault = p.fault := rfl
@[simp] theorem Part.setLink_mgmt (p : Part) (n : Socket) (x : Link) : (p.setLink n x).mgmt = p.mgmt := rfl
@[simp] theorem Part.setLink_ctl (p : Part) (n : Socket) (x : Link) : (p.setLink n x).ctl = p.ctl := rfl
@[simp] theorem Part.setLink_session (p : Part) (n : Socket) (x : Link) (m : Socket) : (p.setLink n x).session m = p.session m := rfl
@[simp] theorem Part.setLink_settings (p : Part) (n : Socket) (x : Link) : (p.setLink n x).settings = p.settings := rfl

@[simp] theorem Part.setSession_power (p : Part) (n : Socket) (x : Session) : (p.setSession n x).power = p.power := rfl
@[simp] theorem Part.setSession_clock (p : Part) (n : Socket) (x : Session) : (p.setSession n x).clock = p.clock := rfl
@[simp] theorem Part.setSession_contacts (p : Part) (n : Socket) (x : Session) : (p.setSession n x).contacts = p.contacts := rfl
@[simp] theorem Part.setSession_lockPin (p : Part) (n : Socket) (x : Session) : (p.setSession n x).lockPin = p.lockPin := rfl
@[simp] theorem Part.setSession_links (p : Part) (n : Socket) (x : Session) : (p.setSession n x).links = p.links := rfl
@[simp] theorem Part.setSession_tlp (p : Part) (n : Socket) (x : Session) : (p.setSession n x).tlp = p.tlp := rfl
@[simp] theorem Part.setSession_classifier (p : Part) (n : Socket) (x : Session) : (p.setSession n x).classifier = p.classifier := rfl
@[simp] theorem Part.setSession_engine (p : Part) (n : Socket) (x : Session) : (p.setSession n x).engine = { p.engine with sessions := p.engine.sessions.set n x } := rfl
@[simp] theorem Part.setSession_proof (p : Part) (n : Socket) (x : Session) : (p.setSession n x).proof = p.proof := rfl
@[simp] theorem Part.setSession_trust (p : Part) (n : Socket) (x : Session) : (p.setSession n x).trust = p.trust := rfl
@[simp] theorem Part.setSession_grants (p : Part) (n : Socket) (x : Session) : (p.setSession n x).grants = p.grants := rfl
@[simp] theorem Part.setSession_fault (p : Part) (n : Socket) (x : Session) : (p.setSession n x).fault = p.fault := rfl
@[simp] theorem Part.setSession_mgmt (p : Part) (n : Socket) (x : Session) : (p.setSession n x).mgmt = p.mgmt := rfl
@[simp] theorem Part.setSession_ctl (p : Part) (n : Socket) (x : Session) : (p.setSession n x).ctl = p.ctl := rfl
@[simp] theorem Part.setSession_link (p : Part) (n : Socket) (x : Session) (m : Socket) : (p.setSession n x).link m = p.link m := rfl
@[simp] theorem Part.setSession_settings (p : Part) (n : Socket) (x : Session) : (p.setSession n x).settings = p.settings := rfl

@[simp] theorem Part.setTlp_power (p : Part) (x : Tlp) : (p.setTlp x).power = p.power := rfl
@[simp] theorem Part.setTlp_clock (p : Part) (x : Tlp) : (p.setTlp x).clock = p.clock := rfl
@[simp] theorem Part.setTlp_contacts (p : Part) (x : Tlp) : (p.setTlp x).contacts = p.contacts := rfl
@[simp] theorem Part.setTlp_lockPin (p : Part) (x : Tlp) : (p.setTlp x).lockPin = p.lockPin := rfl
@[simp] theorem Part.setTlp_links (p : Part) (x : Tlp) : (p.setTlp x).links = p.links := rfl
@[simp] theorem Part.setTlp_tlp (p : Part) (x : Tlp) : (p.setTlp x).tlp = x := rfl
@[simp] theorem Part.setTlp_classifier (p : Part) (x : Tlp) : (p.setTlp x).classifier = p.classifier := rfl
@[simp] theorem Part.setTlp_engine (p : Part) (x : Tlp) : (p.setTlp x).engine = p.engine := rfl
@[simp] theorem Part.setTlp_proof (p : Part) (x : Tlp) : (p.setTlp x).proof = p.proof := rfl
@[simp] theorem Part.setTlp_trust (p : Part) (x : Tlp) : (p.setTlp x).trust = p.trust := rfl
@[simp] theorem Part.setTlp_grants (p : Part) (x : Tlp) : (p.setTlp x).grants = p.grants := rfl
@[simp] theorem Part.setTlp_fault (p : Part) (x : Tlp) : (p.setTlp x).fault = p.fault := rfl
@[simp] theorem Part.setTlp_mgmt (p : Part) (x : Tlp) : (p.setTlp x).mgmt = p.mgmt := rfl
@[simp] theorem Part.setTlp_ctl (p : Part) (x : Tlp) : (p.setTlp x).ctl = p.ctl := rfl
@[simp] theorem Part.setTlp_link (p : Part) (x : Tlp) (m : Socket) : (p.setTlp x).link m = p.link m := rfl
@[simp] theorem Part.setTlp_session (p : Part) (x : Tlp) (m : Socket) : (p.setTlp x).session m = p.session m := rfl
@[simp] theorem Part.setTlp_settings (p : Part) (x : Tlp) : (p.setTlp x).settings = p.settings := rfl

@[simp] theorem Part.setProof_power (p : Part) (x : ProofUnit) : (p.setProof x).power = p.power := rfl
@[simp] theorem Part.setProof_clock (p : Part) (x : ProofUnit) : (p.setProof x).clock = p.clock := rfl
@[simp] theorem Part.setProof_contacts (p : Part) (x : ProofUnit) : (p.setProof x).contacts = p.contacts := rfl
@[simp] theorem Part.setProof_lockPin (p : Part) (x : ProofUnit) : (p.setProof x).lockPin = p.lockPin := rfl
@[simp] theorem Part.setProof_links (p : Part) (x : ProofUnit) : (p.setProof x).links = p.links := rfl
@[simp] theorem Part.setProof_tlp (p : Part) (x : ProofUnit) : (p.setProof x).tlp = p.tlp := rfl
@[simp] theorem Part.setProof_classifier (p : Part) (x : ProofUnit) : (p.setProof x).classifier = p.classifier := rfl
@[simp] theorem Part.setProof_engine (p : Part) (x : ProofUnit) : (p.setProof x).engine = p.engine := rfl
@[simp] theorem Part.setProof_proof (p : Part) (x : ProofUnit) : (p.setProof x).proof = x := rfl
@[simp] theorem Part.setProof_trust (p : Part) (x : ProofUnit) : (p.setProof x).trust = p.trust := rfl
@[simp] theorem Part.setProof_grants (p : Part) (x : ProofUnit) : (p.setProof x).grants = p.grants := rfl
@[simp] theorem Part.setProof_fault (p : Part) (x : ProofUnit) : (p.setProof x).fault = p.fault := rfl
@[simp] theorem Part.setProof_mgmt (p : Part) (x : ProofUnit) : (p.setProof x).mgmt = p.mgmt := rfl
@[simp] theorem Part.setProof_ctl (p : Part) (x : ProofUnit) : (p.setProof x).ctl = p.ctl := rfl
@[simp] theorem Part.setProof_link (p : Part) (x : ProofUnit) (m : Socket) : (p.setProof x).link m = p.link m := rfl
@[simp] theorem Part.setProof_session (p : Part) (x : ProofUnit) (m : Socket) : (p.setProof x).session m = p.session m := rfl
@[simp] theorem Part.setProof_settings (p : Part) (x : ProofUnit) : (p.setProof x).settings = p.settings := rfl

@[simp] theorem Part.setFault_power (p : Part) (x : FaultUnit) : (p.setFault x).power = p.power := rfl
@[simp] theorem Part.setFault_clock (p : Part) (x : FaultUnit) : (p.setFault x).clock = p.clock := rfl
@[simp] theorem Part.setFault_contacts (p : Part) (x : FaultUnit) : (p.setFault x).contacts = p.contacts := rfl
@[simp] theorem Part.setFault_lockPin (p : Part) (x : FaultUnit) : (p.setFault x).lockPin = p.lockPin := rfl
@[simp] theorem Part.setFault_links (p : Part) (x : FaultUnit) : (p.setFault x).links = p.links := rfl
@[simp] theorem Part.setFault_tlp (p : Part) (x : FaultUnit) : (p.setFault x).tlp = p.tlp := rfl
@[simp] theorem Part.setFault_classifier (p : Part) (x : FaultUnit) : (p.setFault x).classifier = p.classifier := rfl
@[simp] theorem Part.setFault_engine (p : Part) (x : FaultUnit) : (p.setFault x).engine = p.engine := rfl
@[simp] theorem Part.setFault_proof (p : Part) (x : FaultUnit) : (p.setFault x).proof = p.proof := rfl
@[simp] theorem Part.setFault_trust (p : Part) (x : FaultUnit) : (p.setFault x).trust = p.trust := rfl
@[simp] theorem Part.setFault_grants (p : Part) (x : FaultUnit) : (p.setFault x).grants = p.grants := rfl
@[simp] theorem Part.setFault_fault (p : Part) (x : FaultUnit) : (p.setFault x).fault = x := rfl
@[simp] theorem Part.setFault_mgmt (p : Part) (x : FaultUnit) : (p.setFault x).mgmt = p.mgmt := rfl
@[simp] theorem Part.setFault_ctl (p : Part) (x : FaultUnit) : (p.setFault x).ctl = p.ctl := rfl
@[simp] theorem Part.setFault_link (p : Part) (x : FaultUnit) (m : Socket) : (p.setFault x).link m = p.link m := rfl
@[simp] theorem Part.setFault_session (p : Part) (x : FaultUnit) (m : Socket) : (p.setFault x).session m = p.session m := rfl
@[simp] theorem Part.setFault_settings (p : Part) (x : FaultUnit) : (p.setFault x).settings = p.settings := rfl

@[simp] theorem Part.setGrants_power (p : Part) (x : Grants) : (p.setGrants x).power = p.power := rfl
@[simp] theorem Part.setGrants_clock (p : Part) (x : Grants) : (p.setGrants x).clock = p.clock := rfl
@[simp] theorem Part.setGrants_contacts (p : Part) (x : Grants) : (p.setGrants x).contacts = p.contacts := rfl
@[simp] theorem Part.setGrants_lockPin (p : Part) (x : Grants) : (p.setGrants x).lockPin = p.lockPin := rfl
@[simp] theorem Part.setGrants_links (p : Part) (x : Grants) : (p.setGrants x).links = p.links := rfl
@[simp] theorem Part.setGrants_tlp (p : Part) (x : Grants) : (p.setGrants x).tlp = p.tlp := rfl
@[simp] theorem Part.setGrants_classifier (p : Part) (x : Grants) : (p.setGrants x).classifier = p.classifier := rfl
@[simp] theorem Part.setGrants_engine (p : Part) (x : Grants) : (p.setGrants x).engine = p.engine := rfl
@[simp] theorem Part.setGrants_proof (p : Part) (x : Grants) : (p.setGrants x).proof = p.proof := rfl
@[simp] theorem Part.setGrants_trust (p : Part) (x : Grants) : (p.setGrants x).trust = p.trust := rfl
@[simp] theorem Part.setGrants_grants (p : Part) (x : Grants) : (p.setGrants x).grants = x := rfl
@[simp] theorem Part.setGrants_fault (p : Part) (x : Grants) : (p.setGrants x).fault = p.fault := rfl
@[simp] theorem Part.setGrants_mgmt (p : Part) (x : Grants) : (p.setGrants x).mgmt = p.mgmt := rfl
@[simp] theorem Part.setGrants_ctl (p : Part) (x : Grants) : (p.setGrants x).ctl = p.ctl := rfl
@[simp] theorem Part.setGrants_link (p : Part) (x : Grants) (m : Socket) : (p.setGrants x).link m = p.link m := rfl
@[simp] theorem Part.setGrants_session (p : Part) (x : Grants) (m : Socket) : (p.setGrants x).session m = p.session m := rfl
@[simp] theorem Part.setGrants_settings (p : Part) (x : Grants) : (p.setGrants x).settings = p.settings := rfl

@[simp] theorem Part.setMgmt_power (p : Part) (x : Mgmt) : (p.setMgmt x).power = p.power := rfl
@[simp] theorem Part.setMgmt_clock (p : Part) (x : Mgmt) : (p.setMgmt x).clock = p.clock := rfl
@[simp] theorem Part.setMgmt_contacts (p : Part) (x : Mgmt) : (p.setMgmt x).contacts = p.contacts := rfl
@[simp] theorem Part.setMgmt_lockPin (p : Part) (x : Mgmt) : (p.setMgmt x).lockPin = p.lockPin := rfl
@[simp] theorem Part.setMgmt_links (p : Part) (x : Mgmt) : (p.setMgmt x).links = p.links := rfl
@[simp] theorem Part.setMgmt_tlp (p : Part) (x : Mgmt) : (p.setMgmt x).tlp = p.tlp := rfl
@[simp] theorem Part.setMgmt_classifier (p : Part) (x : Mgmt) : (p.setMgmt x).classifier = p.classifier := rfl
@[simp] theorem Part.setMgmt_engine (p : Part) (x : Mgmt) : (p.setMgmt x).engine = p.engine := rfl
@[simp] theorem Part.setMgmt_proof (p : Part) (x : Mgmt) : (p.setMgmt x).proof = p.proof := rfl
@[simp] theorem Part.setMgmt_trust (p : Part) (x : Mgmt) : (p.setMgmt x).trust = p.trust := rfl
@[simp] theorem Part.setMgmt_grants (p : Part) (x : Mgmt) : (p.setMgmt x).grants = p.grants := rfl
@[simp] theorem Part.setMgmt_fault (p : Part) (x : Mgmt) : (p.setMgmt x).fault = p.fault := rfl
@[simp] theorem Part.setMgmt_mgmt (p : Part) (x : Mgmt) : (p.setMgmt x).mgmt = x := rfl
@[simp] theorem Part.setMgmt_ctl (p : Part) (x : Mgmt) : (p.setMgmt x).ctl = p.ctl := rfl
@[simp] theorem Part.setMgmt_link (p : Part) (x : Mgmt) (m : Socket) : (p.setMgmt x).link m = p.link m := rfl
@[simp] theorem Part.setMgmt_session (p : Part) (x : Mgmt) (m : Socket) : (p.setMgmt x).session m = p.session m := rfl

@[simp] theorem Part.setCtl_power (p : Part) (x : StoreCtl) : (p.setCtl x).power = p.power := rfl
@[simp] theorem Part.setCtl_clock (p : Part) (x : StoreCtl) : (p.setCtl x).clock = p.clock := rfl
@[simp] theorem Part.setCtl_contacts (p : Part) (x : StoreCtl) : (p.setCtl x).contacts = p.contacts := rfl
@[simp] theorem Part.setCtl_lockPin (p : Part) (x : StoreCtl) : (p.setCtl x).lockPin = p.lockPin := rfl
@[simp] theorem Part.setCtl_links (p : Part) (x : StoreCtl) : (p.setCtl x).links = p.links := rfl
@[simp] theorem Part.setCtl_tlp (p : Part) (x : StoreCtl) : (p.setCtl x).tlp = p.tlp := rfl
@[simp] theorem Part.setCtl_classifier (p : Part) (x : StoreCtl) : (p.setCtl x).classifier = p.classifier := rfl
@[simp] theorem Part.setCtl_engine (p : Part) (x : StoreCtl) : (p.setCtl x).engine = p.engine := rfl
@[simp] theorem Part.setCtl_proof (p : Part) (x : StoreCtl) : (p.setCtl x).proof = p.proof := rfl
@[simp] theorem Part.setCtl_trust (p : Part) (x : StoreCtl) : (p.setCtl x).trust = p.trust := rfl
@[simp] theorem Part.setCtl_grants (p : Part) (x : StoreCtl) : (p.setCtl x).grants = p.grants := rfl
@[simp] theorem Part.setCtl_fault (p : Part) (x : StoreCtl) : (p.setCtl x).fault = p.fault := rfl
@[simp] theorem Part.setCtl_mgmt (p : Part) (x : StoreCtl) : (p.setCtl x).mgmt = p.mgmt := rfl
@[simp] theorem Part.setCtl_ctl (p : Part) (x : StoreCtl) : (p.setCtl x).ctl = x := rfl
@[simp] theorem Part.setCtl_link (p : Part) (x : StoreCtl) (m : Socket) : (p.setCtl x).link m = p.link m := rfl
@[simp] theorem Part.setCtl_session (p : Part) (x : StoreCtl) (m : Socket) : (p.setCtl x).session m = p.session m := rfl
@[simp] theorem Part.setCtl_settings (p : Part) (x : StoreCtl) : (p.setCtl x).settings = p.settings := rfl

@[simp] theorem Part.setClassifier_power (p : Part) (x : Classifier) : (p.setClassifier x).power = p.power := rfl
@[simp] theorem Part.setClassifier_clock (p : Part) (x : Classifier) : (p.setClassifier x).clock = p.clock := rfl
@[simp] theorem Part.setClassifier_contacts (p : Part) (x : Classifier) : (p.setClassifier x).contacts = p.contacts := rfl
@[simp] theorem Part.setClassifier_lockPin (p : Part) (x : Classifier) : (p.setClassifier x).lockPin = p.lockPin := rfl
@[simp] theorem Part.setClassifier_links (p : Part) (x : Classifier) : (p.setClassifier x).links = p.links := rfl
@[simp] theorem Part.setClassifier_tlp (p : Part) (x : Classifier) : (p.setClassifier x).tlp = p.tlp := rfl
@[simp] theorem Part.setClassifier_classifier (p : Part) (x : Classifier) : (p.setClassifier x).classifier = x := rfl
@[simp] theorem Part.setClassifier_engine (p : Part) (x : Classifier) : (p.setClassifier x).engine = p.engine := rfl
@[simp] theorem Part.setClassifier_proof (p : Part) (x : Classifier) : (p.setClassifier x).proof = p.proof := rfl
@[simp] theorem Part.setClassifier_trust (p : Part) (x : Classifier) : (p.setClassifier x).trust = p.trust := rfl
@[simp] theorem Part.setClassifier_grants (p : Part) (x : Classifier) : (p.setClassifier x).grants = p.grants := rfl
@[simp] theorem Part.setClassifier_fault (p : Part) (x : Classifier) : (p.setClassifier x).fault = p.fault := rfl
@[simp] theorem Part.setClassifier_mgmt (p : Part) (x : Classifier) : (p.setClassifier x).mgmt = p.mgmt := rfl
@[simp] theorem Part.setClassifier_ctl (p : Part) (x : Classifier) : (p.setClassifier x).ctl = p.ctl := rfl
@[simp] theorem Part.setClassifier_link (p : Part) (x : Classifier) (m : Socket) : (p.setClassifier x).link m = p.link m := rfl
@[simp] theorem Part.setClassifier_session (p : Part) (x : Classifier) (m : Socket) : (p.setClassifier x).session m = p.session m := rfl
@[simp] theorem Part.setClassifier_settings (p : Part) (x : Classifier) : (p.setClassifier x).settings = p.settings := rfl

@[simp] theorem Part.setTrust_power (p : Part) (x : Trust) : (p.setTrust x).power = p.power := rfl
@[simp] theorem Part.setTrust_clock (p : Part) (x : Trust) : (p.setTrust x).clock = p.clock := rfl
@[simp] theorem Part.setTrust_contacts (p : Part) (x : Trust) : (p.setTrust x).contacts = p.contacts := rfl
@[simp] theorem Part.setTrust_lockPin (p : Part) (x : Trust) : (p.setTrust x).lockPin = p.lockPin := rfl
@[simp] theorem Part.setTrust_links (p : Part) (x : Trust) : (p.setTrust x).links = p.links := rfl
@[simp] theorem Part.setTrust_tlp (p : Part) (x : Trust) : (p.setTrust x).tlp = p.tlp := rfl
@[simp] theorem Part.setTrust_classifier (p : Part) (x : Trust) : (p.setTrust x).classifier = p.classifier := rfl
@[simp] theorem Part.setTrust_engine (p : Part) (x : Trust) : (p.setTrust x).engine = p.engine := rfl
@[simp] theorem Part.setTrust_proof (p : Part) (x : Trust) : (p.setTrust x).proof = p.proof := rfl
@[simp] theorem Part.setTrust_trust (p : Part) (x : Trust) : (p.setTrust x).trust = x := rfl
@[simp] theorem Part.setTrust_grants (p : Part) (x : Trust) : (p.setTrust x).grants = p.grants := rfl
@[simp] theorem Part.setTrust_fault (p : Part) (x : Trust) : (p.setTrust x).fault = p.fault := rfl
@[simp] theorem Part.setTrust_mgmt (p : Part) (x : Trust) : (p.setTrust x).mgmt = p.mgmt := rfl
@[simp] theorem Part.setTrust_ctl (p : Part) (x : Trust) : (p.setTrust x).ctl = p.ctl := rfl
@[simp] theorem Part.setTrust_link (p : Part) (x : Trust) (m : Socket) : (p.setTrust x).link m = p.link m := rfl
@[simp] theorem Part.setTrust_session (p : Part) (x : Trust) (m : Socket) : (p.setTrust x).session m = p.session m := rfl
@[simp] theorem Part.setTrust_settings (p : Part) (x : Trust) : (p.setTrust x).settings = p.settings := rfl

@[simp] theorem Part.setAudit_power (p : Part) (x : Option Audit) : (p.setAudit x).power = p.power := rfl
@[simp] theorem Part.setAudit_clock (p : Part) (x : Option Audit) : (p.setAudit x).clock = p.clock := rfl
@[simp] theorem Part.setAudit_contacts (p : Part) (x : Option Audit) : (p.setAudit x).contacts = p.contacts := rfl
@[simp] theorem Part.setAudit_lockPin (p : Part) (x : Option Audit) : (p.setAudit x).lockPin = p.lockPin := rfl
@[simp] theorem Part.setAudit_links (p : Part) (x : Option Audit) : (p.setAudit x).links = p.links := rfl
@[simp] theorem Part.setAudit_tlp (p : Part) (x : Option Audit) : (p.setAudit x).tlp = p.tlp := rfl
@[simp] theorem Part.setAudit_classifier (p : Part) (x : Option Audit) : (p.setAudit x).classifier = p.classifier := rfl
@[simp] theorem Part.setAudit_engine (p : Part) (x : Option Audit) : (p.setAudit x).engine = { p.engine with audit := x } := rfl
@[simp] theorem Part.setAudit_proof (p : Part) (x : Option Audit) : (p.setAudit x).proof = p.proof := rfl
@[simp] theorem Part.setAudit_trust (p : Part) (x : Option Audit) : (p.setAudit x).trust = p.trust := rfl
@[simp] theorem Part.setAudit_grants (p : Part) (x : Option Audit) : (p.setAudit x).grants = p.grants := rfl
@[simp] theorem Part.setAudit_fault (p : Part) (x : Option Audit) : (p.setAudit x).fault = p.fault := rfl
@[simp] theorem Part.setAudit_mgmt (p : Part) (x : Option Audit) : (p.setAudit x).mgmt = p.mgmt := rfl
@[simp] theorem Part.setAudit_ctl (p : Part) (x : Option Audit) : (p.setAudit x).ctl = p.ctl := rfl
@[simp] theorem Part.setAudit_link (p : Part) (x : Option Audit) (m : Socket) : (p.setAudit x).link m = p.link m := rfl
@[simp] theorem Part.setAudit_session (p : Part) (x : Option Audit) (m : Socket) : (p.setAudit x).session m = p.session m := rfl
@[simp] theorem Part.setAudit_settings (p : Part) (x : Option Audit) : (p.setAudit x).settings = p.settings := rfl

@[simp] theorem Part.setRecent_power (p : Part) (x : List (Word × Nat)) : (p.setRecent x).power = p.power := rfl
@[simp] theorem Part.setRecent_clock (p : Part) (x : List (Word × Nat)) : (p.setRecent x).clock = p.clock := rfl
@[simp] theorem Part.setRecent_contacts (p : Part) (x : List (Word × Nat)) : (p.setRecent x).contacts = p.contacts := rfl
@[simp] theorem Part.setRecent_lockPin (p : Part) (x : List (Word × Nat)) : (p.setRecent x).lockPin = p.lockPin := rfl
@[simp] theorem Part.setRecent_links (p : Part) (x : List (Word × Nat)) : (p.setRecent x).links = p.links := rfl
@[simp] theorem Part.setRecent_tlp (p : Part) (x : List (Word × Nat)) : (p.setRecent x).tlp = p.tlp := rfl
@[simp] theorem Part.setRecent_classifier (p : Part) (x : List (Word × Nat)) : (p.setRecent x).classifier = p.classifier := rfl
@[simp] theorem Part.setRecent_engine (p : Part) (x : List (Word × Nat)) : (p.setRecent x).engine = { p.engine with recent := x } := rfl
@[simp] theorem Part.setRecent_proof (p : Part) (x : List (Word × Nat)) : (p.setRecent x).proof = p.proof := rfl
@[simp] theorem Part.setRecent_trust (p : Part) (x : List (Word × Nat)) : (p.setRecent x).trust = p.trust := rfl
@[simp] theorem Part.setRecent_grants (p : Part) (x : List (Word × Nat)) : (p.setRecent x).grants = p.grants := rfl
@[simp] theorem Part.setRecent_fault (p : Part) (x : List (Word × Nat)) : (p.setRecent x).fault = p.fault := rfl
@[simp] theorem Part.setRecent_mgmt (p : Part) (x : List (Word × Nat)) : (p.setRecent x).mgmt = p.mgmt := rfl
@[simp] theorem Part.setRecent_ctl (p : Part) (x : List (Word × Nat)) : (p.setRecent x).ctl = p.ctl := rfl
@[simp] theorem Part.setRecent_link (p : Part) (x : List (Word × Nat)) (m : Socket) : (p.setRecent x).link m = p.link m := rfl
@[simp] theorem Part.setRecent_session (p : Part) (x : List (Word × Nat)) (m : Socket) : (p.setRecent x).session m = p.session m := rfl
@[simp] theorem Part.setRecent_settings (p : Part) (x : List (Word × Nat)) : (p.setRecent x).settings = p.settings := rfl

theorem Part.setLink_link (p : Part) (n m : Socket) (x : Link) :
    (p.setLink n x).link m = if m = n then x else p.link m := PerSocket.get_set p.links n m x

@[simp] theorem Part.setLink_link_self (p : Part) (n : Socket) (x : Link) : (p.setLink n x).link n = x :=
  PerSocket.get_set_self p.links n x

theorem Part.setSession_session (p : Part) (n m : Socket) (x : Session) :
    (p.setSession n x).session m = if m = n then x else p.session m := PerSocket.get_set p.engine.sessions n m x

@[simp] theorem Part.setSession_session_self (p : Part) (n : Socket) (x : Session) : (p.setSession n x).session n = x :=
  PerSocket.get_set_self p.engine.sessions n x

@[simp] theorem Part.setMgmt_settings (p : Part) (x : Mgmt) : (p.setMgmt x).settings = x.settings := rfl

end Sys2Proof.Machine
end

