-- ==== Sys2Proof/Laws/Shares.lean ====
section
/-! SUPPORT. Apportionment (R139): the shares sum to the tool grant and none exceeds its string grant. -/

namespace Sys2Proof.Machine

/-- Every share of a list of grants and shares is at most its grant. -/
def SharesFit (xs : List (Nat × Nat)) : Prop := ∀ e ∈ xs, e.2 ≤ e.1

/-- The sum of the grants. -/
def grantSum (xs : List (Nat × Nat)) : Nat := (xs.map Prod.fst).sum

/-- The sum of the shares. -/
def shareSum (xs : List (Nat × Nat)) : Nat := (xs.map Prod.snd).sum

theorem shareSum_le (xs : List (Nat × Nat)) (h : SharesFit xs) : shareSum xs ≤ grantSum xs := by
  induction xs with
  | nil => simp [shareSum, grantSum]
  | cons e xs ih =>
    have h1 := h e (List.mem_cons_self ..)
    have h2 := ih fun e' he => h e' (List.mem_cons_of_mem _ he)
    simp only [shareSum, grantSum, List.map_cons, List.sum_cons] at *
    omega

/-- What one pass does: nothing is lost, the grants stay, shares stay within their grants, and a step is handed out while
there is a remainder and room. -/
theorem handOutPass_spec (xs : List (Nat × Nat)) (rem : Nat) (h : SharesFit xs) :
    (handOutPass rem xs).1 + shareSum (handOutPass rem xs).2 = rem + shareSum xs ∧
    (handOutPass rem xs).2.map Prod.fst = xs.map Prod.fst ∧
    SharesFit (handOutPass rem xs).2 ∧ (handOutPass rem xs).1 ≤ rem ∧
    (0 < rem → shareSum xs < grantSum xs → (handOutPass rem xs).1 < rem) := by
  induction xs generalizing rem with
  | nil => simp [handOutPass, shareSum, grantSum, SharesFit]
  | cons e xs ih =>
    obtain ⟨s, sh⟩ := e
    have hfit : SharesFit xs := fun e' he => h e' (List.mem_cons_of_mem _ he)
    have hle : sh ≤ s := h (s, sh) (List.mem_cons_self ..)
    simp only [handOutPass]
    split
    · rename_i hc
      simp only [Bool.and_eq_true, decide_eq_true_eq] at hc
      obtain ⟨i1, i2, i3, i4, _⟩ := ih (rem - 1) hfit
      refine ⟨?_, ?_, ?_, ?_, ?_⟩
      · simp only [shareSum, List.map_cons, List.sum_cons] at *
        omega
      · simp only [List.map_cons, i2]
      · intro e he
        rcases List.mem_cons.1 he with rfl | he
        · show sh + 1 ≤ s; omega
        · exact i3 e he
      · simp only; omega
      · intro _ _; simp only; omega
    · rename_i hc
      simp only [Bool.and_eq_true, decide_eq_true_eq, not_and, not_lt] at hc
      obtain ⟨i1, i2, i3, i4, i5⟩ := ih rem hfit
      refine ⟨?_, ?_, ?_, i4, ?_⟩
      · simp only [shareSum, List.map_cons, List.sum_cons] at *
        omega
      · simp only [List.map_cons, i2]
      · intro e he
        rcases List.mem_cons.1 he with rfl | he
        · exact hle
        · exact i3 e he
      · intro hr hroom
        apply i5 hr
        have := hc hr
        simp only [shareSum, grantSum, List.map_cons, List.sum_cons] at *
        omega

/-- Handing out the whole remainder when there is room for it. -/
theorem handOut_spec (fuel rem : Nat) (xs : List (Nat × Nat)) (h : SharesFit xs) (hf : rem ≤ fuel)
    (hroom : rem + shareSum xs ≤ grantSum xs) :
    shareSum (handOut fuel rem xs) = rem + shareSum xs ∧
    (handOut fuel rem xs).map Prod.fst = xs.map Prod.fst ∧ SharesFit (handOut fuel rem xs) := by
  induction fuel generalizing rem xs with
  | zero =>
    have : rem = 0 := by omega
    subst this
    exact ⟨by simp [handOut], rfl, h⟩
  | succ fuel ih =>
    simp only [handOut]
    split
    · rename_i h0; subst h0; exact ⟨by simp, rfl, h⟩
    · rename_i h0
      obtain ⟨p1, p2, p3, p4, p5⟩ := handOutPass_spec xs rem h
      have hg : grantSum (handOutPass rem xs).2 = grantSum xs := by simp only [grantSum, p2]
      have hlt := p5 (by omega) (by omega)
      obtain ⟨q1, q2, q3⟩ := ih (handOutPass rem xs).1 (handOutPass rem xs).2 p3 (by omega) (by omega)
      exact ⟨by omega, q2.trans p2, q3⟩

theorem firstShare_sum_le (c sum : Nat) (ss : List Nat) : (ss.map (firstShare c sum)).sum ≤ ss.sum * c / sum := by
  induction ss with
  | nil => simp
  | cons s ss ih =>
    simp only [List.map_cons, List.sum_cons, firstShare, Nat.add_mul] at *
    exact le_trans (Nat.add_le_add_left ih _) Nat.div_add_div_le_add_div

theorem zip_fst (ss : List Nat) (f : Nat → Nat) : (ss.zip (ss.map f)).map Prod.fst = ss := by
  induction ss with
  | nil => rfl
  | cons s ss ih => simp [ih]

theorem zip_snd (ss : List Nat) (f : Nat → Nat) : (ss.zip (ss.map f)).map Prod.snd = ss.map f := by
  induction ss with
  | nil => rfl
  | cons s ss ih => simp [ih]

theorem zip_fit (ss : List Nat) (f : Nat → Nat) (h : ∀ s, f s ≤ s) : SharesFit (ss.zip (ss.map f)) := by
  induction ss with
  | nil => intro e he; exact absurd he (by simp)
  | cons s ss ih =>
    intro e he
    simp only [List.map_cons, List.zip_cons_cons, List.mem_cons] at he
    rcases he with rfl | he
    · exact h s
    · exact ih e he

/-- A list of grants paired with the shares handed out of them. -/
theorem apportion_pairs (c : Nat) (ss : List Nat) :
    ∃ xs : List (Nat × Nat), SharesFit xs ∧ xs.map Prod.fst = ss ∧ xs.map Prod.snd = apportion c ss ∧
      shareSum xs = min c ss.sum := by
  unfold apportion
  split
  · rename_i h
    refine ⟨ss.zip (ss.map id), zip_fit ss id fun s => le_rfl, zip_fst ss id, ?_, ?_⟩
    · rw [zip_snd]; simp
    · simp only [shareSum, zip_snd]; simp [Nat.min_eq_right h]
  · rename_i h
    have hc : c < ss.sum := by omega
    have hfs : ∀ s, firstShare c ss.sum s ≤ s := by
      intro s
      unfold firstShare
      apply Nat.div_le_of_le_mul
      calc s * c ≤ s * ss.sum := Nat.mul_le_mul_left s (by omega)
        _ = ss.sum * s := Nat.mul_comm _ _
    have hsum : (ss.map (firstShare c ss.sum)).sum ≤ c := by
      refine le_trans (firstShare_sum_le c ss.sum ss) ?_
      rw [Nat.mul_comm, Nat.mul_div_cancel _ (by omega)]
    have hfit := zip_fit ss (firstShare c ss.sum) hfs
    have hS : shareSum (ss.zip (ss.map (firstShare c ss.sum))) = (ss.map (firstShare c ss.sum)).sum := by
      simp only [shareSum, zip_snd]
    have hG : grantSum (ss.zip (ss.map (firstShare c ss.sum))) = ss.sum := by simp only [grantSum, zip_fst]
    obtain ⟨q1, q2, q3⟩ := handOut_spec (c - (ss.map (firstShare c ss.sum)).sum)
      (c - (ss.map (firstShare c ss.sum)).sum) (ss.zip (ss.map (firstShare c ss.sum))) hfit le_rfl (by omega)
    exact ⟨_, q3, by rw [q2, zip_fst], rfl, by omega⟩

/-- The shares sum to exactly the tool grant (R139). -/
theorem apportion_sum (c : Nat) (ss : List Nat) : (apportion c ss).sum = min c ss.sum := by
  obtain ⟨xs, _, _, h3, h4⟩ := apportion_pairs c ss
  rw [← h3]; exact h4

/-- One share for each string. -/
theorem apportion_length (c : Nat) (ss : List Nat) : (apportion c ss).length = ss.length := by
  obtain ⟨xs, _, h2, h3, _⟩ := apportion_pairs c ss
  rw [← h3, ← h2]; simp

/-- No share exceeds its string grant (R139). -/
theorem apportion_le (c : Nat) (ss : List Nat) (i : Nat) : (apportion c ss).getD i 0 ≤ ss.getD i 0 := by
  obtain ⟨xs, h1, h2, h3, _⟩ := apportion_pairs c ss
  rw [← h3, ← h2]
  simp only [List.getD_eq_getElem?_getD, List.getElem?_map]
  cases h : xs[i]? with
  | none => simp
  | some e => simpa using h1 e (List.mem_of_getElem? h)

end Sys2Proof.Machine
end

