-- ==== Sys2Proof/Laws/Ordinary.lean ====
section
/-! SUPPORT. What an ordinary event inside the part leaves alone and what it keeps: the relations `Plain` and `Ordinary`
between the part before and after, and the lemmas for single replacements. -/

namespace Sys2Proof.Machine

/-- What every block's ordinary action leaves alone, and the bounds it keeps. -/
structure Part.Plain (p q : Part) : Prop where
  clock : q.clock = p.clock
  power : q.power = p.power
  contacts : q.contacts = p.contacts
  lockPin : q.lockPin = p.lockPin
  trust : q.trust = p.trust
  map : q.fault.map = p.fault.map
  parked : q.mgmt.parked = p.mgmt.parked
  settings : q.mgmt.settings = p.mgmt.settings
  loading : q.ctl.loading = p.ctl.loading
  logPos : q.ctl.logPos = p.ctl.logPos
  storedSettings : q.ctl.storedSettings = p.ctl.storedSettings
  storedMap : q.ctl.storedMap = p.ctl.storedMap
  permits : p.PermitsRight → q.PermitsRight
  lanes : p.LanesFit → q.LanesFit
  links : ∀ n, p.LinkSound n → q.LinkSound n
  grants : p.GrantsSound → q.GrantsSound
  recent : p.RecentFit → q.RecentFit
  jobs : p.JobsFit → q.JobsFit

/-- The exhaustion cause holds what the counter says (R109). -/
def Part.ExhaustedRight (p : Part) : Prop := p.fault.causes.exhausted = (p.proof.counter == 0xFFFFFFFF)

/-- An ordinary action that also keeps the conditions right and the causes that follow an input, a table or the counter. -/
structure Part.Ordinary (p q : Part) : Prop extends Part.Plain p q where
  conds : p.CondsRight → q.CondsRight
  lockCause : q.fault.causes.lock = p.fault.causes.lock
  keyCause : q.fault.causes.noUsableKey = p.fault.causes.noUsableKey
  exhausted : p.ExhaustedRight → q.ExhaustedRight

/-- An ordinary action keeps the causes right. -/
theorem Part.Ordinary.causes {p q : Part} (h : p.Ordinary q) (k : p.CausesRight) : q.CausesRight :=
  ⟨by rw [h.lockCause, h.lockPin]; exact k.1, by rw [h.keyCause, h.trust]; exact k.2.1, h.exhausted k.2.2⟩

theorem Part.Plain.refl (p : Part) : p.Plain p :=
  ⟨rfl, rfl, rfl, rfl, rfl, rfl, rfl, rfl, rfl, rfl, rfl, rfl, id, id, fun _ => id, id, id, id⟩

theorem Part.Plain.trans {p q r : Part} (h : p.Plain q) (k : q.Plain r) : p.Plain r :=
  ⟨k.clock.trans h.clock, k.power.trans h.power, k.contacts.trans h.contacts, k.lockPin.trans h.lockPin,
   k.trust.trans h.trust, k.map.trans h.map, k.parked.trans h.parked, k.settings.trans h.settings,
   k.loading.trans h.loading, k.logPos.trans h.logPos, k.storedSettings.trans h.storedSettings,
   k.storedMap.trans h.storedMap, k.permits ∘ h.permits, k.lanes ∘ h.lanes, fun n hn => k.links n (h.links n hn), k.grants ∘ h.grants,
   k.recent ∘ h.recent, k.jobs ∘ h.jobs⟩

theorem Part.Ordinary.refl (p : Part) : p.Ordinary p := ⟨.refl p, id, rfl, rfl, id⟩

theorem Part.Ordinary.trans {p q r : Part} (h : p.Ordinary q) (k : q.Ordinary r) : p.Ordinary r :=
  ⟨h.toPlain.trans k.toPlain, k.conds ∘ h.conds, k.lockCause.trans h.lockCause,
   k.keyCause.trans h.keyCause, k.exhausted ∘ h.exhausted⟩

/-- An action that leaves conditions, causes and the counter alone is ordinary. -/
theorem Part.Plain.ordinary {p q : Part} (h : p.Plain q) (hc : q.fault.conds = p.fault.conds)
    (hk : q.fault.causes = p.fault.causes) (hn : q.proof.counter = p.proof.counter) : p.Ordinary q :=
  ⟨h, fun hp hl c => by rw [hc, hk]; exact hp (h.loading ▸ hl) c,
   by rw [hk], by rw [hk], fun hp => by unfold Part.ExhaustedRight at *; rw [hk, hn]; exact hp⟩

/-! ## Single replacements -/

theorem Part.permitsRight_congr {p q : Part} (hf : q.fault = p.fault) (hg : q.grants.shares = p.grants.shares)
    (hs : q.mgmt.settings = p.mgmt.settings) (hp : q.mgmt.parked = p.mgmt.parked) (hl : q.ctl.loading = p.ctl.loading)
    (h : p.PermitsRight) : q.PermitsRight := by
  intro n
  have hsh : q.shareOf n = p.shareOf n := by
    simp only [Part.shareOf, Part.paired, Part.settings, hg, hs]
  have hm : q.masked n = p.masked n := by simp only [Part.masked, hf]
  rw [hf, h n]
  simp only [Part.permitDue, hsh, hm, hp, hl]

theorem Part.grantsSound_congr {p q : Part} (hg : q.grants.shares = p.grants.shares)
    (ht : q.grants.toolGrant = p.grants.toolGrant) (hst : q.grants.strings = p.grants.strings)
    (hpu : q.grants.published = p.grants.published) (hs : q.mgmt.settings = p.mgmt.settings) (h : p.GrantsSound) :
    q.GrantsSound := by
  unfold Part.GrantsSound at *
  simp only [Part.shareOf, Part.paired, Part.settings] at *
  rw [hg, ht, hst, hpu, hs]; exact h

/-- A session record replaced. -/
theorem Part.setSession_ordinary (p : Part) (n : Socket) (x : Session) : p.Ordinary (p.setSession n x) :=
  Part.Plain.ordinary ⟨rfl, rfl, rfl, rfl, rfl, rfl, rfl, rfl, rfl, rfl, rfl, rfl, id, id, fun _ => id, id, id, id⟩ rfl rfl rfl

/-- The audit replaced. -/
theorem Part.setAudit_ordinary (p : Part) (x : Option Audit) : p.Ordinary (p.setAudit x) :=
  Part.Plain.ordinary ⟨rfl, rfl, rfl, rfl, rfl, rfl, rfl, rfl, rfl, rfl, rfl, rfl, id, id, fun _ => id, id, id, id⟩ rfl rfl rfl

/-- The recent-refusal table replaced by one that fits. -/
theorem Part.setRecent_ordinary (p : Part) (x : List (Word × Nat)) (h : p.RecentFit → (p.setRecent x).RecentFit) :
    p.Ordinary (p.setRecent x) :=
  Part.Plain.ordinary ⟨rfl, rfl, rfl, rfl, rfl, rfl, rfl, rfl, rfl, rfl, rfl, rfl, id, id, fun _ => id, id, h, id⟩ rfl rfl rfl

/-- The classifier replaced. -/
theorem Part.setClassifier_ordinary (p : Part) (x : Classifier) : p.Ordinary (p.setClassifier x) :=
  Part.Plain.ordinary ⟨rfl, rfl, rfl, rfl, rfl, rfl, rfl, rfl, rfl, rfl, rfl, rfl, id, id, fun _ => id, id, id, id⟩ rfl rfl rfl

/-- The tool link port replaced by one whose lanes fit. -/
theorem Part.setTlp_ordinary (p : Part) (x : Tlp) (h : p.LanesFit → (p.setTlp x).LanesFit) : p.Ordinary (p.setTlp x) :=
  Part.Plain.ordinary ⟨rfl, rfl, rfl, rfl, rfl, rfl, rfl, rfl, rfl, rfl, rfl, rfl, id, h, fun _ => id, id, id, id⟩ rfl rfl rfl

/-- The tool link port replaced with its lanes, its response slot and its transmitter unchanged. -/
theorem Part.setTlp_ordinary' (p : Part) (x : Tlp) (h0 : x.lane0 = p.tlp.lane0) (h1 : x.lane1 = p.tlp.lane1)
    (h2 : x.lane2 = p.tlp.lane2) (h3 : x.sending = p.tlp.sending) (h4 : x.response = p.tlp.response) :
    p.Ordinary (p.setTlp x) :=
  p.setTlp_ordinary x fun h => by simpa only [Part.LanesFit, Part.setTlp_tlp, h0, h1, h2, h3, h4] using h

/-- A link replaced by one that is sound, and whose drop timer runs only as it may. -/
theorem Part.setLink_ordinary_of (p : Part) (n : Socket) (x : Link) (h : p.LinkSound n → (p.setLink n x).LinkSound n) :
    p.Ordinary (p.setLink n x) :=
  Part.Plain.ordinary ⟨rfl, rfl, rfl, rfl, rfl, rfl, rfl, rfl, rfl, rfl, rfl, rfl, id, id,
    fun m hs => by
      by_cases hm : m = n
      · subst hm; exact h hs
      · unfold Part.LinkSound at *; rw [Part.setLink_link, if_neg hm]; exact hs,
    id, id, id⟩ rfl rfl rfl

/-- A link replaced by a sound one whose drop timer runs only if it ran before. -/
theorem Part.setLink_ordinary (p : Part) (n : Socket) (x : Link)
    (h : (p.link n).Sound → x.Sound ∧ (x.drop.isSome = true → (p.link n).drop.isSome = true)) :
    p.Ordinary (p.setLink n x) :=
  p.setLink_ordinary_of n x fun hs => by
    refine ⟨?_, fun hd => ?_⟩
    · rw [Part.setLink_link, if_pos rfl]; exact (h hs.1).1
    · rw [Part.setLink_link, if_pos rfl] at hd
      exact hs.2 ((h hs.1).2 hd)

/-- The management unit replaced with the part state and the settings unchanged. -/
theorem Part.setMgmt_ordinary (p : Part) (x : Mgmt) (h : x.parked = p.mgmt.parked)
    (hs : x.settings = p.mgmt.settings) : p.Ordinary (p.setMgmt x) :=
  Part.Plain.ordinary ⟨rfl, rfl, rfl, rfl, rfl, rfl, h, hs, rfl, rfl, rfl, rfl,
    Part.permitsRight_congr rfl rfl hs h rfl, id, fun _ => id, Part.grantsSound_congr rfl rfl rfl rfl hs, id, id⟩ rfl rfl rfl

/-- The proof unit replaced with the counter unchanged. -/
theorem Part.setProof_ordinary (p : Part) (x : ProofUnit) (h : x.counter = p.proof.counter) :
    p.Ordinary (p.setProof x) :=
  Part.Plain.ordinary ⟨rfl, rfl, rfl, rfl, rfl, rfl, rfl, rfl, rfl, rfl, rfl, rfl, id, id, fun _ => id, id, id, id⟩ rfl rfl h

/-- The proof unit replaced. -/
theorem Part.setProof_plain (p : Part) (x : ProofUnit) : p.Plain (p.setProof x) :=
  ⟨rfl, rfl, rfl, rfl, rfl, rfl, rfl, rfl, rfl, rfl, rfl, rfl, id, id, fun _ => id, id, id, id⟩

/-- The store controller's queue replaced by one that fits. -/
theorem Part.setCtl_ordinary (p : Part) (x : StoreCtl) (hl : x.loading = p.ctl.loading) (hp : x.logPos = p.ctl.logPos)
    (hs : x.storedSettings = p.ctl.storedSettings) (hm : x.storedMap = p.ctl.storedMap)
    (h : p.JobsFit → (p.setCtl x).JobsFit) : p.Ordinary (p.setCtl x) :=
  Part.Plain.ordinary ⟨rfl, rfl, rfl, rfl, rfl, rfl, rfl, rfl, hl, hp, hs, hm,
    Part.permitsRight_congr rfl rfl rfl rfl hl, id, fun _ hs => ⟨hs.1, fun hd => ⟨(hs.2 hd).1, hl.trans (hs.2 hd).2⟩⟩, id, id, h⟩ rfl rfl rfl

/-- The grant calculator replaced with strings, shares, tool grant and published allowances unchanged. -/
theorem Part.setGrants_ordinary (p : Part) (x : Grants) (h1 : x.shares = p.grants.shares)
    (h2 : x.toolGrant = p.grants.toolGrant) (h3 : x.strings = p.grants.strings)
    (h4 : x.published = p.grants.published) : p.Ordinary (p.setGrants x) :=
  Part.Plain.ordinary ⟨rfl, rfl, rfl, rfl, rfl, rfl, rfl, rfl, rfl, rfl, rfl, rfl,
    Part.permitsRight_congr rfl h1 rfl rfl rfl, id, fun _ => id, Part.grantsSound_congr h1 h2 h3 h4 rfl, id, id⟩ rfl rfl rfl

theorem Part.setStale_ordinary (p : Part) (n : Socket) (b : Bool) : p.Ordinary (p.setStale n b) :=
  p.setGrants_ordinary _ rfl rfl rfl rfl

theorem Part.setOverdraw_ordinary (p : Part) (t : Option Nat) : p.Ordinary (p.setOverdraw t) :=
  p.setGrants_ordinary _ rfl rfl rfl rfl

theorem Part.startAggregateTimer_ordinary (p : Part) : p.Ordinary p.startAggregateTimer :=
  p.setGrants_ordinary _ rfl rfl rfl rfl

theorem Part.setDecim_ordinary (p : Part) (n : Socket) (v : Nat) : p.Ordinary (p.setDecim n v) :=
  p.setClassifier_ordinary _

theorem Part.clearDecim_ordinary (p : Part) : p.Ordinary p.clearDecim := p.setClassifier_ordinary _

/-- An effect taken for every socket is ordinary if it is ordinary for one. -/
theorem forSockets_ordinary (f : Socket → Part → Part) (h : ∀ n p, Part.Ordinary p (f n p)) (p : Part) :
    p.Ordinary (forSockets f p) :=
  ((((h 0 p).trans (h 1 _)).trans (h 2 _)).trans (h 3 _))

/-! ## The transmitter and the lanes -/

/-- The port replaced by one whose lanes are within their capacities, and the idle transmitter's choice from it (R49). -/
theorem Part.setTlp_transmit_ordinary (p : Part) (x : Tlp)
    (h : p.LanesFit → x.lane0.length ≤ 8 ∧ x.lane1.length ≤ 16 ∧ x.lane2.length ≤ 16) :
    p.Ordinary (p.setTlp x).transmit := by
  unfold Part.transmit
  simp only [Part.setTlp_tlp]
  split
  · rename_i g hg
    exact p.setTlp_ordinary x fun k => ⟨(h k).1, (h k).2.1, (h k).2.2, fun hn => (by
      simp only [Part.setTlp_tlp] at hn; rw [hg] at hn; cases hn)⟩
  · rename_i hg
    split
    · refine Part.Ordinary.trans ?_ (Part.setMgmt_ordinary _ _ rfl rfl)
      exact p.setTlp_ordinary _ fun k => ⟨(h k).1, (h k).2.1, (h k).2.2, fun hn => (by cases hn)⟩
    · rename_i hr
      split
      · rename_i h0
        exact p.setTlp_ordinary _ fun k => by
          have := h k
          rw [h0, List.length_cons] at this
          exact ⟨by simp only [Part.setTlp_tlp]; omega, this.2.1, this.2.2, fun hn => (by cases hn)⟩
      · rename_i h1
        exact p.setTlp_ordinary _ fun k => by
          have := h k
          rw [h1, List.length_cons] at this
          exact ⟨this.1, by simp only [Part.setTlp_tlp]; omega, this.2.2, fun hn => (by cases hn)⟩
      · rename_i h2
        exact p.setTlp_ordinary _ fun k => by
          have := h k
          rw [h2, List.length_cons] at this
          exact ⟨this.1, this.2.1, by simp only [Part.setTlp_tlp]; omega, fun hn => (by cases hn)⟩
      · rename_i h0 h1 h2
        exact p.setTlp_ordinary _ fun k => ⟨(h k).1, (h k).2.1, (h k).2.2, fun _ => ⟨hr, h0, h1, h2⟩⟩

theorem Part.transmit_ordinary (p : Part) : p.Ordinary p.transmit :=
  p.setTlp_transmit_ordinary p.tlp fun h => ⟨h.1, h.2.1, h.2.2.1⟩

/-- A lane after a placing holds no more than its capacity (R45, R46). -/
theorem laneInsert_length (cap : Nat) (f : Frame) (l : List Frame) (h : l.length ≤ cap) :
    (laneInsert cap f l).length ≤ cap := by
  unfold laneInsert
  split
  · simp; omega
  · split
    · rename_i h1 h2
      simp only [List.length_append, List.length_singleton]
      rw [List.any_eq_true] at h2
      obtain ⟨g, hg, hs⟩ := h2
      have h3 := List.length_eraseP_of_mem hg hs
      have : 0 < l.length := List.length_pos_of_mem hg
      omega
    · exact h

theorem Part.place_ordinary (p : Part) (k : Lane) (f : Frame) : p.Ordinary (p.place k f) := by
  refine p.setTlp_transmit_ordinary _ fun h => ?_
  unfold Part.LanesFit at h
  cases k with
  | l0 => exact ⟨laneInsert_length 8 f _ h.1, h.2.1, h.2.2.1⟩
  | l1 => exact ⟨h.1, laneInsert_length 16 f _ h.2.1, h.2.2.1⟩
  | l2 => exact ⟨h.1, h.2.1, laneInsert_length 16 f _ h.2.2.1⟩

theorem Part.placeAggregate_ordinary (p : Part) (f : Frame) : p.Ordinary (p.placeAggregate f) := by
  refine p.setTlp_transmit_ordinary _ fun h => ?_
  exact ⟨laneInsert_length 8 f _ (le_trans (List.length_filter_le _ _) h.1), h.2.1, h.2.2.1⟩

theorem Part.sendAggregate_ordinary (p : Part) : p.Ordinary p.sendAggregate := p.placeAggregate_ordinary _

theorem Part.respond_ordinary (p : Part) (code : Byte) (o : ReqOutcome) (ws : List Word) :
    p.Ordinary (p.respond code o ws) := by
  have h1 := p.setMgmt_ordinary p.mgmt.toWaiting rfl rfl
  refine h1.trans ?_
  exact (p.setMgmt p.mgmt.toWaiting).setTlp_transmit_ordinary
    { p.tlp with response := some (response code o ws) } fun h => ⟨h.1, h.2.1, h.2.2.1⟩

theorem Part.complete_ordinary (p : Part) (code : Byte) (o : ReqOutcome) (ws : List Word) :
    p.Ordinary (p.complete code o ws) := by
  unfold Part.complete
  split
  · exact p.respond_ordinary code o ws
  · exact .refl p

theorem Part.refuseWith_ordinary (p : Part) (code : Byte) (o : ReqOutcome) : p.Ordinary (p.refuseWith code o) :=
  p.respond_ordinary code o []

theorem Part.busy_ordinary (p : Part) (code : Byte) : p.Ordinary (p.busy code) := p.place_ordinary _ _

/-! ## The job queue -/

theorem StoreCtl.start_loading (c : StoreCtl) : c.start.loading = c.loading := by
  unfold StoreCtl.start; split <;> rfl

theorem StoreCtl.start_logPos (c : StoreCtl) : c.start.logPos = c.logPos := by
  unfold StoreCtl.start; split <;> rfl

theorem StoreCtl.start_storedSettings (c : StoreCtl) : c.start.storedSettings = c.storedSettings := by
  unfold StoreCtl.start; split <;> rfl

theorem StoreCtl.start_storedMap (c : StoreCtl) : c.start.storedMap = c.storedMap := by
  unfold StoreCtl.start; split <;> rfl

/-- Starting the oldest job changes the jobs' places, not the jobs. -/
theorem StoreCtl.start_jobs (c : StoreCtl) : c.start.jobs = c.jobs := by
  unfold StoreCtl.start
  split
  · rename_i h1 h2; simp [StoreCtl.jobs, h1, h2]
  · rfl
  · rfl

theorem StoreCtl.start_logs (c : StoreCtl) : c.start.queue.countP Job.isLog ≤ c.queue.countP Job.isLog := by
  unfold StoreCtl.start
  split
  · rename_i h1 h2
    simp only [h2, List.countP_cons]
    omega
  · exact le_rfl
  · exact le_rfl

/-- A job queued, when the queue still fits. -/
theorem Part.queueJob_ordinary (p : Part) (j : Job)
    (hl : p.JobsFit → j.isLog = true → p.ctl.queue.countP Job.isLog < 16)
    (hw : p.JobsFit → j.isWatermark = true → p.ctl.jobs.countP Job.isWatermark = 0) : p.Ordinary (p.queueJob j) := by
  unfold Part.queueJob
  refine p.setCtl_ordinary _ (StoreCtl.start_loading _) (StoreCtl.start_logPos _) (StoreCtl.start_storedSettings _)
    (StoreCtl.start_storedMap _) fun h => ?_
  have hl' := hl h
  have hw' := hw h
  unfold Part.JobsFit at h ⊢
  simp only [Part.setCtl_ctl]
  refine ⟨le_trans (StoreCtl.start_logs _) ?_, ?_⟩
  · simp only [List.countP_append, List.countP_singleton]
    split
    · rename_i hj; have := hl' hj; omega
    · omega
  · rw [StoreCtl.start_jobs]
    simp only [StoreCtl.jobs, List.countP_append, List.countP_singleton] at *
    split
    · rename_i hj; have := hw' hj; omega
    · omega

theorem Part.log_ordinary (p : Part) (e : LogEntry) : p.Ordinary (p.log e) := by
  unfold Part.log
  split
  · rename_i h
    exact p.queueJob_ordinary _ (fun _ _ => h) (fun _ hj => absurd hj (by simp [Job.isWatermark]))
  · exact .refl p

theorem Part.tableJob_ordinary (p : Part) (j : TableJob) : p.Ordinary (p.queueJob (.table j)) :=
  p.queueJob_ordinary _ (fun _ hj => absurd hj (by simp [Job.isLog])) (fun _ hj => absurd hj (by simp [Job.isWatermark]))

/-- Whether a watermark job is queued or in progress, as a count. -/
theorem StoreCtl.noWatermark (c : StoreCtl) (h1 : c.watermarkInProgress = false) (h2 : c.watermarkQueued = false) :
    c.jobs.countP Job.isWatermark = 0 := by
  rw [List.countP_eq_zero]
  intro j hj
  simp only [StoreCtl.jobs, List.mem_append, Option.mem_toList] at hj
  rcases hj with hj | hj
  · simp only [StoreCtl.watermarkInProgress, hj] at h1
    simp [h1]
  · simp only [StoreCtl.watermarkQueued, List.any_eq_false] at h2
    exact h2 j hj

theorem replaceWatermark_countP (v : Word) (q : List Job) :
    (replaceWatermark v q).countP Job.isWatermark = q.countP Job.isWatermark ∧
    (replaceWatermark v q).countP Job.isLog = q.countP Job.isLog := by
  induction q with
  | nil => exact ⟨rfl, rfl⟩
  | cons j q ih =>
    cases j with
    | log e => simp [replaceWatermark, List.countP_cons, ih.1, ih.2]
    | table j => simp [replaceWatermark, List.countP_cons, ih.1, ih.2]
    | watermark w => simp [replaceWatermark, List.countP_cons, Job.isWatermark, Job.isLog]

theorem Part.queueWatermark_ordinary (p : Part) (v : Word) : p.Ordinary (p.queueWatermark v) := by
  unfold Part.queueWatermark
  split
  · exact .refl p
  · rename_i h1
    split
    · refine p.setCtl_ordinary _ rfl rfl rfl rfl fun h => ?_
      have := replaceWatermark_countP v p.ctl.queue
      simp only [Part.JobsFit, Part.setCtl_ctl, StoreCtl.jobs, List.countP_append] at *
      omega
    · rename_i h2
      exact p.queueJob_ordinary _ (fun _ hj => absurd hj (by simp [Job.isLog]))
        (fun _ _ => p.ctl.noWatermark (by simpa using h1) (by simpa using h2))

theorem Part.renewalTest_ordinary (p : Part) : p.Ordinary p.renewalTest := by
  unfold Part.renewalTest
  split
  · refine Part.Ordinary.trans ?_ (Part.queueWatermark_ordinary _ _)
    exact p.setProof_ordinary _ rfl
  · split
    · rename_i h
      exact p.queueJob_ordinary _ (fun _ hj => absurd hj (by simp [Job.isLog]))
        (fun _ _ => p.ctl.noWatermark h.2.1 h.2.2)
    · exact .refl p

end Sys2Proof.Machine
end

