-- ==== Sys2Proof/Laws/OrdinaryUnits.lean ====
section
/-! SUPPORT. The fault unit, the grant calculator and the proof unit as ordinary actions; what placing a frame and queuing a
job leave alone. -/

namespace Sys2Proof.Machine

/-! ## What placing a frame, responding and queuing a job leave alone -/

@[simp] theorem Part.transmit_power (p : Part) : (p.transmit).power = p.power := by
  unfold Part.transmit; repeat' split
  all_goals rfl
@[simp] theorem Part.transmit_clock (p : Part) : (p.transmit).clock = p.clock := by
  unfold Part.transmit; repeat' split
  all_goals rfl
@[simp] theorem Part.transmit_contacts (p : Part) : (p.transmit).contacts = p.contacts := by
  unfold Part.transmit; repeat' split
  all_goals rfl
@[simp] theorem Part.transmit_lockPin (p : Part) : (p.transmit).lockPin = p.lockPin := by
  unfold Part.transmit; repeat' split
  all_goals rfl
@[simp] theorem Part.transmit_links (p : Part) : (p.transmit).links = p.links := by
  unfold Part.transmit; repeat' split
  all_goals rfl
@[simp] theorem Part.transmit_classifier (p : Part) : (p.transmit).classifier = p.classifier := by
  unfold Part.transmit; repeat' split
  all_goals rfl
@[simp] theorem Part.transmit_engine (p : Part) : (p.transmit).engine = p.engine := by
  unfold Part.transmit; repeat' split
  all_goals rfl
@[simp] theorem Part.transmit_proof (p : Part) : (p.transmit).proof = p.proof := by
  unfold Part.transmit; repeat' split
  all_goals rfl
@[simp] theorem Part.transmit_trust (p : Part) : (p.transmit).trust = p.trust := by
  unfold Part.transmit; repeat' split
  all_goals rfl
@[simp] theorem Part.transmit_grants (p : Part) : (p.transmit).grants = p.grants := by
  unfold Part.transmit; repeat' split
  all_goals rfl
@[simp] theorem Part.transmit_fault (p : Part) : (p.transmit).fault = p.fault := by
  unfold Part.transmit; repeat' split
  all_goals rfl
@[simp] theorem Part.transmit_ctl (p : Part) : (p.transmit).ctl = p.ctl := by
  unfold Part.transmit; repeat' split
  all_goals rfl
@[simp] theorem Part.transmit_session (p : Part) (m : Socket) : (p.transmit).session m = p.session m := by
  simp only [Part.session, Part.transmit_engine]
@[simp] theorem Part.transmit_link (p : Part) (m : Socket) : (p.transmit).link m = p.link m := by
  simp only [Part.link, Part.transmit_links]

@[simp] theorem Part.place_power (p : Part) (k : Lane) (f : Frame) : (p.place k f).power = p.power := by
  simp [Part.place]
@[simp] theorem Part.place_clock (p : Part) (k : Lane) (f : Frame) : (p.place k f).clock = p.clock := by
  simp [Part.place]
@[simp] theorem Part.place_contacts (p : Part) (k : Lane) (f : Frame) : (p.place k f).contacts = p.contacts := by
  simp [Part.place]
@[simp] theorem Part.place_lockPin (p : Part) (k : Lane) (f : Frame) : (p.place k f).lockPin = p.lockPin := by
  simp [Part.place]
@[simp] theorem Part.place_links (p : Part) (k : Lane) (f : Frame) : (p.place k f).links = p.links := by
  simp [Part.place]
@[simp] theorem Part.place_classifier (p : Part) (k : Lane) (f : Frame) : (p.place k f).classifier = p.classifier := by
  simp [Part.place]
@[simp] theorem Part.place_engine (p : Part) (k : Lane) (f : Frame) : (p.place k f).engine = p.engine := by
  simp [Part.place]
@[simp] theorem Part.place_proof (p : Part) (k : Lane) (f : Frame) : (p.place k f).proof = p.proof := by
  simp [Part.place]
@[simp] theorem Part.place_trust (p : Part) (k : Lane) (f : Frame) : (p.place k f).trust = p.trust := by
  simp [Part.place]
@[simp] theorem Part.place_grants (p : Part) (k : Lane) (f : Frame) : (p.place k f).grants = p.grants := by
  simp [Part.place]
@[simp] theorem Part.place_fault (p : Part) (k : Lane) (f : Frame) : (p.place k f).fault = p.fault := by
  simp [Part.place]
@[simp] theorem Part.place_ctl (p : Part) (k : Lane) (f : Frame) : (p.place k f).ctl = p.ctl := by
  simp [Part.place]
@[simp] theorem Part.place_session (p : Part) (k : Lane) (f : Frame) (m : Socket) : (p.place k f).session m = p.session m := by
  simp only [Part.session, Part.place_engine]
@[simp] theorem Part.place_link (p : Part) (k : Lane) (f : Frame) (m : Socket) : (p.place k f).link m = p.link m := by
  simp only [Part.link, Part.place_links]

@[simp] theorem Part.respond_power (p : Part) (c : Byte) (o : ReqOutcome) (ws : List Word) : (p.respond c o ws).power = p.power := by
  simp [Part.respond]
@[simp] theorem Part.respond_clock (p : Part) (c : Byte) (o : ReqOutcome) (ws : List Word) : (p.respond c o ws).clock = p.clock := by
  simp [Part.respond]
@[simp] theorem Part.respond_contacts (p : Part) (c : Byte) (o : ReqOutcome) (ws : List Word) : (p.respond c o ws).contacts = p.contacts := by
  simp [Part.respond]
@[simp] theorem Part.respond_lockPin (p : Part) (c : Byte) (o : ReqOutcome) (ws : List Word) : (p.respond c o ws).lockPin = p.lockPin := by
  simp [Part.respond]
@[simp] theorem Part.respond_links (p : Part) (c : Byte) (o : ReqOutcome) (ws : List Word) : (p.respond c o ws).links = p.links := by
  simp [Part.respond]
@[simp] theorem Part.respond_classifier (p : Part) (c : Byte) (o : ReqOutcome) (ws : List Word) : (p.respond c o ws).classifier = p.classifier := by
  simp [Part.respond]
@[simp] theorem Part.respond_engine (p : Part) (c : Byte) (o : ReqOutcome) (ws : List Word) : (p.respond c o ws).engine = p.engine := by
  simp [Part.respond]
@[simp] theorem Part.respond_proof (p : Part) (c : Byte) (o : ReqOutcome) (ws : List Word) : (p.respond c o ws).proof = p.proof := by
  simp [Part.respond]
@[simp] theorem Part.respond_trust (p : Part) (c : Byte) (o : ReqOutcome) (ws : List Word) : (p.respond c o ws).trust = p.trust := by
  simp [Part.respond]
@[simp] theorem Part.respond_grants (p : Part) (c : Byte) (o : ReqOutcome) (ws : List Word) : (p.respond c o ws).grants = p.grants := by
  simp [Part.respond]
@[simp] theorem Part.respond_fault (p : Part) (c : Byte) (o : ReqOutcome) (ws : List Word) : (p.respond c o ws).fault = p.fault := by
  simp [Part.respond]
@[simp] theorem Part.respond_ctl (p : Part) (c : Byte) (o : ReqOutcome) (ws : List Word) : (p.respond c o ws).ctl = p.ctl := by
  simp [Part.respond]
@[simp] theorem Part.respond_session (p : Part) (c : Byte) (o : ReqOutcome) (ws : List Word) (m : Socket) : (p.respond c o ws).session m = p.session m := by
  simp only [Part.session, Part.respond_engine]
@[simp] theorem Part.respond_link (p : Part) (c : Byte) (o : ReqOutcome) (ws : List Word) (m : Socket) : (p.respond c o ws).link m = p.link m := by
  simp only [Part.link, Part.respond_links]

@[simp] theorem Part.complete_power (p : Part) (c : Byte) (o : ReqOutcome) (ws : List Word) : (p.complete c o ws).power = p.power := by
  unfold Part.complete; split <;> simp
@[simp] theorem Part.complete_clock (p : Part) (c : Byte) (o : ReqOutcome) (ws : List Word) : (p.complete c o ws).clock = p.clock := by
  unfold Part.complete; split <;> simp
@[simp] theorem Part.complete_contacts (p : Part) (c : Byte) (o : ReqOutcome) (ws : List Word) : (p.complete c o ws).contacts = p.contacts := by
  unfold Part.complete; split <;> simp
@[simp] theorem Part.complete_lockPin (p : Part) (c : Byte) (o : ReqOutcome) (ws : List Word) : (p.complete c o ws).lockPin = p.lockPin := by
  unfold Part.complete; split <;> simp
@[simp] theorem Part.complete_links (p : Part) (c : Byte) (o : ReqOutcome) (ws : List Word) : (p.complete c o ws).links = p.links := by
  unfold Part.complete; split <;> simp
@[simp] theorem Part.complete_classifier (p : Part) (c : Byte) (o : ReqOutcome) (ws : List Word) : (p.complete c o ws).classifier = p.classifier := by
  unfold Part.complete; split <;> simp
@[simp] theorem Part.complete_engine (p : Part) (c : Byte) (o : ReqOutcome) (ws : List Word) : (p.complete c o ws).engine = p.engine := by
  unfold Part.complete; split <;> simp
@[simp] theorem Part.complete_proof (p : Part) (c : Byte) (o : ReqOutcome) (ws : List Word) : (p.complete c o ws).proof = p.proof := by
  unfold Part.complete; split <;> simp
@[simp] theorem Part.complete_trust (p : Part) (c : Byte) (o : ReqOutcome) (ws : List Word) : (p.complete c o ws).trust = p.trust := by
  unfold Part.complete; split <;> simp
@[simp] theorem Part.complete_grants (p : Part) (c : Byte) (o : ReqOutcome) (ws : List Word) : (p.complete c o ws).grants = p.grants := by
  unfold Part.complete; split <;> simp
@[simp] theorem Part.complete_fault (p : Part) (c : Byte) (o : ReqOutcome) (ws : List Word) : (p.complete c o ws).fault = p.fault := by
  unfold Part.complete; split <;> simp
@[simp] theorem Part.complete_ctl (p : Part) (c : Byte) (o : ReqOutcome) (ws : List Word) : (p.complete c o ws).ctl = p.ctl := by
  unfold Part.complete; split <;> simp
@[simp] theorem Part.complete_session (p : Part) (c : Byte) (o : ReqOutcome) (ws : List Word) (m : Socket) : (p.complete c o ws).session m = p.session m := by
  simp only [Part.session, Part.complete_engine]
@[simp] theorem Part.complete_link (p : Part) (c : Byte) (o : ReqOutcome) (ws : List Word) (m : Socket) : (p.complete c o ws).link m = p.link m := by
  simp only [Part.link, Part.complete_links]

@[simp] theorem Part.queueJob_power (p : Part) (j : Job) : (p.queueJob j).power = p.power := by
  simp [Part.queueJob]
@[simp] theorem Part.queueJob_clock (p : Part) (j : Job) : (p.queueJob j).clock = p.clock := by
  simp [Part.queueJob]
@[simp] theorem Part.queueJob_contacts (p : Part) (j : Job) : (p.queueJob j).contacts = p.contacts := by
  simp [Part.queueJob]
@[simp] theorem Part.queueJob_lockPin (p : Part) (j : Job) : (p.queueJob j).lockPin = p.lockPin := by
  simp [Part.queueJob]
@[simp] theorem Part.queueJob_links (p : Part) (j : Job) : (p.queueJob j).links = p.links := by
  simp [Part.queueJob]
@[simp] theorem Part.queueJob_tlp (p : Part) (j : Job) : (p.queueJob j).tlp = p.tlp := by
  simp [Part.queueJob]
@[simp] theorem Part.queueJob_classifier (p : Part) (j : Job) : (p.queueJob j).classifier = p.classifier := by
  simp [Part.queueJob]
@[simp] theorem Part.queueJob_engine (p : Part) (j : Job) : (p.queueJob j).engine = p.engine := by
  simp [Part.queueJob]
@[simp] theorem Part.queueJob_proof (p : Part) (j : Job) : (p.queueJob j).proof = p.proof := by
  simp [Part.queueJob]
@[simp] theorem Part.queueJob_trust (p : Part) (j : Job) : (p.queueJob j).trust = p.trust := by
  simp [Part.queueJob]
@[simp] theorem Part.queueJob_grants (p : Part) (j : Job) : (p.queueJob j).grants = p.grants := by
  simp [Part.queueJob]
@[simp] theorem Part.queueJob_fault (p : Part) (j : Job) : (p.queueJob j).fault = p.fault := by
  simp [Part.queueJob]
@[simp] theorem Part.queueJob_mgmt (p : Part) (j : Job) : (p.queueJob j).mgmt = p.mgmt := by
  simp [Part.queueJob]
@[simp] theorem Part.queueJob_session (p : Part) (j : Job) (m : Socket) : (p.queueJob j).session m = p.session m := by
  simp only [Part.session, Part.queueJob_engine]
@[simp] theorem Part.queueJob_link (p : Part) (j : Job) (m : Socket) : (p.queueJob j).link m = p.link m := by
  simp only [Part.link, Part.queueJob_links]

@[simp] theorem Part.log_power (p : Part) (e : LogEntry) : (p.log e).power = p.power := by
  unfold Part.log; split <;> simp
@[simp] theorem Part.log_clock (p : Part) (e : LogEntry) : (p.log e).clock = p.clock := by
  unfold Part.log; split <;> simp
@[simp] theorem Part.log_contacts (p : Part) (e : LogEntry) : (p.log e).contacts = p.contacts := by
  unfold Part.log; split <;> simp
@[simp] theorem Part.log_lockPin (p : Part) (e : LogEntry) : (p.log e).lockPin = p.lockPin := by
  unfold Part.log; split <;> simp
@[simp] theorem Part.log_links (p : Part) (e : LogEntry) : (p.log e).links = p.links := by
  unfold Part.log; split <;> simp
@[simp] theorem Part.log_tlp (p : Part) (e : LogEntry) : (p.log e).tlp = p.tlp := by
  unfold Part.log; split <;> simp
@[simp] theorem Part.log_classifier (p : Part) (e : LogEntry) : (p.log e).classifier = p.classifier := by
  unfold Part.log; split <;> simp
@[simp] theorem Part.log_engine (p : Part) (e : LogEntry) : (p.log e).engine = p.engine := by
  unfold Part.log; split <;> simp
@[simp] theorem Part.log_proof (p : Part) (e : LogEntry) : (p.log e).proof = p.proof := by
  unfold Part.log; split <;> simp
@[simp] theorem Part.log_trust (p : Part) (e : LogEntry) : (p.log e).trust = p.trust := by
  unfold Part.log; split <;> simp
@[simp] theorem Part.log_grants (p : Part) (e : LogEntry) : (p.log e).grants = p.grants := by
  unfold Part.log; split <;> simp
@[simp] theorem Part.log_fault (p : Part) (e : LogEntry) : (p.log e).fault = p.fault := by
  unfold Part.log; split <;> simp
@[simp] theorem Part.log_mgmt (p : Part) (e : LogEntry) : (p.log e).mgmt = p.mgmt := by
  unfold Part.log; split <;> simp
@[simp] theorem Part.log_session (p : Part) (e : LogEntry) (m : Socket) : (p.log e).session m = p.session m := by
  simp only [Part.session, Part.log_engine]
@[simp] theorem Part.log_link (p : Part) (e : LogEntry) (m : Socket) : (p.log e).link m = p.link m := by
  simp only [Part.link, Part.log_links]

/-- An idle transmitter's choice leaves the part state and the settings. -/
theorem Part.transmit_parked (p : Part) : p.transmit.mgmt.parked = p.mgmt.parked := p.transmit_ordinary.parked

/-! ## The fault unit -/

/-- After an evaluation the permit lines are right (R142). -/
theorem Part.evalPermits_right (p : Part) : p.evalPermits.PermitsRight := by
  intro n
  show (PerSocket.ofFn p.permitDue).get n = _
  rw [PerSocket.get_ofFn]
  rfl

theorem Part.evalPermits_ordinary (p : Part) : p.Ordinary p.evalPermits :=
  Part.Plain.ordinary ⟨rfl, rfl, rfl, rfl, rfl, rfl, rfl, rfl, rfl, rfl, rfl, rfl, fun _ => p.evalPermits_right,
    id, fun _ => id, id, id, id⟩ rfl rfl rfl

theorem Part.setCond_plain (p : Part) (c : Cond) (st : CondState) : p.Plain (p.setCond c st) :=
  ⟨rfl, rfl, rfl, rfl, rfl, rfl, rfl, rfl, rfl, rfl, rfl, rfl, fun _ => Part.evalPermits_right _,
    id, fun _ => id, id, id, id⟩

theorem Part.adviseCond_ordinary (p : Part) (c : Cond) (st : CondState) : p.Ordinary (p.adviseCond c st) := by
  unfold Part.adviseCond
  split
  · exact p.place_ordinary _ _
  · exact .refl p

@[simp] theorem Part.adviseCond_fault (p : Part) (c : Cond) (st : CondState) : (p.adviseCond c st).fault = p.fault := by
  unfold Part.adviseCond; split <;> simp

@[simp] theorem Part.adviseCond_proof (p : Part) (c : Cond) (st : CondState) : (p.adviseCond c st).proof = p.proof := by
  unfold Part.adviseCond; split <;> simp

@[simp] theorem Part.adviseCond_links (p : Part) (c : Cond) (st : CondState) : (p.adviseCond c st).links = p.links := by
  unfold Part.adviseCond; split <;> simp

@[simp] theorem Part.adviseCond_engine (p : Part) (c : Cond) (st : CondState) :
    (p.adviseCond c st).engine = p.engine := by
  unfold Part.adviseCond; split <;> simp

@[simp] theorem Part.adviseCond_grants (p : Part) (c : Cond) (st : CondState) :
    (p.adviseCond c st).grants = p.grants := by
  unfold Part.adviseCond; split <;> simp

@[simp] theorem Part.adviseCond_ctl (p : Part) (c : Cond) (st : CondState) : (p.adviseCond c st).ctl = p.ctl := by
  unfold Part.adviseCond; split <;> simp

@[simp] theorem Part.adviseCond_classifier (p : Part) (c : Cond) (st : CondState) :
    (p.adviseCond c st).classifier = p.classifier := by
  unfold Part.adviseCond; split <;> simp

/-- What a change of a condition's state does in the fault unit: the state is set, the permit lines follow (R154). -/
theorem Part.changeCond_conds (p : Part) (c : Cond) (st : CondState) :
    (p.changeCond c st).fault.conds = p.fault.conds.set c st := by
  simp [Part.changeCond, Part.setCond, Part.evalPermits]

theorem Part.changeCond_causes (p : Part) (c : Cond) (st : CondState) :
    (p.changeCond c st).fault.causes = p.fault.causes := by
  simp [Part.changeCond, Part.setCond, Part.evalPermits]

theorem Part.changeCond_map (p : Part) (c : Cond) (st : CondState) :
    (p.changeCond c st).fault.map = p.fault.map := by
  simp [Part.changeCond, Part.setCond, Part.evalPermits]

theorem Part.changeCond_proof (p : Part) (c : Cond) (st : CondState) : (p.changeCond c st).proof = p.proof := by
  simp [Part.changeCond, Part.setCond, Part.evalPermits]

theorem Part.changeCond_plain (p : Part) (c : Cond) (st : CondState) : p.Plain (p.changeCond c st) :=
  (p.setCond_plain c st).trans (Part.adviseCond_ordinary _ c st).toPlain

theorem Part.raiseCond_plain (p : Part) (c : Cond) : p.Plain (p.raiseCond c) :=
  (p.changeCond_plain c .active).trans (Part.log_ordinary _ _).toPlain

theorem Part.raiseCond_conds (p : Part) (c : Cond) :
    (p.raiseCond c).fault.conds = p.fault.conds.set c .active := by
  simp [Part.raiseCond, Part.changeCond_conds]

theorem Part.raiseCond_causes (p : Part) (c : Cond) : (p.raiseCond c).fault.causes = p.fault.causes := by
  simp [Part.raiseCond, Part.changeCond_causes]

theorem Part.raiseCond_proof (p : Part) (c : Cond) : (p.raiseCond c).proof = p.proof := by
  simp [Part.raiseCond, Part.changeCond_proof]

theorem Part.clearCond_plain (p : Part) (c : Cond) : p.Plain (p.clearCond c) := by
  unfold Part.clearCond
  split
  · exact p.changeCond_plain c _
  · exact .refl p
  · exact .refl p

theorem Part.clearCond_causes (p : Part) (c : Cond) : (p.clearCond c).fault.causes = p.fault.causes := by
  unfold Part.clearCond
  split
  · exact p.changeCond_causes c _
  · rfl
  · rfl

theorem Part.clearCond_proof (p : Part) (c : Cond) : (p.clearCond c).proof = p.proof := by
  unfold Part.clearCond
  split
  · exact p.changeCond_proof c _
  · rfl
  · rfl

/-- After its cause has gone a condition is not ACTIVE, and no other condition has changed (R153). -/
theorem Part.clearCond_conds (p : Part) (c d : Cond) :
    (p.clearCond c).fault.conds.get d = .active ↔ d ≠ c ∧ p.fault.conds.get d = .active := by
  unfold Part.clearCond
  split
  · rename_i h
    rw [Part.changeCond_conds, PerCond.get_set]
    by_cases hd : d = c
    · subst hd
      simp only [if_true, ne_eq, not_true_eq_false, false_and, iff_false]
      split <;> simp
    · simp [hd]
  · rename_i h
    by_cases hd : d = c
    · subst hd; simp [h]
    · simp [hd]
  · rename_i h
    by_cases hd : d = c
    · subst hd; simp [h]
    · simp [hd]

theorem Part.recordCauses_plain (p : Part) (k : Causes) : p.Plain (p.recordCauses k) :=
  ⟨rfl, rfl, rfl, rfl, rfl, rfl, rfl, rfl, rfl, rfl, rfl, rfl, id, id, fun _ => id, id, id, id⟩

theorem Part.reportCause_plain (p : Part) (c : Cond) (k : Causes) : p.Plain (p.reportCause c k) := by
  unfold Part.reportCause
  split
  · exact p.recordCauses_plain k
  · split
    · exact (p.recordCauses_plain k).trans (Part.raiseCond_plain _ c)
    · exact (p.recordCauses_plain k).trans (Part.clearCond_plain _ c)
    · exact p.recordCauses_plain k
    · exact p.recordCauses_plain k

/-- A report leaves the causes as it gives them (R152). -/
theorem Part.reportCause_causes (p : Part) (c : Cond) (k : Causes) : (p.reportCause c k).fault.causes = k := by
  unfold Part.reportCause
  split
  · rfl
  · split
    · rw [Part.raiseCond_causes]; rfl
    · rw [Part.clearCond_causes]; rfl
    · rfl
    · rfl

theorem Part.reportCause_proof (p : Part) (c : Cond) (k : Causes) : (p.reportCause c k).proof = p.proof := by
  unfold Part.reportCause
  split
  · rfl
  · split
    · rw [Part.raiseCond_proof]; rfl
    · rw [Part.clearCond_proof]; rfl
    · rfl
    · rfl

/-- A report that concerns one condition keeps the conditions right (R153). -/
theorem Part.reportCause_conds (p : Part) (c : Cond) (k : Causes)
    (hk : ∀ d, d ≠ c → k.present d = p.fault.causes.present d) (h : p.CondsRight) : (p.reportCause c k).CondsRight := by
  intro hl d
  have hl' : p.ctl.loading = false := by rw [← (p.reportCause_plain c k).loading]; exact hl
  have h' := h hl'
  rw [Part.reportCause_causes]
  have hc0 : (p.recordCauses k).fault.conds = p.fault.conds := rfl
  by_cases hd : d = c
  · subst hd
    unfold Part.reportCause
    rw [if_neg (by simp [hl'])]
    split
    · rename_i h1 h2
      rw [Part.raiseCond_conds, PerCond.get_set_self]; simp [h2]
    · rename_i h1 h2
      rw [Part.clearCond_conds]; simp [h2]
    · rename_i h1 h2
      rw [hc0, h' d, h1, h2]
    · rename_i h1 h2
      rw [hc0, h' d, h1, h2]
  · rw [hk d hd, ← h' d]
    unfold Part.reportCause
    rw [if_neg (by simp [hl'])]
    split
    · rw [Part.raiseCond_conds, PerCond.get_set_ne _ _ hd, hc0]
    · rw [Part.clearCond_conds, hc0]; simp [hd]
    · rw [hc0]
    · rw [hc0]

/-- A report that concerns one condition and leaves the causes that follow inputs and tables alone is ordinary. -/
theorem Part.reportCause_ordinary (p : Part) (c : Cond) (k : Causes)
    (hk : ∀ d, d ≠ c → k.present d = p.fault.causes.present d) (h1 : k.lock = p.fault.causes.lock)
    (h2 : k.noUsableKey = p.fault.causes.noUsableKey) (h3 : k.exhausted = p.fault.causes.exhausted) :
    p.Ordinary (p.reportCause c k) where
  toPlain := p.reportCause_plain c k
  conds := p.reportCause_conds c k hk
  lockCause := by rw [Part.reportCause_causes, h1]
  keyCause := by rw [Part.reportCause_causes, h2]
  exhausted h := by
    unfold Part.ExhaustedRight at *
    rw [Part.reportCause_causes, Part.reportCause_proof, h3]
    exact h

theorem Part.reportStore_ordinary (p : Part) (ok : Bool) : p.Ordinary (p.reportStore ok) :=
  p.reportCause_ordinary _ _ (fun d hd => by cases d <;> first | rfl | exact absurd rfl hd) rfl rfl rfl

theorem Part.evalOverheat_ordinary (p : Part) : p.Ordinary p.evalOverheat :=
  p.reportCause_ordinary _ _ (fun d hd => by cases d <;> first | rfl | exact absurd rfl hd) rfl rfl rfl

/-- The momentary conditions have no level cause. -/
def Cond.isMomentary : Cond → Bool
  | .massFail => true
  | .clone => true
  | .lock => false
  | .overdraw => false
  | .toolSilent => false
  | .overheat => false
  | .trustBase => false
  | .store => false

theorem Causes.present_momentary (k : Causes) (c : Cond) (h : c.isMomentary = true) : k.present c = false := by
  cases c <;> simp_all [Cond.isMomentary, Causes.present]

/-- A change into a state other than ACTIVE of a condition whose cause is absent keeps the conditions right. -/
theorem Part.changeCond_ordinary (p : Part) (c : Cond) (st : CondState) (hst : st ≠ .active)
    (hc : p.CondsRight → p.ctl.loading = false → p.fault.causes.present c = false) : p.Ordinary (p.changeCond c st) where
  toPlain := p.changeCond_plain c st
  conds h hl d := by
    have hl' : p.ctl.loading = false := by rw [← (p.changeCond_plain c st).loading]; exact hl
    rw [Part.changeCond_conds, Part.changeCond_causes, PerCond.get_set]
    by_cases hd : d = c
    · subst hd; simp [hst, hc h hl']
    · simp only [hd, if_false]; exact h hl' d
  lockCause := by rw [Part.changeCond_causes]
  keyCause := by rw [Part.changeCond_causes]
  exhausted h := by
    unfold Part.ExhaustedRight at *
    rw [Part.changeCond_causes, Part.changeCond_proof]
    exact h

/-- A momentary cause never leaves its condition ACTIVE (R155). -/
theorem Part.momentary_ordinary (p : Part) (c : Cond) (hm : c.isMomentary = true) : p.Ordinary (p.momentary c) := by
  unfold Part.momentary
  split
  · refine Part.Ordinary.trans ?_ (Part.log_ordinary _ _)
    split
    · exact .refl p
    · exact p.changeCond_ordinary c .held (by simp) fun _ _ => Causes.present_momentary _ c hm
    · exact p.changeCond_ordinary c .held (by simp) fun _ _ => Causes.present_momentary _ c hm
  · refine ⟨(p.raiseCond_plain c).trans (Part.changeCond_plain _ c .inactive), ?_, ?_, ?_, ?_⟩
    · intro h hl d
      have hl' : p.ctl.loading = false := by
        rw [← ((p.raiseCond_plain c).trans (Part.changeCond_plain _ c .inactive)).loading]; exact hl
      rw [Part.changeCond_conds, Part.changeCond_causes, Part.raiseCond_conds, Part.raiseCond_causes, PerCond.get_set]
      by_cases hd : d = c
      · subst hd; simp [Causes.present_momentary _ d hm]
      · simp only [hd, if_false, PerCond.get_set_ne _ _ hd]; exact h hl' d
    · rw [Part.changeCond_causes, Part.raiseCond_causes]
    · rw [Part.changeCond_causes, Part.raiseCond_causes]
    · intro h
      unfold Part.ExhaustedRight at *
      rw [Part.changeCond_causes, Part.changeCond_proof, Part.raiseCond_causes, Part.raiseCond_proof]
      exact h

/-! ## The grant calculator -/

theorem perString_get (xs ys : List Nat) (h : ∀ i, xs.getD i 0 ≤ ys.getD i 0) (k : Socket) :
    (perString xs).get k ≤ (perString ys).get k := by
  match k with
  | 0 => exact h 0
  | 1 => exact h 1
  | 2 => exact h 2
  | 3 => exact h 3

theorem perString_sum (xs : List Nat) (h : xs.length ≤ 4) :
    (perString xs).s0 + (perString xs).s1 + (perString xs).s2 + (perString xs).s3 = xs.sum := by
  match xs, h with
  | [], _ => rfl
  | [a], _ => simp [perString]
  | [a, b], _ => simp [perString]
  | [a, b, c], _ => simp [perString]; omega
  | [a, b, c, d], _ => simp [perString]; omega

theorem stringGrants_length (paired : Bool) (g : PerSocket Nat) : (stringGrants paired g).length ≤ 4 := by
  unfold stringGrants; split <;> simp

/-- The grants computed are sound (R138 to R140). -/
theorem Part.computeGrants_sound (p : Part) : (p.setGrants p.computeGrants).GrantsSound := by
  refine ⟨?_, ?_, ?_, ?_⟩
  · show (perString _).s0 + (perString _).s1 + (perString _).s2 + (perString _).s3 = _
    rw [perString_sum _ (by rw [apportion_length]; exact stringGrants_length _ _), apportion_sum]
    rfl
  · exact Nat.min_le_left _ _
  · intro k
    exact perString_get _ _ (fun i => apportion_le _ _ i) k
  · intro n
    show (PerSocket.ofFn _).get n = _
    rw [PerSocket.get_ofFn]
    rfl

/-- A recomputation is ordinary (R131): it ends with the permit lines set and the grants sound. -/
theorem Part.noteDecrease_ordinary (p : Part) : p.Ordinary p.noteDecrease := by
  unfold Part.noteDecrease
  split
  · refine Part.Ordinary.trans p.sendAggregate_ordinary ?_
    exact Part.setGrants_ordinary _ _ rfl rfl rfl rfl
  · exact p.setGrants_ordinary _ rfl rfl rfl rfl

theorem Part.recompute_ordinary (p : Part) : p.Ordinary p.recompute := by
  unfold Part.recompute
  refine Part.Ordinary.trans ?_ (Part.noteDecrease_ordinary _)
  have h1 := (p.setGrants p.computeGrants).evalOverheat_ordinary
  have h2 := ((p.setGrants p.computeGrants).evalOverheat).evalPermits_ordinary
  refine ⟨⟨?_, ?_, ?_, ?_, ?_, ?_, ?_, ?_, ?_, ?_, ?_, ?_, ?_, ?_, ?_, ?_, ?_, ?_⟩, ?_, ?_, ?_, ?_⟩
  · exact h2.clock.trans h1.clock
  · exact h2.power.trans h1.power
  · exact h2.contacts.trans h1.contacts
  · exact h2.lockPin.trans h1.lockPin
  · exact h2.trust.trans h1.trust
  · exact h2.map.trans h1.map
  · exact h2.parked.trans h1.parked
  · exact h2.settings.trans h1.settings
  · exact h2.loading.trans h1.loading
  · exact h2.logPos.trans h1.logPos
  · exact h2.storedSettings.trans h1.storedSettings
  · exact h2.storedMap.trans h1.storedMap
  · exact fun _ => Part.evalPermits_right _
  · exact fun h => h2.lanes (h1.lanes h)
  · exact fun n h => h2.links n (h1.links n h)
  · exact fun _ => h2.grants (h1.grants p.computeGrants_sound)
  · exact fun h => h2.recent (h1.recent h)
  · exact fun h => h2.jobs (h1.jobs h)
  · exact fun h => h2.conds (h1.conds h)
  · exact h2.lockCause.trans h1.lockCause
  · exact h2.keyCause.trans h1.keyCause
  · exact fun h => h2.exhausted (h1.exhausted h)

theorem Part.holdExpiry_ordinary (p : Part) (n : Socket) : p.Ordinary (p.holdExpiry n) := by
  unfold Part.holdExpiry
  split
  · exact (p.setStale_ordinary n true).trans (Part.recompute_ordinary _)
  · exact .refl p

theorem Part.takeDraw_ordinary (p : Part) (d : Nat) : p.Ordinary (p.takeDraw d) := by
  unfold Part.takeDraw
  split
  · split
    · exact p.setOverdraw_ordinary _
    · exact .refl p
  · refine (p.setOverdraw_ordinary none).trans (Part.reportCause_ordinary _ _ _ ?_ rfl rfl rfl)
    intro d hd
    cases d <;> first | rfl | exact absurd rfl hd

theorem Part.overdrawExpiry_ordinary (p : Part) : p.Ordinary p.overdrawExpiry := by
  unfold Part.overdrawExpiry
  split
  · exact .refl p
  · refine (p.setOverdraw_ordinary none).trans (Part.reportCause_ordinary _ _ _ ?_ rfl rfl rfl)
    intro d hd
    cases d <;> first | rfl | exact absurd rfl hd

theorem Part.aggregateExpiry_ordinary (p : Part) : p.Ordinary p.aggregateExpiry := by
  unfold Part.aggregateExpiry
  split
  · exact .refl p
  · exact p.sendAggregate_ordinary.trans (Part.startAggregateTimer_ordinary _)

/-! ## The proof unit -/

theorem Part.reserve_ordinary (p : Part) : p.Ordinary p.reserve := p.setProof_ordinary _ rfl

theorem Part.release_ordinary (p : Part) : p.Ordinary p.release := p.setProof_ordinary _ rfl

/-- A draw is ordinary: the exhaustion test follows the counter (R104, R109). -/
theorem Part.draw_ordinary (p : Part) : p.Ordinary p.draw := by
  have h0 := p.setProof_plain p.proof.drawn
  have h1 := (p.setProof p.proof.drawn).renewalTest_ordinary
  have h2 := ((p.setProof p.proof.drawn).renewalTest).reportCause_plain .trustBase
    { ((p.setProof p.proof.drawn).renewalTest).fault.causes with
      exhausted := ((p.setProof p.proof.drawn).renewalTest).proof.counter == 0xFFFFFFFF }
  have hf : ((p.setProof p.proof.drawn).renewalTest).fault = p.fault := by
    unfold Part.renewalTest Part.queueWatermark
    repeat' split
    all_goals simp
  refine ⟨(h0.trans h1.toPlain).trans h2, ?_, ?_, ?_, ?_⟩
  · intro h
    refine Part.reportCause_conds _ _ _ ?_ (h1.conds ?_)
    · intro d hd
      cases d <;> first | rfl | exact absurd rfl hd
    · exact h
  · show (Part.reportCause _ _ _).fault.causes.lock = _
    rw [Part.reportCause_causes, hf]
  · show (Part.reportCause _ _ _).fault.causes.noUsableKey = _
    rw [Part.reportCause_causes, hf]
  · intro _
    show Part.ExhaustedRight (Part.reportCause _ _ _)
    unfold Part.ExhaustedRight
    rw [Part.reportCause_causes, Part.reportCause_proof]

end Sys2Proof.Machine
end

