-- ==== Sys2Proof/Laws/OrdinaryEngine.lean ====
section
/-! SUPPORT. The pack links' transactions, the classifier and the admission engine as ordinary actions. -/

namespace Sys2Proof.Machine

/-! ## Transactions -/

theorem Part.setLink_setLink (p : Part) (n : Socket) (a b : Link) : (p.setLink n a).setLink n b = p.setLink n b := by
  unfold Part.setLink
  congr 1
  apply PerSocket.ext_get
  intro m
  simp only [PerSocket.get_set]
  split <;> rfl

theorem Part.canStart_working {p : Part} {n : Socket} (h : p.canStart n = true) : (p.link n).state.working = true := by
  simp only [Part.canStart, Bool.and_eq_true] at h
  exact h.1.1.1.2

/-- A transaction put into a working link. -/
theorem Link.Sound.withTx {l : Link} (h : l.Sound) (hw : l.state.working = true) (t : Option Transaction)
    (e : Option EngineFrame) (q : List Frame) (hq : q.length ≤ 4) :
    ({ l with tx := t, engineSlot := e, pollQueue := q } : Link).Sound :=
  ⟨fun _ => hw, h.2.1, h.2.2.1, hq, fun _ => hw, h.2.2.2.2.2⟩

theorem Part.markSent_ordinary (p : Part) (n : Socket) (x : Nonce) : p.Ordinary (p.markSent n x) := by
  unfold Part.markSent
  split
  · exact .refl p
  · exact p.setSession_ordinary n _

theorem Part.markSent_link (p : Part) (n : Socket) (x : Nonce) (m : Socket) : (p.markSent n x).link m = p.link m := by
  unfold Part.markSent; split <;> simp

theorem Part.reportCause_links (p : Part) (c : Cond) (k : Causes) : (p.reportCause c k).links = p.links := by
  have hr (q : Part) : (q.raiseCond c).links = q.links := by
    simp [Part.raiseCond, Part.changeCond, Part.setCond, Part.evalPermits]
  have hc (q : Part) : (q.clearCond c).links = q.links := by
    unfold Part.clearCond
    split
    · simp [Part.changeCond, Part.setCond, Part.evalPermits]
    · rfl
    · rfl
  unfold Part.reportCause
  repeat' split
  · rfl
  · rw [hr]; rfl
  · rw [hc]; rfl
  · rfl
  · rfl

theorem Part.renewalTest_links (p : Part) : p.renewalTest.links = p.links := by
  unfold Part.renewalTest Part.queueWatermark
  repeat' split
  all_goals simp

/-- A draw concerns no link. -/
theorem Part.draw_links (p : Part) : p.draw.links = p.links := by
  unfold Part.draw Part.exhaustionTest
  rw [Part.reportCause_links, Part.renewalTest_links]
  rfl

theorem Part.startChallenge_ordinary (p : Part) (n : Socket) (hw : (p.link n).state.working = true) :
    p.Ordinary (p.startChallenge n) := by
  have hl : ((p.draw).markSent n p.proof.nonce).link n = p.link n := by
    rw [Part.markSent_link]; simp only [Part.link, Part.draw_links]
  refine (p.draw_ordinary.trans (Part.markSent_ordinary _ n p.proof.nonce)).trans ?_
  refine Part.setLink_ordinary _ n _ fun h => ⟨?_, id⟩
  exact Link.Sound.withTx h (by rw [hl]; exact hw) _ _ _ h.2.2.2.1

/-- The start of a transaction is ordinary (R21). -/
theorem Part.tryStart_ordinary (p : Part) (n : Socket) : p.Ordinary (p.tryStart n) := by
  unfold Part.tryStart
  split
  · rename_i hc
    have hw := Part.canStart_working hc
    split
    · exact p.setLink_ordinary n _ fun h => ⟨h.withTx hw _ _ _ h.2.2.2.1, id⟩
    · exact p.startChallenge_ordinary n hw
    · rename_i f q h1 h2
      refine p.setLink_ordinary n _ fun h => ⟨h.withTx hw _ _ _ ?_, id⟩
      have := h.2.2.2.1
      rw [h2] at this
      simp only [List.length_cons] at this
      omega
    · exact .refl p
  · exact .refl p

theorem pollAppend_length (q : List Frame) (f : Frame) (h : q.length ≤ 4) : (pollAppend q f).length ≤ 4 := by
  unfold pollAppend
  split <;> simp <;> omega

theorem Part.pollTake_ordinary (p : Part) (n : Socket) (f : Frame) : p.Ordinary (p.pollTake n f) := by
  unfold Part.pollTake
  split
  · rename_i hw
    refine Part.Ordinary.trans ?_ (Part.tryStart_ordinary _ n)
    refine p.setLink_ordinary n _ fun h => ⟨?_, id⟩
    exact h.withTx (by simp only [Bool.and_eq_true] at hw; exact hw.1) _ _ _ (pollAppend_length _ _ h.2.2.2.1)
  · exact .refl p

/-- A link changed in its engine slot alone. -/
theorem Part.setSlot_ordinary (p : Part) (n : Socket) (e : Option EngineFrame) :
    p.Ordinary (p.setLink n { p.link n with engineSlot := e }) :=
  p.setLink_ordinary n _ fun h => ⟨h, id⟩

/-! ## The classifier -/

theorem Part.advanceDecim_ordinary (p : Part) (n : Socket) : p.Ordinary (p.advanceDecim n) := by
  unfold Part.advanceDecim
  split
  · exact .refl p
  · exact p.setDecim_ordinary n _

theorem Part.forwardUp_ordinary (p : Part) (n : Socket) (f : Frame) (k : Lane) (d : Bool) :
    p.Ordinary (p.forwardUp n f k d) := by
  unfold Part.forwardUp
  repeat' split
  · exact (p.advanceDecim_ordinary n).trans (Part.place_ordinary _ _ _)
  · exact p.advanceDecim_ordinary n
  · exact p.place_ordinary _ _
  · exact p.place_ordinary _ _

theorem Part.answer_ordinary (p : Part) (n : Socket) (k : Lane) : p.Ordinary (p.answer n k) := p.place_ordinary _ _

theorem Part.fallbackUp_ordinary (p : Part) (n : Socket) (f : Frame) : p.Ordinary (p.fallbackUp n f) := by
  unfold Part.fallbackUp
  repeat' split
  · exact p.forwardUp_ordinary _ _ _ _
  · exact p.forwardUp_ordinary _ _ _ _
  · exact .refl p

theorem Part.fallbackDown_ordinary (p : Part) (f : Frame) : p.Ordinary (p.fallbackDown f) := by
  unfold Part.fallbackDown
  repeat' split
  · exact p.pollTake_ordinary _ _
  · exact p.answer_ordinary _ _
  · exact p.pollTake_ordinary _ _
  · exact .refl p

theorem Part.classifyUp_ordinary (p : Part) (n : Socket) (f : Frame) : p.Ordinary (p.classifyUp n f) := by
  unfold Part.classifyUp
  repeat' split
  · exact p.fallbackUp_ordinary _ _
  · exact p.forwardUp_ordinary _ _ _ _
  · exact .refl p
  · exact .refl p

theorem Part.classifyDown_ordinary (p : Part) (f : Frame) : p.Ordinary (p.classifyDown f) := by
  unfold Part.classifyDown
  repeat' split
  · exact p.fallbackDown_ordinary _
  · exact p.pollTake_ordinary _ _
  · exact p.answer_ordinary _ _
  · exact .refl p
  · exact .refl p

/-- A frame handed over by the tool link port, other than a request (R41). -/
theorem Part.takeDown_ordinary (p : Part) (f : Frame) : p.Ordinary (p.takeDown f) := by
  unfold Part.takeDown
  repeat' split
  · exact .refl p
  · exact (p.takeDraw_ordinary _).trans (Part.classifyDown_ordinary _ f)
  · exact p.classifyDown_ordinary f

/-! ## Results, reports, discarding -/

theorem Part.auditResult_ordinary (p : Part) (n : Socket) (o : AuditOutcome) : p.Ordinary (p.auditResult n o) := by
  unfold Part.auditResult
  repeat' split
  · exact .refl p
  · exact p.setAudit_ordinary _
  · exact .refl p

theorem Part.reportSession_ordinary (p : Part) (n : Socket) : p.Ordinary (p.reportSession n) :=
  (p.place_ordinary _ _).trans (Part.recompute_ordinary _)

theorem Part.setMarks_ordinary (p : Part) (n : Socket) (m : Marks) : p.Ordinary (p.setMarks n m) := by
  unfold Part.setMarks
  split
  · exact .refl p
  · exact (p.setSession_ordinary n _).trans (Part.recompute_ordinary _)

theorem Link.passOver_sound (l : Link) (h : l.Sound) :
    l.passOver.Sound ∧ (l.passOver.drop.isSome = true → l.drop.isSome = true) := by
  unfold Link.passOver
  split
  · exact ⟨h, id⟩
  · rename_i t ht
    split
    · exact ⟨⟨fun _ => h.1 (by rw [ht]; rfl), h.2⟩, id⟩
    · exact ⟨h, id⟩

theorem Part.discardChallenge_ordinary (p : Part) (n : Socket) : p.Ordinary (p.discardChallenge n) := by
  unfold Part.discardChallenge
  split
  · exact .refl p
  · dsimp only
    split
    · exact ((p.setSession_ordinary n _).trans (Part.setSlot_ordinary _ n none)).trans (Part.release_ordinary _)
    · exact (p.setSession_ordinary n _).trans (Part.setLink_ordinary _ n _ (Link.passOver_sound _))

/-- A refusal counted keeps the table within its bounds (R94). -/
theorem countRefusal_fit (x : Word) (t : List (Word × Nat)) (h1 : t.length ≤ 16) (h2 : ∀ e ∈ t, 1 ≤ e.2 ∧ e.2 ≤ 15)
    (h3 : (t.map Prod.fst).Nodup) :
    (countRefusal x t).length ≤ 16 ∧ (∀ e ∈ countRefusal x t, 1 ≤ e.2 ∧ e.2 ≤ 15) ∧
      ((countRefusal x t).map Prod.fst).Nodup := by
  unfold countRefusal
  split
  · rename_i e he
    have hm := List.mem_of_find?_eq_some he
    have hx : e.1 = x := by have := List.find?_some he; simpa using this
    refine ⟨?_, ?_, ?_⟩
    · have : (t.filter fun e => e.1 != x).length < t.length := by
        rw [List.length_filter_lt_length_iff_exists]
        exact ⟨e, hm, by simp [hx]⟩
      simp only [List.length_cons]; omega
    · intro y hy
      simp only [List.mem_cons, List.mem_filter] at hy
      rcases hy with rfl | hy
      · have := h2 e hm
        constructor <;> simp only <;> omega
      · exact h2 y hy.1
    · simp only [List.map_cons, List.nodup_cons]
      refine ⟨?_, (List.Sublist.map _ (List.filter_sublist)).nodup h3⟩
      simp only [List.mem_map, List.mem_filter, bne_iff_ne]
      rintro ⟨y, ⟨_, hy⟩, rfl⟩
      exact hy rfl
  · rename_i hn
    refine ⟨?_, ?_, ?_⟩
    · simp only [List.length_cons, List.length_take]; omega
    · intro y hy
      simp only [List.mem_cons] at hy
      rcases hy with rfl | hy
      · exact ⟨le_refl 1, Nat.le_of_ble_eq_true rfl⟩
      · exact h2 y (List.mem_of_mem_take hy)
    · simp only [List.map_cons, List.nodup_cons]
      refine ⟨?_, (List.Sublist.map _ (List.take_sublist _ _)).nodup h3⟩
      simp only [List.mem_map]
      rintro ⟨y, hy, rfl⟩
      have := List.find?_eq_none.mp hn y (List.mem_of_mem_take hy)
      simp at this

theorem Part.countReason_ordinary (p : Part) (r : Reason) (x : Option Word) : p.Ordinary (p.countReason r x) := by
  unfold Part.countReason
  split
  · exact p.setRecent_ordinary _ fun h => countRefusal_fit _ _ h.1 h.2.1 h.2.2
  · exact .refl p
  · exact .refl p

/-- A refusal is ordinary (R85). -/
theorem Part.refuse_ordinary (p : Part) (n : Socket) (r : Reason) : p.Ordinary (p.refuse n r) := by
  unfold Part.refuse
  exact (((((p.discardChallenge_ordinary n).trans (Part.setSession_ordinary _ n _)).trans
    (Part.auditResult_ordinary _ n _)).trans (Part.log_ordinary _ _)).trans (Part.countReason_ordinary _ _ _)).trans
    (Part.reportSession_ordinary _ n)

/-- An entry into WITHDRAWN is ordinary (R86). -/
theorem Part.withdraw_ordinary (p : Part) (n : Socket) : p.Ordinary (p.withdraw n) := by
  unfold Part.withdraw
  exact ((((p.discardChallenge_ordinary n).trans (Part.setSession_ordinary _ n _)).trans
    (Part.auditResult_ordinary _ n _)).trans (Part.log_ordinary _ _)).trans (Part.reportSession_ordinary _ n)

/-! ## Challenges -/

theorem Part.placeChallenge_ordinary (p : Part) (n : Socket) (why : Purpose) : p.Ordinary (p.placeChallenge n why) := by
  unfold Part.placeChallenge
  exact ((p.setSlot_ordinary n _).trans (Part.setSession_ordinary _ n _)).trans (Part.tryStart_ordinary _ n)

theorem Part.reserveAndPlace_ordinary (p : Part) (n : Socket) (why : Purpose) :
    p.Ordinary (p.reserveAndPlace n why) := by
  unfold Part.reserveAndPlace
  split
  · exact p.reserve_ordinary.trans (Part.placeChallenge_ordinary _ n why)
  · exact p.refuse_ordinary n _

theorem Part.bindKey_ordinary (p : Part) (n : Socket) (k : Fin 16) : p.Ordinary (p.bindKey n k) :=
  (p.setSession_ordinary n _).trans (Part.setMarks_ordinary _ n _)

/-- The issuing of a challenge is ordinary (R79). -/
theorem Part.issueChallenge_ordinary (p : Part) (n : Socket) (why : Purpose) : p.Ordinary (p.issueChallenge n why) := by
  unfold Part.issueChallenge
  repeat' split
  · exact .refl p
  · exact p.refuse_ordinary n _
  · exact (p.bindKey_ordinary n _).trans (Part.reserveAndPlace_ordinary _ n why)

theorem Part.recheckNow_ordinary (p : Part) (n : Socket) : p.Ordinary (p.recheckNow n) := by
  unfold Part.recheckNow
  split
  · exact p.issueChallenge_ordinary n _
  · exact .refl p

theorem Part.recomputeRecheck_ordinary (n : Socket) (p : Part) : p.Ordinary (Part.recomputeRecheck n p) := by
  unfold Part.recomputeRecheck
  split
  · dsimp only
    split
    · exact (p.setSession_ordinary n _).trans (Part.recheckNow_ordinary _ n)
    · exact p.setSession_ordinary n _
  · exact .refl p

theorem Part.recheckReached_ordinary (p : Part) (n : Socket) : p.Ordinary (p.recheckReached n) := by
  unfold Part.recheckReached
  split
  · exact p.recheckNow_ordinary n
  · exact .refl p

/-! ## Sessions -/

theorem Part.placeIdentify_ordinary (p : Part) (n : Socket) : p.Ordinary (p.placeIdentify n) :=
  (p.setSlot_ordinary n _).trans (Part.tryStart_ordinary _ n)

/-- The start of a session is ordinary (R74). -/
theorem Part.startSession_ordinary (p : Part) (n : Socket) : p.Ordinary (p.startSession n) :=
  ((p.setSession_ordinary n _).trans (Part.reportSession_ordinary _ n)).trans (Part.placeIdentify_ordinary _ n)

theorem Part.identifyMiss_ordinary (p : Part) (n : Socket) : p.Ordinary (p.identifyMiss n) := by
  unfold Part.identifyMiss
  dsimp only
  split
  · exact (p.setSession_ordinary n _).trans (Part.placeIdentify_ordinary _ n)
  · exact (p.setSession_ordinary n _).trans (Part.refuse_ordinary _ n _)

theorem Part.duplicate_ordinary (p : Part) (n m : Socket) : p.Ordinary (p.duplicate n m) :=
  ((p.refuse_ordinary n _).trans (Part.recheckNow_ordinary _ m)).trans (Part.momentary_ordinary _ _ rfl)

theorem Part.bindSession_ordinary (p : Part) (n : Socket) (i : Identity) (k : Fin 16) (c : Fin 32) :
    p.Ordinary (p.bindSession n i k c) :=
  (p.setSession_ordinary n _).trans (Part.reportSession_ordinary _ n)

/-- The identity checks are ordinary (R76). -/
theorem Part.checkIdentity_ordinary (p : Part) (n : Socket) (i : Identity) : p.Ordinary (p.checkIdentity n i) := by
  unfold Part.checkIdentity
  repeat' split
  · exact p.refuse_ordinary n _
  · exact p.withdraw_ordinary n
  · exact p.refuse_ordinary n _
  · exact p.duplicate_ordinary n _
  · exact p.refuse_ordinary n _
  · exact p.refuse_ordinary n _
  · exact (p.bindSession_ordinary n i _ _).trans (Part.issueChallenge_ordinary _ n _)

theorem Part.acceptIdentity_ordinary (p : Part) (n : Socket) (b : List Byte) : p.Ordinary (p.acceptIdentity n b) :=
  (p.setSession_ordinary n _).trans (Part.checkIdentity_ordinary _ n _)

theorem Part.openAdmission_ordinary (p : Part) (n : Socket) : p.Ordinary (p.openAdmission n) :=
  (p.setSession_ordinary n _).trans (Part.reportSession_ordinary _ n)

theorem Part.failAttempt_ordinary (p : Part) (n : Socket) (r : Reason) (why : Purpose) :
    p.Ordinary (p.failAttempt n r why) := by
  unfold Part.failAttempt
  dsimp only
  split
  · exact (p.setSession_ordinary n _).trans (Part.issueChallenge_ordinary _ n _)
  · exact (p.setSession_ordinary n _).trans (Part.refuse_ordinary _ n _)

theorem Part.suspectNow_ordinary (p : Part) (n : Socket) : p.Ordinary (p.suspectNow n) :=
  ((p.setSession_ordinary n _).trans (Part.reportSession_ordinary _ n)).trans (Part.issueChallenge_ordinary _ n _)

/-- A judged outcome's effect is ordinary (R82 to R84). -/
theorem Part.applyVerdict_ordinary (p : Part) (n : Socket) (v : Verdict) : p.Ordinary (p.applyVerdict n v) := by
  unfold Part.applyVerdict
  split
  · exact p.openAdmission_ordinary n
  · exact p.failAttempt_ordinary n _ _
  · exact p.failAttempt_ordinary n _ _
  · exact p.refuse_ordinary n _
  · exact p.setSession_ordinary n _
  · exact p.suspectNow_ordinary n
  · exact p.suspectNow_ordinary n
  · exact p.refuse_ordinary n _
  · exact p.openAdmission_ordinary n
  · exact p.failAttempt_ordinary n _ _
  · exact p.failAttempt_ordinary n _ _
  · exact p.refuse_ordinary n _
  · exact .refl p
  · exact .refl p
  · exact .refl p
  · exact .refl p

theorem Part.judged_ordinary (p : Part) (n : Socket) (v : Verdict) : p.Ordinary (p.judged n v) :=
  (p.auditResult_ordinary n _).trans (Part.applyVerdict_ordinary _ n v)

theorem Part.judge_ordinary (p : Part) (n : Socket) (t : Transaction) (o : TxOutcome) : p.Ordinary (p.judge n t o) := by
  unfold Part.judge
  split
  · dsimp only
    repeat' split
    · exact (p.setSession_ordinary n _).trans (Part.issueChallenge_ordinary _ n _)
    · exact (p.setSession_ordinary n _).trans (Part.judged_ordinary _ n _)
    · exact (p.setSession_ordinary n _).trans (Part.judged_ordinary _ n _)
    · exact (p.setSession_ordinary n _).trans (Part.judged_ordinary _ n _)
    · exact (p.setSession_ordinary n _).trans (Part.judged_ordinary _ n _)
  · exact .refl p

theorem Part.identifyOutcome_ordinary (p : Part) (n : Socket) (o : TxOutcome) : p.Ordinary (p.identifyOutcome n o) := by
  unfold Part.identifyOutcome
  repeat' split
  · exact p.acceptIdentity_ordinary n _
  · exact p.identifyMiss_ordinary n
  · exact p.identifyMiss_ordinary n
  · exact p.identifyMiss_ordinary n
  · exact .refl p

/-- The report of an engine transaction is ordinary (R24). -/
theorem Part.engineReport_ordinary (p : Part) (n : Socket) (t : Transaction) (o : TxOutcome) :
    p.Ordinary (p.engineReport n t o) := by
  unfold Part.engineReport
  repeat' split
  · exact .refl p
  · exact p.identifyOutcome_ordinary n o
  · exact p.judge_ordinary n t o

theorem Part.checkSequence_ordinary (p : Part) (n : Socket) (v : Byte) : p.Ordinary (p.checkSequence n v) := by
  unfold Part.checkSequence
  dsimp only
  repeat' split
  · exact p.setSession_ordinary n _
  · exact p.setSession_ordinary n _
  · exact ((p.setSession_ordinary n _).trans (Part.setSession_ordinary _ n _)).trans (Part.recheckNow_ordinary _ n)

theorem Part.engineStatus_ordinary (p : Part) (n : Socket) (b : List Byte) : p.Ordinary (p.engineStatus n b) := by
  have h (q : Part) : q.Ordinary (if (q.session n).state = .none then q
      else q.setSession n ((q.session n).refresh b q.clock)) := by
    split
    · exact .refl q
    · exact q.setSession_ordinary n _
  unfold Part.engineStatus
  dsimp only
  split
  · exact (p.checkSequence_ordinary n _).trans (h _)
  · exact h p

theorem Part.showStatus_ordinary (p : Part) (n : Socket) (b : List Byte) : p.Ordinary (p.showStatus n b) :=
  ((p.engineStatus_ordinary n b).trans (Part.setStale_ordinary _ n _)).trans (Part.recompute_ordinary _)

/-! ## Orders and session ends -/

theorem Part.remark_ordinary (p : Part) (n : Socket) : p.Ordinary (p.remark n) := p.setMarks_ordinary n _

theorem Part.relookup_ordinary (p : Part) (n : Socket) : p.Ordinary (p.relookup n) := by
  unfold Part.relookup
  dsimp only
  split
  · exact p.issueChallenge_ordinary n _
  · exact (p.discardChallenge_ordinary n).trans (Part.issueChallenge_ordinary _ n _)
  · exact .refl p

/-- An order is ordinary (R92). -/
theorem Part.order_ordinary (p : Part) (n : Socket) (o : Order) : p.Ordinary (p.order n o) := by
  unfold Part.order
  repeat' split
  · exact p.relookup_ordinary n
  · exact p.refuse_ordinary n _
  · exact p.withdraw_ordinary n
  · exact p.remark_ordinary n
  · exact .refl p

theorem Part.logPeak_ordinary (p : Part) (n : Socket) : p.Ordinary (p.logPeak n) := by
  unfold Part.logPeak
  split
  · exact .refl p
  · exact p.log_ordinary _

theorem Part.closeSession_ordinary (p : Part) (n : Socket) : p.Ordinary (p.closeSession n) := by
  unfold Part.closeSession
  exact (((((p.discardChallenge_ordinary n).trans (Part.logPeak_ordinary _ n)).trans
    (Part.auditResult_ordinary _ n _)).trans (Part.setSession_ordinary _ n _)).trans
    (Part.setStale_ordinary _ n _)).trans (Part.setDecim_ordinary _ n _)

/-- The end of a session is ordinary (R93). -/
theorem Part.endSession_ordinary (p : Part) (n : Socket) : p.Ordinary (p.endSession n) := by
  unfold Part.endSession
  split
  · exact .refl p
  · exact (p.closeSession_ordinary n).trans (Part.reportSession_ordinary _ n)

theorem Part.endSessionSilently_ordinary (n : Socket) (p : Part) : p.Ordinary (Part.endSessionSilently n p) := by
  unfold Part.endSessionSilently
  split
  · exact .refl p
  · exact p.closeSession_ordinary n

end Sys2Proof.Machine
end

