-- ==== Sys2Proof/Laws/OrdinaryEvents.lean ====
section
/-! SUPPORT. The audit's course and the pack link events as ordinary actions. -/

namespace Sys2Proof.Machine

/-! ## The audit -/

theorem Part.auditReach_ordinary (p : Part) (n : Socket) (a : Audit) : p.Ordinary (p.auditReach n a) := by
  unfold Part.auditReach
  dsimp only
  repeat' split
  · exact p.setAudit_ordinary _
  · exact (p.setAudit_ordinary _).trans (Part.issueChallenge_ordinary _ n _)
  · exact (p.setAudit_ordinary _).trans (Part.auditResult_ordinary _ n _)

theorem Part.auditTurn_ordinary (n : Socket) (p : Part) : p.Ordinary (Part.auditTurn n p) := by
  unfold Part.auditTurn
  repeat' split
  · exact .refl p
  · exact p.auditReach_ordinary n _
  · exact .refl p

theorem Part.auditWithdrawNext_ordinary (p : Part) (a : Audit) (xs : List Word) :
    p.Ordinary (p.auditWithdrawNext a xs) := by
  unfold Part.auditWithdrawNext
  repeat' split
  · exact p.setAudit_ordinary _
  · exact p.setAudit_ordinary _
  · exact (p.setAudit_ordinary _).trans (Part.tableJob_ordinary _ _)
  · exact p.setAudit_ordinary _

theorem Part.massTest_ordinary (p : Part) (a : Audit) : p.Ordinary (p.massTest a) := by
  unfold Part.massTest
  repeat' split
  · exact p.setAudit_ordinary _
  · exact (p.setAudit_ordinary _).trans (Part.momentary_ordinary _ _ rfl)
  · exact p.auditWithdrawNext_ordinary a _

theorem Part.auditTest_ordinary (p : Part) : p.Ordinary p.auditTest := by
  unfold Part.auditTest
  repeat' split
  · exact .refl p
  · exact p.massTest_ordinary _
  · exact .refl p
  · exact .refl p
  · exact .refl p

/-- What an audit does after an event is ordinary (R97, R99). -/
theorem Part.auditProgress_ordinary (p : Part) : p.Ordinary p.auditProgress :=
  (forSockets_ordinary Part.auditTurn Part.auditTurn_ordinary p).trans (Part.auditTest_ordinary _)

theorem Part.auditFinish_ordinary (p : Part) : p.Ordinary p.auditFinish := by
  unfold Part.auditFinish
  repeat' split
  · exact .refl p
  · exact ((p.respond_ordinary _ _ _).trans (Part.log_ordinary _ _)).trans (Part.setAudit_ordinary _ _)
  · exact .refl p
  · exact .refl p
  · exact .refl p

theorem Part.auditJobEnded_ordinary (p : Part) (ok : Bool) : p.Ordinary (p.auditJobEnded ok) := by
  unfold Part.auditJobEnded
  repeat' split
  · exact .refl p
  · exact p.auditWithdrawNext_ordinary _ _
  · exact p.setAudit_ordinary _
  · exact .refl p
  · exact .refl p

/-! ## Presence -/

theorem Part.adviseLink_ordinary (p : Part) (n : Socket) : p.Ordinary (p.adviseLink n) := p.place_ordinary _ _

/-- An entry into SETTLING from VACANT, or from HALTED by the recovery timer (R16, R34). -/
theorem Part.enterSettling_ordinary (p : Part) (n : Socket)
    (h : (p.link n).state = .vacant ∨ (p.link n).recovery.isSome = true) : p.Ordinary (p.enterSettling n) := by
  refine p.setLink_ordinary n _ fun hs => ⟨?_, id⟩
  obtain ⟨h1, h2, h3, h4, h5, h6, h7, h8, h9⟩ := hs
  have hd : (p.link n).drop = none := by
    rcases h with h | h
    · by_contra hd
      exact (h7 (Option.isSome_iff_ne_none.mpr hd)).1 h
    · exact (h8 h).2
  have hw : (p.link n).state.working = false := by
    rcases h with h | h
    · rw [h]; rfl
    · rw [(h8 h).1]; rfl
  have ht : (p.link n).tx = none := by
    by_contra ht
    rw [h1 (Option.isSome_iff_ne_none.mpr ht)] at hw; cases hw
  have hq : (p.link n).pollQueue = [] := by
    by_contra hq
    rw [h5 hq] at hw; cases hw
  refine ⟨?_, ?_, ?_, ?_, ?_, ?_, ?_, ?_, ?_⟩ <;> simp [hd, ht, hq]

theorem Part.startRecovery_ordinary (p : Part) (n : Socket) : p.Ordinary (p.startRecovery n) := by
  unfold Part.startRecovery
  split
  · rename_i hr
    simp only [Part.recoveryRuns, Bool.and_eq_true, beq_iff_eq] at hr
    refine p.setLink_ordinary_of n _ fun hs => ?_
    have hd : (p.link n).drop = none := by
      by_contra hd
      have := (hs.2 (Option.isSome_iff_ne_none.mpr hd)).1
      rw [hr.1.2] at this; cases this
    obtain ⟨⟨h1, h2, h3, h4, h5, h6, h7, h8, h9⟩, h10⟩ := hs
    refine ⟨?_, ?_⟩
    · rw [Part.setLink_link, if_pos rfl]
      exact ⟨h1, h2, h3, h4, h5, h6, h7, fun _ => ⟨hr.1.1.1, hd⟩, h9⟩
    · rw [Part.setLink_link, if_pos rfl]
      exact h10
  · exact .refl p

/-- The contact's level is asserted and the drop timer cleared (R18). -/
theorem Link.Sound.noDrop {l : Link} (h : l.Sound) : ({ l with drop := none } : Link).Sound :=
  ⟨h.1, h.2.1, h.2.2.1, h.2.2.2.1, h.2.2.2.2.1, h.2.2.2.2.2.1, fun hd => (by cases hd),
   fun hr => ⟨(h.2.2.2.2.2.2.2.1 hr).1, rfl⟩, h.2.2.2.2.2.2.2.2⟩

theorem Part.clearDrop_ordinary (p : Part) (n : Socket) : p.Ordinary (p.setLink n { p.link n with drop := none }) :=
  p.setLink_ordinary n _ fun h => ⟨h.noDrop, fun hd => by cases hd⟩

/-- An expiry of the settle timer is ordinary (R17). -/
theorem Part.settleExpiry_ordinary (n : Socket) (p : Part) : p.Ordinary (Part.settleExpiry n p) := by
  unfold Part.settleExpiry
  split
  · rename_i h1 h2
    refine Part.Ordinary.trans ?_ (Part.adviseLink_ordinary _ n)
    refine Part.Ordinary.trans ?_ (Part.startSession_ordinary _ n)
    refine p.setLink_ordinary n _ fun hs => ⟨?_, id⟩
    obtain ⟨g1, g2, g3, g4, g5, g6, g7, g8, g9⟩ := hs
    refine ⟨fun _ => rfl, by simp, by simp, g4, fun _ => rfl, by simp, fun _ => by simp, fun hr => ?_, by simp⟩
    have := (g8 hr).1
    rw [h1] at this; cases this
  · exact .refl p

theorem Link.abandon_fields (l : Link) : l.abandon.tx = none ∧ l.abandon.state = l.state ∧ l.abandon.errors = l.errors ∧
    l.abandon.settle = l.settle ∧ l.abandon.drop = l.drop ∧ l.abandon.recovery = l.recovery := by
  unfold Link.abandon
  split
  · rename_i h; exact ⟨h, rfl, rfl, rfl, rfl, rfl⟩
  · exact ⟨rfl, rfl, rfl, rfl, rfl, rfl⟩

theorem Link.removed_sound (l : Link) (h : l.drop.isSome = true) (hs : l.Sound) : l.removed.Sound := by
  obtain ⟨a1, a2, a3, a4, a5, a6⟩ := l.abandon_fields
  obtain ⟨g1, g2, g3, g4, g5, g6, g7, g8, g9⟩ := hs
  have hset : l.settle = none := by
    by_contra hn
    exact (g7 h).2 (g6 (Option.isSome_iff_ne_none.mpr hn))
  refine ⟨?_, ?_, ?_, ?_, ?_, ?_, ?_, ?_, ?_⟩ <;> simp [Link.removed, Link.empty, a1, a4, hset]

/-- An expiry of the drop timer is ordinary (R19). -/
theorem Part.dropExpiry_ordinary (n : Socket) (p : Part) : p.Ordinary (Part.dropExpiry n p) := by
  unfold Part.dropExpiry
  split
  · exact .refl p
  · rename_i d hd
    refine Part.Ordinary.trans ?_ (Part.auditProgress_ordinary _)
    refine Part.Ordinary.trans ?_ (Part.adviseLink_ordinary _ n)
    refine Part.Ordinary.trans ?_ (Part.endSession_ordinary _ n)
    exact p.setLink_ordinary n _ fun hs => ⟨Link.removed_sound _ (by rw [hd]; rfl) hs, fun h => by cases h⟩

/-- An expiry of the recovery timer is ordinary (R34). -/
theorem Part.recoveryExpiry_ordinary (n : Socket) (p : Part) : p.Ordinary (Part.recoveryExpiry n p) := by
  unfold Part.recoveryExpiry
  split
  · exact .refl p
  · rename_i d hd
    exact (p.enterSettling_ordinary n (.inr (by rw [hd]; rfl))).trans (Part.adviseLink_ordinary _ n)

/-! ## Transactions -/

theorem Part.regrade_ordinary (p : Part) (n : Socket) (st : LinkState) (h1 : st.working = true)
    (h2 : (p.link n).state.working = true) : p.Ordinary (p.regrade n st) := by
  refine Part.Ordinary.trans ?_ (Part.adviseLink_ordinary _ n)
  refine Part.Ordinary.trans ?_ (Part.recomputeRecheck_ordinary n _)
  refine p.setLink_ordinary n _ fun hs => ⟨?_, id⟩
  obtain ⟨g1, g2, g3, g4, g5, g6, g7, g8, g9⟩ := hs
  have hne : (p.link n).state ≠ .halted := by intro h; rw [h] at h2; cases h2
  have hst : st ≠ .halted := by intro h; rw [h] at h1; cases h1
  have hv : st ≠ .vacant := by intro h; rw [h] at h1; cases h1
  have hse : st ≠ .settling := by intro h; rw [h] at h1; cases h1
  refine ⟨fun _ => h1, ?_, g3, g4, fun _ => h1, ?_, fun _ => ⟨hv, hse⟩, ?_, ?_⟩
  · constructor
    · intro h; exact absurd (g2.mp h) hne
    · intro h; exact absurd h hst
  · intro h
    have := g6 h
    rw [this] at h2; cases h2
  · intro h
    exact absurd (g8 h).1 hne
  · intro h
    rcases h with h | h
    · exact absurd h hv
    · exact absurd h hse

theorem Part.compareThresholds_ordinary (p : Part) (n : Socket) : p.Ordinary (p.compareThresholds n) := by
  unfold Part.compareThresholds
  repeat' split
  · rename_i h _; exact p.regrade_ordinary n _ rfl (by rw [h]; rfl)
  · exact .refl p
  · rename_i h _; exact p.regrade_ordinary n _ rfl (by rw [h]; rfl)
  · exact .refl p
  · exact .refl p
  · exact .refl p
  · exact .refl p

theorem Part.relayReply_ordinary (p : Part) (n : Socket) (f : Frame) : p.Ordinary (p.relayReply n f) := by
  unfold Part.relayReply
  split
  · exact (p.showStatus_ordinary n _).trans (Part.classifyUp_ordinary _ n f)
  · exact p.classifyUp_ordinary n f

theorem Part.reportOutcome_ordinary (p : Part) (n : Socket) (t : Transaction) (o : TxOutcome) :
    p.Ordinary (p.reportOutcome n t o) := by
  unfold Part.reportOutcome
  split
  · exact p.engineReport_ordinary n t _
  · exact p.relayReply_ordinary n _
  · exact .refl p
  · exact .refl p
  · exact .refl p

theorem errorsAfter_le (good : Bool) (e : Nat) (h : e ≤ 255) : errorsAfter good e ≤ 255 := by
  unfold errorsAfter
  split <;> omega

/-- What follows an entry into HALTED: the session's end, the log entry, the advisory, the recovery timer (R33). -/
def Part.afterHalt (p : Part) (n : Socket) : Part :=
  (((p.endSession n).log (haltEntry n)).adviseLink n).startRecovery n

theorem Part.halt_eq (p : Part) (n : Socket) :
    p.halt n = (p.setLink n { (p.link n).empty with state := .halted }).afterHalt n := rfl

theorem Part.afterHalt_ordinary (p : Part) (n : Socket) : p.Ordinary (p.afterHalt n) := by
  unfold Part.afterHalt
  exact (((p.endSession_ordinary n).trans (Part.log_ordinary _ _)).trans (Part.adviseLink_ordinary _ n)).trans
    (Part.startRecovery_ordinary _ n)

/-- The end of a transaction is ordinary (R24 to R26, R31 to R33). -/
theorem Part.endTransaction_ordinary (p : Part) (n : Socket) (t : Transaction) (o : TxOutcome)
    (ht : (p.link n).tx.isSome = true) : p.Ordinary (p.endTransaction n t o) := by
  unfold Part.endTransaction
  dsimp only
  refine Part.Ordinary.trans ?_ (Part.auditProgress_ordinary _)
  have hl : ∀ x, (p.setLink n x).link n = x := fun x => by rw [Part.setLink_link, if_pos rfl]
  split
  · rename_i he
    rw [hl] at he
    rw [Part.halt_eq, Part.setLink_setLink, hl]
    refine Part.Ordinary.trans ?_ (Part.afterHalt_ordinary _ n)
    refine p.setLink_ordinary n _ fun hs => ⟨?_, id⟩
    obtain ⟨g1, g2, g3, g4, g5, g6, g7, g8, g9⟩ := hs
    have hw := g1 ht
    have hset : (p.link n).settle = none := by
      by_contra hn
      rw [g6 (Option.isSome_iff_ne_none.mpr hn)] at hw; cases hw
    have hrec : (p.link n).recovery = none := by
      by_contra hn
      rw [(g8 (Option.isSome_iff_ne_none.mpr hn)).1] at hw; cases hw
    simp only at he
    refine ⟨?_, ?_, ?_, ?_, ?_, ?_, ?_, ?_, ?_⟩ <;> simp [Link.empty, he, hset, hrec]
  · rename_i he
    rw [hl] at he
    refine Part.Ordinary.trans ?_ (Part.tryStart_ordinary _ n)
    refine Part.Ordinary.trans ?_ (Part.reportOutcome_ordinary _ n t o)
    refine Part.Ordinary.trans ?_ (Part.compareThresholds_ordinary _ n)
    refine p.setLink_ordinary n _ fun hs => ⟨?_, id⟩
    obtain ⟨g1, g2, g3, g4, g5, g6, g7, g8, g9⟩ := hs
    have hw := g1 ht
    refine ⟨fun h => (by cases h), ?_, errorsAfter_le _ _ g3, g4, fun _ => hw, g6, g7, g8, ?_⟩
    · constructor
      · intro h; exact absurd h he
      · intro h; rw [h] at hw; cases hw
    · intro h
      rcases h with h | h <;> (rw [h] at hw; cases hw)

theorem Part.setTx_ordinary (p : Part) (n : Socket) (t : Transaction) (ht : (p.link n).tx.isSome = true) :
    p.Ordinary (p.setTx n (some t)) :=
  p.setLink_ordinary n _ fun h => ⟨⟨fun _ => h.1 ht, h.2⟩, id⟩

theorem Part.frameSent_ordinary (n : Socket) (p : Part) : p.Ordinary (Part.frameSent n p) := by
  unfold Part.frameSent
  split
  · refine Part.Ordinary.trans ?_ (Part.tryStart_ordinary _ n)
    exact p.setLink_ordinary n _ fun h => ⟨h, id⟩
  · split
    · exact .refl p
    · rename_i t ht
      split
      · exact p.setTx_ordinary n _ (by rw [ht]; rfl)
      · exact .refl p
      · exact .refl p

theorem Part.replyBegins_ordinary (n : Socket) (p : Part) : p.Ordinary (Part.replyBegins n p) := by
  unfold Part.replyBegins
  split
  · exact .refl p
  · rename_i t ht
    split
    · exact p.setTx_ordinary n _ (by rw [ht]; rfl)
    · exact .refl p
    · exact .refl p

theorem Part.windowExpiry_ordinary (n : Socket) (p : Part) : p.Ordinary (Part.windowExpiry n p) := by
  unfold Part.windowExpiry
  split
  · exact .refl p
  · rename_i t ht
    split
    · exact p.endTransaction_ordinary n t _ (by rw [ht]; rfl)
    · exact .refl p
    · exact .refl p

theorem Part.replyBytes_ordinary (n : Socket) (bs : List Byte) (p : Part) : p.Ordinary (Part.replyBytes n bs p) := by
  unfold Part.replyBytes
  split
  · exact .refl p
  · rename_i t ht
    split
    · split
      · exact p.endTransaction_ordinary n t _ (by rw [ht]; rfl)
      · split
        · exact p.setTx_ordinary n _ (by rw [ht]; rfl)
        · exact p.endTransaction_ordinary n t _ (by rw [ht]; rfl)
    · exact .refl p
    · exact .refl p

theorem Part.packByteTimeout_ordinary (n : Socket) (p : Part) : p.Ordinary (Part.packByteTimeout n p) := by
  unfold Part.packByteTimeout
  split
  · exact .refl p
  · rename_i t ht
    split
    · exact p.endTransaction_ordinary n t _ (by rw [ht]; rfl)
    · exact .refl p
    · exact .refl p

theorem Part.toolByteTimeout_ordinary (p : Part) : p.Ordinary p.toolByteTimeout := p.setTlp_ordinary' _ rfl rfl rfl rfl rfl

theorem Part.recheckExpiry_ordinary (n : Socket) (p : Part) : p.Ordinary (Part.recheckExpiry n p) :=
  (p.recheckReached_ordinary n).trans (Part.auditProgress_ordinary _)

/-! ## Restart, PARK, contacts -/

/-- A link is sound after SOCKET-RESTART or the in-band reset, whatever it was before (R36, R37). -/
theorem Part.sampleContact_sound (n : Socket) (p : Part) (d : Option Frame) (e : Option EngineFrame)
    (h : p.link n = { p.link n with settle := none, drop := none, recovery := none, errors := 0, pollQueue := [], engineSlot := e, tx := none, draining := d }) :
    (Part.sampleContact n p).LinkSound n := by
  unfold Part.sampleContact
  split
  · refine ⟨?_, ?_⟩
    · rw [Part.setLink_link, if_pos rfl, h]
      refine ⟨?_, ?_, ?_, ?_, ?_, ?_, ?_, ?_, ?_⟩ <;> simp
    · rw [Part.setLink_link, if_pos rfl, h]; simp
  · refine ⟨?_, ?_⟩
    · rw [Part.setLink_link, if_pos rfl, h]
      refine ⟨?_, ?_, ?_, ?_, ?_, ?_, ?_, ?_, ?_⟩ <;> simp
    · rw [Part.setLink_link, if_pos rfl, h]; simp

end Sys2Proof.Machine
end

