-- ==== Sys2Proof/Laws/OrdinaryRequests.lean ====
section
/-! SUPPORT. The management requests that are ordinary actions: reports, table edits, control requests, log reads. -/

namespace Sys2Proof.Machine

/-! ## What every request meets (R40, R43, R163, R164) -/

theorem Part.restartSilence_ordinary (p : Part) : p.Ordinary p.restartSilence := by
  refine Part.Ordinary.trans ?_ (Part.reportCause_ordinary _ _ _ ?_ rfl rfl rfl)
  · exact p.setTlp_ordinary' _ rfl rfl rfl rfl rfl
  · intro d hd
    cases d <;> first | rfl | exact absurd rfl hd

theorem Part.silenceExpiry_ordinary (p : Part) : p.Ordinary p.silenceExpiry := by
  unfold Part.silenceExpiry
  split
  · exact .refl p
  · refine Part.Ordinary.trans ?_ (Part.reportCause_ordinary _ _ _ ?_ rfl rfl rfl)
    · exact p.setTlp_ordinary' _ rfl rfl rfl rfl rfl
    · intro d hd
      cases d <;> first | rfl | exact absurd rfl hd

theorem Part.setRequest_ordinary (p : Part) (q : Option Request) : p.Ordinary (p.setRequest q) :=
  p.setMgmt_ordinary _ rfl rfl

theorem Part.badShape_ordinary (code : Byte) (p : Part) : p.Ordinary (Part.badShape code p) := by
  unfold Part.badShape
  split
  · exact .refl p
  · dsimp only
    split
    · split
      · exact p.restartSilence_ordinary.trans (Part.place_ordinary _ _ _)
      · exact p.restartSilence_ordinary.trans (Part.busy_ordinary _ _)
    · exact (p.restartSilence_ordinary.trans (Part.setRequest_ordinary _ _)).trans (Part.refuseWith_ordinary _ _ _)

/-- A request whose own effect is ordinary is ordinary. -/
theorem Part.request_ordinary (code : Byte) (least most : Nat) (wp : Bool) (words : List Word) (f : Part → Part)
    (hf : ∀ q, Part.Ordinary q (f q)) (p : Part) : p.Ordinary (Part.request code least most wp words f p) := by
  unfold Part.request
  split
  · exact .refl p
  · dsimp only
    split
    · exact p.restartSilence_ordinary.trans (Part.busy_ordinary _ _)
    · refine (p.restartSilence_ordinary.trans (Part.setRequest_ordinary _ (some (.new code words)))).trans ?_
      repeat' split
      · exact Part.refuseWith_ordinary _ _ _
      · exact Part.refuseWith_ordinary _ _ _
      · exact hf _

/-! ## Reports (R165 to R169) -/

theorem Part.onDescribe_ordinary (words : List Word) (p : Part) : p.Ordinary (Part.onDescribe words p) :=
  Part.request_ordinary _ _ _ _ _ _ (fun q => by
    refine Part.Ordinary.trans ?_ (Part.setMgmt_ordinary _ _ rfl rfl)
    exact q.respond_ordinary _ _ _) p

theorem Part.onSocketReport_ordinary (words : List Word) (p : Part) : p.Ordinary (Part.onSocketReport words p) :=
  Part.request_ordinary _ _ _ _ _ _ (fun q => by
    unfold Part.socketReport
    repeat' split
    · exact q.refuseWith_ordinary _ _
    · exact q.respond_ordinary _ _ _
    · exact q.respond_ordinary _ _ _
    · exact q.refuseWith_ordinary _ _) p

theorem Part.onFaultReport_ordinary (words : List Word) (p : Part) : p.Ordinary (Part.onFaultReport words p) :=
  Part.request_ordinary _ _ _ _ _ _ (fun q => q.respond_ordinary _ _ _) p

theorem Part.onTableRead_ordinary (words : List Word) (p : Part) : p.Ordinary (Part.onTableRead words p) :=
  Part.request_ordinary _ _ _ _ _ _ (fun q => by
    unfold Part.tableRead
    dsimp only
    repeat' split
    all_goals first | exact q.refuseWith_ordinary _ _ | exact q.respond_ordinary _ _ _) p

theorem Part.onSettingRead_ordinary (words : List Word) (p : Part) : p.Ordinary (Part.onSettingRead words p) :=
  Part.request_ordinary _ _ _ _ _ _ (fun q => by
    unfold Part.settingRead
    dsimp only
    split
    · exact q.refuseWith_ordinary _ _
    · exact q.respond_ordinary _ _ _) p

/-! ## FAULT-ACK (R158) -/

theorem Part.ackCond_ordinary (mask : Byte) (p : Part) (c : Cond) : p.Ordinary (Part.ackCond mask p c) := by
  unfold Part.ackCond
  split
  · rename_i h
    refine p.changeCond_ordinary c .inactive (by simp) fun hc hl => ?_
    simp only [Bool.and_eq_true, beq_iff_eq] at h
    have := hc hl c
    rw [h.2] at this
    cases hp : p.fault.causes.present c
    · rfl
    · exact absurd (this.mpr hp) (by simp)
  · exact .refl p

theorem foldl_ordinary {α : Type} (f : Part → α → Part) (hf : ∀ p x, Part.Ordinary p (f p x)) (xs : List α) (p : Part) :
    p.Ordinary (xs.foldl f p) := by
  induction xs generalizing p with
  | nil => exact .refl p
  | cons x xs ih => exact (hf p x).trans (ih _)

theorem Part.onFaultAck_ordinary (words : List Word) (p : Part) : p.Ordinary (Part.onFaultAck words p) :=
  Part.request_ordinary _ _ _ _ _ _ (fun q =>
    (foldl_ordinary _ (Part.ackCond_ordinary _) Cond.all q).trans (Part.respond_ordinary _ _ _ _)) p

/-! ## Table edits (R114, R116, R117, R120, R122, R124, R126, R127, R66 to R68) -/

theorem Part.queueTable_ordinary (p : Part) (j : TableJob) : p.Ordinary (p.tableJob j) := p.tableJob_ordinary j

theorem Part.onKeyWrite_ordinary (words : List Word) (p : Part) : p.Ordinary (Part.onKeyWrite words p) :=
  Part.request_ordinary _ _ _ _ _ _ (fun q => by
    unfold Part.keyWrite
    repeat' split
    all_goals first | exact q.refuseWith_ordinary _ _ | exact q.queueTable_ordinary _) p

theorem Part.onKeyRetire_ordinary (words : List Word) (p : Part) : p.Ordinary (Part.onKeyRetire words p) :=
  Part.request_ordinary _ _ _ _ _ _ (fun q => by
    unfold Part.keyRetire
    repeat' split
    · exact q.refuseWith_ordinary _ _
    · exact q.refuseWith_ordinary _ _
    · exact q.respond_ordinary _ _ _
    · exact q.queueTable_ordinary _) p

theorem Part.onKeyErase_ordinary (words : List Word) (p : Part) : p.Ordinary (Part.onKeyErase words p) :=
  Part.request_ordinary _ _ _ _ _ _ (fun q => by
    unfold Part.keyErase
    repeat' split
    all_goals first | exact q.refuseWith_ordinary _ _ | exact q.queueTable_ordinary _) p

theorem Part.onClassWrite_ordinary (words : List Word) (p : Part) : p.Ordinary (Part.onClassWrite words p) :=
  Part.request_ordinary _ _ _ _ _ _ (fun q => by
    unfold Part.classWrite
    dsimp only
    repeat' split
    all_goals first | exact q.refuseWith_ordinary _ _ | exact q.queueTable_ordinary _) p

theorem Part.onClassErase_ordinary (words : List Word) (p : Part) : p.Ordinary (Part.onClassErase words p) :=
  Part.request_ordinary _ _ _ _ _ _ (fun q => by
    unfold Part.classErase
    repeat' split
    all_goals first | exact q.refuseWith_ordinary _ _ | exact q.queueTable_ordinary _) p

theorem Part.onWithdrawAdd_ordinary (words : List Word) (p : Part) : p.Ordinary (Part.onWithdrawAdd words p) :=
  Part.request_ordinary _ _ _ _ _ _ (fun q => by
    unfold Part.withdrawAdd
    dsimp only
    repeat' split
    all_goals first
      | exact q.refuseWith_ordinary _ _
      | exact q.queueTable_ordinary _
      | exact (q.respond_ordinary _ _ _).trans (Part.log_ordinary _ _)) p

theorem Part.onWithdrawClear_ordinary (words : List Word) (p : Part) : p.Ordinary (Part.onWithdrawClear words p) :=
  Part.request_ordinary _ _ _ _ _ _ (fun q => q.queueTable_ordinary _) p

theorem Part.onWithdrawQuery_ordinary (words : List Word) (p : Part) : p.Ordinary (Part.onWithdrawQuery words p) :=
  Part.request_ordinary _ _ _ _ _ _ (fun q => by
    unfold Part.withdrawQuery
    split
    · exact q.respond_ordinary _ _ _
    · exact q.refuseWith_ordinary _ _) p

theorem Part.onRulesEdit_ordinary (words : List Word) (p : Part) : p.Ordinary (Part.onRulesEdit words p) :=
  Part.request_ordinary _ _ _ _ _ _ (fun q => (q.setClassifier_ordinary _).trans (Part.respond_ordinary _ _ _ _)) p

theorem Part.onRuleWrite_ordinary (words : List Word) (p : Part) : p.Ordinary (Part.onRuleWrite words p) :=
  Part.request_ordinary _ _ _ _ _ _ (fun q => by
    unfold Part.ruleWrite
    repeat' split
    all_goals first
      | exact q.refuseWith_ordinary _ _
      | exact (q.setClassifier_ordinary _).trans (Part.respond_ordinary _ _ _ _)) p

theorem Part.onRulesApply_ordinary (words : List Word) (p : Part) : p.Ordinary (Part.onRulesApply words p) :=
  Part.request_ordinary _ _ _ _ _ _ (fun q => by
    unfold Part.rulesApply
    repeat' split
    all_goals first
      | exact q.refuseWith_ordinary _ _
      | exact q.queueTable_ordinary _
      | exact q.respond_ordinary _ _ _) p

/-! ## Control requests (R36, R95, R182) -/

/-- An ordinary action from a part whose link n was replaced, when that link is sound in the end. -/
theorem Part.Ordinary.skipLink {p q : Part} {n : Socket} {x : Link} (h : (p.setLink n x).Ordinary q)
    (hl : q.LinkSound n) : p.Ordinary q :=
  ⟨⟨h.clock, h.power, h.contacts, h.lockPin, h.trust, h.map, h.parked, h.settings, h.loading, h.logPos,
    h.storedSettings, h.storedMap, h.permits, h.lanes,
    fun m hm => by
      by_cases e : m = n
      · subst e; exact hl
      · refine h.links m ?_
        unfold Part.LinkSound at *
        rw [Part.setLink_link, if_neg e]
        exact hm,
    h.grants, h.recent, h.jobs⟩, h.conds, h.lockCause, h.keyCause, h.exhausted⟩

theorem Part.discardChallenge_link (p : Part) (n : Socket) (h : (p.link n).tx = none) :
    ∃ e, (p.discardChallenge n).link n = { p.link n with engineSlot := e } := by
  have hl : ∀ (q : Part) (x : Link), (q.setLink n x).link n = x := fun q x => by rw [Part.setLink_link, if_pos rfl]
  unfold Part.discardChallenge
  split
  · exact ⟨_, rfl⟩
  · dsimp only
    split
    · exact ⟨none, by simp only [Part.release, Part.setProof_link, hl, Part.setSession_link]⟩
    · refine ⟨(p.link n).engineSlot, ?_⟩
      rw [hl]
      simp only [Part.setSession_link]
      unfold Link.passOver
      split
      · rfl
      · rename_i t ht; rw [h] at ht; cases ht

theorem Part.auditResult_links (p : Part) (n : Socket) (o : AuditOutcome) : (p.auditResult n o).links = p.links := by
  unfold Part.auditResult
  repeat' split
  all_goals rfl

theorem Part.recompute_links (p : Part) : p.recompute.links = p.links := by
  unfold Part.recompute Part.noteDecrease Part.sendAggregate Part.placeAggregate Part.evalPermits Part.evalOverheat
  dsimp only
  split
  · simp [Part.reportCause_links]
  · simp [Part.reportCause_links]

theorem Part.closeSession_link (p : Part) (n : Socket) (h : (p.link n).tx = none) :
    ∃ e, (p.closeSession n).link n = { p.link n with engineSlot := e } := by
  obtain ⟨e, he⟩ := p.discardChallenge_link n h
  refine ⟨e, ?_⟩
  rw [← he]
  have h1 : ((p.discardChallenge n).logPeak n).links = (p.discardChallenge n).links := by
    unfold Part.logPeak; split <;> simp
  simp only [Part.closeSession, Part.setDecim, Part.setStale, Part.link, Part.setClassifier_links, Part.setGrants_links,
    Part.setSession_links, Part.auditResult_links, h1]

/-- The end of a session leaves a link without a transaction as it is, but for its engine slot. -/
theorem Part.endSession_link (p : Part) (n : Socket) (h : (p.link n).tx = none) :
    ∃ e, (p.endSession n).link n = { p.link n with engineSlot := e } := by
  unfold Part.endSession
  split
  · exact ⟨_, rfl⟩
  · obtain ⟨e, he⟩ := p.closeSession_link n h
    refine ⟨e, ?_⟩
    rw [← he]
    simp only [Part.reportSession, Part.link, Part.recompute_links, Part.place_links]

theorem Link.cleared_eq (l : Link) : l.cleared =
    { l.cleared with settle := none, drop := none, recovery := none, errors := 0, pollQueue := [], engineSlot := none, tx := none } := by
  have h := l.abandon_fields
  unfold Link.cleared Link.stopTimers Link.empty
  simp only [Link.mk.injEq, true_and, and_true]
  exact h.1

theorem Part.sampleContact_ordinary (n : Socket) (p : Part) (h : (Part.sampleContact n p).LinkSound n) :
    p.Ordinary (Part.sampleContact n p) := by
  unfold Part.sampleContact at *
  split
  · rename_i hc
    rw [if_pos hc] at h
    exact p.setLink_ordinary_of n _ fun _ => h
  · rename_i hc
    rw [if_neg hc] at h
    exact p.setLink_ordinary_of n _ fun _ => h

theorem Part.restartSocket_ordinary (n : Socket) (p : Part) : p.Ordinary (Part.restartSocket n p) := by
  refine Part.Ordinary.trans ?_ (Part.adviseLink_ordinary _ n)
  have h0 : (p.setLink n (p.link n).cleared).link n = (p.link n).cleared := by rw [Part.setLink_link, if_pos rfl]
  obtain ⟨e, he⟩ := (p.setLink n (p.link n).cleared).endSession_link n (by rw [h0, Link.cleared_eq])
  have hs : (Part.sampleContact n ((p.setLink n (p.link n).cleared).endSession n)).LinkSound n := by
    refine Part.sampleContact_sound n _ (p.link n).cleared.draining e ?_
    rw [he, h0, Link.cleared_eq]
  exact Part.Ordinary.skipLink (((p.setLink n (p.link n).cleared).endSession_ordinary n).trans
    (Part.sampleContact_ordinary n _ hs)) hs

theorem Part.onSocketRestart_ordinary (words : List Word) (p : Part) : p.Ordinary (Part.onSocketRestart words p) :=
  Part.request_ordinary _ _ _ _ _ _ (fun q => by
    unfold Part.socketRestart
    split
    · exact q.refuseWith_ordinary _ _
    · exact (Part.restartSocket_ordinary _ q).trans (Part.respond_ordinary _ _ _ _)) p

theorem Part.onAudit_ordinary (words : List Word) (p : Part) : p.Ordinary (Part.onAudit words p) :=
  Part.request_ordinary _ _ _ _ _ _ (fun q => by
    unfold Part.audit
    repeat' split
    · exact q.refuseWith_ordinary _ _
    · exact ((q.setAudit_ordinary _).trans (Part.auditProgress_ordinary _)).trans (Part.auditFinish_ordinary _)
    · exact q.refuseWith_ordinary _ _) p

theorem Part.setCursor_ordinary (p : Part) (c : Option LogPos) : p.Ordinary (p.setCursor c) :=
  p.setCtl_ordinary _ rfl rfl rfl rfl id

theorem Part.readFrom_ordinary (a : StoreArray) (code : Byte) (moved : Bool) (c : LogPos) (p : Part) :
    p.Ordinary (Part.readFrom a code moved c p) :=
  (p.setCursor_ordinary _).trans (Part.respond_ordinary _ _ _ _)

theorem Part.onLogStart_ordinary (a : StoreArray) (words : List Word) (p : Part) : p.Ordinary (Part.onLogStart a words p) :=
  Part.request_ordinary _ _ _ _ _ _ (fun q => Part.readFrom_ordinary a _ _ _ q) p

theorem Part.onLogNext_ordinary (a : StoreArray) (words : List Word) (p : Part) : p.Ordinary (Part.onLogNext a words p) :=
  Part.request_ordinary _ _ _ _ _ _ (fun q => by
    unfold Part.logNext
    repeat' split
    · exact q.refuseWith_ordinary _ _
    · exact Part.readFrom_ordinary a _ _ _ q
    · exact Part.readFrom_ordinary a _ _ _ q) p

theorem Part.parkDone_ordinary (p : Part) : p.Ordinary p.parkDone := by
  unfold Part.parkDone
  split
  · exact p.respond_ordinary _ _ _
  · exact .refl p

theorem Part.txEnd_ordinary (p : Part) : p.Ordinary p.txEnd := by
  exact p.setTlp_transmit_ordinary _ fun h => ⟨h.1, h.2.1, h.2.2.1⟩

end Sys2Proof.Machine
end

