-- ==== Sys2Proof/Laws/Keeps.lean ====
section
/-! SUPPORT. What the actions that are not ordinary keep: those that change a table, a setting, the fault map, the part
state, a pin, or the job in progress. -/

namespace Sys2Proof.Machine

/-- What an action keeps, the bounds of the job queue apart. -/
structure Part.KeepsMost (p q : Part) : Prop where
  permits : p.PermitsRight → q.PermitsRight
  lanes : p.LanesFit → q.LanesFit
  links : ∀ n, p.LinkSound n → q.LinkSound n
  grants : p.GrantsSound → q.GrantsSound
  recent : p.RecentFit → q.RecentFit
  conds : p.CondsRight → q.CondsRight
  causes : p.CausesRight → q.CausesRight

/-- What an action keeps. -/
structure Part.Keeps (p q : Part) : Prop extends Part.KeepsMost p q where
  jobs : p.JobsFit → q.JobsFit

theorem Part.Keeps.refl (p : Part) : p.Keeps p := ⟨⟨id, id, fun _ => id, id, id, id, id⟩, id⟩

theorem Part.KeepsMost.trans {p q r : Part} (h : p.KeepsMost q) (k : q.KeepsMost r) : p.KeepsMost r :=
  ⟨k.permits ∘ h.permits, k.lanes ∘ h.lanes, fun n hn => k.links n (h.links n hn), k.grants ∘ h.grants,
   k.recent ∘ h.recent, k.conds ∘ h.conds, k.causes ∘ h.causes⟩

theorem Part.Keeps.trans {p q r : Part} (h : p.Keeps q) (k : q.Keeps r) : p.Keeps r :=
  ⟨h.toKeepsMost.trans k.toKeepsMost, k.jobs ∘ h.jobs⟩

/-- An ordinary action keeps everything. -/
theorem Part.Ordinary.keeps {p q : Part} (h : p.Ordinary q) : p.Keeps q :=
  ⟨⟨h.permits, h.lanes, h.links, h.grants, h.recent, h.conds, h.causes⟩, h.jobs⟩

theorem Part.whileOn_keeps (p : Part) (f : Part → Part) (h : p.Keeps (f p)) : p.Keeps (p.whileOn f) := by
  unfold Part.whileOn
  split
  · exact h
  · exact .refl p
  · exact .refl p

/-! ## The end of a job (R176) -/

theorem StoreCtl.keep_queue (c : StoreCtl) (a : StoreArray) (j : Job) (r : JobEnd) :
    (c.keep a j r).queue = c.queue ∧ (c.keep a j r).loading = c.loading ∧ (c.keep a j r).job = c.job := by
  unfold StoreCtl.keep
  dsimp only
  repeat' split
  all_goals exact ⟨rfl, rfl, rfl⟩

/-- After the next job has been taken the queue fits, and a watermark job that has ended was the only one. -/
theorem StoreCtl.next_jobs (c : StoreCtl) (a : StoreArray) (j : Job) (r : JobEnd) (hj : c.job = some j) :
    c.jobs = j :: (c.keep a j r).next.jobs := by
  obtain ⟨h1, h2, h3⟩ := c.keep_queue a j r
  unfold StoreCtl.next
  rw [StoreCtl.start_jobs]
  simp only [StoreCtl.jobs, hj, h1, Option.toList_some, Option.toList_none, List.nil_append, List.singleton_append]

theorem Part.nextJob_keeps (p : Part) (a : StoreArray) (j : Job) (r : JobEnd) (hj : p.ctl.job = some j) :
    p.Keeps (p.setCtl (p.ctl.keep a j r).next) := by
  obtain ⟨h1, h2, h3⟩ := p.ctl.keep_queue a j r
  have hl : (p.ctl.keep a j r).next.loading = p.ctl.loading := by
    unfold StoreCtl.next; rw [StoreCtl.start_loading]; exact h2
  refine ⟨⟨Part.permitsRight_congr rfl rfl rfl rfl hl, id,
    fun n hs => ⟨hs.1, fun hd => ⟨(hs.2 hd).1, hl.trans (hs.2 hd).2⟩⟩, id, id,
    fun hc h => hc (hl ▸ h), id⟩, fun hf => ?_⟩
  have hn := p.ctl.next_jobs a j r hj
  unfold Part.JobsFit at *
  simp only [Part.setCtl_ctl]
  refine ⟨?_, ?_⟩
  · refine le_trans (StoreCtl.start_logs _) ?_
    simp only [h1]
    exact hf.1
  · have := hf.2
    rw [hn, List.countP_cons] at this
    omega

/-- The number of watermark jobs that are queued or in progress. -/
def Part.watermarks (p : Part) : Nat := p.ctl.jobs.countP Job.isWatermark

theorem Part.log_watermarks (p : Part) (e : LogEntry) : (p.log e).watermarks = p.watermarks := by
  unfold Part.log
  split
  · unfold Part.watermarks Part.queueJob
    simp only [Part.setCtl_ctl]
    rw [StoreCtl.start_jobs]
    simp [StoreCtl.jobs, Job.isWatermark]
  · rfl

/-- The end of a job keeps what its owner's part keeps. -/
theorem Part.jobEnded_keeps (p : Part) (a : StoreArray) (j : Job) (r : JobEnd) (own : Bool → Part → Part)
    (hj : p.ctl.job = some j) (hm : ∀ q, Part.KeepsMost q (own (jobOk r) q))
    (hq : ∀ q, (j.isWatermark = true → q.watermarks = 0) → q.JobsFit → (own (jobOk r) q).JobsFit) :
    p.Keeps (p.jobEnded a j r own) := by
  unfold Part.jobEnded
  have h1 := p.nextJob_keeps a j r hj
  have h2 := fun q : Part => (q.reportStore_ordinary (jobOk r)).keeps
  have h3 : ∀ q : Part, q.Keeps (q.countDown (jobOk r)) := fun q => by
    refine Part.Ordinary.keeps ?_
    exact q.setMgmt_ordinary _ rfl rfl
  refine ⟨(h1.toKeepsMost.trans (hm _)).trans ((h2 _).trans (h3 _)).toKeepsMost,
    fun hf => (h3 _).jobs ((h2 _).jobs (hq _ ?_ (h1.jobs hf)))⟩
  intro hw
  have hn := p.ctl.next_jobs a j r hj
  have := hf.2
  rw [hn, List.countP_cons, hw] at this
  simp only [Part.watermarks, Part.setCtl_ctl]
  simp only [if_true] at this
  omega

/-- The same where the owner's part keeps everything. -/
theorem Part.jobEnded_keeps' (p : Part) (a : StoreArray) (j : Job) (r : JobEnd) (own : Bool → Part → Part)
    (hj : p.ctl.job = some j) (hm : ∀ q, Part.Keeps q (own (jobOk r) q)) : p.Keeps (p.jobEnded a j r own) :=
  p.jobEnded_keeps a j r own hj (fun q => (hm q).toKeepsMost) (fun q _ => (hm q).jobs)

theorem Part.watermarkDone_keepsMost (p : Part) (v : Word) (ok : Bool) : p.KeepsMost (p.watermarkDone v ok) := by
  have hq (q : Part) (w : Word) : q.KeepsMost (q.queueJob (.watermark w)) := by
    refine ⟨Part.permitsRight_congr (by simp) (by simp) (by simp) (by simp) (StoreCtl.start_loading _), id,
      fun n hs => ⟨hs.1, fun hd => ⟨(hs.2 hd).1, (StoreCtl.start_loading _).trans (hs.2 hd).2⟩⟩, id, id, fun hc h => hc ?_, id⟩
    rw [← h]
    exact (StoreCtl.start_loading { q.ctl with queue := q.ctl.queue ++ [.watermark w] }).symm
  have h1 : p.KeepsMost (if ok then p.setProof { p.proof with committedMark := v } else p) := by
    split
    · refine Part.Keeps.toKeepsMost (Part.Ordinary.keeps ?_)
      exact p.setProof_ordinary _ rfl
    · exact (Part.Keeps.refl p).toKeepsMost
  unfold Part.watermarkDone
  dsimp only
  split <;> split
  · rename_i h _; simpa only [h, if_true] using h1
  · rename_i h _; simp only [h, if_true] at h1; exact h1.trans (hq _ _)
  · exact (Part.Keeps.refl p).toKeepsMost
  · exact hq _ _

theorem Part.watermarkDone_jobs (p : Part) (v : Word) (ok : Bool) (h0 : p.watermarks = 0) (h : p.JobsFit) :
    (p.watermarkDone v ok).JobsFit := by
  have hq (q : Part) (hw : q.watermarks = 0) (w : Word) : q.JobsFit → (q.queueJob (.watermark w)).JobsFit :=
    (q.queueJob_ordinary _ (fun _ hj => absurd hj (by simp [Job.isLog])) (fun _ _ => hw)).jobs
  unfold Part.watermarkDone
  dsimp only
  split <;> split
  · exact h
  · exact hq _ h0 _ h
  · exact h
  · exact hq _ h0 _ h

theorem Part.orderAll_ordinary (p : Part) (test : Session → Bool) (o : Order) : p.Ordinary (p.orderAll test o) := by
  refine forSockets_ordinary _ (fun n q => ?_) p
  split
  · exact q.order_ordinary n o
  · exact .refl q

/-- A change of the trust tables that leaves the keys alone. -/
theorem Part.setTrust_keeps (p : Part) (x : Trust) (h : x.noUsableKey = p.trust.noUsableKey) : p.Keeps (p.setTrust x) :=
  ⟨⟨id, id, fun _ => id, id, id, id, fun hc => ⟨hc.1, hc.2.1.trans h.symm, hc.2.2⟩⟩, id⟩

/-- What a change of the keys keeps, the no-usable-key cause apart. -/
structure Part.KeepsButKeys (p q : Part) : Prop where
  permits : p.PermitsRight → q.PermitsRight
  lanes : p.LanesFit → q.LanesFit
  links : ∀ n, p.LinkSound n → q.LinkSound n
  grants : p.GrantsSound → q.GrantsSound
  recent : p.RecentFit → q.RecentFit
  jobs : p.JobsFit → q.JobsFit
  conds : p.CondsRight → q.CondsRight
  lock : p.fault.causes.lock = p.lockPin → q.fault.causes.lock = q.lockPin
  exhausted : p.ExhaustedRight → q.ExhaustedRight

theorem Part.setTrust_keepsButKeys (p : Part) (x : Trust) : p.KeepsButKeys (p.setTrust x) :=
  ⟨id, id, fun _ => id, id, id, id, id, id, id⟩

theorem Part.Ordinary.keepsButKeys {p q : Part} (h : p.Ordinary q) : p.KeepsButKeys q :=
  ⟨h.permits, h.lanes, h.links, h.grants, h.recent, h.jobs, h.conds, fun k => by rw [h.lockCause, h.lockPin]; exact k,
   h.exhausted⟩

theorem Part.KeepsButKeys.trans {p q r : Part} (h : p.KeepsButKeys q) (k : q.KeepsButKeys r) : p.KeepsButKeys r :=
  ⟨k.permits ∘ h.permits, k.lanes ∘ h.lanes, fun n hn => k.links n (h.links n hn), k.grants ∘ h.grants,
   k.recent ∘ h.recent, k.jobs ∘ h.jobs, k.conds ∘ h.conds, k.lock ∘ h.lock, k.exhausted ∘ h.exhausted⟩

/-- Reporting the keys makes their cause right (R118). -/
theorem Part.KeepsButKeys.reportKeys {p q : Part} (h : p.KeepsButKeys q) : p.Keeps q.reportKeys := by
  have hp := q.reportCause_plain .trustBase { q.fault.causes with noUsableKey := q.trust.noUsableKey }
  refine ⟨⟨hp.permits ∘ h.permits, hp.lanes ∘ h.lanes, fun n hn => hp.links n (h.links n hn), hp.grants ∘ h.grants,
    hp.recent ∘ h.recent, fun hc => q.reportCause_conds _ _ ?_ (h.conds hc), fun hc => ?_⟩, hp.jobs ∘ h.jobs⟩
  · intro d hd
    cases d <;> first | rfl | exact absurd rfl hd
  · unfold Part.reportKeys Part.CausesRight
    rw [Part.reportCause_causes, Part.reportCause_proof, hp.lockPin, hp.trust]
    exact ⟨h.lock hc.1, rfl, h.exhausted hc.2.2⟩

theorem Part.keyWriteDone_keeps (k : Fin 16) (e : KeyEntry) (ok : Bool) (p : Part) :
    p.Keeps (Part.keyWriteDone k e ok p) := by
  unfold Part.keyWriteDone
  split
  · refine Part.Keeps.trans ?_ (Part.complete_ordinary _ _ _ _).keeps
    refine Part.Keeps.trans ?_ (Part.log_ordinary _ _).keeps
    refine Part.KeepsButKeys.reportKeys ?_
    refine Part.KeepsButKeys.trans ?_ (Part.orderAll_ordinary _ _ _).keepsButKeys
    exact (p.setTrust_keepsButKeys _).trans (Part.setTrust_keepsButKeys _ _)
  · exact (p.complete_ordinary _ _ _).keeps

theorem Part.keyEraseDone_keeps (k : Fin 16) (ok : Bool) (p : Part) : p.Keeps (Part.keyEraseDone k ok p) := by
  unfold Part.keyEraseDone
  split
  · refine Part.Keeps.trans ?_ (Part.complete_ordinary _ _ _ _).keeps
    refine Part.Keeps.trans ?_ (Part.log_ordinary _ _).keeps
    refine Part.KeepsButKeys.reportKeys ?_
    refine Part.KeepsButKeys.trans ?_ (Part.orderAll_ordinary _ _ _).keepsButKeys
    exact (p.setTrust_keepsButKeys _).trans (Part.setTrust_keepsButKeys _ _)
  · exact (p.complete_ordinary _ _ _).keeps

theorem retire_isNone (e : Option KeyEntry) : (retire e).isNone = e.isNone := by cases e <;> rfl

/-- Retiring a slot changes no slot between EMPTY and not EMPTY. -/
theorem Trust.noUsableKey_retire (t : Trust) (k : Fin 16) :
    ({ t with keys := t.keys.set k (retire t.keys[k]) } : Trust).noUsableKey = t.noUsableKey := by
  unfold Trust.noUsableKey
  simp only [Vector.toList_set]
  rw [Bool.eq_iff_iff, List.all_eq_true, List.all_eq_true]
  have hk : t.keys[k] = t.keys.toList[k.val]'(by simp) := by simp
  constructor
  · intro h x hx
    obtain ⟨i, hi, rfl⟩ := List.getElem_of_mem hx
    by_cases e : i = k.val
    · subst e
      have := h (retire t.keys[k]) (List.mem_iff_getElem.mpr ⟨k.val, by simp, by simp⟩)
      rw [retire_isNone, hk] at this
      exact this
    · exact h _ (List.mem_iff_getElem.mpr ⟨i, by simpa using hi, by simp [Ne.symm e]⟩)
  · intro h x hx
    rcases List.mem_or_eq_of_mem_set hx with hx | rfl
    · exact h x hx
    · rw [retire_isNone, hk]
      exact h _ (List.getElem_mem _)

theorem Part.keyRetireDone_keeps (k : Fin 16) (ok : Bool) (p : Part) : p.Keeps (Part.keyRetireDone k ok p) := by
  unfold Part.keyRetireDone
  split
  · refine Part.Keeps.trans ?_ (Part.complete_ordinary _ _ _ _).keeps
    refine Part.Keeps.trans ?_ (Part.log_ordinary _ _).keeps
    refine Part.Keeps.trans ?_ (Part.orderAll_ordinary _ _ _).keeps
    exact p.setTrust_keeps _ (p.trust.noUsableKey_retire k)
  · exact (p.complete_ordinary _ _ _).keeps

theorem Part.classWriteDone_keeps (i : Fin 32) (e : ClassEntry) (ok : Bool) (p : Part) :
    p.Keeps (Part.classWriteDone i e ok p) := by
  unfold Part.classWriteDone
  split
  · refine Part.Keeps.trans ?_ (Part.complete_ordinary _ _ _ _).keeps
    refine Part.Keeps.trans ?_ (Part.log_ordinary _ _).keeps
    refine Part.Keeps.trans ?_ (Part.recompute_ordinary _).keeps
    refine Part.Keeps.trans ?_ (forSockets_ordinary _ (fun n q => ?_) _).keeps
    · exact p.setTrust_keeps _ rfl
    · split
      · exact q.order_ordinary n _
      · exact .refl q
  · exact (p.complete_ordinary _ _ _).keeps

theorem Part.classEraseDone_keeps (i : Fin 32) (ok : Bool) (p : Part) : p.Keeps (Part.classEraseDone i ok p) := by
  unfold Part.classEraseDone
  split
  · refine Part.Keeps.trans ?_ (Part.complete_ordinary _ _ _ _).keeps
    refine Part.Keeps.trans ?_ (Part.log_ordinary _ _).keeps
    refine Part.Keeps.trans ?_ (Part.orderAll_ordinary _ _ _).keeps
    exact p.setTrust_keeps _ rfl
  · exact (p.complete_ordinary _ _ _).keeps

theorem Part.takeSerials_keeps (p : Part) (new : List Word) : p.Keeps (p.takeSerials new) := by
  unfold Part.takeSerials
  refine Part.Keeps.trans ?_ (Part.log_ordinary _ _).keeps
  refine Part.Keeps.trans ?_ (Part.orderAll_ordinary _ _ _).keeps
  exact p.setTrust_keeps _ rfl

theorem Part.withdrawAddDone_keeps (new : List Word) (ok : Bool) (p : Part) :
    p.Keeps (Part.withdrawAddDone new ok p) := by
  unfold Part.withdrawAddDone
  split
  · exact (p.takeSerials_keeps new).trans (Part.complete_ordinary _ _ _ _).keeps
  · exact (p.complete_ordinary _ _ _).keeps

theorem Part.withdrawClearDone_keeps (ok : Bool) (p : Part) : p.Keeps (Part.withdrawClearDone ok p) := by
  unfold Part.withdrawClearDone
  split
  · refine Part.Keeps.trans ?_ (Part.complete_ordinary _ _ _ _).keeps
    refine Part.Keeps.trans ?_ (Part.log_ordinary _ _).keeps
    exact p.setTrust_keeps _ rfl
  · exact (p.complete_ordinary _ _ _).keeps

theorem Part.auditWithdrawalDone_keeps (x : Word) (ok : Bool) (p : Part) :
    p.Keeps (Part.auditWithdrawalDone x ok p) := by
  unfold Part.auditWithdrawalDone
  split
  · exact (p.takeSerials_keeps [x]).trans (Part.auditJobEnded_ordinary _ _).keeps
  · exact (p.auditJobEnded_ordinary _).keeps

theorem Part.rulesApplyDone_keeps (ok : Bool) (p : Part) : p.Keeps (Part.rulesApplyDone ok p) := by
  unfold Part.rulesApplyDone
  split
  · refine Part.Keeps.trans ?_ (Part.complete_ordinary _ _ _ _).keeps
    refine Part.Keeps.trans ?_ (Part.log_ordinary _ _).keeps
    exact (p.setClassifier_ordinary _).keeps
  · exact (p.complete_ordinary _ _ _).keeps

theorem Part.settingWriteDone_keeps (id value : Nat) (ok : Bool) (p : Part) :
    p.Keeps (Part.settingWriteDone id value ok p) := by
  unfold Part.settingWriteDone
  split
  · exact (p.log_ordinary _).keeps.trans (Part.complete_ordinary _ _ _ _).keeps
  · exact (p.complete_ordinary _ _ _).keeps

theorem Part.mapWriteDone_keeps (c : Cond) (ok : Bool) (p : Part) : p.Keeps (Part.mapWriteDone c ok p) := by
  unfold Part.mapWriteDone
  split
  · exact (p.log_ordinary _).keeps.trans (Part.complete_ordinary _ _ _ _).keeps
  · exact (p.complete_ordinary _ _ _).keeps

end Sys2Proof.Machine
end

