-- ==== Sys2Proof/Laws/KeepsRequests.lean ====
section
/-! SUPPORT. What setting and map writes, PARK, RESET, loading and the pins keep. -/

namespace Sys2Proof.Machine

/-! ## Requests -/

/-- A request whose own effect keeps everything keeps everything. -/
theorem Part.request_keeps (code : Byte) (least most : Nat) (wp : Bool) (words : List Word) (f : Part → Part)
    (hf : ∀ q, Part.Keeps q (f q)) (p : Part) : p.Keeps (Part.request code least most wp words f p) := by
  unfold Part.request
  split
  · exact .refl p
  · dsimp only
    split
    · exact (p.restartSilence_ordinary.trans (Part.busy_ordinary _ _)).keeps
    · refine (p.restartSilence_ordinary.trans (Part.setRequest_ordinary _ (some (.new code words)))).keeps.trans ?_
      repeat' split
      · exact (Part.refuseWith_ordinary _ _ _).keeps
      · exact (Part.refuseWith_ordinary _ _ _).keeps
      · exact hf _

/-! ## SETTING-WRITE (R170, R171) -/

/-- A recomputation makes the permit lines and the grants right whatever they were (R131). -/
theorem Part.recompute_right (p : Part) : p.recompute.PermitsRight ∧ p.recompute.GrantsSound := by
  have h1 := (p.setGrants p.computeGrants).evalOverheat_ordinary
  have h2 := ((p.setGrants p.computeGrants).evalOverheat).evalPermits_ordinary
  have h3 := (((p.setGrants p.computeGrants).evalOverheat).evalPermits).noteDecrease_ordinary
  exact ⟨h3.permits (Part.evalPermits_right _), h3.grants (h2.grants (h1.grants p.computeGrants_sound))⟩

/-- What a change of a setting keeps before its reader acts. -/
theorem Part.setSettings_keeps (p : Part) (x : Settings) (ht : x.topology = p.settings.topology)
    (hc : x.toolCeiling = p.settings.toolCeiling) : p.Keeps (p.setSettings x) := by
  have hp : (p.setSettings x).paired = p.paired := by
    show (x.topology == 1) = (p.settings.topology == 1)
    rw [ht]
  have hsh : ∀ n, (p.setSettings x).shareOf n = p.shareOf n := fun n => by
    unfold Part.shareOf; rw [hp]; rfl
  refine ⟨⟨fun h n => ?_, id, fun _ => id, fun h => ?_, id, id, id⟩, id⟩
  · show p.fault.permits.get n = _
    rw [h n]
    unfold Part.permitDue
    rw [hsh]
    rfl
  · unfold Part.GrantsSound at *
    refine ⟨h.1, ?_, h.2.2.1, fun n => by rw [hsh]; exact h.2.2.2 n⟩
    show p.grants.toolGrant ≤ x.toolCeiling
    rw [hc]; exact h.2.1

/-- The same where the reader recomputes the grants. -/
theorem Part.setSettings_recompute_keeps (p : Part) (x : Settings) : p.Keeps (p.setSettings x).recompute := by
  have h := (p.setSettings x).recompute_ordinary
  have r := (p.setSettings x).recompute_right
  exact ⟨⟨fun _ => r.1, fun k => h.lanes k, fun n k => h.links n k, fun _ => r.2, fun k => h.recent k,
    fun k => h.conds k, fun k => h.causes k⟩, fun k => h.jobs k⟩

theorem Part.haltRecoveryWritten_ordinary (n : Socket) (p : Part) : p.Ordinary (Part.haltRecoveryWritten n p) := by
  unfold Part.haltRecoveryWritten
  split
  · split
    · exact p.startRecovery_ordinary n
    · exact .refl p
  · exact p.setLink_ordinary n _ fun h => ⟨⟨h.1, h.2.1, h.2.2.1, h.2.2.2.1, h.2.2.2.2.1, h.2.2.2.2.2.1, h.2.2.2.2.2.2.1,
      fun hr => (by cases hr), h.2.2.2.2.2.2.2.2⟩, id⟩

theorem Part.holdWritten_ordinary (n : Socket) (p : Part) : p.Ordinary (Part.holdWritten n p) := by
  unfold Part.holdWritten
  split
  · exact p.holdExpiry_ordinary n
  · exact .refl p

theorem Settings.set_topology (x : Settings) (id v : Nat) (h : id ≠ 0) : (x.set id v).topology = x.topology := by
  show (if 0 = id then v else x.value 0) = _
  rw [if_neg (Ne.symm h)]; rfl

theorem Settings.set_toolCeiling (x : Settings) (id v : Nat) (h : id ≠ 1) : (x.set id v).toolCeiling = x.toolCeiling := by
  show (if 1 = id then v else x.value 1) = _
  rw [if_neg (Ne.symm h)]; rfl

/-- A setting written, with its reader's effect (R170). -/
theorem Part.settingTakesEffect_keeps (p : Part) (id v : Nat) :
    p.Keeps ((p.setSettings (p.settings.set id v)).settingTakesEffect id) := by
  by_cases h0 : id = 0
  · subst h0; exact p.setSettings_recompute_keeps _
  by_cases h1 : id = 1
  · subst h1; exact p.setSettings_recompute_keeps _
  have hk := p.setSettings_keeps (p.settings.set id v) (p.settings.set_topology id v h0)
    (p.settings.set_toolCeiling id v h1)
  refine hk.trans (Part.Ordinary.keeps ?_)
  unfold Part.settingTakesEffect
  split
  · exact Part.recompute_ordinary _
  · exact Part.recompute_ordinary _
  · exact Part.recompute_ordinary _
  · exact Part.recompute_ordinary _
  · exact forSockets_ordinary _ Part.recomputeRecheck_ordinary _
  · exact forSockets_ordinary _ Part.holdWritten_ordinary _
  · exact Part.startAggregateTimer_ordinary _
  · exact Part.clearDecim_ordinary _
  · exact forSockets_ordinary _ Part.haltRecoveryWritten_ordinary _
  · exact .refl _

theorem Part.settingWrite_keeps (w : Word) (p : Part) : p.Keeps (Part.settingWrite w p) := by
  unfold Part.settingWrite
  dsimp only
  split
  · unfold Part.refuseDecimation
    refine Part.Keeps.trans ?_ (Part.refuseWith_ordinary _ _ _).keeps
    refine Part.Keeps.trans ?_ (Part.clearDecim_ordinary _).keeps
    exact p.setSettings_keeps _ rfl rfl
  · split
    · unfold Part.writeSetting
      dsimp only
      split
      · exact (p.settingTakesEffect_keeps _ _).trans (Part.tableJob_ordinary _ _).keeps
      · exact (p.settingTakesEffect_keeps _ _).trans
          ((Part.respond_ordinary _ _ _ _).trans (Part.log_ordinary _ _)).keeps
    · exact (p.refuseWith_ordinary _ _).keeps

/-! ## MAP-WRITE (R157) -/

theorem Part.setMapEntry_keeps (p : Part) (c : Cond) (e : MapEntry) : p.Keeps (p.setMapEntry c e) :=
  ⟨⟨fun _ => Part.evalPermits_right _, id, fun _ => id, id, id, id, id⟩, id⟩

theorem Part.mapWrite_keeps (w1 w2 : Word) (p : Part) : p.Keeps (Part.mapWrite w1 w2 p) := by
  unfold Part.mapWrite
  split
  · split
    · exact (p.refuseWith_ordinary _ _).keeps
    · unfold Part.writeMap
      dsimp only
      split
      · exact (p.setMapEntry_keeps _ _).trans (Part.tableJob_ordinary _ _).keeps
      · exact (p.setMapEntry_keeps _ _).trans
          ((Part.respond_ordinary _ _ _ _).trans (Part.log_ordinary _ _)).keeps
  · exact (p.refuseWith_ordinary _ _).keeps

/-! ## PARK (R172) and RESET (R173) -/

theorem Part.parkLink_ordinary (n : Socket) (p : Part) : p.Ordinary (Part.parkLink n p) := by
  obtain ⟨a1, a2, a3, a4, a5, a6⟩ := (p.link n).abandon_fields
  refine p.setLink_ordinary n _ fun hs => ⟨?_, ?_⟩
  · obtain ⟨g1, g2, g3, g4, g5, g6, g7, g8, g9⟩ := hs
    refine ⟨?_, ?_, ?_, ?_, ?_, ?_, ?_, ?_, ?_⟩ <;> simp only [Link.empty, a1, a2, a3, a5]
    · intro h; cases h
    · exact g2
    · exact g3
    · exact Nat.zero_le 4
    · intro h; exact absurd rfl h
    · intro h; cases h
    · exact g7
    · intro h; cases h
    · exact g9
  · simp only [Link.empty, a5]; exact id

/-- The entry into PARKED keeps everything (R38, R102, R142, R145). -/
theorem Part.enterParked_keeps (p : Part) : p.Keeps p.enterParked := by
  have h1 := forSockets_ordinary Part.parkLink Part.parkLink_ordinary (p.setMgmt { p.mgmt with parked := true })
  have h2 := (Part.setOverdraw_ordinary (forSockets Part.parkLink (p.setMgmt { p.mgmt with parked := true })) none)
  have h3 := forSockets_ordinary (fun n p => p.endSession n) (fun n p => p.endSession_ordinary n)
    ((forSockets Part.parkLink (p.setMgmt { p.mgmt with parked := true })).setOverdraw none)
  have h := (h1.trans h2).trans h3
  exact ⟨⟨fun _ => Part.evalPermits_right _, fun k => h.lanes k, fun n k => h.links n k, fun k => h.grants k,
    fun k => h.recent k, fun k => h.conds k, fun k => h.causes k⟩, fun k => h.jobs k⟩

theorem Part.park_keeps (p : Part) : p.Keeps p.park := by
  unfold Part.park
  dsimp only
  split
  · exact p.enterParked_keeps.trans (Part.respond_ordinary _ _ _ _).keeps
  · refine p.enterParked_keeps.trans (Part.Ordinary.keeps ?_)
    exact Part.setMgmt_ordinary _ _ rfl rfl

theorem Part.supersede_ordinary (p : Part) : p.Ordinary p.supersede := by
  unfold Part.supersede
  refine Part.Ordinary.trans ?_ (Part.setMgmt_ordinary _ _ rfl rfl)
  refine p.setCtl_ordinary _ rfl rfl rfl rfl fun h => ?_
  unfold Part.JobsFit at *
  simp only [Part.setCtl_ctl, StoreCtl.jobs, List.countP_append] at *
  have h1 := (List.filter_sublist (l := p.ctl.queue) (p := fun j => !j.isTable)).countP_le (p := Job.isLog)
  have h2 := (List.filter_sublist (l := p.ctl.queue) (p := fun j => !j.isTable)).countP_le (p := Job.isWatermark)
  omega

theorem Part.onReset_ordinary (words : List Word) (p : Part) : p.Ordinary (Part.onReset words p) := by
  unfold Part.onReset
  split
  · split
    · exact .refl p
    · exact (p.restartSilence_ordinary.trans (Part.supersede_ordinary _)).trans (Part.setRequest_ordinary _ _)
  · exact Part.badShape_ordinary _ p

/-! ## The conditions raised anew (R159, R160) -/

theorem raisePresent_plain (p : Part) (c : Cond) : p.Plain (p.raisePresent c) := by
  unfold Part.raisePresent
  split
  · exact p.raiseCond_plain c
  · exact .refl p

theorem raisePresent_causes (p : Part) (c : Cond) : (p.raisePresent c).fault.causes = p.fault.causes := by
  unfold Part.raisePresent
  split
  · exact p.raiseCond_causes c
  · rfl

theorem raisePresent_proof (p : Part) (c : Cond) : (p.raisePresent c).proof = p.proof := by
  unfold Part.raisePresent
  split
  · exact p.raiseCond_proof c
  · rfl

theorem foldl_raisePresent (cs : List Cond) (p : Part) :
    p.Plain (cs.foldl Part.raisePresent p) ∧ (cs.foldl Part.raisePresent p).fault.causes = p.fault.causes ∧
    (cs.foldl Part.raisePresent p).proof = p.proof ∧
    ∀ d, (cs.foldl Part.raisePresent p).fault.conds.get d = .active ↔
      p.fault.conds.get d = .active ∨ (d ∈ cs ∧ p.fault.causes.present d = true) := by
  induction cs generalizing p with
  | nil => exact ⟨.refl p, rfl, rfl, fun d => by simp⟩
  | cons c cs ih =>
    obtain ⟨h1, h2, h3, h4⟩ := ih (p.raisePresent c)
    refine ⟨(raisePresent_plain p c).trans h1, h2.trans (raisePresent_causes p c), h3.trans (raisePresent_proof p c),
      fun d => ?_⟩
    rw [List.foldl_cons, h4 d, raisePresent_causes]
    unfold Part.raisePresent
    split
    · rename_i hc
      rw [Part.raiseCond_conds, PerCond.get_set]
      by_cases hd : d = c
      · subst hd; simp [hc]
      · simp [hd]
    · rename_i hc
      by_cases hd : d = c
      · subst hd
        simp [hc]
      · simp [hd]

/-- Once every condition has been set INACTIVE and the present ones raised, conditions and permit lines are right. -/
theorem Part.resetConditions_spec (p : Part) :
    (p.setFault { p.fault with conds := .all .inactive }).evalPermits.Plain p.resetConditions ∧
    p.resetConditions.fault.causes = p.fault.causes ∧ p.resetConditions.proof = p.proof ∧
    p.resetConditions.PermitsRight ∧ p.resetConditions.CondsRight := by
  obtain ⟨h1, h2, h3, h4⟩ :=
    foldl_raisePresent Cond.all (p.setFault { p.fault with conds := .all .inactive }).evalPermits
  refine ⟨h1, h2, h3, h1.permits (Part.evalPermits_right _), fun _ d => ?_⟩
  unfold Part.resetConditions
  rw [h4 d, h2]
  have hi : ((p.setFault { p.fault with conds := .all .inactive }).evalPermits).fault.conds.get d ≠ .active := by
    show (PerCond.all CondState.inactive).get d ≠ _
    rw [PerCond.get_all]; simp
  have hm : d ∈ Cond.all := by cases d <;> simp [Cond.all]
  simp [hi, hm]

/-- What that keeps. -/
theorem Part.resetConditions_keeps (p : Part) : p.Keeps p.resetConditions := by
  obtain ⟨h1, h2, h3, h4, h5⟩ := p.resetConditions_spec
  exact ⟨⟨fun _ => h4, fun k => h1.lanes k, fun n k => h1.links n k, fun k => h1.grants k, fun k => h1.recent k,
    fun _ => h5, fun k => ⟨by rw [h2, h1.lockPin]; exact k.1, by rw [h2, h1.trust]; exact k.2.1,
      by rw [h2, h3]; exact k.2.2⟩⟩, fun k => h1.jobs k⟩

/-! ## The in-band reset (R174) -/

theorem storeBads_ordinary (a : StoreArray) (rs : List Region) (p : Part) : p.Ordinary (storeBads a rs p) := by
  refine foldl_ordinary _ (fun q r => ?_) rs p
  split
  · exact q.log_ordinary _
  · exact .refl q
  · exact .refl q

/-- A link is sound after the in-band reset whatever it was (R37). -/
theorem Part.resetLink_sound (n : Socket) (p : Part) : (Part.resetLink n p).LinkSound n := by
  refine Part.sampleContact_sound n _ (p.link n).cleared.draining none ?_
  rw [Part.setLink_link, if_pos rfl]
  exact Link.cleared_eq _

theorem Part.resetLink_ordinary (n : Socket) (p : Part) : p.Ordinary (Part.resetLink n p) := by
  have hs := Part.resetLink_sound n p
  exact Part.Ordinary.skipLink (Part.sampleContact_ordinary n (p.setLink n (p.link n).cleared) hs) hs

theorem Part.resetLinks_sound (p : Part) : (forSockets Part.resetLink p).LinksSound := by
  have h0 := Part.resetLink_sound 0 p
  have h1 := Part.resetLink_sound 1 (Part.resetLink 0 p)
  have h2 := Part.resetLink_sound 2 (Part.resetLink 1 (Part.resetLink 0 p))
  have h3 := Part.resetLink_sound 3 (Part.resetLink 2 (Part.resetLink 1 (Part.resetLink 0 p)))
  have k (n : Socket) (q : Part) := (Part.resetLink_ordinary n q).links
  intro n
  match n with
  | 0 => exact k 3 _ 0 (k 2 _ 0 (k 1 _ 0 h0))
  | 1 => exact k 3 _ 1 (k 2 _ 1 h1)
  | 2 => exact k 3 _ 2 h2
  | 3 => exact h3

end Sys2Proof.Machine
end

