-- ==== Sys2Proof/Laws/KeepsReset.lean ====
section
/-! SUPPORT. What the in-band reset, cold start, the end of loading, the pins and received frames keep. -/

namespace Sys2Proof.Machine

/-! ## The in-band reset (R174) -/

/-- What the reset of the sockets leaves: sound links, an empty recent-refusal table, everything else as an ordinary action
leaves it (R37, R101, R102). -/
theorem Part.resetSockets_spec (p : Part) :
    p.resetSockets.LinksSound ∧ p.resetSockets.RecentFit ∧ (p.LanesFit → p.resetSockets.LanesFit) ∧
    (p.JobsFit → p.resetSockets.JobsFit) ∧ p.resetSockets.fault.causes.lock = p.fault.causes.lock ∧
    p.resetSockets.fault.causes.noUsableKey = p.fault.causes.noUsableKey ∧
    (p.ExhaustedRight → p.resetSockets.ExhaustedRight) ∧ p.resetSockets.lockPin = p.lockPin ∧
    p.resetSockets.trust = p.trust := by
  have hc : ∀ q : Part, q.JobsFit = (forSockets (fun n p => p.setLink n (p.link n).cleared) q).JobsFit := fun _ => rfl
  have h2 := forSockets_ordinary Part.endSessionSilently Part.endSessionSilently_ordinary
    (forSockets (fun n p => p.setLink n (p.link n).cleared) ((p.setAudit none).setRecent []))
  have h3 := forSockets_ordinary Part.resetLink Part.resetLink_ordinary
    (forSockets Part.endSessionSilently (forSockets (fun n p => p.setLink n (p.link n).cleared)
      ((p.setAudit none).setRecent [])))
  have h := h2.trans h3
  refine ⟨Part.resetLinks_sound _, h.recent ⟨Nat.zero_le _, ?_, List.nodup_nil⟩, fun k => h.lanes k, fun k => h.jobs k,
    h.lockCause, h.keyCause, fun k => h.exhausted k, h.lockPin, h.trust⟩
  intro e he
  cases he

/-- Everything is right after the in-band reset (R174) but what it does not concern, which it keeps. -/
theorem Part.performReset_spec (a : StoreArray) (p : Part) :
    (Part.performReset a p).PermitsRight ∧ (Part.performReset a p).LanesFit ∧ (Part.performReset a p).LinksSound ∧
    (Part.performReset a p).GrantsSound ∧ (Part.performReset a p).RecentFit ∧ (Part.performReset a p).CondsRight ∧
    (p.JobsFit → (Part.performReset a p).JobsFit) ∧ (p.CausesRight → (Part.performReset a p).CausesRight) := by
  obtain ⟨s1, s2, s3, s4, s5, s6, s7, s8, s9⟩ := p.revert.resetSockets_spec
  have r0 : p.revert.fault.causes = p.fault.causes ∧ p.revert.lockPin = p.lockPin ∧ p.revert.trust = p.trust ∧
      p.revert.ctl = p.ctl ∧ p.revert.proof = p.proof := by
    unfold Part.revert
    split <;> exact ⟨rfl, rfl, rfl, rfl, rfl⟩
  -- the tool link port, the rules and the log entries of damaged regions
  have t1 : p.revert.resetSockets.resetTlp.LanesFit := ⟨Nat.zero_le _, Nat.zero_le _, Nat.zero_le _, fun _ => ⟨rfl, rfl, rfl, rfl⟩⟩
  have t2 : p.revert.resetSockets.resetTlp.Ordinary (Part.resetRules a p.revert.resetSockets.resetTlp) := by
    unfold Part.resetRules
    split
    · exact (storeBads_ordinary a _ _).trans (Part.setClassifier_ordinary _ _)
    · exact Part.clearDecim_ordinary _
  generalize hq : Part.resetRules a p.revert.resetSockets.resetTlp = q at t2
  -- the grants at 0
  have g1 : q.resetGrants.GrantsSound := ⟨rfl, Nat.zero_le _, fun k => le_rfl, fun n => by
    show (PerSocket.all 0).get n = (PerSocket.all 0).get _
    rw [PerSocket.get_all, PerSocket.get_all]⟩
  generalize hm : (q.resetGrants.resetCauses).setMgmt { (q.resetGrants.resetCauses).mgmt with parked := false } = m
  have k1 := (m.setCursor_ordinary none).trans (Part.respond_ordinary (m.setCursor none) codeReset .done [])
  have k2 := ((m.setCursor none).respond codeReset .done []).resetConditions_keeps
  have k3 := (((m.setCursor none).respond codeReset .done []).resetConditions).sendAggregate_ordinary
  obtain ⟨c1, c2, c3, c4, c5⟩ := ((m.setCursor none).respond codeReset .done []).resetConditions_spec
  have k := (k1.keeps.trans k2).trans k3.keeps
  have he : Part.performReset a p =
      (((m.setCursor none).respond codeReset .done []).resetConditions).sendAggregate := by
    rw [← hm, ← hq]; rfl
  rw [he]
  refine ⟨k3.permits c4, k.lanes ?_, fun n => k.links n ?_, k.grants ?_, k.recent ?_, k3.conds c5, fun hj => k.jobs ?_,
    fun hc => k.causes ?_⟩
  · rw [← hm]; exact t2.lanes t1
  · rw [← hm]; exact t2.links n (s1 n)
  · rw [← hm]; exact g1
  · rw [← hm]; exact t2.recent s2
  · rw [← hm]
    refine t2.jobs (s4 ?_)
    unfold Part.JobsFit at *
    rw [r0.2.2.2.1]; exact hj
  · rw [← hm]
    refine ⟨?_, ?_, ?_⟩
    · show q.fault.causes.lock = q.lockPin
      rw [t2.lockCause, t2.lockPin]
      show p.revert.resetSockets.fault.causes.lock = p.revert.resetSockets.lockPin
      rw [s5, s8, r0.1, r0.2.1]
      exact hc.1
    · show q.fault.causes.noUsableKey = q.trust.noUsableKey
      rw [t2.keyCause, t2.trust]
      show p.revert.resetSockets.fault.causes.noUsableKey = p.revert.resetSockets.trust.noUsableKey
      rw [s6, s9, r0.1, r0.2.2.1]
      exact hc.2.1
    · show q.ExhaustedRight
      refine t2.exhausted (s7 ?_)
      unfold Part.ExhaustedRight
      rw [r0.1, r0.2.2.2.2]
      exact hc.2.2

theorem Part.inBandReset_keeps (a : StoreArray) (p : Part) : p.Keeps (Part.inBandReset a p) := by
  unfold Part.inBandReset
  split
  · obtain ⟨h1, h2, h3, h4, h5, h6, h7, h8⟩ := Part.performReset_spec a p
    exact ⟨⟨fun _ => h1, fun _ => h2, fun n _ => h3 n, fun _ => h4, fun _ => h5, fun _ => h6, h8⟩, h7⟩
  · exact .refl p

/-! ## Cold start and the end of loading (R179) -/

/-- Everything is right right after a cold start (R107, R179). -/
theorem Part.coldStart_spec (a : StoreArray) (c : ColdStartCause) (p : Part) :
    (Part.coldStart a c p).PermitsRight ∧ (Part.coldStart a c p).LanesFit ∧ (Part.coldStart a c p).LinksSound ∧
    (Part.coldStart a c p).GrantsSound ∧ (Part.coldStart a c p).RecentFit ∧ (Part.coldStart a c p).CondsRight ∧
    (Part.coldStart a c p).JobsFit ∧ (Part.coldStart a c p).CausesRight := by
  unfold Part.coldStart
  dsimp only
  generalize (if p.poweredAnew c = true then 0 else p.clock) = clock
  generalize (if p.poweredAnew c = true then none else p.proof.drawMark) = mark
  have h1 := storeBads_ordinary a loadOrder (Part.loaded a clock mark p)
  have hw0 : ∀ (rs : List Region) (q : Part), (storeBads a rs q).watermarks = q.watermarks := by
    intro rs
    induction rs with
    | nil => intro q; rfl
    | cons r rs ih =>
      intro q
      show (storeBads a rs _).watermarks = _
      rw [ih]
      dsimp only
      split
      · rw [Part.log_watermarks]
      · rfl
      · rfl
  have hw : (storeBads a loadOrder (Part.loaded a clock mark p)).watermarks = 0 := by rw [hw0]; rfl
  have h2 := Part.queueJob_ordinary (storeBads a loadOrder (Part.loaded a clock mark p))
    (.watermark (Part.loaded a clock mark p).proof.pendingMark) (fun _ hj => absurd hj (by simp [Job.isLog])) (fun _ _ => hw)
  have h := h1.trans h2
  have hl : (Part.loaded a clock mark p).ctl.loading = true := rfl
  refine ⟨h.permits ?_, h.lanes ⟨Nat.zero_le _, Nat.zero_le _, Nat.zero_le _, fun _ => ⟨rfl, rfl, rfl, rfl⟩⟩, fun n => h.links n ?_, h.grants ?_,
    h.recent ⟨Nat.zero_le _, ?_, List.nodup_nil⟩, fun hn => ?_, h.jobs ⟨Nat.zero_le _, Nat.zero_le _⟩,
    h.causes ⟨rfl, rfl, rfl⟩⟩
  · intro n
    show (PerSocket.all false).get n = _
    rw [PerSocket.get_all]
    unfold Part.permitDue
    rw [hl]
    simp
  · have hi : (Part.loaded a clock mark p).link n = Link.initial := PerSocket.get_all _ n
    refine ⟨?_, ?_⟩
    · rw [hi]
      refine ⟨?_, ?_, ?_, ?_, ?_, ?_, ?_, ?_, ?_⟩ <;> simp [Link.initial]
    · rw [hi]; intro hd; cases hd
  · exact ⟨rfl, Nat.zero_le _, fun k => le_rfl, fun n => by
      show (PerSocket.all 0).get n = (PerSocket.all 0).get _
      rw [PerSocket.get_all, PerSocket.get_all]⟩
  · intro e he; cases he
  · rw [h.loading, hl] at hn; cases hn

/-- The end of loading keeps everything and makes the links, the permit lines and the conditions right (R39, R159, R179). -/
theorem Part.finishLoading_keeps (p : Part) : p.Keeps p.finishLoading := by
  have h1 := p.log_ordinary (coldStartEntry p.proof.pendingMark)
  generalize hq : p.log (coldStartEntry p.proof.pendingMark) = q at h1
  generalize hm : ((q.setCtl { q.ctl with loading := false }).setTlp
    { q.tlp with silence := some (q.clock + silenceTime) }) = m
  have k1 := m.place_ordinary .l0 (startedAdvisory m.proof.pendingMark)
  have k2 := forSockets_ordinary Part.resetLink Part.resetLink_ordinary (m.place .l0 (startedAdvisory m.proof.pendingMark))
  have k3 := (forSockets Part.resetLink (m.place .l0 (startedAdvisory m.proof.pendingMark))).startAggregateTimer_ordinary
  have ks := (k1.trans k2).trans k3
  obtain ⟨c1, c2, c3, c4, c5⟩ := (((forSockets Part.resetLink (m.place .l0 (startedAdvisory m.proof.pendingMark)))
    ).startAggregateTimer).resetConditions_spec
  have k := ks.keeps.trans (Part.resetConditions_keeps _)
  have he : p.finishLoading = (((forSockets Part.resetLink (m.place .l0 (startedAdvisory m.proof.pendingMark)))
    ).startAggregateTimer).resetConditions := by
    rw [← hm, ← hq]; rfl
  rw [he]
  refine ⟨⟨fun _ => c4, fun hl => k.lanes ?_, fun n _ => ?_, fun hg => k.grants ?_, fun hr => k.recent ?_, fun _ => c5,
    fun hc => k.causes ?_⟩, fun hj => k.jobs ?_⟩
  · rw [← hm]; exact h1.lanes hl
  · exact (Part.resetConditions_keeps _).links n (k3.links n (Part.resetLinks_sound _ n))
  · rw [← hm]; exact h1.grants hg
  · rw [← hm]; exact h1.recent hr
  · rw [← hm]; exact h1.causes hc
  · rw [← hm]; exact h1.jobs hj

theorem Part.loadingFinished_keeps (p : Part) : p.Keeps p.loadingFinished := by
  unfold Part.loadingFinished
  split
  · exact p.finishLoading_keeps
  · exact .refl p

/-- Once power has failed or RESETn is asserted everything is kept but the permit lines, which are deasserted (R183). -/
theorem Part.cut_keeps (c : CutCause) (p : Part) :
    (p.LanesFit → (Part.cut c p).LanesFit) ∧ (p.GrantsSound → (Part.cut c p).GrantsSound) ∧
    (p.RecentFit → (Part.cut c p).RecentFit) ∧ (p.CondsRight → (Part.cut c p).CondsRight) ∧ (Part.cut c p).JobsFit := by
  cases c
  · exact ⟨id, id, id, id, ⟨Nat.zero_le _, Nat.zero_le _⟩⟩
  · exact ⟨id, id, id, id, ⟨Nat.zero_le _, Nat.zero_le _⟩⟩

/-! ## Pins -/

/-- A contact that asserts, while the part operates (R16, R18, R34). -/
theorem Part.contactRose_keeps (n : Socket) (p : Part) : p.Keeps (Part.contactRose n (p.setContact n true)) := by
  have hc : ∀ m, m ≠ n → (p.setContact n true).contacts.get m = p.contacts.get m := fun m hm => by
    show (p.contacts.set n true).get m = _
    rw [PerSocket.get_set_ne _ _ hm]
  have hn : (p.setContact n true).contacts.get n = true := by
    show (p.contacts.set n true).get n = _
    rw [PerSocket.get_set_self]
  -- every link but n is as sound as before; link n is once its drop timer is stopped
  have hk : ∀ m, m ≠ n → p.LinkSound m → (p.setContact n true).LinkSound m := fun m hm hs =>
    ⟨hs.1, fun hd => ⟨(hc m hm).trans (hs.2 hd).1, (hs.2 hd).2⟩⟩
  have ho : ∀ q : Part, (p.setContact n true).Ordinary q → (p.LinkSound n → q.LinkSound n) → p.Keeps q :=
    fun q h hl => ⟨⟨h.permits, h.lanes, fun m hs => by
      by_cases e : m = n
      · subst e; exact hl hs
      · exact h.links m (hk m e hs), h.grants, h.recent, h.conds, fun k => h.causes k⟩, h.jobs⟩
  unfold Part.contactRose
  split
  · rename_i hl
    refine ho _ (.refl _) fun hs => ⟨hs.1, fun hd => ?_⟩
    have := (hs.2 hd).2
    rw [show p.ctl.loading = true from hl] at this; cases this
  · have hd : (p.link n).drop = none → p.LinkSound n → (p.setContact n true).LinkSound n := fun h0 hs =>
      ⟨hs.1, fun hd => by rw [show ((p.setContact n true).link n).drop = none from h0] at hd; cases hd⟩
    have hcl : p.LinkSound n →
        ((p.setContact n true).setLink n { (p.setContact n true).link n with drop := none }).LinkSound n := fun hs => by
      refine ⟨?_, ?_⟩
      · rw [Part.setLink_link, if_pos rfl]; exact Link.Sound.noDrop hs.1
      · rw [Part.setLink_link, if_pos rfl]; intro hd; cases hd
    split
    · rename_i hv
      have h := ((p.setContact n true).enterSettling_ordinary n (.inl hv)).trans (Part.adviseLink_ordinary _ n)
      refine ho _ h fun hs => h.links n (hd ?_ hs)
      by_contra h0
      exact (hs.1.2.2.2.2.2.2.1 (Option.isSome_iff_ne_none.mpr h0)).1 hv
    · rename_i hv
      refine ho _ (.refl _) fun hs => hd ?_ hs
      by_contra h0
      exact (hs.1.2.2.2.2.2.2.1 (Option.isSome_iff_ne_none.mpr h0)).2 hv
    · have h := (Part.tryStart_ordinary ((p.setContact n true).setLink n
        { (p.setContact n true).link n with drop := none }) n)
      exact ho _ ((Part.clearDrop_ordinary _ n).trans h) fun hs => h.links n (hcl hs)
    · have h := (Part.tryStart_ordinary ((p.setContact n true).setLink n
        { (p.setContact n true).link n with drop := none }) n)
      exact ho _ ((Part.clearDrop_ordinary _ n).trans h) fun hs => h.links n (hcl hs)
    · have h := (Part.startRecovery_ordinary ((p.setContact n true).setLink n
        { (p.setContact n true).link n with drop := none }) n)
      exact ho _ ((Part.clearDrop_ordinary _ n).trans h) fun hs => h.links n (hcl hs)

/-- A contact that deasserts, while the part operates (R16, R18, R34). -/
theorem Part.contactFell_keeps (n : Socket) (p : Part) : p.Keeps (Part.contactFell n (p.setContact n false)) := by
  have hc : ∀ m, p.contacts.get m = false → (p.setContact n false).contacts.get m = false := fun m hm => by
    show (p.contacts.set n false).get m = _
    rw [PerSocket.get_set]; split
    · rfl
    · exact hm
  have hn : (p.setContact n false).contacts.get n = false := by
    show (p.contacts.set n false).get n = _
    rw [PerSocket.get_set_self]
  have hk : ∀ m, p.LinkSound m → (p.setContact n false).LinkSound m := fun m hs =>
    ⟨hs.1, fun hd => ⟨hc m (hs.2 hd).1, (hs.2 hd).2⟩⟩
  have ho : ∀ q : Part, (p.setContact n false).Ordinary q → p.Keeps q :=
    fun q h => ⟨⟨h.permits, h.lanes, fun m hs => h.links m (hk m hs), h.grants, h.recent, h.conds,
      fun k => h.causes k⟩, h.jobs⟩
  unfold Part.contactFell
  split
  · exact ho _ (.refl _)
  · rename_i hl
    have hl' : (p.setContact n false).ctl.loading = false := by simpa using hl
    have hdrop : ∀ x : Link, x.Sound → (((p.setContact n false).setLink n x).LinkSound n) := fun x hx => by
      refine ⟨?_, fun _ => ⟨hn, hl'⟩⟩
      rw [Part.setLink_link, if_pos rfl]; exact hx
    have hw : ∀ d, ((p.setContact n false).link n).state.working = true → (p.setContact n false).LinkSound n →
        Link.Sound { (p.setContact n false).link n with drop := d } := fun d hw hs => by
      obtain ⟨g1, g2, g3, g4, g5, g6, g7, g8, g9⟩ := hs.1
      refine ⟨g1, g2, g3, g4, g5, g6, fun _ => ⟨?_, ?_⟩, fun hr => ?_, g9⟩
      · intro e; simp only at e; rw [e] at hw; cases hw
      · intro e; simp only at e; rw [e] at hw; cases hw
      · have e := (g8 hr).1; rw [e] at hw; cases hw
    split
    · exact ho _ (.refl _)
    · rename_i hv
      refine ho _ (Part.Ordinary.trans ?_ (Part.adviseLink_ordinary _ n))
      refine Part.setLink_ordinary _ n _ fun hs => ⟨?_, id⟩
      obtain ⟨g1, g2, g3, g4, g5, g6, g7, g8, g9⟩ := hs
      have ht : ((p.setContact n false).link n).tx = none := by
        by_contra h
        have := g1 (Option.isSome_iff_ne_none.mpr h)
        rw [hv] at this; cases this
      have hq : ((p.setContact n false).link n).pollQueue = [] := by
        by_contra h
        have := g5 h
        rw [hv] at this; cases this
      have hd : ((p.setContact n false).link n).drop = none := by
        by_contra h
        exact (g7 (Option.isSome_iff_ne_none.mpr h)).2 hv
      have hr : ((p.setContact n false).link n).recovery = none := by
        by_contra h
        have := (g8 (Option.isSome_iff_ne_none.mpr h)).1
        rw [hv] at this; cases this
      have he := g9 (.inr hv)
      refine ⟨?_, ?_, ?_, ?_, ?_, ?_, ?_, ?_, ?_⟩ <;> simp [ht, hq, hd, hr, he]
    · rename_i hv
      exact ho _ (Part.setLink_ordinary_of _ n _ fun hs => hdrop _ (hw _ (by rw [hv]; rfl) hs))
    · rename_i hv
      exact ho _ (Part.setLink_ordinary_of _ n _ fun hs => hdrop _ (hw _ (by rw [hv]; rfl) hs))
    · rename_i hv
      refine ho _ (Part.setLink_ordinary_of _ n _ fun hs => hdrop _ ?_)
      obtain ⟨g1, g2, g3, g4, g5, g6, g7, g8, g9⟩ := hs.1
      refine ⟨g1, g2, g3, g4, g5, g6, fun _ => ⟨?_, ?_⟩, fun hr => (by cases hr), g9⟩
      · intro e; simp only at e; rw [e] at hv; cases hv
      · intro e; simp only at e; rw [e] at hv; cases hv

/-- A change of LOCK, while the part operates (R152). -/
theorem Part.reportLock_keeps (b : Bool) (p : Part) : p.Keeps (Part.reportLock b { p with lockPin := b }) := by
  have hp := Part.reportCause_plain { p with lockPin := b } .lock { p.fault.causes with lock := b }
  refine ⟨⟨fun h => hp.permits h, fun h => hp.lanes h, fun n h => hp.links n h, fun h => hp.grants h,
    fun h => hp.recent h, fun h => Part.reportCause_conds _ _ _ ?_ h, fun h => ?_⟩, fun h => hp.jobs h⟩
  · intro d hd
    cases d <;> first | rfl | exact absurd rfl hd
  · unfold Part.reportLock Part.CausesRight
    rw [Part.reportCause_causes, Part.reportCause_proof, hp.lockPin, hp.trust]
    exact ⟨rfl, h.2.1, h.2.2⟩

/-! ## Requests and frames from the tool link -/

theorem Part.onSettingWrite_keeps (words : List Word) (p : Part) : p.Keeps (Part.onSettingWrite words p) :=
  Part.request_keeps _ _ _ _ _ _ (fun q => Part.settingWrite_keeps _ q) p

theorem Part.onMapWrite_keeps (words : List Word) (p : Part) : p.Keeps (Part.onMapWrite words p) :=
  Part.request_keeps _ _ _ _ _ _ (fun q => Part.mapWrite_keeps _ _ q) p

theorem Part.onPark_keeps (words : List Word) (p : Part) : p.Keeps (Part.onPark words p) :=
  Part.request_keeps _ _ _ _ _ _ (fun q => q.park_keeps) p

/-- Every request keeps everything. -/
theorem Part.onRequest_keeps (a : StoreArray) (code : Byte) (words : List Word) (p : Part) :
    p.Keeps (Part.onRequest a code words p) := by
  unfold Part.onRequest
  split
  · exact (Part.onDescribe_ordinary words p).keeps
  · exact (Part.onSocketReport_ordinary words p).keeps
  · exact (Part.onFaultReport_ordinary words p).keeps
  · exact (Part.onSettingRead_ordinary words p).keeps
  · exact Part.onSettingWrite_keeps words p
  · exact (Part.onTableRead_ordinary words p).keeps
  · exact (Part.onKeyWrite_ordinary words p).keeps
  · exact (Part.onKeyRetire_ordinary words p).keeps
  · exact (Part.onKeyErase_ordinary words p).keeps
  · exact (Part.onClassWrite_ordinary words p).keeps
  · exact (Part.onClassErase_ordinary words p).keeps
  · exact (Part.onWithdrawAdd_ordinary words p).keeps
  · exact (Part.onWithdrawClear_ordinary words p).keeps
  · exact (Part.onWithdrawQuery_ordinary words p).keeps
  · exact (Part.onRulesEdit_ordinary words p).keeps
  · exact (Part.onRuleWrite_ordinary words p).keeps
  · exact (Part.onRulesApply_ordinary words p).keeps
  · exact Part.onMapWrite_keeps words p
  · exact (Part.onFaultAck_ordinary words p).keeps
  · exact (Part.onSocketRestart_ordinary words p).keeps
  · exact (Part.onAudit_ordinary words p).keeps
  · exact (Part.onLogStart_ordinary a words p).keeps
  · exact (Part.onLogNext_ordinary a words p).keeps
  · exact Part.onPark_keeps words p
  · exact (Part.onReset_ordinary words p).keeps
  · exact (Part.badShape_ordinary _ p).keeps

theorem Part.mgmtFrame_keeps (a : StoreArray) (b : List Byte) (p : Part) : p.Keeps (Part.mgmtFrame a b p) := by
  unfold Part.mgmtFrame
  split
  · exact Part.onRequest_keeps a _ _ p
  · exact (Part.badShape_ordinary _ p).keeps

theorem Part.toolFrame_keeps (a : StoreArray) (p : Part) (r : RxResult) : p.Keeps (Part.toolFrame a p r) := by
  unfold Part.toolFrame
  split
  · exact .refl p
  · repeat' split
    · exact .refl p
    · exact Part.mgmtFrame_keeps a _ p
    · exact (p.restartSilence_ordinary.trans (Part.takeDown_ordinary _ _)).keeps

/-- Bytes on the tool link keep everything. -/
theorem Part.toolBytes_keeps (a : StoreArray) (bs : List Byte) (p : Part) : p.Keeps (Part.toolBytes a bs p) := by
  have hf : ∀ (rs : List RxResult) (q : Part), q.Keeps (rs.foldl (Part.toolFrame a) q) := by
    intro rs
    induction rs with
    | nil => exact fun q => .refl q
    | cons r rs ih => exact fun q => (Part.toolFrame_keeps a q r).trans (ih _)
  unfold Part.toolBytes
  refine Part.Keeps.trans ?_ (hf _ _)
  refine Part.Ordinary.keeps ?_
  exact p.setTlp_ordinary' _ rfl rfl rfl rfl rfl

end Sys2Proof.Machine
end

