-- ==== Sys2Proof/Laws/ExecKeeps.lean ====
section
/-! SUPPORT. What a command keeps while the part operates: every command but a cold start and a cut of power or RESETn. -/

namespace Sys2Proof.Machine

/-- The end of a job as a command keeps what its owner keeps. -/
theorem State.endJob_keeps (s t : State) (r : JobEnd) (own : Job → Option (Bool → Part → Part))
    (h : s.endJob r own = .next t)
    (ho : ∀ j f, own j = some f → (∀ q, Part.KeepsMost q (f (jobOk r) q)) ∧
      (∀ q, (j.isWatermark = true → q.watermarks = 0) → q.JobsFit → (f (jobOk r) q).JobsFit)) :
    s.part.Keeps t.part := by
  unfold State.endJob at h
  split at h
  · rename_i j _ hj
    split at h
    · rename_i f hf
      injection h with h; subst h
      obtain ⟨h1, h2⟩ := ho _ _ hf
      exact Part.jobEnded_keeps _ _ _ _ _ hj h1 h2
    · injection h with h; subst h; exact .refl _
  · injection h with h; subst h; exact .refl _

/-- The same for a table job, whose owner keeps everything. -/
theorem State.endTable_keeps (s t : State) (r : JobEnd) (own : Job → Option (Bool → Part → Part))
    (h : s.endJob r own = .next t) (ho : ∀ j f, own j = some f → ∀ q, Part.Keeps q (f (jobOk r) q)) :
    s.part.Keeps t.part :=
  s.endJob_keeps t r own h fun j f hf => ⟨fun q => (ho j f hf q).toKeepsMost, fun q _ => (ho j f hf q).jobs⟩

theorem State.onPart_keeps (s t : State) (f : Part → Part) (h : s.onPart f = .next t) (hf : s.part.Keeps (f s.part)) :
    s.part.Keeps t.part := by
  injection h with h; subst h; exact Part.whileOn_keeps _ _ hf

/-- While the part operates, every command but a cold start and a cut keeps everything. -/
theorem exec_keeps (c : Instr) (s t : State) (hon : s.part.power = .on) (h : exec c s = .next t)
    (h1 : ∀ x, c ≠ .coldStart x) (h2 : ∀ x y, c ≠ .powerFailsOrResetnAsserted x y) : s.part.Keeps t.part := by
  cases c with
  | coldStart x => exact absurd rfl (h1 x)
  | powerFailsOrResetnAsserted x y => exact absurd rfl (h2 x y)
  | loadingFinished => exact s.onPart_keeps t _ h (Part.loadingFinished_keeps _)
  | contactAsserts n =>
    injection h with h; subst h
    show s.part.Keeps (if _ then _ else _)
    split
    · exact .refl _
    · rw [Part.whileOn, show (s.part.setContact n true).power = .on from hon]; exact Part.contactRose_keeps n _
  | contactDeasserts n =>
    injection h with h; subst h
    show s.part.Keeps (if _ then _ else _)
    split
    · rw [Part.whileOn, show (s.part.setContact n false).power = .on from hon]; exact Part.contactFell_keeps n _
    · exact .refl _
  | lockChange b =>
    injection h with h; subst h
    show s.part.Keeps (Part.whileOn { s.part with lockPin := b } (Part.reportLock b))
    rw [Part.whileOn, show ({ s.part with lockPin := b } : Part).power = .on from hon]
    exact Part.reportLock_keeps b s.part
  | settleTimerExpiry n => exact s.onPart_keeps t _ h (Part.settleExpiry_ordinary n _).keeps
  | dropTimerExpiry n => exact s.onPart_keeps t _ h (Part.dropExpiry_ordinary n _).keeps
  | recoveryTimerExpiry n => exact s.onPart_keeps t _ h (Part.recoveryExpiry_ordinary n _).keeps
  | packFrameSent n => exact s.onPart_keeps t _ h (Part.frameSent_ordinary n _).keeps
  | replyWindowExpiry n => exact s.onPart_keeps t _ h (Part.windowExpiry_ordinary n _).keeps
  | receiverByteTimeout r => 
    cases r with
    | pack n => exact s.onPart_keeps t _ h (Part.packByteTimeout_ordinary n _).keeps
    | tool => exact s.onPart_keeps t _ h (Part.toolByteTimeout_ordinary _).keeps
  | packReplyCollected n bs => exact s.onPart_keeps t _ h (Part.replyBytes_ordinary n bs _).keeps
  | toolFrameReceived bs => exact s.onPart_keeps t _ h (Part.toolBytes_keeps _ bs _)
  | silenceTimerExpiry => exact s.onPart_keeps t _ h (Part.silenceExpiry_ordinary _).keeps
  | toolTxEnd => exact s.onPart_keeps t _ h (Part.txEnd_ordinary _).keeps
  | recheckDue n => exact s.onPart_keeps t _ h (Part.recheckExpiry_ordinary n _).keeps
  | holdTimerExpiry n => exact s.onPart_keeps t _ h (Part.holdExpiry_ordinary _ n).keeps
  | overdrawTimerExpiry => exact s.onPart_keeps t _ h (Part.overdrawExpiry_ordinary _).keeps
  | aggregateTimerExpiry => exact s.onPart_keeps t _ h (Part.aggregateExpiry_ordinary _).keeps
  | replyStart n => exact s.onPart_keeps t _ h (Part.replyBegins_ordinary n _).keeps
  | auditComplete => exact s.onPart_keeps t _ h (Part.auditFinish_ordinary _).keeps
  | parkComplete => exact s.onPart_keeps t _ h (Part.parkDone_ordinary _).keeps
  | inBandReset => exact s.onPart_keeps t _ h (Part.inBandReset_keeps _ _)
  | describe ws => exact s.onPart_keeps t _ h (Part.onDescribe_ordinary ws _).keeps
  | socketReport ws => exact s.onPart_keeps t _ h (Part.onSocketReport_ordinary ws _).keeps
  | faultReport ws => exact s.onPart_keeps t _ h (Part.onFaultReport_ordinary ws _).keeps
  | settingRead ws => exact s.onPart_keeps t _ h (Part.onSettingRead_ordinary ws _).keeps
  | settingWrite ws => exact s.onPart_keeps t _ h (Part.onSettingWrite_keeps ws _)
  | tableRead ws => exact s.onPart_keeps t _ h (Part.onTableRead_ordinary ws _).keeps
  | keyWrite ws => exact s.onPart_keeps t _ h (Part.onKeyWrite_ordinary ws _).keeps
  | keyRetire ws => exact s.onPart_keeps t _ h (Part.onKeyRetire_ordinary ws _).keeps
  | keyErase ws => exact s.onPart_keeps t _ h (Part.onKeyErase_ordinary ws _).keeps
  | classWrite ws => exact s.onPart_keeps t _ h (Part.onClassWrite_ordinary ws _).keeps
  | classErase ws => exact s.onPart_keeps t _ h (Part.onClassErase_ordinary ws _).keeps
  | withdrawAdd ws => exact s.onPart_keeps t _ h (Part.onWithdrawAdd_ordinary ws _).keeps
  | withdrawClear ws => exact s.onPart_keeps t _ h (Part.onWithdrawClear_ordinary ws _).keeps
  | withdrawQuery ws => exact s.onPart_keeps t _ h (Part.onWithdrawQuery_ordinary ws _).keeps
  | rulesEdit ws => exact s.onPart_keeps t _ h (Part.onRulesEdit_ordinary ws _).keeps
  | ruleWrite ws => exact s.onPart_keeps t _ h (Part.onRuleWrite_ordinary ws _).keeps
  | rulesApply ws => exact s.onPart_keeps t _ h (Part.onRulesApply_ordinary ws _).keeps
  | mapWrite ws => exact s.onPart_keeps t _ h (Part.onMapWrite_keeps ws _)
  | faultAck ws => exact s.onPart_keeps t _ h (Part.onFaultAck_ordinary ws _).keeps
  | socketRestart ws => exact s.onPart_keeps t _ h (Part.onSocketRestart_ordinary ws _).keeps
  | audit ws => exact s.onPart_keeps t _ h (Part.onAudit_ordinary ws _).keeps
  | logStart ws => exact s.onPart_keeps t _ h (Part.onLogStart_ordinary _ ws _).keeps
  | logNext ws => exact s.onPart_keeps t _ h (Part.onLogNext_ordinary _ ws _).keeps
  | park ws => exact s.onPart_keeps t _ h (Part.onPark_keeps ws _)
  | reset ws => exact s.onPart_keeps t _ h (Part.onReset_ordinary ws _).keeps
  | unknownRequest b => exact s.onPart_keeps t _ h (Part.mgmtFrame_keeps _ b _)
  | watermarkJobComplete r =>
    refine s.endJob_keeps t _ _ h fun j f hf => ?_
    cases j with
    | watermark v =>
      simp only [Option.some.injEq] at hf
      subst hf
      exact ⟨fun q => q.watermarkDone_keepsMost _ _, fun q hw hq => q.watermarkDone_jobs _ _ (hw rfl) hq⟩
    | log e => cases hf
    | table j => cases hf
  | logEntryJobComplete r =>
    refine s.endTable_keeps t _ _ h fun j f hf q => ?_
    cases j with
    | log e =>
      simp only [Option.some.injEq] at hf
      subst hf
      exact .refl q
    | watermark v => cases hf
    | table j => cases hf
  | keyWriteComplete r =>
    refine s.endTable_keeps t _ _ h fun j f hf q => ?_
    split at hf
    · simp only [Option.some.injEq] at hf
      subst hf
      exact Part.keyWriteDone_keeps _ _ _ q
    · cases hf
  | keyRetireComplete r =>
    refine s.endTable_keeps t _ _ h fun j f hf q => ?_
    split at hf
    · simp only [Option.some.injEq] at hf
      subst hf
      exact Part.keyRetireDone_keeps _ _ q
    · cases hf
  | keyEraseComplete r =>
    refine s.endTable_keeps t _ _ h fun j f hf q => ?_
    split at hf
    · simp only [Option.some.injEq] at hf
      subst hf
      exact Part.keyEraseDone_keeps _ _ q
    · cases hf
  | classWriteComplete r =>
    refine s.endTable_keeps t _ _ h fun j f hf q => ?_
    split at hf
    · simp only [Option.some.injEq] at hf
      subst hf
      exact Part.classWriteDone_keeps _ _ _ q
    · cases hf
  | classEraseComplete r =>
    refine s.endTable_keeps t _ _ h fun j f hf q => ?_
    split at hf
    · simp only [Option.some.injEq] at hf
      subst hf
      exact Part.classEraseDone_keeps _ _ q
    · cases hf
  | withdrawAddComplete r =>
    refine s.endTable_keeps t _ _ h fun j f hf q => ?_
    split at hf
    · simp only [Option.some.injEq] at hf
      subst hf
      exact Part.withdrawAddDone_keeps _ _ q
    · cases hf
  | withdrawClearComplete r =>
    refine s.endTable_keeps t _ _ h fun j f hf q => ?_
    split at hf
    · simp only [Option.some.injEq] at hf
      subst hf
      exact Part.withdrawClearDone_keeps _ q
    · cases hf
  | auditWithdrawalComplete r =>
    refine s.endTable_keeps t _ _ h fun j f hf q => ?_
    split at hf
    · simp only [Option.some.injEq] at hf
      subst hf
      exact Part.auditWithdrawalDone_keeps _ _ q
    · cases hf
  | rulesApplyComplete r =>
    refine s.endTable_keeps t _ _ h fun j f hf q => ?_
    split at hf
    · simp only [Option.some.injEq] at hf
      subst hf
      exact Part.rulesApplyDone_keeps _ q
    · cases hf
  | settingWriteComplete r =>
    refine s.endTable_keeps t _ _ h fun j f hf q => ?_
    split at hf
    · simp only [Option.some.injEq] at hf
      subst hf
      exact Part.settingWriteDone_keeps _ _ _ q
    · cases hf
  | mapWriteComplete r =>
    refine s.endTable_keeps t _ _ h fun j f hf q => ?_
    split at hf
    · simp only [Option.some.injEq] at hf
      subst hf
      exact Part.mapWriteDone_keeps _ _ q
    · cases hf

end Sys2Proof.Machine
end

