-- ==== Sys2Proof/Laws/Receivers.lean ====
section
/-! SUPPORT. The 2 ms between two bytes of a frame (R4): what the receivers' timing says, and when the timeouts
fall due. -/

namespace Sys2Proof.Machine

@[simp] theorem Rx.overdue_hunting (l now : Nat) : Rx.hunting.overdue l now = false := rfl

@[simp] theorem Rx.atArrival_hunting (l now : Nat) : Rx.hunting.atArrival l now = .hunting := rfl

@[simp] theorem Rx.stamp_hunting (bs : List Byte) (l now : Nat) : Rx.hunting.stamp bs l now = l := rfl

@[simp] theorem Rx.stamp_nil (rx : Rx) (l now : Nat) : rx.stamp [] l now = l := by simp [Rx.stamp]

/-- A frame being collected is overdue exactly when more than 2 ms have passed since its last byte. -/
theorem Rx.overdue_iff (rx : Rx) (l now : Nat) : rx.overdue l now = true ↔ rx ≠ .hunting ∧ l + 2000 < now := by
  simp only [Rx.overdue, Bool.and_eq_true, bne_iff_ne, decide_eq_true_eq]
  exact Iff.rfl

theorem Rx.not_overdue_of_inTime (rx : Rx) (l now : Nat) (h : now ≤ l + 2000) : rx.overdue l now = false := by
  rw [Bool.eq_false_iff, ne_eq, Rx.overdue_iff]
  omega

theorem Rx.atArrival_of_inTime (rx : Rx) (l now : Nat) (h : now ≤ l + 2000) : rx.atArrival l now = rx := by
  simp [Rx.atArrival, rx.not_overdue_of_inTime l now h]

theorem Rx.atArrival_of_late (rx : Rx) (l now : Nat) (h : l + 2000 < now) : rx.atArrival l now = .hunting := by
  cases rx with
  | hunting => rfl
  | _ => exact if_pos ((Rx.overdue_iff _ _ _).2 ⟨Rx.noConfusion, h⟩)

theorem Rx.stamp_of_collecting (rx : Rx) (bs : List Byte) (l now : Nat) (h : rx ≠ .hunting) (hb : bs ≠ []) :
    rx.stamp bs l now = now := by
  simp [Rx.stamp, h, hb]

@[simp] theorem Tlp.receive_lane0 (t : Tlp) (bs : List Byte) (now : Nat) : (t.receive bs now).1.lane0 = t.lane0 := rfl
@[simp] theorem Tlp.receive_lane1 (t : Tlp) (bs : List Byte) (now : Nat) : (t.receive bs now).1.lane1 = t.lane1 := rfl
@[simp] theorem Tlp.receive_lane2 (t : Tlp) (bs : List Byte) (now : Nat) : (t.receive bs now).1.lane2 = t.lane2 := rfl
@[simp] theorem Tlp.receive_response (t : Tlp) (bs : List Byte) (now : Nat) :
    (t.receive bs now).1.response = t.response := rfl
@[simp] theorem Tlp.receive_sending (t : Tlp) (bs : List Byte) (now : Nat) :
    (t.receive bs now).1.sending = t.sending := rfl
@[simp] theorem Tlp.receive_silence (t : Tlp) (bs : List Byte) (now : Nat) :
    (t.receive bs now).1.silence = t.silence := rfl

/-- Bytes that come to a hunting receiver are taken whenever they come. -/
theorem Tlp.receive_of_hunting (t : Tlp) (bs : List Byte) (now : Nat) (h : t.rx = .hunting) :
    t.receive bs now = ({ t with rx := (Rx.run .hunting bs).1,
                                 lastByte := (Rx.run .hunting bs).1.stamp bs t.lastByte now }, (Rx.run .hunting bs).2) := by
  simp [Tlp.receive, h]

/-! ## The timeouts that have fallen due -/

theorem reached_iff (t : Option Nat) (now : Nat) : reached t now = true ↔ ∃ d, t = some d ∧ d ≤ now := by
  unfold reached; split <;> simp_all

theorem mem_ite_one {α : Type} (c : Prop) [Decidable c] (e x : α) : x ∈ (if c then [e] else []) ↔ c ∧ x = e := by
  split <;> simp [*]

theorem Part.packTimeout_mem_dueAt (p : Part) (n m : Socket) :
    Instr.receiverByteTimeout (.pack n) ∈ p.dueAt m ↔ n = m ∧ (p.link m).byteOverdue p.clock = true := by
  simp only [Part.dueAt, List.mem_append, mem_ite_one, reduceCtorEq, and_false, false_or, or_false,
    Instr.receiverByteTimeout.injEq, Receiver.pack.injEq]
  exact and_comm

theorem Part.toolTimeout_not_mem_dueAt (p : Part) (m : Socket) : Instr.receiverByteTimeout .tool ∉ p.dueAt m := by
  simp only [Part.dueAt, List.mem_append, mem_ite_one, reduceCtorEq, and_false, or_false, not_false_eq_true,
    Instr.receiverByteTimeout.injEq]

theorem Socket.mem_all (n : Socket) : n ∈ allSockets := by revert n; decide

/-- A pack receiver's timeout is due exactly when the reply being collected is overdue. -/
theorem Part.packTimeout_mem_due (p : Part) (n : Socket) (h : p.ctl.loading = false) :
    Instr.receiverByteTimeout (.pack n) ∈ p.due ↔ (p.link n).byteOverdue p.clock = true := by
  simp only [Part.due, h, Bool.false_eq_true, if_false, Part.toolByteDue, List.mem_append, mem_ite_one, reduceCtorEq,
    and_false, or_false, Instr.receiverByteTimeout.injEq, List.mem_flatMap, Part.packTimeout_mem_dueAt]
  exact ⟨fun ⟨_, _, e, h⟩ => e ▸ h, fun h => ⟨n, Socket.mem_all n, rfl, h⟩⟩

/-- The tool receiver's timeout is due exactly when the frame being collected is overdue, during loading too. -/
theorem Part.toolTimeout_mem_due (p : Part) :
    Instr.receiverByteTimeout .tool ∈ p.due ↔ p.tlp.rx.overdue p.tlp.lastByte p.clock = true := by
  unfold Part.due
  split
  · simp only [Part.toolByteDue, List.mem_append, mem_ite_one, reduceCtorEq, and_false, false_or, and_true]
  · simp only [Part.toolByteDue, List.mem_append, mem_ite_one, reduceCtorEq, and_false, or_false, and_true,
      List.mem_flatMap, p.toolTimeout_not_mem_dueAt, exists_false, false_or]

end Sys2Proof.Machine
end

