-- ==== Sys2Proof/Laws/Requests.lean ====
section
/-! SUPPORT. What a request does before its own action and in its answer, in the words the statements use. -/

namespace Sys2Proof.Machine

open Sys2Proof.Claims

/-! ## Placing a response and queuing a job -/

/-- A response placed is the request in flight answered. -/
theorem Part.respond_eq_answered (p : Part) (code : Byte) (o : ReqOutcome) (ws : List Word) :
    p.respond code o ws = answered p (response code o ws) := by
  unfold Part.respond answered Part.transmit Mgmt.toWaiting
  cases h : p.tlp.sending with
  | none =>
    simp only [Part.setTlp, Part.setMgmt, h]
    cases p.mgmt.request <;> rfl
  | some f => simp only [Part.setTlp, Part.setMgmt, h]

/-- A job queued is a job put at the queue's end, or begun. -/
theorem Part.queueJob_eq_withJob (p : Part) (j : Job) : p.queueJob j = withJob p j := by
  unfold Part.queueJob withJob Part.setCtl StoreCtl.start
  cases h : p.ctl.job <;> cases hq : p.ctl.queue <;> simp only [h, hq, List.nil_append, List.cons_append]

/-- An effect on the part of a loaded state is taken. -/
theorem State.onPart_of_loaded (s : State) (hs : Loaded s) (f : Part → Part) :
    s.onPart f = .next { s with part := f s.part } := by
  unfold State.onPart Part.whileOn
  simp only [hs.1]

/-! ## Placing a frame with no request in flight -/

theorem Part.transmit_mgmt_of_free (p : Part) (h : p.mgmt.request = none) : p.transmit.mgmt = p.mgmt := by
  unfold Part.transmit
  split
  · rfl
  · split
    · simp only [Part.setTlp, Part.setMgmt, h, endFlight]
      cases hm : p.mgmt
      simp only [hm] at h
      subst h
      rfl
    · split <;> rfl

theorem Part.place_mgmt_of_free (p : Part) (k : Lane) (f : Frame) (h : p.mgmt.request = none) :
    (p.place k f).mgmt = p.mgmt := by
  unfold Part.place
  rw [Part.transmit_mgmt_of_free _ (by exact h)]
  rfl

theorem Part.clearCond_mgmt_of_free (p : Part) (c : Cond) (h : p.mgmt.request = none) :
    (p.clearCond c).mgmt = p.mgmt := by
  unfold Part.clearCond Part.changeCond Part.adviseCond
  repeat' split
  all_goals first | rfl | exact Part.place_mgmt_of_free _ _ _ h

/-! ## A condition's departure, the silence timer's restart -/

/-- A condition's departure leaves the units other than the fault unit, the tool link and the request in flight. -/
theorem Part.clearCond_frame (p : Part) (c : Cond) :
    (p.clearCond c).ctl = p.ctl ∧ (p.clearCond c).links = p.links ∧ (p.clearCond c).engine = p.engine ∧
      (p.clearCond c).grants = p.grants ∧ (p.clearCond c).classifier = p.classifier := by
  unfold Part.clearCond
  split
  · unfold Part.changeCond
    exact ⟨Part.adviseCond_ctl .., Part.adviseCond_links .., Part.adviseCond_engine .., Part.adviseCond_grants ..,
      Part.adviseCond_classifier ..⟩
  · exact ⟨rfl, rfl, rfl, rfl, rfl⟩
  · exact ⟨rfl, rfl, rfl, rfl, rfl⟩

/-- The restart of the silence timer leaves them too. -/
theorem Part.restartSilence_frame (p : Part) :
    p.restartSilence.ctl = p.ctl ∧ p.restartSilence.links = p.links ∧ p.restartSilence.engine = p.engine ∧
      p.restartSilence.grants = p.grants ∧ p.restartSilence.classifier = p.classifier := by
  unfold Part.restartSilence Part.reportCause
  repeat' split
  · exact ⟨rfl, rfl, rfl, rfl, rfl⟩
  · rename_i h
    simp [Causes.present] at h
  · exact Part.clearCond_frame _ _
  · exact ⟨rfl, rfl, rfl, rfl, rfl⟩
  · exact ⟨rfl, rfl, rfl, rfl, rfl⟩

theorem Part.restartSilence_plain (p : Part) : p.Plain p.restartSilence := by
  unfold Part.restartSilence
  exact (Part.Ordinary.toPlain
    (p.setTlp_ordinary' { p.tlp with silence := some (p.clock + silenceTime) } rfl rfl rfl rfl rfl)).trans
    (Part.reportCause_plain _ _ _)

theorem Part.restartSilence_mgmt_of_free (p : Part) (h : p.mgmt.request = none) : p.restartSilence.mgmt = p.mgmt := by
  unfold Part.restartSilence Part.reportCause
  repeat' split
  · rfl
  · rename_i h'
    simp [Causes.present] at h'
  · rw [Part.clearCond_mgmt_of_free _ _ (by exact h)]
    rfl
  · rfl
  · rfl

/-! ## A request as it is taken -/

@[simp] theorem taken_ctl (c : Byte) (ws : List Word) (p : Part) : (taken c ws p).ctl = p.ctl :=
  p.restartSilence_frame.1
@[simp] theorem taken_links (c : Byte) (ws : List Word) (p : Part) : (taken c ws p).links = p.links :=
  p.restartSilence_frame.2.1
@[simp] theorem taken_engine (c : Byte) (ws : List Word) (p : Part) : (taken c ws p).engine = p.engine :=
  p.restartSilence_frame.2.2.1
@[simp] theorem taken_grants (c : Byte) (ws : List Word) (p : Part) : (taken c ws p).grants = p.grants :=
  p.restartSilence_frame.2.2.2.1
@[simp] theorem taken_classifier (c : Byte) (ws : List Word) (p : Part) : (taken c ws p).classifier = p.classifier :=
  p.restartSilence_frame.2.2.2.2
@[simp] theorem taken_trust (c : Byte) (ws : List Word) (p : Part) : (taken c ws p).trust = p.trust :=
  p.restartSilence_plain.trust
@[simp] theorem taken_clock (c : Byte) (ws : List Word) (p : Part) : (taken c ws p).clock = p.clock :=
  p.restartSilence_plain.clock
@[simp] theorem taken_contacts (c : Byte) (ws : List Word) (p : Part) : (taken c ws p).contacts = p.contacts :=
  p.restartSilence_plain.contacts
@[simp] theorem taken_map (c : Byte) (ws : List Word) (p : Part) : (taken c ws p).fault.map = p.fault.map :=
  p.restartSilence_plain.map
@[simp] theorem taken_session (c : Byte) (ws : List Word) (p : Part) (n : Socket) :
    (taken c ws p).session n = p.session n := by
  unfold Part.session
  rw [taken_engine]
@[simp] theorem taken_link (c : Byte) (ws : List Word) (p : Part) (n : Socket) : (taken c ws p).link n = p.link n := by
  unfold Part.link
  rw [taken_links]

theorem taken_mgmt (c : Byte) (ws : List Word) (p : Part) (h : p.mgmt.request = none) :
    (taken c ws p).mgmt = { p.mgmt with request := some (Claims.request c ws) } := by
  unfold taken Part.setRequest
  simp only [Part.setMgmt_mgmt, Part.restartSilence_mgmt_of_free p h]

/-- What a request comes to when none is in flight and loading has finished: INVALID, WRONG_STATE, or its own action. -/
theorem Part.request_of_free (code : Byte) (least most : Nat) (whileParked : Bool) (ws : List Word) (f : Part → Part)
    (p : Part) (h1 : p.ctl.loading = false) (h2 : p.mgmt.request = none) :
    Part.request code least most whileParked ws f p =
      if ws.length < least ∨ most < ws.length then answered (taken code ws p) (response code .invalid [])
      else if p.mgmt.parked && !whileParked then answered (taken code ws p) (response code .wrongState [])
      else f (taken code ws p) := by
  have hp : (taken code ws p).mgmt.parked = p.mgmt.parked := by rw [taken_mgmt _ _ _ h2]
  unfold Part.request
  simp only [h1, Bool.false_eq_true, if_false, Part.restartSilence_mgmt_of_free p h2, h2, Part.refuseWith,
    Part.respond_eq_answered]
  rw [← hp]
  rfl

end Sys2Proof.Machine
end

