-- ==== Sys2Proof/Laws/Store.lean ====
section
/-! SUPPORT. The store array: its canonical form is kept by every step, and what a read gives after one; the rewriting of a
region; the words of a log entry; the order of the log's sectors. -/

namespace Sys2Proof.Machine

/-! ## The canonical form -/

/-- The canonical form of a non-empty array, said of its head and its tail. -/
theorem StoreArray.wf_cons (k : Nat) (w : Word) (rest : StoreArray) :
    StoreArray.wf ((k, w) :: rest) = true ↔
      k < arrayWords ∧ w ≠ erased ∧ (∀ e ∈ rest, k < e.1) ∧ StoreArray.wf rest = true := by
  induction rest generalizing k w with
  | nil => simp [StoreArray.wf]
  | cons e rest ih =>
    obtain ⟨k', w'⟩ := e
    have h' := ih k' w'
    constructor
    · intro h
      simp only [StoreArray.wf, Bool.and_eq_true, decide_eq_true_eq, bne_iff_ne, ne_eq] at h
      obtain ⟨⟨hk, hw⟩, hr⟩ := h
      have hr' := h'.1 hr
      refine ⟨lt_trans hk hr'.1, hw, ?_, hr⟩
      intro e he
      rcases List.mem_cons.1 he with rfl | he
      · exact hk
      · exact lt_trans hk (hr'.2.2.1 e he)
    · rintro ⟨_, hw, hall, hr⟩
      simp only [StoreArray.wf, Bool.and_eq_true, decide_eq_true_eq, bne_iff_ne, ne_eq]
      exact ⟨⟨hall (k', w') (List.mem_cons_self ..), hw⟩, hr⟩

/-- A word not listed reads erased. -/
theorem readWord_of_lt (a : StoreArray) (addr : Nat) (h : ∀ e ∈ a, addr < e.1) : readWord a addr = erased := by
  induction a with
  | nil => rfl
  | cons e a ih =>
    obtain ⟨k, w⟩ := e
    have hk : addr < k := h (k, w) (List.mem_cons_self ..)
    simp only [readWord, Nat.ne_of_gt hk, if_false]
    exact ih fun e he => h e (List.mem_cons_of_mem _ he)

/-- The addresses of `putWord`'s result are those of the array and the one written. -/
theorem putWord_mem (a : StoreArray) (addr : Nat) (x : Word) (e : Nat × Word) (h : e ∈ putWord a addr x) :
    e.1 = addr ∨ e ∈ a := by
  induction a with
  | nil =>
    simp only [putWord] at h
    split at h
    · exact absurd h (List.not_mem_nil)
    · simp_all
  | cons e' a ih =>
    obtain ⟨k, w⟩ := e'
    simp only [putWord] at h
    split at h
    · rcases List.mem_cons.1 h with rfl | h
      · exact Or.inr (List.mem_cons_self ..)
      · exact (ih h).imp id (List.mem_cons_of_mem _)
    · split at h
      · split at h
        · exact Or.inr (List.mem_cons_of_mem _ h)
        · rcases List.mem_cons.1 h with rfl | h
          · exact Or.inl rfl
          · exact Or.inr (List.mem_cons_of_mem _ h)
      · split at h
        · exact Or.inr h
        · rcases List.mem_cons.1 h with rfl | h
          · exact Or.inl rfl
          · exact Or.inr h

theorem putWord_wf (a : StoreArray) (addr : Nat) (x : Word) (ha : addr < arrayWords) (h : StoreArray.wf a = true) :
    StoreArray.wf (putWord a addr x) = true := by
  induction a with
  | nil =>
    simp only [putWord]
    split
    · rfl
    · simp_all [StoreArray.wf]
  | cons e a ih =>
    obtain ⟨k, w⟩ := e
    have hc := (StoreArray.wf_cons k w a).1 h
    simp only [putWord]
    split
    · rename_i hk
      refine (StoreArray.wf_cons _ _ _).2 ⟨hc.1, hc.2.1, ?_, ih hc.2.2.2⟩
      intro e he
      rcases putWord_mem a addr x e he with he | he
      · omega
      · exact hc.2.2.1 e he
    · split
      · rename_i hk
        split
        · exact hc.2.2.2
        · rename_i hx
          subst hk
          exact (StoreArray.wf_cons _ _ _).2 ⟨hc.1, hx, hc.2.2.1, hc.2.2.2⟩
      · split
        · exact h
        · rename_i hk1 hk2 hx
          refine (StoreArray.wf_cons _ _ _).2 ⟨ha, hx, ?_, h⟩
          intro e he
          rcases List.mem_cons.1 he with rfl | he
          · show addr < k; omega
          · have := hc.2.2.1 e he; omega

/-- A read after `putWord`. -/
theorem readWord_putWord (a : StoreArray) (addr b : Nat) (x : Word) (h : StoreArray.wf a = true) :
    readWord (putWord a addr x) b = if b = addr then x else readWord a b := by
  induction a with
  | nil =>
    simp only [putWord]
    split
    · rename_i hx; subst hx; simp [readWord]
    · simp only [readWord]
      by_cases hb : b = addr
      · simp [hb]
      · simp [hb, Ne.symm hb]
  | cons e a ih =>
    obtain ⟨k, w⟩ := e
    have hc := (StoreArray.wf_cons k w a).1 h
    simp only [putWord]
    split
    · rename_i hk
      simp only [readWord]
      by_cases hkb : k = b
      · have : b ≠ addr := by omega
        simp [hkb, this]
      · simp only [hkb, if_false]; exact ih hc.2.2.2
    · split
      · rename_i hk
        subst hk
        split
        · rename_i hx; subst hx
          by_cases hb : b = k
          · subst hb
            simp [readWord_of_lt a b fun e he => hc.2.2.1 e he]
          · simp [readWord, hb, Ne.symm hb]
        · by_cases hb : b = k
          · subst hb; simp [readWord]
          · simp [readWord, hb, Ne.symm hb]
      · rename_i hk1 hk2
        split
        · rename_i hx; subst hx
          by_cases hb : b = addr
          · subst hb
            rw [if_pos rfl]
            apply readWord_of_lt
            intro e he
            rcases List.mem_cons.1 he with rfl | he
            · show b < k; omega
            · have := hc.2.2.1 e he; omega
          · simp [hb]
        · by_cases hb : b = addr
          · subst hb; simp [readWord]
          · simp [readWord, hb, Ne.symm hb]

theorem filter_wf (a : StoreArray) (f : Nat × Word → Bool) (h : StoreArray.wf a = true) :
    StoreArray.wf (a.filter f) = true := by
  induction a with
  | nil => rfl
  | cons e a ih =>
    obtain ⟨k, w⟩ := e
    have hc := (StoreArray.wf_cons k w a).1 h
    rw [List.filter_cons]
    split
    · exact (StoreArray.wf_cons _ _ _).2
        ⟨hc.1, hc.2.1, fun e he => hc.2.2.1 e (List.mem_of_mem_filter he), ih hc.2.2.2⟩
    · exact ih hc.2.2.2

/-- Erasing a sector keeps the canonical form. -/
theorem eraseSector_wf (a : StoreArray) (s : Nat) (h : StoreArray.wf a = true) :
    StoreArray.wf (eraseSector a s) = true := filter_wf a _ h

/-- Programming a word keeps the canonical form. -/
theorem programWord_wf (a : StoreArray) (addr : Nat) (x : Word) (h : StoreArray.wf a = true) :
    StoreArray.wf (programWord a addr x) = true := by
  unfold programWord
  split
  · rename_i ha; exact putWord_wf a addr _ ha h
  · exact h

/-- One step of a store job keeps the canonical form. -/
theorem Prim.apply_wf (a : StoreArray) (s : Prim) (h : StoreArray.wf a = true) :
    StoreArray.wf (s.apply a) = true := by
  cases s with
  | erase s => exact eraseSector_wf a s h
  | program addr x => exact programWord_wf a addr x h

/-- The steps of a store job keep the canonical form. -/
theorem applySteps_wf (a : StoreArray) (ps : List Prim) (h : StoreArray.wf a = true) :
    StoreArray.wf (applySteps a ps) = true := by
  induction ps generalizing a with
  | nil => exact h
  | cons s ps ih => exact ih (s.apply a) (Prim.apply_wf a s h)

/-! ## Reads after a step -/

/-- A read after the programming of a word: 1 bits of the word have been turned into 0. -/
theorem readWord_programWord (a : StoreArray) (addr b : Nat) (x : Word) (h : StoreArray.wf a = true)
    (ha : addr < arrayWords) :
    readWord (programWord a addr x) b = if b = addr then readWord a addr &&& x else readWord a b := by
  unfold programWord
  rw [if_pos ha, readWord_putWord a addr b _ h]

/-- Programming one word leaves every other word. -/
theorem readWord_programWord_ne (a : StoreArray) (addr b : Nat) (x : Word) (h : StoreArray.wf a = true)
    (hb : b ≠ addr) : readWord (programWord a addr x) b = readWord a b := by
  unfold programWord
  split
  · rw [readWord_putWord a addr b _ h, if_neg hb]
  · rfl

theorem readWord_filter (a : StoreArray) (f : Nat → Bool) (b : Nat) :
    readWord (a.filter fun e => f e.1) b = if f b then readWord a b else erased := by
  induction a with
  | nil => simp [readWord]
  | cons e a ih =>
    obtain ⟨k, w⟩ := e
    rw [List.filter_cons]
    by_cases hf : f k = true
    · simp only [hf, if_true, readWord]
      by_cases hk : k = b
      · subst hk; simp [hf]
      · simp only [hk, if_false]; exact ih
    · simp only [hf, readWord]
      by_cases hk : k = b
      · subst hk; simp only [hf] at ih ⊢; simpa using ih
      · simp only [hk, if_false]; simpa using ih

/-- A read after the erasing of a sector: its words read erased, the others as before. -/
theorem readWord_eraseSector (a : StoreArray) (s b : Nat) :
    readWord (eraseSector a s) b = if s * 128 ≤ b ∧ b < s * 128 + 128 then erased else readWord a b := by
  unfold eraseSector
  rw [readWord_filter a (fun k => !(decide (s * 128 ≤ k) && decide (k < s * 128 + 128))) b]
  by_cases h : s * 128 ≤ b ∧ b < s * 128 + 128
  · simp [h]
  · rw [if_neg h]
    have : (!(decide (s * 128 ≤ b) && decide (b < s * 128 + 128))) = true := by
      simp only [Bool.not_eq_true', Bool.and_eq_false_iff, decide_eq_false_iff_not]
      omega
    rw [if_pos this]

/-- Whether a step touches an address. -/
def Prim.touches (b : Nat) : Prim → Bool
  | .erase s => s * 128 ≤ b && b < s * 128 + 128
  | .program addr _ => addr == b

/-- A step leaves every word that it does not touch. -/
theorem Prim.readWord_apply (a : StoreArray) (s : Prim) (b : Nat) (h : StoreArray.wf a = true)
    (hb : s.touches b = false) : readWord (s.apply a) b = readWord a b := by
  cases s with
  | erase s =>
    simp only [Prim.touches, Bool.and_eq_false_iff, decide_eq_false_iff_not] at hb
    simp only [Prim.apply, readWord_eraseSector]
    rw [if_neg (by omega)]
  | program addr x =>
    simp only [Prim.touches, beq_eq_false_iff_ne, ne_eq] at hb
    exact readWord_programWord_ne a addr b x h (fun e => hb e.symm)

/-- The steps of a job leave every word that none of them touches. -/
theorem readWord_applySteps (a : StoreArray) (ps : List Prim) (b : Nat) (h : StoreArray.wf a = true)
    (hb : ∀ s ∈ ps, s.touches b = false) : readWord (applySteps a ps) b = readWord a b := by
  induction ps generalizing a with
  | nil => rfl
  | cons s ps ih =>
    have h1 := ih (s.apply a) (Prim.apply_wf a s h) fun s' hs => hb s' (List.mem_cons_of_mem _ hs)
    have h2 := Prim.readWord_apply a s b h (hb s (List.mem_cons_self ..))
    exact h1.trans h2

/-! ## A job that stops before its last step (R177, R183) -/

/-- No sector's check word is the word that a stopped job leaves: a check word's upper half is 0. -/
theorem checkWord_ne_spoiled (ws : List Word) : checkWord ws ≠ spoiled := by
  intro h
  have h1 : (checkWord ws).getLsbD 30 = spoiled.getLsbD 30 := by rw [h]
  simp [checkWord, spoiled] at h1

theorem checkWord_ne_erased (ws : List Word) : checkWord ws ≠ erased := by
  intro h
  have h1 : (checkWord ws).getLsbD 31 = erased.getLsbD 31 := by rw [h]
  simp [checkWord, erased] at h1

@[simp] theorem Job.stopped_zero (j : Job) (ps : List Prim) : j.stopped ps 0 = [] := by
  unfold Job.stopped; split <;> simp

@[simp] theorem Job.taken_success (j : Job) (ps : List Prim) : j.taken ps .success = ps := rfl

theorem Job.stopped_of_rewrites_none (j : Job) (ps : List Prim) (k : Nat) (h : j.rewrites = none) :
    j.stopped ps k = ps.take k := by simp [Job.stopped, h]

/-- The words programmed from an address touch nothing at or above their end. -/
theorem programAll_touches (base b : Nat) (ws : List Word) (h : base + ws.length ≤ b) :
    ∀ s ∈ programAll base ws, s.touches b = false := by
  induction ws generalizing base with
  | nil => simp [programAll]
  | cons w ws ih =>
    simp only [List.length_cons] at h
    intro s hs
    rcases List.mem_cons.1 hs with rfl | hs
    · simp only [Prim.touches, beq_eq_false_iff_ne, ne_eq]; omega
    · exact ih (base + 1) (by omega) s hs

theorem programAll_length (base : Nat) (ws : List Word) : (programAll base ws).length = ws.length := by
  induction ws generalizing base with
  | nil => rfl
  | cons w ws ih => simp [programAll, ih]

theorem rewriteRegion_length (r : Region) (ws : List Word) : (rewriteRegion r ws).length = ws.length + 2 := by
  simp [rewriteRegion, programAll_length]

theorem take_programAll (base m : Nat) (ws : List Word) : (programAll base ws).take m = programAll base (ws.take m) := by
  induction ws generalizing base m with
  | nil => simp [programAll]
  | cons w ws ih => cases m <;> simp [programAll, ih]

/-- The first steps of a region's rewriting, short of its check word. -/
theorem take_rewriteRegion (r : Region) (ws : List Word) (m : Nat) (h : m ≤ ws.length) :
    (rewriteRegion r ws).take (m + 1) = .erase r.sector :: programAll r.base (ws.take m) := by
  simp only [rewriteRegion, List.cons_append, List.take_succ_cons]
  rw [List.take_append_of_le_length (by rw [programAll_length]; omega), take_programAll]

/-- A job that has programmed a word has done its first steps and nothing else (R176, R183). -/
theorem Job.stopped_of_writes (j : Job) (ps : List Prim) (k : Nat) (h : (ps.take k).any Prim.writes = true) :
    j.stopped ps k = ps.take k := by
  unfold Job.stopped
  split
  · rfl
  · simp [h]

/-- Among words programmed one after another, one that is not erased. -/
theorem writes_programAll (base : Nat) (ws : List Word) (h : (programAll base ws).any Prim.writes = true) :
    ∃ (i : Nat) (w : Word), ws[i]? = some w ∧ w ≠ erased := by
  induction ws generalizing base with
  | nil => cases h
  | cons w ws ih =>
    by_cases hw : w = erased
    · obtain ⟨i, x, hx⟩ := ih (base + 1) (by simpa [programAll, Prim.writes, hw] using h)
      exact ⟨i + 1, x, by simpa using hx⟩
    · exact ⟨0, w, rfl, hw⟩

/-! ## A region after its rewriting (R175, R177) -/

/-- A read after words have been programmed one after another from an address. -/
theorem readWord_programAll (a : StoreArray) (base i : Nat) (ws : List Word) (ha : StoreArray.wf a = true)
    (hb : base + ws.length ≤ arrayWords) :
    readWord (applySteps a (programAll base ws)) (base + i) =
      match ws[i]? with
      | some w => readWord a (base + i) &&& w
      | none => readWord a (base + i) := by
  induction ws generalizing a base i with
  | nil => simp [programAll, applySteps]
  | cons w ws ih =>
    simp only [List.length_cons] at hb
    have h1 : applySteps a (programAll base (w :: ws)) = applySteps (programWord a base w) (programAll (base + 1) ws) := rfl
    have hw : StoreArray.wf (programWord a base w) = true := programWord_wf a base w ha
    rw [h1]
    cases i with
    | zero =>
      rw [readWord_applySteps _ _ _ hw]
      · rw [Nat.add_zero, readWord_programWord a base base w ha (by omega), if_pos rfl]; rfl
      · intro s hs
        have : ∀ (b : Nat) (vs : List Word), base < b → ∀ s ∈ programAll b vs, s.touches (base + 0) = false := by
          intro b vs
          induction vs generalizing b with
          | nil => simp [programAll]
          | cons v vs ih2 =>
            intro hlt s hs
            rcases List.mem_cons.1 hs with rfl | hs
            · simp only [Prim.touches, beq_eq_false_iff_ne, ne_eq]; omega
            · exact ih2 (b + 1) (by omega) s hs
        exact this (base + 1) ws (by omega) s hs
    | succ i =>
      have h2 := ih (programWord a base w) (base + 1) i hw (by omega)
      have h3 : base + (i + 1) = base + 1 + i := by omega
      rw [h3, h2, readWord_programWord_ne a base (base + 1 + i) w ha (by omega)]
      rfl

theorem Region.base_le (r : Region) : r.base + 128 ≤ arrayWords := by cases r <;> decide

/-- The words of a region after its rewriting: the content, then erased words. -/
theorem readWords_rewriteRegion (a : StoreArray) (r : Region) (ws : List Word) (ha : StoreArray.wf a = true)
    (hw : ws.length ≤ 127) : readWords (applySteps a (rewriteRegion r ws)) r.base 127 = padSector ws := by
  have hr := r.base_le
  have h1 : StoreArray.wf (eraseSector a r.sector) = true := eraseSector_wf a _ ha
  have h2 := applySteps_wf (eraseSector a r.sector) (programAll r.base ws) h1
  apply List.ext_getElem?
  intro i
  by_cases hi : i < 127
  · have hs : applySteps a (rewriteRegion r ws) = programWord (applySteps (eraseSector a r.sector) (programAll r.base ws))
        (r.base + 127) (checkWord (padSector ws)) := by
      simp [rewriteRegion, applySteps, Prim.apply]
    have h3 : readWord (applySteps a (rewriteRegion r ws)) (r.base + i) =
        (match ws[i]? with
        | some w => w
        | none => erased) := by
      rw [hs, readWord_programWord_ne _ _ _ _ h2 (by omega), readWord_programAll _ _ _ _ h1 (by omega),
        readWord_eraseSector, if_pos (by unfold Region.base; omega)]
      cases ws[i]? with
      | none => rfl
      | some w => exact BitVec.allOnes_and
    rw [readWords, List.getElem?_map, List.getElem?_range hi, Option.map_some, h3, padSector]
    by_cases hl : i < ws.length
    · rw [List.getElem?_append_left hl, List.getElem?_eq_getElem hl]
    · rw [List.getElem?_append_right (by omega), List.getElem?_replicate, if_pos (by omega), List.getElem?_eq_none (by omega)]
  · rw [List.getElem?_eq_none (by simp [readWords]; omega), List.getElem?_eq_none (by simp [padSector]; omega)]

/-- A single-sector region that a job has rewritten passes its check. -/
theorem checkHolds_rewriteRegion (a : StoreArray) (r : Region) (ws : List Word) (ha : StoreArray.wf a = true)
    (hw : ws.length ≤ 127) : checkHolds (applySteps a (rewriteRegion r ws)) r = true := by
  have hr := r.base_le
  have h1 : StoreArray.wf (eraseSector a r.sector) = true := eraseSector_wf a _ ha
  have h2 := applySteps_wf (eraseSector a r.sector) (programAll r.base ws) h1
  unfold checkHolds
  rw [readWords_rewriteRegion a r ws ha hw]
  have hs : applySteps a (rewriteRegion r ws) = programWord (applySteps (eraseSector a r.sector) (programAll r.base ws))
      (r.base + 127) (checkWord (padSector ws)) := by
    simp [rewriteRegion, applySteps, Prim.apply]
  have h3 : readWord (applySteps (eraseSector a r.sector) (programAll r.base ws)) (r.base + 127) = erased := by
    rw [readWord_programAll _ _ _ _ h1 (by omega), readWord_eraseSector, if_pos (by unfold Region.base; omega),
      List.getElem?_eq_none (by omega)]
  rw [hs, readWord_programWord _ _ _ _ h2 (by omega), if_pos rfl, h3]
  simp only [beq_iff_eq]
  exact BitVec.allOnes_and

/-- A region that holds a word that is not erased is not blank. -/
theorem regionBlank_of_read (a : StoreArray) (r : Region) (b : Nat) (hb : r.base ≤ b)
    (hb2 : b < r.base + 128 * r.sectors) (h : readWord a b ≠ erased) : regionBlank a r = false := by
  rw [Bool.eq_false_iff]
  intro hh
  unfold regionBlank at hh
  rw [List.all_eq_true] at hh
  apply h
  induction a with
  | nil => rfl
  | cons e a ih =>
    obtain ⟨k, w⟩ := e
    simp only [readWord]
    split
    · rename_i hk
      have h1 := hh (k, w) (List.mem_cons_self ..)
      simp only [Bool.or_eq_true, decide_eq_true_eq] at h1
      omega
    · rename_i hk
      exact ih (by simpa [readWord, hk] using h) fun x hx => hh x (List.mem_cons_of_mem _ hx)

/-- A table region that a job has rewritten is judged valid at the next cold start. -/
theorem judgeRegion_rewriteRegion (a : StoreArray) (r : Region) (ws : List Word) (ha : StoreArray.wf a = true)
    (hw : ws.length ≤ 127) (hr : r = .settings ∨ r = .keys ∨ r = .classes ∨ r = .rules) :
    judgeRegion (applySteps a (rewriteRegion r ws)) r = .valid := by
  have hc := checkHolds_rewriteRegion a r ws ha hw
  have hv : regionValid (applySteps a (rewriteRegion r ws)) r = true := by
    rcases hr with rfl | rfl | rfl | rfl <;> exact hc
  have hb : regionBlank (applySteps a (rewriteRegion r ws)) r = false := by
    refine regionBlank_of_read _ r (r.base + 127) (by omega) (by cases r <;> simp [Region.sectors]) ?_
    rw [checkHolds, beq_iff_eq] at hc
    rw [hc]
    exact checkWord_ne_erased _
  simp [judgeRegion, hb, hv]

/-- A region whose rewriting stopped between its first step and its last: the last word is erased, or holds the model's mark
while no content word is programmed, and so the region is not blank (R177, R183; log 30). -/
theorem read_stopped (a : StoreArray) (j : Job) (r : Region) (ws : List Word) (k : Nat)
    (ha : StoreArray.wf a = true) (hr : j.rewrites = some r) (hw : ws.length ≤ 127) (h0 : 0 < k)
    (hk : k < (rewriteRegion r ws).length) :
    readWord (applySteps a (j.stopped (rewriteRegion r ws) k)) (r.base + 127) =
        (if ((rewriteRegion r ws).take k).any Prim.writes then erased else spoiled) ∧
      regionBlank (applySteps a (j.stopped (rewriteRegion r ws) k)) r = false := by
  rw [rewriteRegion_length] at hk
  obtain ⟨m, rfl⟩ : ∃ m, k = m + 1 := ⟨k - 1, by omega⟩
  have ht := take_rewriteRegion r ws m (by omega)
  have hb : r.base + 127 < arrayWords := by cases r <;> decide
  have hl : (ws.take m).length ≤ 127 := by rw [List.length_take]; omega
  have h1 : StoreArray.wf (eraseSector a r.sector) = true := eraseSector_wf a _ ha
  have h2 := applySteps_wf (eraseSector a r.sector) (programAll r.base (ws.take m)) h1
  have hz : ∀ i, i < 128 → readWord (eraseSector a r.sector) (r.base + i) = erased := by
    intro i hi
    rw [readWord_eraseSector, if_pos (by unfold Region.base; omega)]
  have h3 := (readWord_applySteps (eraseSector a r.sector) (programAll r.base (ws.take m)) (r.base + 127) h1
    (programAll_touches r.base (r.base + 127) _ (by omega))).trans (hz 127 (by omega))
  cases hv : ((rewriteRegion r ws).take (m + 1)).any Prim.writes with
  | true =>
    rw [Job.stopped_of_writes j _ _ hv, ht]
    refine ⟨h3, ?_⟩
    rw [ht] at hv
    obtain ⟨i, w, hi, hne⟩ := writes_programAll r.base (ws.take m) (by simpa [Prim.writes] using hv)
    have hi' : i < 127 := Nat.lt_of_lt_of_le (List.getElem?_eq_some_iff.1 hi).1 hl
    refine regionBlank_of_read _ r (r.base + i) (by omega) (by cases r <;> simp [Region.sectors] <;> omega) ?_
    have h4 := readWord_programAll (eraseSector a r.sector) r.base i (ws.take m) h1 (by omega)
    rw [hi, hz i (by omega)] at h4
    show readWord (applySteps (eraseSector a r.sector) (programAll r.base (ws.take m))) (r.base + i) ≠ erased
    rw [h4]
    exact fun h => hne ((show erased &&& w = w from BitVec.allOnes_and).symm.trans h)
  | false =>
    have hs : j.stopped (rewriteRegion r ws) (m + 1) =
        .erase r.sector :: (programAll r.base (ws.take m) ++ [.program (r.base + 127) spoiled]) := by
      simp only [Job.stopped, hr, hv]
      rw [ht]
      rfl
    have h5 : readWord (applySteps a (j.stopped (rewriteRegion r ws) (m + 1))) (r.base + 127) = spoiled := by
      rw [hs]
      simp only [applySteps, List.foldl_cons, List.foldl_append, List.foldl_nil, Prim.apply]
      rw [applySteps] at h2 h3
      rw [readWord_programWord _ _ _ _ h2 hb, if_pos rfl, h3]
      decide
    refine ⟨h5, regionBlank_of_read _ r (r.base + 127) (by omega) (by cases r <;> simp [Region.sectors]) ?_⟩
    rw [h5]
    decide

/-- The steps of a job that rewrites a single-sector region: erase, at most 127 content words, check word. -/
theorem Job.steps_of_rewrites (a : StoreArray) (p : Part) (j : Job) (r : Region) (h : j.rewrites = some r) :
    ∃ ws, ws.length ≤ 127 ∧ j.steps p a = rewriteRegion r ws ∧ (r = .settings ∨ r = .keys ∨ r = .classes ∨ r = .rules) := by
  have len : ∀ {α : Type} (f : α → List Word), (∀ x, (f x).length = 3) → ∀ l : List α, (l.flatMap f).length = 3 * l.length := by
    intro α f hf l
    induction l with
    | nil => rfl
    | cons x l ih => simp only [List.flatMap_cons, List.length_append, List.length_cons, hf, ih]; omega
  cases j with
  | log e => cases h
  | watermark v => cases h
  | table t =>
    have hk : ∀ v : Vector (Option KeyEntry) 16, (v.toList.flatMap keyWords).length ≤ 127 := by
      intro v; rw [len keyWords (by intro x; cases x <;> rfl)]; simp
    have hc : ∀ v : Vector (Option ClassEntry) 32, (v.toList.flatMap classWords).length ≤ 127 := by
      intro v; rw [len classWords (by intro x; cases x <;> rfl)]; simp
    have hr : ∀ v : Vector Rule 32, (ruleTableWords v).length ≤ 127 := by
      intro v; rw [ruleTableWords, len (Rule.words 0) (by intro x; rfl)]; simp
    have hs : ∀ x m, (settingsWords x m).length ≤ 127 := by
      intro x m; simp [settingsWords, Settings.toList, Cond.all]
    cases t <;> simp only [Job.rewrites, Option.some.injEq, reduceCtorEq] at h <;> subst h <;>
      first
      | exact ⟨_, hk _, rfl, by decide⟩
      | exact ⟨_, hc _, rfl, by decide⟩
      | exact ⟨_, hr _, rfl, by decide⟩
      | exact ⟨_, hs _ _, rfl, by decide⟩

/-! ## Appends to the withdrawal list region (R177) -/

theorem mem_withdrawalFree (a : StoreArray) (addr : Nat) :
    addr ∈ withdrawalFree a ↔ 512 ≤ addr ∧ addr < 768 ∧ readWord a addr = erased := by
  simp only [withdrawalFree, List.mem_filter, List.mem_map, List.mem_range, beq_iff_eq, Region.base, Region.sector]
  constructor
  · rintro ⟨⟨i, hi, rfl⟩, h⟩; exact ⟨by omega, by omega, h⟩
  · rintro ⟨h1, h2, h⟩; exact ⟨⟨addr - 512, by omega, by omega⟩, h⟩

/-- An append that finds room programs one erased word of the region for each serial and nothing else. -/
theorem appendSteps_of_room (a : StoreArray) (working new : List Word) (h : new.length ≤ (withdrawalFree a).length) :
    (appendSteps a working new).length = new.length ∧
    ∀ s ∈ appendSteps a working new, ∃ addr x, s = .program addr x ∧ x ∈ new ∧ 512 ≤ addr ∧ addr < 768 ∧
      readWord a addr = erased := by
  have h1 : appendSteps a working new = ((withdrawalFree a).zip new).map fun x => .program x.1 x.2 := if_pos h
  rw [h1]
  refine ⟨by simp; omega, fun s hs => ?_⟩
  obtain ⟨⟨addr, x⟩, hx, rfl⟩ := List.mem_map.1 hs
  exact ⟨addr, x, rfl, (List.of_mem_zip hx).2, (mem_withdrawalFree a addr).1 (List.of_mem_zip hx).1⟩

/-! ## The words of a log entry (R13, R180) -/

theorem programAll_eq_map (base : Nat) (ws : List Word) :
    programAll base ws = (ws.zipIdx base).map fun x => .program x.2 x.1 := by
  induction ws generalizing base with
  | nil => rfl
  | cons w ws ih => simp [programAll, ih]

/-- The number of a header word that is put together from its fields. -/
theorem header_fields (w : Word) (f t s n d : Nat) (hf : f < 2) (ht : t < 16) (hs : s < 8) (hn : n < 4) (hd : d < 65536)
    (h : w.toNat = 2147483648 + f * 1073741824 + t * 67108864 + s * 8388608 + n * 2097152 + d) :
    (w.getLsbD 31 = true ∧ w.getLsbD 30 = decide (f = 1)) ∧ (w.extractLsb' 26 4).toNat = t ∧
    (w.extractLsb' 23 3).toNat = s ∧ (w.extractLsb' 21 2).toNat = n ∧ (w.extractLsb' 16 5).toNat = 0 ∧
    (w.extractLsb' 0 16).toNat = d := by
  simp only [BitVec.getLsbD, Nat.testBit_eq_decide_div_mod_eq, BitVec.extractLsb'_toNat, Nat.shiftRight_eq_div_pow, h]
  norm_num
  omega

/-- The number of the header word of a log entry whose fields fit (Table 1.20). -/
theorem logHeader_toNat (first : Bool) (e : LogEntry) (h1 : e.type < 16) (h2 : e.socket < 8) (h3 : e.data.length < 4) :
    (logHeader first e).toNat = 2147483648 + (!first).toNat * 1073741824 + e.type * 67108864 + e.socket * 8388608
      + e.data.length * 2097152 + e.detail.toNat := by
  have hd := e.detail.isLt
  have hb : (if first then 0 else 2 ^ 30) = (!first).toNat * 2 ^ 30 := by cases first <;> simp
  have hl := Bool.toNat_lt (!first)
  unfold logHeader
  rw [hb, BitVec.toNat_ofNat]
  generalize (!first).toNat = f at *
  generalize e.type = t at *
  generalize e.socket = s at *
  generalize e.data.length = n at *
  generalize e.detail.toNat = d at *
  rw [Nat.mod_eq_of_lt] <;> norm_num
  omega

theorem mem_of_readWord_ne_erased (a : StoreArray) (i : Nat) (h : readWord a i ≠ erased) : (i, readWord a i) ∈ a := by
  induction a with
  | nil => simp [readWord] at h
  | cons x xs ih =>
    obtain ⟨k, w⟩ := x
    unfold readWord at h ⊢
    split
    · rename_i hk; subst hk; exact List.mem_cons_self
    · rename_i hk; rw [if_neg hk] at h; exact List.mem_cons_of_mem _ (ih h)

/-! ## The log's sectors in the order of their sequence numbers (R179, R182) -/

theorem mem_logSectors (k : Fin 8) : k ∈ logSectors := by revert k; decide

theorem bestSector_mem (a : StoreArray) (b : Word → Word → Bool) (ks : List (Fin 8)) (k : Fin 8)
    (h : bestSector a b ks = some k) : k ∈ ks := by
  induction ks generalizing k with
  | nil => simp [bestSector] at h
  | cons x xs ih =>
    unfold bestSector at h
    split at h
    · simp_all
    · rename_i j hj
      split at h
      · injection h with h; subst h; exact List.mem_cons_of_mem _ (ih _ hj)
      · injection h with h; subst h; exact List.mem_cons_self

theorem bestSector_isSome (a : StoreArray) (b : Word → Word → Bool) (ks : List (Fin 8)) (h : ks ≠ []) :
    ∃ k, bestSector a b ks = some k := by
  cases ks with
  | nil => exact absurd rfl h
  | cons x xs => unfold bestSector; split <;> (try split) <;> simp

/-- The sector preferred for the lower sequence number has the lowest. -/
theorem bestSector_le (a : StoreArray) (ks : List (Fin 8)) (k : Fin 8)
    (h : bestSector a (fun x y => decide (x.toNat < y.toNat)) ks = some k) :
    ∀ j ∈ ks, (logSeq a k).toNat ≤ (logSeq a j).toNat := by
  induction ks generalizing k with
  | nil => simp
  | cons x xs ih =>
    unfold bestSector at h
    split at h
    · rename_i hn
      injection h with h; subst h
      intro j hj
      rcases List.mem_cons.mp hj with rfl | hj
      · exact le_refl _
      · obtain ⟨m, hm⟩ := bestSector_isSome a (fun x y => decide (x.toNat < y.toNat)) xs (List.ne_nil_of_mem hj)
        rw [hm] at hn; cases hn
    · rename_i j hj
      have hle := ih _ hj
      intro i hi
      split at h <;> rename_i hlt <;> injection h with h <;> subst h <;> rw [decide_eq_true_iff] at hlt <;>
        rcases List.mem_cons.mp hi with rfl | hi
      · omega
      · exact hle _ hi
      · omega
      · have := hle _ hi; omega

/-- The sector that follows one in the log, where there is exactly one (R182). -/
theorem nextSector_of_unique (a : StoreArray) (seq : Word) (k : Fin 8) (hk : logInUse a k = true)
    (hs : logSeq a k = seq + 1) (hu : ∀ j, logInUse a j = true → logSeq a j = seq + 1 → j = k) :
    nextSector a seq = some k := by
  unfold nextSector
  obtain ⟨j, hj⟩ := Option.isSome_iff_exists.mp
    ((List.find?_isSome (p := fun k => logInUse a k && logSeq a k == seq + 1)).mpr
      ⟨k, mem_logSectors k, by simp [hk, hs]⟩)
  have h := List.find?_some hj
  rw [Bool.and_eq_true, beq_iff_eq] at h
  rw [hj, hu j h.1 h.2]

theorem nextSector_eq_none (a : StoreArray) (seq : Word)
    (h : ∀ k, logInUse a k = true → logSeq a k ≠ seq + 1) : nextSector a seq = none := by
  unfold nextSector
  simp only [List.find?_eq_none, Bool.and_eq_true, beq_iff_eq, not_and]
  exact fun k _ hk => h k hk

/-- The first entry of the sector with the lowest sequence number among those that hold one (R181). -/
theorem firstEntry_of_least (a : StoreArray) (k : Fin 8) (o : Nat) (rest : List Nat)
    (hk : (readSector a k).1 = o :: rest) (fuel : Nat) (ks : List (Fin 8)) (h1 : k ∈ ks) (h2 : ks.length ≤ fuel)
    (h3 : ∀ j ∈ ks, j ≠ k → (readSector a j).1 ≠ [] → (logSeq a k).toNat < (logSeq a j).toNat) :
    firstEntry a fuel ks = some ⟨k, logSeq a k, o⟩ := by
  induction fuel generalizing ks with
  | zero => have := List.length_pos_of_mem h1; omega
  | succ fuel ih =>
    unfold firstEntry
    obtain ⟨m, hm⟩ := bestSector_isSome a (fun x y => decide (x.toNat < y.toNat)) ks (List.ne_nil_of_mem h1)
    simp only [hm]
    by_cases e : m = k
    · subst e; simp [hk]
    · have h5 := bestSector_mem a _ ks m hm
      have h6 : (readSector a m).1 = [] := by
        by_contra hne
        have := h3 m h5 e hne
        have := bestSector_le a ks m hm k h1
        omega
      simp only [h6, List.head?_nil]
      refine ih _ ?_ ?_ fun j hj => h3 j (List.mem_filter.mp hj).1
      · simp [h1]; exact fun h => e h.symm
      · have : (ks.filter (· != m)).length < ks.length := by
          rw [← List.countP_eq_length_filter]
          refine lt_of_le_of_ne List.countP_le_length fun hh => ?_
          have := List.countP_eq_length.mp hh m h5
          simp at this
        omega

theorem firstEntry_eq_none (a : StoreArray) (fuel : Nat) (ks : List (Fin 8)) (h : ∀ j ∈ ks, (readSector a j).1 = []) :
    firstEntry a fuel ks = none := by
  induction fuel generalizing ks with
  | zero => rfl
  | succ fuel ih =>
    unfold firstEntry
    split
    · rfl
    · rename_i m hm
      simp only [h m (bestSector_mem a _ ks m hm), List.head?_nil]
      exact ih _ fun j hj => h j (List.mem_filter.mp hj).1

end Sys2Proof.Machine
end

