-- ==== Sys2Proof/Tests/Slice0.lean ====
section
/-! SUPPORT. Tests: the well-formedness checks, the worked cases of the spec, and for every statement that has hypotheses a
state and operands that meet them. -/

namespace Sys2Proof.Tests

-- One theorem after another: the kernel's evaluations would else each wait in a thread of their own.
set_option Elab.async false

open Sys2Proof.Machine Sys2Proof.Claims

/-! ## States to test on -/

/-- The part after loading, with no job in progress. -/
def calm : Part :=
  { Part.reset with
    ctl := { Part.reset.ctl with loading := false, job := none },
    fault := { Part.reset.fault with conds := Part.reset.fault.conds.set .trustBase .active } }

/-- A state around a part, with nothing in the store. -/
def around (p : Part) : State := { part := p, array := [], pending := [] }

/-- An identity. -/
def ident : Identity := { family := 1, generation := 3, serial := 0x00012C4A, classCode := 0x21, cycles := 140 }

/-- A key and a class entry for it. -/
def key : KeyEntry := { retired := false, family := 1, generation := 3, ka := 3, kb := 10 }

def cls : ClassEntry := { code := 0x21, ic := 600, tk := 45, tc := 60, cellFloor := 2800, wearLimit := 0 }

/-- Trust tables that hold both. -/
def trust : Trust :=
  { keys := Trust.initial.keys.set 5 (some key), edits := Trust.initial.edits,
    classes := Trust.initial.classes.set 4 (some cls), withdrawn := [7] }

/-- A session in a state, bound to slot 5 and entry 4. -/
def sess (st : SessState) : Session :=
  { Session.initial with
    state := st, identity := some ident, keySlot := some 5, classIndex := some 4, baseline := some 17,
    telemetry := some ⟨33, 600, 3500, 0⟩, recheck := some ⟨60000000, 0⟩ }

/-- A link in a state. -/
def linked (st : LinkState) : Link := { Link.initial with state := st }

/-- A part whose socket 2 has a link, a contact level and a session, with the trust tables above. -/
def seated (l : Link) (contact : Bool) (x : Session) : Part :=
  { calm with
    links := calm.links.set 2 l, contacts := calm.contacts.set 2 contact, trust := trust,
    engine := { calm.engine with sessions := calm.engine.sessions.set 2 x } }

/-- A part with an admitted pack in socket 2. -/
def admitted : Part := seated (linked .active) true (sess .admitted)

/-- A part with a request in flight, its code running and waiting for no job. -/
def asked (p : Part) (code : Byte) : Part := { p with mgmt := { p.mgmt with request := some (request code []) } }

/-- A part that carries out a job. -/
def working (p : Part) (j : Job) : Part := { p with ctl := { p.ctl with job := some j } }

/-- A part that is PARKED. -/
def parked (p : Part) : Part := { p with mgmt := { p.mgmt with parked := true } }

/-- A transaction of a frame of a kind in a phase. -/
def trans (k : BitVec 4) (ph : TxPhase) : Transaction :=
  { frame := ⟨k, 2, []⟩, source := .engineSlot, phase := ph, passedOver := false, sentAt := some 5, replyAt := some 9 }

/-- A session whose challenge has been sent. -/
def challenged (st : SessState) : Part :=
  seated (linked .active) true { sess st with challenge := some ⟨.recheck, .sent ⟨0, 1, 0, 7⟩ 0⟩ }

/-- An audit in a phase. -/
def auditIn (ph : AuditPhase) : Audit := { Audit.new 4 false true with phase := ph, serials := .all none }

/-- A part with an audit in progress. -/
def audited (p : Part) (ph : AuditPhase) : Part := { p with engine := { p.engine with audit := some (auditIn ph) } }

/-! ## Well-formedness -/

theorem test_reply_needs_bytes : (Instr.packReplyCollected 0 []).wellFormed = false := by decide

theorem test_tool_bytes_hold_no_request :
    (Instr.toolFrameReceived (Frame.bytes ⟨8, 0, [1]⟩)).wellFormed = false := by decide +kernel

theorem test_five_parameter_words_do_not_fit : (Instr.describe [0, 0, 0, 0, 0]).wellFormed = false := by decide

theorem test_known_request_is_not_unknown : (Instr.unknownRequest [1]).wellFormed = false := by decide

theorem test_unknown_code_is_well_formed : (Instr.unknownRequest [0x77]).wellFormed = true := by decide

/-! ## Worked cases of the spec -/

/-- Section 1.2.1. -/
theorem test_check_byte_of_identify : Frame.bytes ⟨3, 1, []⟩ = [0xB6, 0x31, 0x00, 0xC7] := by decide +kernel

/-- Section 6.2.1. -/
theorem test_proof_case_1 : expectedProof 3 10 (message ⟨0, 1, 0, 7⟩ { ident with serial := 2 } 1) = 4738 := by
  decide +kernel

/-- Section 6.2.2. -/
theorem test_proof_case_2 :
    expectedProof 2147483646 10 (message ⟨0, 1, 0, 7⟩ { ident with serial := 2 } 1) = 2147483389 := by decide +kernel

/-- Table 8.2. -/
theorem test_shares_of_table_8_2 :
    apportion 600 (stringGrants true ⟨318, 550, 450, 414⟩) = [261, 339] := by decide +kernel

/-- Table 8.3. -/
theorem test_shares_of_table_8_3 : apportion 8 [0, 3, 3, 3] = [0, 3, 3, 2] := by decide +kernel

/-- The latency of section 2.5: the counter wraps. -/
theorem test_latency_wraps :
    Transaction.latency { trans 5 .sending with sentAt := some 4294967290, replyAt := some 6234 } = some 6240 := by
  decide +kernel

/-- An append takes the first erased words, wherever written words stand (R177). -/
theorem test_append_skips_written_words :
    appendSteps [(512, 5), (514, 6)] [] [7, 8] = [.program 513 7, .program 515 8] := by decide +kernel

/-- A failed erase of a table region leaves it damaged, a failed one of the withdrawal list as it was (R177); a failure after a
word has been programmed adds nothing to what the job had written (R176). -/
theorem test_failed_erase :
    (Job.table .withdrawClear).taken [.erase 4, .erase 5] (.failedAt 0) = [] ∧
    (Job.table (.keyErase 0)).taken [.erase 1, .program 128 0, .program 255 9] (.failedAt 0) =
      [.erase 1, .program 255 spoiled] ∧
    (Job.table (.keyErase 0)).taken [.erase 1, .program 128 0, .program 255 9] (.failedAt 2) =
      [.erase 1, .program 128 0] := by decide

/-- A byte 2000 microseconds after the one before is in time, a later one is not (R4). -/
theorem test_byte_gap : Rx.header.overdue 5 2005 = false ∧ Rx.header.overdue 5 2006 = true := by decide

/-- A cold start of a part whose store was never written is State.reset (log 4). -/
theorem test_cold_start_of_a_new_part : Part.coldStart [] .powerOn calm = Part.reset := by
  decide +kernel

/-- No word spells a command. -/
theorem test_no_word_spells_a_command : decodeTableWord 32 0xB6310000 = none := by decide

/-- The first step after reset lets a microsecond pass: the watermark job is in progress. -/
theorem test_first_idle_step :
    step State.reset = .next { State.reset with part := { Part.reset with clock := 1 } } := by rfl

/-! ## The statements' hypotheses are met -/

theorem test_meets_EmptyQueue :
    (State.reset.pending = [] ∧ State.reset.part.power = .on ∧ State.reset.part.due = []) ∧
    (around { calm with power := .off }).part.power = .off ∧
    (around { calm with power := .resetHeld }).part.power = .resetHeld ∧
    (around { calm with tlp := { calm.tlp with silence := some 0 } }).part.due ≠ [] := by decide +kernel

/-- A timer is due at its deadline and not before; while the store is being loaded it is not. -/
theorem test_meets_EmptyQueue_due :
    calm.ctl.loading = false ∧ Part.reset.ctl.loading = true ∧ reached (some 5) 5 = true ∧ reached (some 5) 4 = false ∧
    Instr.silenceTimerExpiry ∈ ({ calm with tlp := { calm.tlp with silence := some 0 } } : Part).due ∧
    ({ Part.reset with tlp := { calm.tlp with silence := some 0 } } : Part).due = [] := by decide +kernel

theorem test_meets_OnlyStoreJobsChangeTheArray :
    (around calm).array.wf = true ∧ (∃ t, exec .toolTxEnd (around calm) = .next t) ∧ endsJob .toolTxEnd = false ∧
    cutsPower .toolTxEnd = false ∧ (around calm).part.ctl.job = none ∧
    State.reset.part.ctl.job = some (.watermark 4096) ∧
    (Job.steps Part.reset [] (.watermark 4096)).all (fun x => match x with
      | .erase k => 6 == k
      | .program k _ => 767 < k) = true := by
  refine ⟨by decide, ⟨_, rfl⟩, ?_⟩
  decide +kernel

/-- Every invariant holds of a part after loading, and the part takes a step. -/
theorem test_meets_the_invariants :
    (around calm).array.wf = true ∧ calm.PermitsRight ∧ (calm.CausesRight ∧ calm.LanesFit) ∧ calm.RecentFit ∧
    calm.JobsFit ∧ calm.GrantsSound ∧ calm.CondsRight ∧ calm.LinksSound ∧ ∃ t, step (around calm) = .next t := by
  refine ⟨by decide, ?_, ?_, ?_, ?_, ?_, fun _ c => by cases c <;> decide, ?_, ⟨_, rfl⟩⟩
  · unfold Part.PermitsRight; decide +kernel
  · unfold Part.CausesRight Part.LanesFit; decide +kernel
  · unfold Part.RecentFit; decide +kernel
  · unfold Part.JobsFit; decide +kernel
  · unfold Part.GrantsSound; decide +kernel
  · unfold Part.LinksSound Part.LinkSound Link.Sound; decide +kernel

theorem test_meets_ParkedIsLeftOnlyByResets :
    (parked calm).mgmt.parked = true ∧ leavesParked .toolTxEnd = false ∧
    ∃ t, exec .toolTxEnd (around (parked calm)) = .next t := ⟨rfl, rfl, _, rfl⟩

theorem test_meets_SentFrameIsReceivedWhole :
    Frame.wf ⟨3, 1, []⟩ = true ∧ Frame.wf ⟨9, 0, List.replicate 24 0⟩ = true := by decide

theorem test_meets_ReceiverFollowsItsTest :
    (0 : Byte) ≠ 0xB6 ∧ 24 < (25 : Byte).toNat ∧ (24 : Byte).toNat ≤ 24 ∧ ([] : List Byte).length = (0 : Byte).toNat := by
  decide

/-- A POLL of socket 2 and an AGGREGATE. -/
def poll : Frame := ⟨1, 2, [0, 5]⟩

theorem test_meets_LaneAppendsReplacesOrDiscards :
    ([] : List Frame).length < 8 ∧ 1 ≤ (([] : List Frame) ++ poll :: []).length ∧ poll.kind = poll.kind ∧
    (1 ≤ [poll].length ∧ ∀ x ∈ [poll], ¬(x.kind = (11 : BitVec 4) ∧ x.socket = 0)) ∧
    (⟨11, 0, []⟩ : Frame).kind = kindAggregate := by decide

theorem test_meets_Lane_transmitter :
    (calm.tlp.sending = none ∧ calm.tlp.response = none ∧ calm.tlp.lane0 = [] ∧ calm.tlp.lane1 = [] ∧ calm.tlp.lane2 = []) ∧
    ({ calm with tlp := { calm.tlp with sending := some poll } } : Part).tlp.sending = some poll ∧
    (List.replicate 7 poll).length < 8 ∧ ¬(List.replicate 8 poll).length < 8 := by decide

theorem test_meets_TransmitterTakesTheNextFrame :
    ∀ f : Frame, ∃ p q r u v : Part, (p.power = .on ∧ p.tlp.response = some f) ∧
      (q.power = .on ∧ q.tlp.response = none ∧ q.tlp.lane0 = [f]) ∧
      (r.power = .on ∧ r.tlp.response = none ∧ r.tlp.lane0 = [] ∧ r.tlp.lane1 = [f]) ∧
      (u.power = .on ∧ u.tlp.response = none ∧ u.tlp.lane0 = [] ∧ u.tlp.lane1 = [] ∧ u.tlp.lane2 = [f]) ∧
      (v.power = .on ∧ v.tlp.response = none ∧ v.tlp.lane0 = [] ∧ v.tlp.lane1 = [] ∧ v.tlp.lane2 = []) :=
  fun f => ⟨{ calm with tlp := { calm.tlp with response := some f } }, { calm with tlp := { calm.tlp with lane0 := [f] } },
    { calm with tlp := { calm.tlp with lane1 := [f] } }, { calm with tlp := { calm.tlp with lane2 := [f] } }, calm,
    ⟨rfl, rfl⟩, ⟨rfl, rfl, rfl⟩, ⟨rfl, rfl, rfl, rfl⟩, ⟨rfl, rfl, rfl, rfl, rfl⟩, ⟨rfl, rfl, rfl, rfl, rfl⟩⟩

theorem test_meets_Transmitter_flight :
    (request 1 []).phase = .running ∧ ({ request 1 [] with phase := .waiting } : Request).phase = .waiting ∧
    (asked calm 1).mgmt.request = some (request 1 []) ∧ calm.mgmt.request = none := by decide

theorem test_meets_ToolFramesAreTakenByKind :
    calm.power = .on ∧ calm.tlp.rx = .hunting ∧ (Rx.run .hunting [0xB6]).2 = [] ∧
    (Rx.run .hunting [0xB6, 0x10, 25]).2 = [.malformed] ∧
    (Part.reset.ctl.loading = true ∧ (Rx.run .hunting poll.bytes).2 = [.wellFormed poll]) ∧
    (calm.ctl.loading = false ∧ poll.kind ≠ kindMgmtReq ∧
      poll.kind = kindPoll ∧ calm.mgmt.parked = false ∧ (parked calm).mgmt.parked = true) ∧
    (Rx.run .hunting (Frame.bytes ⟨7, 2, []⟩)).2 = [.wellFormed ⟨7, 2, []⟩] ∧
    (∃ t : Tlp, t.rx = .header ∧ t.lastByte + 2000 < 2001) := by
  refine ⟨by decide, by decide, by decide +kernel, by decide +kernel, by decide +kernel, by decide, by decide +kernel,
    { calm.tlp with rx := .header, lastByte := 0 }, rfl, by decide⟩

theorem test_meets_ToolFrames_draw :
    (calm.grants.toolGrant < 5 ∧ calm.grants.overdraw = none ∧ calm.fault.causes.overdraw = false) ∧
    0 ≤ calm.grants.toolGrant ∧
    ∃ f : FaultUnit, f.causes.overdraw = true ∧ f.conds.overdraw = .active ∧ ({ calm with fault := f } : Part).fault = f ∧
      ({ calm with fault := f } : Part).ctl.loading = false :=
  ⟨by decide, by decide, { calm.fault with
      causes := { calm.fault.causes with overdraw := true }, conds := calm.fault.conds.set .overdraw .active },
    rfl, rfl, rfl, rfl⟩

/-- A rule that takes every DOWN frame of every socket, with an action. -/
def ruleFor (a : Action) : Rule :=
  { enabled := true, direction := .down, kind := some 1, socketMask := 15, stateMask := 127, action := a, lane := 0,
    decimate := false }

/-- A rule table with that rule first. -/
def rules (a : Action) : Classifier := { Classifier.initial with rules := Classifier.initial.rules.set 0 (ruleFor a) }

theorem test_meets_DownFramesAreDecidedByTheFirstMatch :
    (∀ a : Action, (rules a).editing = false ∧ (rules a).rules.toList = [] ++ ruleFor a :: (rules a).rules.toList.tail ∧
      (ruleFor a).enabled = true) ∧
    (∀ a ∈ [Action.forward, .answer, .discard], (ruleFor a).matches .down 1 2 .admitted = true) ∧
    (∀ x ∈ Classifier.initial.rules.toList, x.enabled = true → x.matches .down 1 2 .none = false) ∧
    (admitted.session 2).state.trusted = true ∧ (calm.session 2).state.trusted = false := by
  refine ⟨fun a => ⟨rfl, by cases a <;> decide +kernel, rfl⟩, ?_⟩
  decide +kernel

theorem test_meets_DownFrames_matching :
    [SessState.none, .identifying, .verifying, .admitted, .suspect, .refused, .withdrawn][3]? = some .admitted ∧
    (ruleFor .forward).matches .up 1 2 .admitted = false ∧ (ruleFor .forward).matches .down 7 2 .admitted = false := by
  decide +kernel

theorem test_meets_SilenceTimerRaisesToolSilent :
    ({ calm with tlp := { calm.tlp with silence := some 500000 } } : Part).tlp.silence = some 500000 ∧ calm.power = .on ∧
    calm.ctl.loading = false ∧ calm.fault.causes.silent = false ∧
    (working calm (.table .withdrawClear)).ctl.job = some (.table .withdrawClear) := by decide

theorem test_meets_ContactAssertsByLinkState :
    ∀ st : LinkState, Loaded (around (seated (linked st) false Session.initial)) ∧
      (seated (linked st) false Session.initial).contacts.get 2 = false ∧
      ((seated (linked st) false Session.initial).link 2).state = st := fun _ => ⟨⟨rfl, rfl⟩, rfl, rfl⟩

theorem test_meets_ContactDeassertsByLinkState :
    ∀ st : LinkState, Loaded (around (seated (linked st) true Session.initial)) ∧
      (seated (linked st) true Session.initial).contacts.get 2 = true ∧
      ((seated (linked st) true Session.initial).link 2).state = st := fun _ => ⟨⟨rfl, rfl⟩, rfl, rfl⟩

theorem test_meets_HeldPartOnlyTracksItsPins :
    ({ calm with power := .off } : Part).power ≠ .on ∧ ({ calm with power := .resetHeld } : Part).power ≠ .on ∧
    Part.reset.ctl.loading = true ∧ (∀ k, Instr.toolTxEnd ≠ .coldStart k) ∧
    (∀ k i, Instr.toolTxEnd ≠ .powerFailsOrResetnAsserted k i) ∧ (∀ n, Instr.toolTxEnd ≠ .contactAsserts n) ∧
    (∀ n, Instr.toolTxEnd ≠ .contactDeasserts n) ∧ (∀ b, Instr.toolTxEnd ≠ .lockChange b) := by
  refine ⟨by decide, by decide, by decide, ?_, ?_, ?_, ?_, ?_⟩ <;> intros <;> nofun

theorem test_meets_SettleTimerOpensASession :
    ∃ l : Link, (calm.power = .on ∧ (seated l true Session.initial).link 2 = l) ∧ l.state = .settling ∧
      l.settle = some 250000 ∧ l.tx = none :=
  ⟨{ linked .settling with settle := some 250000 }, ⟨rfl, rfl⟩, rfl, rfl, rfl⟩

theorem test_meets_DropAndRecoveryTimersAct :
    ∃ l m : Link, (l.drop = some 30000 ∧ l.tx = some (trans 5 .sending) ∧
        (seated l false (sess .admitted)).link 2 = l ∧ (seated l false (sess .admitted)).engine.audit = none ∧
        ((seated l false (sess .admitted)).session 2).state ≠ .none) ∧
      m.recovery = some 2000000 ∧ (seated m true Session.initial).link 2 = m ∧ calm.power = .on :=
  ⟨{ linked .active with drop := some 30000, tx := some (trans 5 .sending) },
    { linked .halted with recovery := some 2000000 }, ⟨rfl, rfl, rfl, rfl, nofun⟩, rfl, rfl, rfl⟩

/-- A working link with something in its engine slot and its poll queue. -/
def waiting (e : Option EngineFrame) (q : List Frame) : Part :=
  seated { linked .active with engineSlot := e, pollQueue := q } true
    { sess .admitted with challenge := some ⟨.recheck, .queued⟩ }

theorem test_meets_TransactionsStartFromSlotAndQueue :
    (∀ (e : Option EngineFrame) (q : List Frame), ((waiting e q).link 2).tx = none ∧
      ((waiting e q).link 2).draining = none ∧ ((waiting e q).link 2).state = .active ∧
      (waiting e q).contacts.get 2 = true ∧ ((waiting e q).link 2).drop = none ∧ (waiting e q).mgmt.parked = false ∧
      ((waiting e q).link 2).engineSlot = e ∧ ((waiting e q).link 2).pollQueue = q ∧
      ((waiting e q).session 2).challenge = some ⟨.recheck, .queued⟩) ∧
    ¬((calm.link 2).state = .active ∨ (calm.link 2).state = .degraded) ∧ [poll, poll, poll].length < 4 ∧
    (∃ g q, [poll, poll, poll, poll] = g :: q ∧ q.length = 3) ∧
    ∀ st : LinkState, ((seated (linked st) true Session.initial).link 2).state = st :=
  ⟨fun _ _ => ⟨rfl, rfl, rfl, rfl, rfl, rfl, rfl, rfl, rfl⟩, by decide, by decide, ⟨_, _, rfl, rfl⟩, fun _ => rfl⟩

/-- A working link with a transaction in a phase, and an error count. -/
def busy (st : LinkState) (errors : Nat) (k : BitVec 4) (ph : TxPhase) : Part :=
  seated { linked st with tx := some (trans k ph), errors := errors } true (sess .admitted)

theorem test_meets_SendingAndReplyAreStamped :
    (∀ k ph, ((busy .active 0 k ph).link 2).tx = some (trans k ph) ∧ (trans k ph).phase = ph ∧
      ((busy .active 0 k ph).link 2).draining = none) ∧
    (∃ p : Part, p.power = .on ∧ (p.link 2).tx = none ∧ (p.link 2).draining = some poll) ∧
    (Rx.runFirst .header [0x20] = (.length 0x20, none) ∧ Rx.header ≠ .hunting ∧ Rx.length 0x20 ≠ .hunting) ∧
    (2000 ≤ 0 + 2000 ∧ 0 + 2000 < 2001) ∧ (busy .active 0 5 .sending).ctl.loading = false :=
  ⟨fun _ _ => ⟨rfl, rfl, rfl⟩, ⟨seated { linked .active with draining := some poll } true (sess .admitted), rfl, rfl, rfl⟩,
    by decide, by decide, rfl⟩

/-- A rule that forwards or drops every STATUS from a pack. -/
def upRule (a : Action) (decimate : Bool) : Rule :=
  { enabled := true, direction := .up, kind := some 2, socketMask := 15, stateMask := 127, action := a, lane := 1,
    decimate := decimate }

theorem test_meets_SendingAndReply_upstream :
    ({ trans 1 .sending with source := .pollQueue } : Transaction).source = .pollQueue ∧
    (∀ d, (Classifier.initial.rules.set 0 (upRule .forward d)).toList =
        [] ++ upRule .forward d :: (Classifier.initial.rules.set 0 (upRule .forward d)).toList.tail ∧
      (upRule .forward d).matches .up 2 2 .admitted = true ∧ (upRule .discard d).action = .discard) ∧
    (∀ x ∈ Classifier.initial.rules.toList, x.enabled = true → x.matches .up 2 2 .admitted = false) ∧
    (admitted.session 2).state = .admitted ∧ (calm.session 2).state ≠ .admitted ∧
    calm.mgmt.settings.decimation ≠ 0 ∧ calm.classifier.decim.get 2 = 0 ∧
    ({ calm.classifier with decim := calm.classifier.decim.set 2 3 } : Classifier).decim.get 2 ≠ 0 ∧
    ({ calm.mgmt.settings with decimation := 0 } : Settings).decimation = 0 := by
  refine ⟨rfl, ?_, ?_⟩
  · intro d; cases d <;> decide +kernel
  · decide +kernel

theorem test_meets_TransactionEndsCountLineErrors :
    (∀ st e k ph, ((busy st e k ph).link 2).tx = some (trans k ph) ∧ ((busy st e k ph).link 2).state = st ∧
      ((busy st e k ph).link 2).errors = e) ∧
    (trans 1 (.collecting .header 0)).phase = .collecting .header 0 ∧ Rx.header ≠ .hunting ∧
    (Rx.runFirst .header (Frame.tailBytes ⟨2, 2, List.replicate 10 0⟩)).2 = some (.wellFormed ⟨2, 2, List.replicate 10 0⟩) ∧
    replyExpected 1 2 = true ∧ replyExpected 1 7 = false ∧
    min 255 (247 + 8) = 255 ∧ min 255 (88 + 8) = 96 ∧ 64 - 1 < 64 := by
  refine ⟨fun _ _ _ _ => ⟨rfl, rfl, rfl⟩, rfl, ?_⟩
  decide +kernel

/-- Thresholds, the next recheck computed again, and the ends of a transaction with each outcome. -/
theorem test_meets_TransactionEnds_report :
    ((busy .active 95 1 .sending).link 2).errors < 96 ∧ 96 ≤ ((busy .active 96 1 .sending).link 2).errors ∧
    64 ≤ ((busy .degraded 64 1 .sending).link 2).errors ∧ ((busy .degraded 63 1 .sending).link 2).errors < 64 ∧
    ((admitted.session 2).state = .admitted ∧ (admitted.session 2).recheck = some ⟨60000000, 0⟩ ∧
      admitted.clock < 60000000 ∧ (admitted.session 2).challenge = none) ∧
    ({ admitted with clock := 60000000 } : Part).clock = 60000000 ∧ (calm.session 2).recheck = none ∧
    ((challenged .admitted).session 2).challenge ≠ none ∧ (trans 1 .sending).source = .engineSlot ∧
    ({ trans 1 .sending with source := .pollQueue } : Transaction).source = .pollQueue ∧
    (Rx.runFirst .header [0x10, 25]).2 = some .malformed ∧ (∀ f, TxOutcome.expired ≠ .good f) := by
  refine ⟨by decide +kernel, by decide +kernel, by decide +kernel, by decide +kernel, by decide +kernel, rfl, by decide +kernel,
    by decide +kernel, rfl, rfl, by decide +kernel, nofun⟩

/-- An array whose withdrawal list region holds a word that is no serial: that region is damaged. -/
def damaged : StoreArray := [(512, 0)]

/-- Part of a watermark region that holds one record. -/
def marked : StoreArray := [(768, 4096), (769, ~~~ (4096 : Word))]

theorem test_meets_ColdStartLoadsTheStore :
    judgeRegion damaged .withdrawal = .damaged ∧ judgeRegion [] .keys ≠ .valid ∧ judgeRegion [] .classes ≠ .valid ∧
    judgeRegion [] .withdrawal ≠ .valid ∧ judgeRegion [] .rules ≠ .valid ∧ Region.withdrawal ∈ loadOrder ∧
    calm.power ≠ .off ∧ calm.proof.drawMark = none ∧ resumedValue marked = 4096 ∧
    ({ calm.proof with drawMark := some 4096 } : ProofUnit).drawMark = some 4096 ∧ (around calm).array = [] := by
  decide +kernel

/-- A settings region as a job writes it, and a withdrawal list region of one serial, are valid. -/
theorem test_meets_ColdStartLoadsTheStore_valid :
    judgeRegion (applySteps [] (rewriteRegion .settings (settingsWords Settings.default defaultMap))) .settings = .valid ∧
    judgeRegion [(512, 7)] .withdrawal = .valid :=
  ⟨judgeRegion_rewriteRegion [] .settings _ rfl (by decide) (by decide), by decide +kernel⟩

theorem test_meets_StoredKeyTableLoadsBack :
    StoreArray.wf marked = true ∧ StoreArray.wf [] = true ∧ (Job.table (.keyErase 0)).rewrites = some .keys ∧
    1 < ((Job.table (.keyErase 0)).steps calm []).length := by
  refine ⟨by decide +kernel, rfl, rfl, ?_⟩
  obtain ⟨ws, _, h, _⟩ := Job.steps_of_rewrites [] calm (.table (.keyErase 0)) .keys rfl
  rw [h, rewriteRegion_length]
  omega

theorem test_meets_StoredKeyTable_stopped :
    (Job.watermark 5).rewrites = none ∧
    (Prim.program 128 0 ∈ ([.erase 1, .program 128 0] : List Prim).take 2 ∧ (0 : Word) ≠ 0xFFFFFFFF) := by
  refine ⟨rfl, by simp, by decide⟩

theorem test_meets_LoadingEndsWhenItsWatermarkJobHas :
    Part.reset.power = .on ∧ (∃ j ∈ Part.reset.ctl.jobs, j.isWatermark = true) ∧ calm.ctl.loading = false ∧
    ∃ p : Part, p.power = .on ∧ p.ctl.loading = true ∧ (∀ j ∈ p.ctl.jobs, j.isWatermark = false) ∧
      p.contacts.get 2 = true ∧ p.contacts.get 0 = false ∧ LogRoom p ∧ p.tlp.sending = none ∧ p.tlp.response = none ∧
      p.tlp.lane0 = [] := by
  refine ⟨rfl, by decide, rfl, { Part.reset with
    ctl := { Part.reset.ctl with job := none }, contacts := Part.reset.contacts.set 2 true }, ?_⟩
  unfold LogRoom
  decide +kernel

theorem test_meets_CutKeepsWhatTheJobHadWritten :
    State.reset.part.ctl.job = some (.watermark 4096) ∧ (around calm).part.ctl.job = none := ⟨rfl, rfl⟩

/-- The bytes of an IDENTITY. -/
def identityBytes : List Byte := [1, 3, 0, 1, 0x2C, 0x4A, 0x21, 0, 140]

/-- A part about to take an IDENTITY. -/
def identifying : Part := seated (linked .active) true { Session.initial with state := .identifying }

/-- What every entry of a vector of options satisfies. -/
theorem of_all {α : Type} {k : Nat} {v : Vector (Option α) k} {f : α → Bool}
    (h : ∀ i : Fin k, v[i].all f = true) : ∀ (i : Fin k) x, v[i] = some x → f x = true := by
  intro i x hx
  have := h i
  rw [hx] at this
  exact this

theorem test_meets_IdentityChecksInOrder_refusals :
    wordAt [1, 3, 0, 0, 0, 0, 0x21, 0, 0] 2 = 0 ∧
    (wordAt identityBytes 2 = 0x00012C4A ∧ wordAt identityBytes 2 ≠ 0 ∧ wordAt identityBytes 2 ≠ 0xFFFFFFFF) ∧
    wordAt [1, 3, 0, 0, 0, 7, 0x21, 0, 0] 2 ∈ identifying.trust.withdrawn ∧
    wordAt identityBytes 2 ∉ identifying.trust.withdrawn ∧
    (∃ e ∈ [((0x00012C4A : Word), 4)], e.1 = wordAt identityBytes 2 ∧ identifying.mgmt.settings.repeatLimit ≤ e.2) ∧
    (∀ e ∈ identifying.engine.recent, e.1 = wordAt identityBytes 2 → e.2 < identifying.mgmt.settings.repeatLimit) ∧
    ((0 : Socket) ≠ 2 ∧ (admitted.session 2).state.live = true ∧ (admitted.session 2).identity = some ident) ∧
    (∀ (c : Fin 32), calm.trust.classes[c] = none) ∧ (∀ k : Fin 16, calm.trust.keys[k] = none) := by decide +kernel

theorem test_meets_IdentityChecksInOrder :
    (∀ m j, m ≠ (2 : Socket) → (identifying.session m).state.live = true → (identifying.session m).identity = some j →
      j.serial ≠ ident.serial) ∧
    identifying.trust.classes[(4 : Fin 32)] = some cls ∧ cls.code = ident.classCode ∧
    (∀ (d : Fin 32) e, identifying.trust.classes[d] = some e → e.code = ident.classCode → d = 4) ∧
    identifying.trust.keys[(5 : Fin 16)] = some key ∧ key.family = ident.family ∧ key.generation = ident.generation ∧
    (∀ (l : Fin 16) y, identifying.trust.keys[l] = some y → y.family = ident.family → y.generation = ident.generation →
      l = 5) ∧
    identifying.proof.reserved < 0xFFFFFFFF - identifying.proof.counter.toNat ∧
    0xFFFFFFFF - (0xFFFFFFFF : Word).toNat ≤ identifying.proof.reserved := by
  refine ⟨?_, by decide +kernel, rfl, ?_, by decide +kernel, rfl, rfl, ?_, by decide, by decide⟩
  · intro m j _ hl
    have h : ∀ m : Socket, (identifying.session m).state.live = false := by decide +kernel
    rw [h m] at hl
    cases hl
  · intro d e hd _
    have h : ∀ d : Fin 32, d = 4 ∨ identifying.trust.classes[d] = none := by decide +kernel
    rcases h d with h | h
    · exact h
    · rw [hd] at h; cases h
  · intro l y hl _ _
    have h : ∀ l : Fin 16, l = 5 ∨ identifying.trust.keys[l] = none := by decide +kernel
    rcases h l with h | h
    · exact h
    · rw [hl] at h; cases h

/-- A part about to take an IDENTITY in socket 2 whose serial socket 0's session holds. -/
def doubled (x : Session) : Part :=
  { identifying with engine := { identifying.engine with sessions := identifying.engine.sessions.set 0 x } }

/-- A duplicate: one holder, with and without a challenge outstanding, its serial not yet in the table and in it. -/
theorem test_meets_IdentityChecks_duplicate :
    (∀ x ∈ [sess .admitted, { sess .admitted with challenge := some ⟨.audit, .queued⟩ }],
      ((doubled x).session 0).state.live = true ∧ ((doubled x).session 0).identity = some ident ∧
      ∀ l : Socket, l ≠ 2 → ((doubled x).session l).state.live = true → l = 0) ∧
    (((doubled (sess .admitted)).session 0).challenge = none ∧ CanChallenge (doubled (sess .admitted)) 0) ∧
    ((doubled { sess .admitted with challenge := some ⟨.audit, .queued⟩ }).session 0).challenge ≠ none ∧
    (doubled (sess .admitted)).engine.recent = [] ∧
    ([((3 : Word), 2), (ident.serial, 2)] = [(3, 2)] ++ (ident.serial, 2) :: [] ∧
      ∀ e ∈ [((3 : Word), 2)] ++ [], e.1 ≠ ident.serial) ∧
    LogRoom ((doubled (sess .admitted)).acceptIdentity 2 identityBytes) := by
  refine ⟨by decide +kernel, ⟨rfl, ⟨ident, 5, rfl, by decide +kernel⟩, by decide⟩, by decide +kernel, rfl, by decide +kernel, ?_⟩
  unfold LogRoom
  decide +kernel

theorem test_meets_ExpectedProofIsThePolynomial :
    (admitted.session 2).identity = some ident ∧ (admitted.session 2).keySlot = some 5 ∧
    admitted.trust.keys[(5 : Fin 16)] = some key := by decide +kernel

theorem test_meets_VerdictsComeInOrder :
    (trans 5 .sending).frame.kind = kindChallenge ∧ ({ trans 5 .sending with passedOver := true }).passedOver = true ∧
    (trans 5 .sending).passedOver = false ∧
    ((challenged .admitted).session 2).challenge = some ⟨.recheck, .sent ⟨0, 1, 0, 7⟩ 0⟩ ∧
    (challenged .admitted).editCount ((challenged .admitted).session 2).keySlot = 0 ∧
    (challenged .admitted).editCount ((challenged .admitted).session 2).keySlot ≠ 1 ∧
    (trans 5 .sending).sentAt = some 5 ∧ (trans 5 .sending).replyAt = some 9 ∧
    ¬(8 * 1000 < ((9 : Word) - 5).toNat) ∧ 8 * 1000 < ((8006 : Word) - 5).toNat ∧
    (challenged .admitted).mgmt.settings.proofWindow = 8 ∧
    (challenged .admitted).expected 2 ⟨0, 1, 0, 7⟩ ≠ none := by decide +kernel

theorem test_meets_VerdictsComeInOrder_identify :
    (trans 3 .sending).frame.kind = kindIdentify ∧ (trans 3 .sending).passedOver = false ∧
    (identifying.session 2).state = .identifying ∧ (admitted.session 2).state ≠ .identifying ∧
    (identifying.session 2).attempts < 2 ∧
    2 ≤ ((seated (linked .active) true { Session.initial with state := .identifying, attempts := 2 }).session 2).attempts := by
  decide +kernel

theorem test_meets_VerdictsComeInOrder_audit :
    admitted.engine.audit = none ∧
    ((auditIn .collecting).reached.get 2 = false ∧ (auditIn .collecting).results.get 0 ≠ none) ∧
    (∀ a : Audit, a = { auditIn .collecting with reached := .all true } →
      a.reached.get 2 = true ∧ a.results.get 2 = none) := by
  refine ⟨rfl, by decide +kernel, fun a h => by rw [h]; decide +kernel⟩

theorem test_meets_VerdictsActByState :
    (∀ st, (seated (linked .active) true (sess st)).session 2 = sess st) ∧
    SessState.live .verifying = true ∧ SessState.live .admitted = true ∧ SessState.live .suspect = true ∧
    SessState.live .refused = false ∧ (sess .verifying).attempts < 2 ∧
    2 ≤ ({ sess .verifying with attempts := 2 } : Session).attempts ∧ CanChallenge admitted 2 := by
  refine ⟨fun _ => rfl, rfl, rfl, rfl, rfl, by decide, by decide, ⟨⟨ident, 5, rfl, by decide +kernel⟩, by decide⟩⟩

theorem test_meets_VerdictsActByState_report :
    [SessState.none, .identifying, .verifying, .admitted, .suspect, .refused, .withdrawn][3]? = some (admitted.session 2).state ∧
    [none, some Reason.noIdentity, some .badIdentity, some .withdrawn, some .repeated, some .duplicate, some .noClass,
      some .noKey, some .mismatch, some .late, some .noAnswer, some .exhausted][0]? = some (admitted.session 2).reason ∧
    (calm.session 2).state = .none ∧ (admitted.session 2).state ≠ .none := by decide +kernel

theorem test_meets_VerdictsActByState_recent :
    (sess .suspect).identity = some ident ∧ ({ sess .suspect with identity := none } : Session).identity = none ∧
    (∀ e ∈ admitted.engine.recent, e.1 ≠ ident.serial) ∧
    ([((3 : Word), 2), (ident.serial, 15), (4, 1)] = [(3, 2)] ++ (ident.serial, 15) :: [(4, 1)] ∧
      ∀ e ∈ [((3 : Word), 2)] ++ [(4, 1)], e.1 ≠ ident.serial) := by decide +kernel

theorem test_meets_StatusRefreshesTheSession :
    (admitted.session 2).state = .admitted ∧ (admitted.session 2).baseline = some 17 ∧
    byteAt [18] 0 = (17 : Byte) + 1 ∧ byteAt [17] 0 ≠ (17 : Byte) + 1 ∧ (admitted.session 2).challenge = none ∧
    ((challenged .admitted).session 2).challenge ≠ none ∧ (Session.initial).baseline = none ∧
    (calm.session 2).state ≠ .admitted ∧ (calm.session 2).state ≠ .suspect := by decide +kernel

theorem test_meets_ToolGrantIsTheSmallerOfCeilingAndSum :
    (∀ (i : Fin 32) e, admitted.trust.classes[i] = some e → e.ic.toNat ≤ 2000) ∧ admitted.mgmt.settings.toolCeiling ≤ 8000 ∧
    admitted.computeGrants.strings.s2 = 600 ∧ calm.computeGrants.strings = .all 0 := by
  refine ⟨fun i e h => of_decide_eq_true
    (of_all (f := fun e => decide (e.ic.toNat ≤ 2000)) (by decide +kernel) i e h), ?_⟩
  decide +kernel

theorem test_meets_GrantsFollowTheirFormulas :
    ((45 : Int) < 60 ∧ (45 : Int) ≤ 45 ∧ (60 : Int) ≤ 60 ∧ (45 : Int) < 46 ∧ (59 : Int) < 60) ∧
    (calm.session 2).state ≠ .admitted ∧ (calm.session 2).state ≠ .suspect ∧
    ((admitted.session 2).telemetry = some ⟨33, 600, 3500, 0⟩ ∧ (admitted.session 2).classIndex = some 4 ∧
      admitted.trust.classes[(4 : Fin 32)] = some cls ∧ (admitted.session 2).state = .admitted ∧
      (admitted.session 2).baseline.isSome = true ∧ admitted.grants.stale.get 2 = false ∧
      cls.cellFloor.toNat ≤ (3500 : Half).toNat) ∧
    (2799 : Half).toNat < cls.cellFloor.toNat ∧ [3, 5].sum ≤ 8 ∧ 7 < [3, 5].sum := by decide +kernel

/-- A recomputation with a pack at its cutoff: both topologies, a fall of the tool grant, no fall. -/
theorem test_meets_Grants_recomputation :
    (false = true ↔ admitted.mgmt.settings.topology = 1) ∧
    (true = true ↔ ({ admitted.mgmt.settings with topology := 1 } : Settings).topology = 1) ∧
    (admitted.hot 2 = false ∧ ∀ t : Telemetry, t = ⟨60, 600, 3500, 0⟩ →
      (seated (linked .active) true { sess .admitted with telemetry := some t }).hot 2 = true) ∧
    admitted.ctl.loading = false ∧ admitted.fault.causes.overheat = false ∧
    ({ admitted.fault.causes with overheat := true } : Causes).overheat = true ∧
    (admitted.fault.conds.set .overheat .active).overheat = .active ∧
    admitted.computeGrants.toolGrant < 601 ∧ admitted.grants.prevTool ≤ admitted.computeGrants.toolGrant ∧
    (∀ n, admitted.grants.prevPublished.get n ≤ admitted.computeGrants.published.get n) := by
  refine ⟨by decide +kernel, by decide +kernel, ⟨by decide +kernel, fun t h => by rw [h]; decide +kernel⟩, ?_⟩
  decide +kernel

/-- With a remainder of one step and two strings with room, the first of them gets it (R139). -/
theorem test_remainder_in_ascending_order : apportion 7 [0, 3, 5] = [0, 3, 4] ∧ apportion 5 [0, 1, 1, 9] = [0, 1, 0, 4] := by
  decide +kernel

theorem test_meets_TimersAndLockAct :
    (admitted.power = .on ∧ admitted.engine.audit = none ∧ (admitted.session 2).state = .admitted ∧
      (admitted.session 2).recheck.isSome = true ∧ (admitted.session 2).challenge = none) ∧
    ((challenged .admitted).session 2).challenge ≠ none ∧
    ((admitted.session 2).telemetry ≠ none ∧ admitted.grants.stale.get 2 = false) ∧
    (calm.session 2).telemetry = none ∧ calm.grants.overdraw = none ∧ calm.grants.aggregate = none ∧
    ({ calm.grants with overdraw := some 9, aggregate := some 9 } : Grants).overdraw = some 9 ∧
    calm.ctl.loading = false ∧ calm.fault.causes.lock = false ∧ LogRoom calm ∧ calm.fault.causes.overdraw = false := by
  unfold LogRoom
  decide +kernel

theorem test_meets_TimersAndLockAct_release :
    ∃ f : FaultUnit, f.causes.lock = true ∧ f.conds.lock = .active ∧ f.map.lock.latch = false ∧
      ({ calm with fault := f } : Part).fault = f :=
  ⟨{ calm.fault with causes := { calm.fault.causes with lock := true }, conds := calm.fault.conds.set .lock .active },
    rfl, rfl, rfl, rfl⟩

/-- Momentary causes: CLONE latches and holds four lines, and a map entry may not latch. -/
theorem test_meets_TimersAndLockAct_momentary :
    ((calm.fault.map.get .clone).latch = true ∧ calm.fault.conds.get .clone ≠ .held ∧
      (calm.fault.map.get .clone).advise = true) ∧
    (PerCond.get (calm.fault.conds.set .clone .held) .clone = .held) ∧
    (MapEntry.ofByte 0).latch = false ∧ (MapEntry.ofByte 0).advise = false ∧
    LogRoom (calm.momentary .clone) ∧
    ({ calm.tlp with sending := some ⟨1, 0, []⟩ } : Tlp).sending = some ⟨1, 0, []⟩ := by
  unfold LogRoom
  decide +kernel

/-- Any job can be in progress, with its request in flight. -/
theorem test_meets_job_statements :
    ∀ (j : Job) (code : Byte), (asked (working admitted j) code).power = .on ∧
      (asked (working admitted j) code).ctl.job = some j ∧ Running (asked (working admitted j) code) code :=
  fun _ _ => ⟨rfl, rfl, _, rfl, rfl, rfl⟩

theorem test_meets_KeyJobsLandAtTheirCompletion :
    ((admitted.session 2).keySlot = some 5 ∧ (admitted.session 2).state.live = true ∧
      (admitted.session 2).identity = some ident ∧ (admitted.session 2).challenge = none) ∧
    (calm.session 2).keySlot ≠ some 5 ∧ ((challenged .admitted).session 2).challenge ≠ none ∧
    admitted.trust.keys[(5 : Fin 16)] = some key ∧
    (∀ (l : Fin 16), l ≠ 5 → admitted.trust.keys[l] = none) := by decide +kernel

/-- A KEY-WRITE that keeps the pair: a session bound to the slot is found again, and it alone. -/
theorem test_meets_KeyJobs_relookup :
    (admitted.trust.keys.set 5 (some { key with kb := 11 }))[(5 : Fin 16)] = some { key with kb := 11 } ∧
    key.family = ident.family ∧ key.generation = ident.generation ∧
    (∀ l : Fin 16, l = 5 ∨ (admitted.trust.keys.set 5 (some { key with kb := 11 }))[l] = none) ∧
    admitted.proof.reserved + 4 ≤ 0xFFFFFFFF - admitted.proof.counter.toNat := by decide +kernel

theorem test_meets_ClassJobsLandAtTheirCompletion :
    (admitted.session 2).classIndex = some 4 ∧ (admitted.session 2).state.live = true ∧
    (admitted.session 2).identity = some ident ∧ ident.classCode = cls.code ∧
    ident.classCode ≠ ({ cls with code := 0x22 } : ClassEntry).code ∧ (calm.session 2).classIndex ≠ some 4 := by
  decide +kernel

theorem test_meets_WithdrawalJobsLandAtTheirCompletion :
    admitted.trust.withdrawn.Pairwise (fun x y => x.toNat < y.toNat) ∧ (admitted.session 2).state.live = true ∧
    (admitted.session 2).identity = some ident ∧ ident.serial ∈ [ident.serial] ∧ ident.serial ∉ [(9 : Word)] ∧
    (audited admitted (.withdrawing [])).engine.audit = some (auditIn (.withdrawing [])) ∧
    (auditIn (.withdrawing [])).phase = .withdrawing [] := by decide +kernel

/-- An audit whose sockets all have results. -/
def judgedAudit (withdraw : Bool) (results : PerSocket (Option AuditOutcome)) (serials : PerSocket (Option Word)) : Audit :=
  { Audit.new 15 false withdraw with results := results, serials := serials }

/-- The audit's test: results missing; nothing to withdraw; two of three failed; one of two failed, its serial in the list,
not in it, and the list full. -/
theorem test_meets_Withdrawal_auditTest :
    (auditIn .collecting).results.get 2 = none ∧ (auditIn .ready).phase ≠ .collecting ∧
    (judgedAudit false (.all (some .pass)) (.all none)).withdraw = false ∧
    (∀ n, (judgedAudit true ⟨some .mismatch, some .mismatch, some .pass, some .skipped⟩ (.all none)).results.get n ≠ none) ∧
    (judgedAudit true ⟨some .mismatch, some .mismatch, some .pass, some .skipped⟩ (.all none)).massFailure = true ∧
    (judgedAudit true ⟨some .mismatch, some .late, some .removed, some .skipped⟩ ⟨some 9, none, none, none⟩).massFailure =
      false ∧
    allSockets.filterMap (PerSocket.get ⟨some (9 : Word), none, none, none⟩) = [] ++ 9 :: [] ∧
    (9 : Word) ∉ admitted.trust.withdrawn ∧ (7 : Word) ∈ admitted.trust.withdrawn ∧
    admitted.trust.withdrawn.length < 256 ∧ [(7 : Word), 9] = [7] ++ 9 :: [] := by decide +kernel

theorem test_meets_Withdrawal_auditTest_running : Running (asked admitted 0x31) 0x31 := ⟨_, rfl, rfl, rfl⟩

/-- A full list without the serial 9. -/
theorem test_meets_Withdrawal_full :
    256 ≤ (List.replicate 256 (7 : Word)).length ∧ (9 : Word) ∉ List.replicate 256 (7 : Word) :=
  ⟨by rw [List.length_replicate], fun h => absurd (List.eq_of_mem_replicate h) (by decide)⟩

theorem test_meets_OtherJobsLandAtTheirCompletion :
    calm.proof.pendingMark ≠ 8192 ∧
    (logPlan [] none true ⟨1, 7, 0, []⟩).room.length = 1 ∧ (0 < 1 ∧ ¬ 1 < 1) := by decide +kernel

/-- A log whose eight sectors are all in use. -/
def fullLog : StoreArray :=
  [(896, 8), (1024, 1), (1152, 2), (1280, 3), (1408, 4), (1536, 5), (1664, 6), (1792, 7)]

theorem test_meets_OtherJobs_log :
    (fullLog.wf = true ∧ StoreArray.wf [] = true) ∧ (9 < 16 ∧ 7 < 8 ∧ [(1 : Word), 2, 3].length < 4) ∧
    (126 + 1 + [(1 : Word)].length ≤ 128 ∧ 128 < 127 + 1 + [(1 : Word)].length) ∧
    ((logPlan fullLog (some ⟨0, 8, 128⟩) false ⟨1, 7, 0, [1]⟩).pos = ⟨1, 9, 1⟩ ∧ readWord fullLog (128 * 8 + 0) ≠ 0xFFFFFFFF ∧
      ∀ k, logInUse fullLog k = true) ∧
    (logInUse [(896, 8)] (0 + 1) = false ∧ logPlan [(896, 8)] (some ⟨0, 8, 128⟩) false ⟨1, 7, 0, [1]⟩ =
      ⟨[.program 1024 9], [.program 1025 0xC7A00000, .program 1026 1, .program 1025 0x47A00000], ⟨1, 9, 1⟩⟩) := by
  decide +kernel

theorem test_meets_OtherJobs_entries :
    (admitted.engine.audit = none ∧ LogRoom admitted ∧ (admitted.session 2).identity = some ident ∧
      (admitted.session 2).state ≠ .none ∧ (admitted.session 2).peak = none) ∧
    (LogRoom calm ∧ (calm.session 2).identity = none) ∧ ({ sess .admitted with peak := some 41 } : Session).peak = some 41 ∧
    LogRoom ((working calm (.table .withdrawClear)).jobEnded [] (.table .withdrawClear) .success Part.withdrawClearDone) := by
  unfold LogRoom; decide +kernel

/-- A completion that changes STORE and TRUST_BASE handles TRUST_BASE first (R154). -/
theorem test_conditions_of_a_completion_ascend :
    (({ working admitted (.table (.keyErase 5)) with
        tlp := { calm.tlp with sending := some poll },
        engine := calm.engine,
        fault := { calm.fault with
          causes := { calm.fault.causes with store := true, noUsableKey := false },
          conds := (calm.fault.conds.set .store .active).set .trustBase .inactive } } : Part).jobEnded []
      (.table (.keyErase 5)) .success (Part.keyEraseDone 5)).tlp.lane0 =
      [faultAdvisory .trustBase .active, faultAdvisory .store .held] := by decide +kernel

theorem test_meets_AuditAndParkCompleteWhenTheirWaitsEnd :
    (asked (audited calm .ready) 0x31).power = .on ∧
    (asked (audited calm .ready) 0x31).engine.audit = some (auditIn .ready) ∧ (auditIn .ready).phase = .ready ∧
    Running (asked (audited calm .ready) 0x31) 0x31 ∧ calm.engine.audit = none ∧ (auditIn .collecting).phase ≠ .ready ∧
    (∃ q, (asked calm 0x3E).mgmt.request = some q ∧ q.code = 0x3E ∧ q.phase = .running ∧ q.wait = 0) ∧
    LogRoom (asked calm 0x3E) ∧ (∀ q, calm.mgmt.request = some q → q.code = 0x3E → q.phase = .running → q.wait ≠ 0) :=
  ⟨rfl, rfl, rfl, ⟨_, rfl, rfl, rfl⟩, rfl, nofun, ⟨_, rfl, rfl, rfl, rfl⟩, by unfold LogRoom; decide, nofun⟩

theorem test_meets_InBandResetReturnsThePart :
    ∃ q, (asked admitted 0x3F).mgmt.request = some q ∧ (asked admitted 0x3F).power = .on ∧ q.code = 0x3F ∧
      q.phase = .running ∧ q.wait = 0 ∧ ((asked admitted 0x3F).session 2).state ≠ .none ∧
      (asked admitted 0x3F).contacts.get 2 = true ∧ (asked admitted 0x3F).contacts.get 0 = false ∧
      (asked admitted 0x3F).mgmt.settings.revertOnReset = 1 := ⟨_, rfl, rfl, rfl, rfl, rfl, nofun, rfl, rfl, rfl⟩

/-- Hypotheses of the request statements: a state that is ready, one with a request in flight, one that loads. -/
theorem test_meets_request_statements :
    Ready (around admitted) ∧ Free (around (parked calm)) ∧ (parked calm).mgmt.parked = true ∧
    (Loaded (around (asked calm 0x31)) ∧ (asked calm 0x31).LanesFit ∧ (asked calm 0x31).mgmt.request ≠ none) ∧
    (State.reset.part.power = .on ∧ State.reset.part.ctl.loading = true) :=
  ⟨⟨⟨⟨rfl, rfl⟩, rfl⟩, rfl⟩, ⟨⟨rfl, rfl⟩, rfl⟩, rfl,
    ⟨⟨rfl, rfl⟩, by unfold Part.LanesFit; decide, nofun⟩, rfl, rfl⟩

theorem test_meets_RequestsAreCheckedBeforeTheyAct :
    requestOf (.keyWrite [1]) = some (0x10, 3, 3, false, [1]) ∧ [(1 : Word)].length < 3 ∧
    requestOf (.park []) = some (0x3E, 0, 0, false, []) ∧
    requestOf (.describe [1]) = some (0x01, 0, 0, true, [1]) ∧ 0 < [(1 : Word)].length ∧
    ([0x77] : List Byte).headD 0 ∉ requestCodes ∧ ([1, 2] : List Byte).length ∉ [1, 5, 9, 13, 17] ∧
    (([0x3F, 1] : List Byte).headD 0 = 0x3F ∧ ([0x3F, 1] : List Byte).length ∉ [1, 5, 9, 13, 17]) :=
  ⟨rfl, by decide, rfl, rfl, by decide, by decide, by decide, by decide⟩

theorem test_meets_RequestFramesActAsTheirCommands :
    calm.tlp.rx = .hunting ∧ requestOf (.socketReport [0x02000000]) = some (0x02, 1, 1, false, [0x02000000]) ∧
    [(0x02000000 : Word)].length ≤ 4 ∧
    (⟨8, 0, 0x02 :: [(0x02000000 : Word)].flatMap Word.bytes⟩ : Frame).kind = kindMgmtReq := by decide

theorem test_meets_ReportsReadTheState :
    Word.byte 0x02000000 0 = byteOf (2 : Socket).val ∧ Word.byte 0x02000000 1 = 0 ∧ Word.byte 0x02010000 1 = 1 ∧
    4 ≤ (Word.byte 0x04000000 0).toNat ∧ 2 ≤ (Word.byte 0x02020000 1).toNat ∧ (Word.byte 0x0C000000 0).toNat = 12 ∧
    12 < (Word.byte 0x0D000000 0).toNat ∧
    (Word.byte 0x01050000 0 = 1 ∧ Word.byte 0x01050000 1 = byteOf (5 : Fin 16).val) ∧
    (Word.byte 0x02040000 0 = 2 ∧ Word.byte 0x02040000 1 = byteOf (4 : Fin 32).val) ∧
    (Word.byte 0x03000000 0 = 3 ∧ trust.withdrawn[(Word.byte 0x03000000 1).toNat]? = some 7 ∧
      trust.withdrawn[(Word.byte 0x03010000 1).toNat]? = none) ∧
    (Word.byte 0x041F0000 0 = 4 ∧ Word.byte 0x041F0000 1 = byteOf (31 : Fin 32).val) ∧
    Word.byte 0x05000000 0 ∉ [(1 : Byte), 2, 3, 4] ∧ 16 ≤ (Word.byte 0x01100000 1).toNat ∧
    32 ≤ (Word.byte 0x02200000 1).toNat ∧ (7 : Word) ≠ 0 ∧ (7 : Word) ≠ 0xFFFFFFFF := by decide +kernel

/-- One header word, in a log sector that is in use: a COLD_START entry without data, and one whose commit bit is 1. -/
def logged : StoreArray := [(896, 0), (897, 0x47800000), (898, 0xC7800000)]

theorem test_meets_LogReadsReturnWordsOfTheArray :
    ((1 : Nat) < 128 ∧ readWord logged (896 + 3) = 0xFFFFFFFF) ∧
    ((0x00010000 : Word) ≠ 0xFFFFFFFF ∧ (0x00010000 : Word).extractLsb' 16 5 ≠ (0 : BitVec 5)) ∧
    ((readWord logged 897).extractLsb' 16 5 = (0 : BitVec 5) ∧ 1 ≤ ((readWord logged 897).extractLsb' 26 4).toNat ∧
      ((readWord logged 897).extractLsb' 26 4).toNat ≤ 9 ∧ (readWord logged 897).getLsbD 31 = false ∧
      (readWord logged 898).getLsbD 31 = true) ∧
    (logInUse logged 0 = true ∧ logSeq logged 0 = 0) ∧ logInUse logged 1 = false ∧ logSeq logged 0 ≠ 1 ∧
    (∀ k, logInUse [] k = false) ∧ calm.ctl.logPos = none ∧ calm.ctl.cursor = none := by decide +kernel

theorem test_meets_LogReads_cursor :
    ∃ x : StoreCtl, x.cursor = some ⟨0, 0, 1⟩ ∧ x.logPos = some ⟨0, 0, 3⟩ ∧ Free (around { calm with ctl := x }) :=
  ⟨{ calm.ctl with cursor := some ⟨0, 0, 1⟩, logPos := some ⟨0, 0, 3⟩ }, rfl, rfl, ⟨rfl, rfl⟩, rfl⟩

/-- A cursor at the first entry's place while the write position is unset, with nothing in the log. -/
theorem test_meets_LogReads_unset :
    ∃ x : StoreCtl, x.cursor = some ⟨0, 0, 1⟩ ∧ x.logPos = none ∧ Free (around { calm with ctl := x }) ∧
      ¬(logInUse [] 0 = true ∧ logSeq [] 0 ≠ 0) :=
  ⟨{ calm.ctl with cursor := some ⟨0, 0, 1⟩ }, rfl, rfl, ⟨⟨rfl, rfl⟩, rfl⟩, by decide⟩

/-- Two sectors in use, one entry in each. -/
def twoSectors : StoreArray := [(896, 4), (897, 0x57800000), (1024, 5), (1025, 0x57800000)]

theorem test_meets_LogReads_forward :
    (logInUse twoSectors 0 = true ∧ (scanLog twoSectors 896 128 1).1 = [1] ∧ (scanLog twoSectors 1024 128 1).1 = [1]) ∧
    (0 < 1 ∧ 1 ≤ [1].length ∧ ([1].take 1).getLast? = some 1) ∧ [1].length < 4 ∧
    (logInUse twoSectors 1 = true ∧ logSeq twoSectors 1 = 4 + 1 ∧
      ∀ j, logInUse twoSectors j = true → logSeq twoSectors j = 4 + 1 → j = 1) ∧
    (∀ k, logInUse twoSectors k = true → logSeq twoSectors k ≠ 5 + 1) ∧ logInUse twoSectors 2 = false ∧
    (∀ j : Fin 8, j ≠ 0 → logInUse twoSectors j = true → (scanLog twoSectors (128 * (7 + j.val)) 128 1).1 ≠ [] →
      (logSeq twoSectors 0).toNat < (logSeq twoSectors j).toNat) ∧
    (∀ k : Fin 8, logInUse [] k = true → (scanLog [] (128 * (7 + k.val)) 128 1).1 = []) := by decide +kernel

theorem test_meets_KeyRequestsBecomeStoreJobs :
    (Word.byte 0x0F010300 0 = byteOf (15 : Fin 16).val ∧ key.retired = false ∧ key.family = Word.byte 0x0F010300 1 ∧
      key.generation = Word.byte 0x0F010300 2 ∧ key.family ≠ 0 ∧ key.family ≠ 255 ∧ 2 ≤ (2 : Word).toNat ∧
      (2147483646 : Word).toNat ≤ 2147483646) ∧
    (∀ l : Fin 16, calm.trust.keys[l] = none) ∧ ((5 : Fin 16) ≠ 15 ∧ trust.keys[(5 : Fin 16)] = some key) ∧
    16 ≤ (Word.byte 0x10010300 0).toNat ∧ (1 : Word).toNat < 2 ∧ 2147483646 < (2147483647 : Word).toNat ∧
    ({ key with retired := true } : KeyEntry).retired = true := by decide +kernel

theorem test_meets_ClassRequestsBecomeStoreJobs :
    (Word.byte 0x04210258 0 = byteOf (4 : Fin 32).val ∧
      cls = { code := Word.byte 0x04210258 1, ic := Word.lo 0x04210258, tk := (Word.byte 0x2D3C0AF0 0).toInt,
              tc := (Word.byte 0x2D3C0AF0 1).toInt, cellFloor := Word.lo 0x2D3C0AF0, wearLimit := Word.hi 0 }) ∧
    (cls.code ≠ 0 ∧ cls.code ≠ 255 ∧ 1 ≤ cls.ic.toNat ∧ cls.ic.toNat ≤ 2000 ∧ -40 ≤ cls.tk ∧ cls.tk ≤ 124 ∧
      cls.tk < cls.tc ∧ cls.tc ≤ 125 ∧ 2000 ≤ cls.cellFloor.toNat ∧ cls.cellFloor.toNat ≤ 4000) ∧
    32 ≤ (Word.byte 0x20210258 0).toNat ∧ trust.classes[(4 : Fin 32)] = some cls ∧
    (∀ j : Fin 32, j ≠ 4 → trust.classes[j] = none) := by decide +kernel

theorem test_meets_ListAndRuleRequestsAct :
    (1 ≤ [(7 : Word)].length ∧ [(7 : Word), 8, 9].length ≤ 3) ∧ newSerials [7] [7, 8, 8] = [8] ∧ newSerials [7] [7] = [] ∧
    (Word.byte 0x00010101 0 = byteOf (0 : Fin 32).val ∧ Rule.ofWords 0x00010101 0x0F7F0000 0 = some (ruleFor .forward)) ∧
    (32 ≤ (Word.byte 0x20000000 0).toNat ∧ 16 ≤ (Word.byte 0x00000010 3).toNat ∧ Word.byte 0x00000010 3 ≠ 0xFF ∧
      128 ≤ (Word.byte 0x00800000 1).toNat ∧ 3 ≤ (Word.byte 0x00000300 2).toNat) ∧
    (calm.classifier.editing = false ∧ ({ calm.classifier with editing := true } : Classifier).editing = true) ∧
    ((ruleFor .answer).enabled = true ∧ 2 < ({ ruleFor .answer with lane := 3 } : Rule).lane.toNat) := by decide +kernel

theorem test_meets_ListAndRuleRequestsAct_serials :
    (∃ w ∈ [(0 : Word)], w = 0 ∨ w = 0xFFFFFFFF) ∧ (∀ w ∈ [(7 : Word), 8], w ≠ 0 ∧ w ≠ 0xFFFFFFFF) := by
  simp

/-- A list that is full, and one with room for one serial more. -/
theorem test_meets_ListAndRuleRequestsAct_full :
    256 < (List.replicate 256 (7 : Word)).length + [(8 : Word)].length ∧
    (List.replicate 255 (7 : Word)).length + [(8 : Word)].length ≤ 256 := by
  simp only [List.length_replicate, List.length_singleton]
  decide

theorem test_meets_SettingWritesTakeEffectAtOnce :
    (12 < (Word.byte 0x0D000000 0).toNat ∧ (Word.byte 0x05020000 0).toNat ≠ 9 ∧ 2 ≤ (Word.byte 0x05020000 1).toNat ∧
      1 < (Word.lo 0x00000002).toNat ∧ 2 ≤ (Word.byte 0x09020008 1).toNat) ∧
    ((Word.byte 0x04000001 0).toNat = 4 ∧ (Word.lo 0x04000001).toNat = 1 ∧ max 2 (min 1 31) = 2 ∧
      Word.byte 0x04000001 1 = 0 ∧ Word.byte 0x04010001 1 = 1) ∧
    ((Word.byte 0x08000003 0).toNat = 8 ∧ (10 : Nat) = if (3 : Nat) = 0 then 0 else max 10 (min 3 250)) ∧
    ((Word.byte 0x09000010 0).toNat = 9 ∧ (Word.lo 0x09000010).toNat ∈ [0, 1, 2, 4, 8, 16]) ∧
    ((Word.byte 0x09020003 0).toNat = 9 ∧ (Word.lo 0x09020003).toNat ∉ [0, 1, 2, 4, 8, 16] ∧
      2 ≤ (Word.byte 0x09020003 1).toNat) ∧
    ((Word.byte 0x0A000000 0).toNat = 10 ∧ (Word.byte 0x05000001 0).toNat = 5 ∧ (admitted.session 2).state = .admitted ∧
      (admitted.session 2).recheck = some ⟨60000000, 0⟩ ∧ admitted.clock < 1000000) ∧
    ((Word.byte 0x06000001 0).toNat = 6 ∧ (admitted.session 2).telemetry ≠ none) := by decide +kernel

theorem test_meets_DecimationRefusalSetsZero :
    Word.byte 0x09010003 0 = 9 ∧ (Word.lo 0x09010003).toNat ∉ [0, 1, 2, 4, 8, 16] ∧
    (Word.byte 0x09010003 1).toNat ≤ 1 ∧ Word.byte 0x0B000002 0 = 11 ∧
    2 ≤ (Word.lo 0x0B000002).toNat := by decide

theorem test_meets_MapWritesAndAcknowledgements :
    (Word.byte 0x070F0101 0 = byteOf Cond.store.number ∧ Word.byte 0x070F0101 1 = (15 : BitVec 4).setWidth 8 ∧
      (Word.byte 0x070F0101 2).toNat = 1 ∧ (Word.byte 0x070F0101 3).toNat = 1 ∧ Word.byte 0x00000000 0 = 0 ∧
      Word.byte 0x01000000 0 = 1) ∧
    8 ≤ (Word.byte 0x08000000 0).toNat ∧ 16 ≤ (Word.byte 0x00100000 1).toNat ∧ 2 ≤ (Word.byte 0x00000200 2).toNat := by
  decide

/-- The map's entry and the permit lines that a MAP-WRITE gives are those of a part that exists. -/
theorem test_meets_MapWrites_part (c : Cond) (e : MapEntry) (p : Part) :
    ∃ q : Part, q = { p with fault := { p.fault with map := p.fault.map.set c e, permits := q.fault.permits } } ∧
      ∀ n, q.fault.permits.get n = q.permitDue n := by
  refine ⟨(p.setFault { p.fault with map := p.fault.map.set c e }).evalPermits, rfl, fun n => ?_⟩
  exact PerSocket.get_ofFn _ n

theorem test_meets_RestartAuditParkAndResetAreTaken :
    (4 ≤ (Word.byte 0x04000000 0).toNat ∧ Word.byte 0x02000000 0 = byteOf (2 : Socket).val) ∧
    (16 ≤ (Word.byte 0x10000000 0).toNat ∧ 2 ≤ (Word.byte 0x00020000 1).toNat ∧ 2 ≤ (Word.byte 0x00000200 2).toNat) ∧
    ((Word.byte 0x04010100 0).toNat < 16 ∧ (Word.byte 0x04010100 1).toNat < 2 ∧ (Word.byte 0x04010100 2).toNat < 2 ∧
      (Word.byte 0x04010100 0).getLsbD (2 : Socket).val = true ∧
      ∀ m : Socket, m < 2 → (Word.byte 0x04010100 0).getLsbD m.val = false) ∧
    ((admitted.session 2).state.trusted = true ∧ (admitted.link 2).state = .active ∧
      (admitted.session 2).challenge = none) ∧
    ((challenged .admitted).session 2).challenge ≠ none ∧ (calm.session 2).state.trusted = false ∧
    (∃ j, (working calm (.table .withdrawClear)).ctl.job = some j) := by
  refine ⟨by decide, by decide, by decide, by decide +kernel, by decide +kernel, by decide, ⟨_, rfl⟩⟩

/-- An audit's turns: a socket outside the mask, one reached, one behind a socket without a result, one whose turn it is. -/
theorem test_meets_Restart_auditTurns :
    (auditIn .collecting).mask.getLsbD (0 : Socket).val = false ∧
    (auditIn .collecting).mask.getLsbD (2 : Socket).val = true ∧ (auditIn .collecting).reached.get 2 = false ∧
    (({ Audit.new 15 true true with reached := .all true } : Audit).reached.get 0 = true) ∧
    ((Audit.new 15 true true).oneAtATime = true ∧ (0 : Socket) < 2 ∧ (Audit.new 15 true true).mask.getLsbD (0 : Socket).val = true ∧
      (Audit.new 15 true true).results.get 0 = none) ∧
    (auditIn .collecting).oneAtATime = false ∧
    (∀ m : Socket, m < 2 → (Audit.new 4 true true).mask.getLsbD m.val = true → (Audit.new 4 true true).results.get m ≠ none) ∧
    (audited (asked admitted 0x31) .collecting).engine.audit = some (auditIn .collecting) := by decide +kernel

theorem test_meets_Restart_auditTurns_running : Running (audited (asked admitted 0x31) .collecting) 0x31 := ⟨_, rfl, rfl, rfl⟩

end Sys2Proof.Tests
end

namespace Sys2Proof.Machine

/-! ## The check byte (R3) -/

/-- A step of the check register, with its test on bit 7. -/
theorem crc8Shift_eq (r : Byte) : crc8Shift r = if r.getLsbD 7 then (r <<< 1) ^^^ 0x31 else r <<< 1 := by
  unfold crc8Shift
  rw [BitVec.msb_eq_getLsbD_last]

/-- Only the register 0 steps to 0, since the register's generator has its lowest bit set. -/
theorem crc8Shift_eq_zero (r : Byte) : crc8Shift r = 0 ↔ r = 0 := by
  revert r
  decide

/-- The byte that takes the register to 0 is the register itself. -/
theorem crc8Byte_eq_zero (r b : Byte) : crc8Byte r b = 0 ↔ b = r := by
  simp only [crc8Byte, crc8Shift_eq_zero]
  exact BitVec.xor_eq_zero_iff.trans eq_comm

theorem crc8_append (bs : List Byte) (b : Byte) : crc8 (bs ++ [b]) = crc8Byte (crc8 bs) b := by
  simp [crc8]

/-! ## The receiver (R4) -/

/-- What the length field of a kind allows. -/
def lengthFits (k : BitVec 4) (n : Nat) : Prop := ∀ m, fixedLength k = some m → n = m

/-- The test of R4 is passed exactly when the spare bits, the length and the check byte are right. -/
theorem judgeFrame_ne_malformed (h len check : Byte) (got : List Byte) :
    judgeFrame h len got check ≠ .malformed ↔
      h.extractLsb' 2 2 = (0 : BitVec 2) ∧ lengthFits (h.extractLsb' 4 4) len.toNat ∧ check = crc8 (h :: len :: got) := by
  unfold judgeFrame lengthFits
  dsimp only
  generalize fixedLength (h.extractLsb' 4 4) = fixed
  cases fixed <;> simp [and_assoc]

/-- A frame that passes the test of R4. -/
theorem judgeFrame_of_fits (h len : Byte) (got : List Byte) (hs : h.extractLsb' 2 2 = (0 : BitVec 2))
    (hl : lengthFits (h.extractLsb' 4 4) len.toNat) :
    judgeFrame h len got (crc8 (h :: len :: got)) =
      .wellFormed { kind := h.extractLsb' 4 4, socket := ⟨h.toNat % 4, Nat.mod_lt _ (by decide)⟩, payload := got } := by
  unfold lengthFits at hl
  unfold judgeFrame
  dsimp only
  generalize fixedLength (h.extractLsb' 4 4) = fixed at hl ⊢
  cases fixed with
  | none => simp [hs]
  | some m => simp [hs, hl m rfl]

theorem Frame.wf_iff (f : Frame) : f.wf = true ↔ f.payload.length ≤ 24 ∧ lengthFits f.kind f.payload.length := by
  unfold Frame.wf lengthFits
  cases fixedLength f.kind <;> simp

/-- The fields of a header byte (R2): kind, spare bits 0, socket. -/
theorem Frame.header_fields (f : Frame) :
    f.header.extractLsb' 4 4 = f.kind ∧ f.header.extractLsb' 2 2 = (0 : BitVec 2) ∧ f.header.toNat % 4 = f.socket.val := by
  obtain ⟨kind, socket, payload⟩ := f
  simp only [Frame.header]
  revert kind socket
  decide

/-- A payload is collected byte by byte. -/
theorem Rx.run_body (h len : Byte) (got more rest : List Byte) (hl : got.length + more.length = len.toNat) :
    Rx.run (.body h len got) (more ++ rest) = Rx.run (.body h len (got ++ more)) rest := by
  induction more generalizing got with
  | nil => simp
  | cons b more ih =>
    rw [List.length_cons] at hl
    simp only [List.cons_append, Rx.run, Rx.feed]
    rw [if_pos (by omega)]
    simpa using ih (got ++ [b]) (by simp; omega)

/-- The bytes of a frame that may be sent are received as that frame. -/
theorem Rx.run_bytes (f : Frame) (hf : f.wf = true) : Rx.run .hunting f.bytes = (.hunting, [.wellFormed f]) := by
  obtain ⟨hlen, hfix⟩ := f.wf_iff.mp hf
  obtain ⟨hkind, hspare, hsocket⟩ := f.header_fields
  have hn : (byteOf f.payload.length).toNat = f.payload.length := by simp [byteOf]; omega
  have hend : Rx.run (.body f.header (byteOf f.payload.length) f.payload)
      [crc8 (f.header :: byteOf f.payload.length :: f.payload)] = (.hunting, [.wellFormed f]) := by
    simp only [Rx.run, Rx.feed, hn, lt_irrefl, if_false]
    rw [judgeFrame_of_fits _ _ _ hspare (by rw [hkind, hn]; exact hfix)]
    simp only [hkind, hsocket]
  have hbody := Rx.run_body f.header (byteOf f.payload.length) [] f.payload
    [crc8 (f.header :: byteOf f.payload.length :: f.payload)] (by simp [hn])
  simp only [Frame.bytes, Frame.tailBytes, Rx.run, Rx.feed, if_true]
  rw [if_neg (by omega)]
  exact hbody.trans hend

end Sys2Proof.Machine

namespace Sys2Proof.Proofs
open Sys2Proof Sys2Proof.Machine Sys2Proof.Claims

/-- Settles O15: the payload is collected byte by byte, and the frame so collected passes the test of R4. -/
theorem sentFrameIsReceivedWhole : Obligations.SentFrameIsReceivedWhole := Rx.run_bytes

/-- Settles O16: a step of the register is one to one and keeps 0, so only the register itself takes it to 0. -/
theorem checkByteProcess : Obligations.CheckByteProcess := by
  refine ⟨fun f => ?_, rfl, fun bs b => ?_, fun bs c => ?_⟩
  · simp [Frame.bytes, Frame.tailBytes, sync]
  · simp only [crc8_append, crc8Byte, crc8Shift_eq]
    rfl
  · rw [crc8_append, crc8Byte_eq_zero]

/-- Settles O17. -/
theorem receiverFollowsItsTest : Obligations.ReceiverFollowsItsTest := by
  refine ⟨fun b hb => ?_, rfl, fun h b => ⟨rfl, fun hb => ?_, fun hb => ?_⟩, fun h len check got hl => ?_⟩
  · rw [Rx.feed, if_neg (show b ≠ sync from hb)]
  · simp [Rx.feed, hb]
  · simp [Rx.feed, hb]
  · exact ⟨judgeFrame h len got check, by simp [Rx.feed, hl], judgeFrame_ne_malformed h len check got⟩

end Sys2Proof.Proofs

namespace Sys2Proof.Machine
open Sys2Proof.Claims

/-! ## A MGMT-REQ payload (R9) -/

theorem Word.ofBytes_bytes (w : Word) :
    Word.ofBytes (Word.byte w 0) (Word.byte w 1) (Word.byte w 2) (Word.byte w 3) = w := by
  unfold Word.ofBytes Word.byte
  refine BitVec.eq_of_getLsbD_eq fun i hi => ?_
  simp only [BitVec.getLsbD_append, BitVec.getLsbD_extractLsb']
  grind

/-- The parameter words of a request are read back from its payload. -/
theorem payloadWords_cons (code : Byte) (ws : List Word) (h : ws.length ≤ 4) :
    payloadWords (code :: ws.flatMap Word.bytes) = some ws := by
  match ws, h with
  | [], _ => rfl
  | [a], _ => simp [payloadWords, Word.bytes, wordAt, byteAt, Word.ofBytes_bytes]
  | [a, b], _ => simp [payloadWords, Word.bytes, wordAt, byteAt, Word.ofBytes_bytes]
  | [a, b, c], _ => simp [payloadWords, Word.bytes, wordAt, byteAt, Word.ofBytes_bytes]
  | [a, b, c, d], _ => simp [payloadWords, Word.bytes, wordAt, byteAt, Word.ofBytes_bytes]

theorem length_flatMap_bytes (ws : List Word) : (ws.flatMap Word.bytes).length = 4 * ws.length := by
  induction ws with
  | nil => rfl
  | cons w ws ih => simp [Word.bytes, ih]; omega

/-- A MGMT-REQ with at most four parameter words may be sent: the kind has no fixed length (Table 1.3). -/
theorem Frame.wf_request (f : Frame) (code : Byte) (ws : List Word) (h : ws.length ≤ 4) (hk : f.kind = kindMgmtReq)
    (hp : f.payload = code :: ws.flatMap Word.bytes) : f.wf = true := by
  have hn : fixedLength kindMgmtReq = none := rfl
  rw [Frame.wf_iff, hp, hk, List.length_cons, length_flatMap_bytes]
  exact ⟨by omega, fun m hm => absurd hm (by simp [hn])⟩

/-! ## A request by its code (Table 10.2) -/

/-- A request is what its code and words make of the part. -/
theorem exec_requestOf (c : Instr) (code : Byte) (least most : Nat) (whileParked : Bool) (ws : List Word) (s : State)
    (h : requestOf c = some (code, least, most, whileParked, ws)) :
    exec c s = s.onPart (Part.onRequest s.array code ws) := by
  cases c <;> simp only [requestOf, Option.some.injEq, Prod.mk.injEq, reduceCtorEq] at h
  all_goals
    obtain ⟨rfl, -, -, -, rfl⟩ := h
    rfl

theorem Part.request_loading (code : Byte) (least most : Nat) (whileParked : Bool) (ws : List Word) (f : Part → Part)
    (p : Part) (h : p.ctl.loading = true) : Part.request code least most whileParked ws f p = p := by
  rw [Part.request, if_pos h]

theorem Part.onReset_loading (ws : List Word) (p : Part) (h : p.ctl.loading = true) : Part.onReset ws p = p := by
  cases ws with
  | nil => exact if_pos h
  | cons => exact if_pos h

/-- While the store is being loaded a request does nothing (R40). -/
theorem Part.onRequest_loading (a : StoreArray) (code : Byte) (ws : List Word) (p : Part) (h : p.ctl.loading = true) :
    Part.onRequest a code ws p = p := by
  unfold Part.onRequest
  split
  case h_25 => exact p.onReset_loading ws h
  case h_26 => exact if_pos h
  all_goals exact p.request_loading _ _ _ _ _ _ h

/-! ## A frame on a hunting tool receiver (R4, R41) -/

/-- The bytes of a frame that may be sent act as that frame on a hunting receiver, which then hunts as before. -/
theorem Part.toolBytes_frame (a : StoreArray) (f : Frame) (p : Part) (hf : f.wf = true) (hr : p.tlp.rx = .hunting) :
    Part.toolBytes a f.bytes p = Part.toolFrame a p (.wellFormed f) := by
  have hrun : p.tlp.receive f.bytes p.clock = (p.tlp, [.wellFormed f]) := by
    simp only [Tlp.receive, hr, Rx.atArrival_hunting, Rx.run_bytes f hf, Rx.stamp_hunting]
    rw [← hr]
  rw [Part.toolBytes, hrun]
  rfl

/-- A request's frame is handed over by its code, and does nothing while the store is being loaded. -/
theorem Part.toolFrame_request (a : StoreArray) (f : Frame) (code : Byte) (ws : List Word) (p : Part)
    (h : ws.length ≤ 4) (hk : f.kind = kindMgmtReq) (hp : f.payload = code :: ws.flatMap Word.bytes) :
    Part.toolFrame a p (.wellFormed f) = Part.onRequest a code ws p := by
  have hm : Part.mgmtFrame a f.payload p = Part.onRequest a code ws p := by
    rw [Part.mgmtFrame, hp, payloadWords_cons code ws h]
    rfl
  rw [Part.toolFrame, hm, if_pos hk]
  split
  · next hl => exact (p.onRequest_loading a code ws hl).symm
  · rfl

end Sys2Proof.Machine

namespace Sys2Proof.Proofs
open Sys2Proof Sys2Proof.Machine Sys2Proof.Claims

/-- Settles O51: the receiver finishes the request's frame, whose code and words are the command's. -/
theorem requestFramesActAsTheirCommands : Obligations.RequestFramesActAsTheirCommands := by
  intro s c code ws f hr hc hw hk hp
  have hcmd : exec c s = s.onPart (Part.onRequest s.array code ws) := by
    obtain ⟨least, most, whileParked, h⟩ | ⟨rfl, rfl⟩ := hc
    · exact exec_requestOf c code least most whileParked ws s h
    · rfl
  have hpart : Part.toolBytes s.array f.bytes s.part = Part.onRequest s.array code ws s.part := by
    rw [Part.toolBytes_frame _ f s.part (f.wf_request code ws hw hk hp) hr]
    exact Part.toolFrame_request _ f code ws s.part hw hk hp
  rw [hcmd]
  show s.onPart (Part.toolBytes s.array f.bytes) = _
  unfold State.onPart Part.whileOn
  rw [hpart]

end Sys2Proof.Proofs

namespace Sys2Proof.Machine
open Sys2Proof.Claims

/-! ## Reports of level causes, case by case (R152, R153) -/

/-- During loading a report is recorded alone (R159). -/
theorem Part.reportCause_loading (p : Part) (c : Cond) (k : Causes) (h : p.ctl.loading = true) :
    p.reportCause c k = p.recordCauses k := if_pos h

theorem Part.reportCause_same (p : Part) (c : Cond) (k : Causes) (h : k.present c = p.fault.causes.present c) :
    p.reportCause c k = p.recordCauses k := by
  unfold Part.reportCause
  rw [h]
  cases p.fault.causes.present c <;> exact ite_self _

theorem Part.reportCause_appears (p : Part) (c : Cond) (k : Causes) (hl : p.ctl.loading = false)
    (h0 : p.fault.causes.present c = false) (h1 : k.present c = true) :
    p.reportCause c k = (p.recordCauses k).raiseCond c := by
  simp [Part.reportCause, hl, h0, h1]

theorem Part.reportCause_departs (p : Part) (c : Cond) (k : Causes) (hl : p.ctl.loading = false)
    (h0 : p.fault.causes.present c = true) (h1 : k.present c = false) :
    p.reportCause c k = (p.recordCauses k).clearCond c := by
  simp [Part.reportCause, hl, h0, h1]

theorem Part.clearCond_of_active (p : Part) (c : Cond) (h : p.fault.conds.get c = .active) :
    p.clearCond c = p.changeCond c (if (p.fault.map.get c).latch then .held else .inactive) := by
  simp only [Part.clearCond, h]

theorem Part.clearCond_of_ne_active (p : Part) (c : Cond) (h : p.fault.conds.get c ≠ .active) : p.clearCond c = p := by
  unfold Part.clearCond
  split
  · next hc => exact absurd hc h
  · rfl
  · rfl

/-- A departing cause takes its condition from ACTIVE to HELD or INACTIVE by the latch field, and changes no other. -/
theorem Part.reportCause_departs_conds (p : Part) (c : Cond) (k : Causes) (hl : p.ctl.loading = false)
    (h0 : p.fault.causes.present c = true) (h1 : k.present c = false) (ha : p.fault.conds.get c = .active) :
    (p.reportCause c k).fault.conds =
      p.fault.conds.set c (if (p.fault.map.get c).latch then .held else .inactive) := by
  rw [p.reportCause_departs c k hl h0 h1, Part.clearCond_of_active (p.recordCauses k) c ha, Part.changeCond_conds]
  rfl

/-- A cause reported absent changes no condition while it was absent before or its condition is not ACTIVE. -/
theorem Part.reportCause_absent_conds (p : Part) (c : Cond) (k : Causes) (h1 : k.present c = false)
    (h : p.fault.causes.present c = false ∨ p.fault.conds.get c ≠ .active) :
    (p.reportCause c k).fault.conds = p.fault.conds := by
  by_cases h0 : p.fault.causes.present c = false
  · rw [p.reportCause_same c k (h1.trans h0.symm)]
    rfl
  cases hl : p.ctl.loading with
  | true => rw [p.reportCause_loading c k hl]; rfl
  | false =>
    rw [p.reportCause_departs c k hl (by simpa using h0) h1,
      Part.clearCond_of_ne_active (p.recordCauses k) c (h.resolve_left h0)]
    rfl

/-- A cause reported absent concerns the fault unit and the tool link alone. -/
theorem Part.reportCause_absent_frame (p : Part) (c : Cond) (k : Causes) (h1 : k.present c = false) :
    (p.reportCause c k).ctl = p.ctl ∧ (p.reportCause c k).links = p.links ∧ (p.reportCause c k).engine = p.engine ∧
      (p.reportCause c k).grants = p.grants ∧ (p.reportCause c k).classifier = p.classifier := by
  cases hl : p.ctl.loading with
  | true => rw [p.reportCause_loading c k hl]; exact ⟨rfl, rfl, rfl, rfl, rfl⟩
  | false =>
    cases h0 : p.fault.causes.present c with
    | true => rw [p.reportCause_departs c k hl h0 h1]; exact Part.clearCond_frame _ c
    | false => rw [p.reportCause_same c k (h1.trans h0.symm)]; exact ⟨rfl, rfl, rfl, rfl, rfl⟩

/-! ## The silence timer is not the transmitter's -/

@[simp] theorem Part.transmit_silence (p : Part) : p.transmit.tlp.silence = p.tlp.silence := by
  unfold Part.transmit
  repeat' split
  all_goals rfl

@[simp] theorem Part.place_silence (p : Part) (k : Lane) (f : Frame) : (p.place k f).tlp.silence = p.tlp.silence := by
  cases k <;> simp [Part.place, Tlp.setLane]

@[simp] theorem Part.adviseCond_silence (p : Part) (c : Cond) (st : CondState) :
    (p.adviseCond c st).tlp.silence = p.tlp.silence := by
  unfold Part.adviseCond
  split <;> simp

theorem Part.clearCond_silence (p : Part) (c : Cond) : (p.clearCond c).tlp.silence = p.tlp.silence := by
  unfold Part.clearCond
  split
  · simp [Part.changeCond, Part.setCond, Part.evalPermits]
  · rfl
  · rfl

/-- The restarted silence timer has a full 500 ms (R43). -/
theorem Part.restartSilence_silence (p : Part) : p.restartSilence.tlp.silence = some (p.clock + 500000) := by
  unfold Part.restartSilence
  rw [show p.fault = (p.setTlp { p.tlp with silence := some (p.clock + silenceTime) }).fault from rfl]
  generalize hq : p.setTlp { p.tlp with silence := some (p.clock + silenceTime) } = q
  have hs : q.tlp.silence = some (p.clock + 500000) := by rw [← hq]; rfl
  cases hl : q.ctl.loading with
  | true => rw [q.reportCause_loading _ _ hl]; exact hs
  | false =>
    cases h0 : q.fault.causes.present .toolSilent with
    | true => rw [q.reportCause_departs .toolSilent _ hl h0 rfl, Part.clearCond_silence]; exact hs
    | false => rw [q.reportCause_same .toolSilent { q.fault.causes with silent := false } h0.symm]; exact hs

/-! ## Bytes on the tool link (R4, R40) -/

/-- The receiver as the statements say it: hunting again after more than 2 ms. -/
theorem Rx.atArrival_eq (rx : Rx) (l now : Nat) : rx.atArrival l now = if l + 2000 < now then .hunting else rx := by
  split
  · next h => exact rx.atArrival_of_late l now h
  · next h => exact rx.atArrival_of_inTime l now (by omega)

theorem Rx.stamp_eq (rx : Rx) (bytes : List Byte) (l now : Nat) :
    rx.stamp bytes l now = if rx = .hunting ∨ bytes = [] then l else now := by
  by_cases hr : rx = .hunting
  · simp [hr]
  · cases bytes <;> simp [Rx.stamp, hr]

/-- Bytes move the receiver, and each finished frame is taken in order. -/
theorem Part.toolBytes_eq (a : StoreArray) (bytes : List Byte) (p : Part) (rx : Rx) (rs : List RxResult)
    (h : Rx.run (if p.tlp.lastByte + 2000 < p.clock then .hunting else p.tlp.rx) bytes = (rx, rs)) :
    Part.toolBytes a bytes p = rs.foldl (Part.toolFrame a) (p.setTlp { p.tlp with
      rx := rx, lastByte := if rx = .hunting ∨ bytes = [] then p.tlp.lastByte else p.clock }) := by
  have hrec : p.tlp.receive bytes p.clock = ({ p.tlp with
      rx := rx, lastByte := if rx = .hunting ∨ bytes = [] then p.tlp.lastByte else p.clock }, rs) := by
    simp only [Tlp.receive, Rx.atArrival_eq, h, Rx.stamp_eq]
  rw [Part.toolBytes, hrec]

theorem exec_toolFrameReceived (bytes : List Byte) (s : State) (h : s.part.power = .on) :
    exec (.toolFrameReceived bytes) s = .next { s with part := Part.toolBytes s.array bytes s.part } := by
  show s.onPart (Part.toolBytes s.array bytes) = _
  simp only [State.onPart, Part.whileOn, h]

/-- A well-formed frame other than a request restarts the silence timer and is handed on (R40, R41). -/
theorem Part.toolFrame_down (a : StoreArray) (p : Part) (f : Frame) (hl : p.ctl.loading = false)
    (hk : f.kind ≠ kindMgmtReq) : Part.toolFrame a p (.wellFormed f) = p.restartSilence.takeDown f := by
  simp only [Part.toolFrame, hl, Bool.false_eq_true, if_false, if_neg hk]

theorem Part.takeDown_parked (p : Part) (f : Frame) (h : p.mgmt.parked = true) : p.takeDown f = p := if_pos h

theorem Part.takeDown_poll (p : Part) (f : Frame) (h : p.mgmt.parked = false) (hk : f.kind = kindPoll) :
    p.takeDown f = (p.takeDraw (halfAt f.payload 0).toNat).classifyDown f := by
  simp [Part.takeDown, h, hk]

theorem Part.takeDown_other (p : Part) (f : Frame) (h : p.mgmt.parked = false) (hk : f.kind ≠ kindPoll) :
    p.takeDown f = p.classifyDown f := by
  simp [Part.takeDown, h, hk]

/-! ## The draw of a POLL (R143) -/

theorem Part.takeDraw_above (p : Part) (draw : Nat) (h : p.grants.toolGrant < draw) :
    p.takeDraw draw = if p.grants.overdraw.isNone && !p.fault.causes.overdraw then
      p.setOverdraw (some (p.clock + overdrawWindow p.settings.overdrawWindow)) else p := if_pos h

theorem Part.takeDraw_within (p : Part) (draw : Nat) (h : draw ≤ p.grants.toolGrant) :
    p.takeDraw draw = (p.setOverdraw none).reportCause .overdraw { p.fault.causes with overdraw := false } :=
  if_neg (by omega)

end Sys2Proof.Machine

namespace Sys2Proof.Proofs
open Sys2Proof Sys2Proof.Machine Sys2Proof.Claims

/-- What the tool link's bytes do, by the frames they finish: the first half of O20. -/
theorem toolBytes_by_kind (s : State) (bytes : List Byte) (rx : Rx) (rs : List RxResult) (u : Tlp)
    (hon : s.part.power = .on)
    (hrun : Rx.run (if s.part.tlp.lastByte + 2000 < s.part.clock then .hunting else s.part.tlp.rx) bytes = (rx, rs))
    (hu : u = { s.part.tlp with
      rx := rx, lastByte := if rx = .hunting ∨ bytes = [] then s.part.tlp.lastByte else s.part.clock }) :
    exec (.toolFrameReceived bytes) s =
      .next { s with part := rs.foldl (Part.toolFrame s.array) (s.part.setTlp u) } := by
  rw [exec_toolFrameReceived bytes s hon, Part.toolBytes_eq _ bytes s.part rx rs hrun, hu]

/-- Settles O20. -/
theorem toolFramesAreTakenByKind : Obligations.ToolFramesAreTakenByKind := by
  refine ⟨fun s bytes rx rs u hon hrun hu => ?_, fun p draw => ⟨fun hd => ⟨fun ho hc => ?_, fun h => ?_⟩, fun hd => ?_⟩⟩
  · rw [toolBytes_by_kind s bytes rx rs u hon hrun hu]
    refine ⟨?_, fun f hl hrs hk => ?_⟩
    · rintro (rfl | rfl | ⟨hl, f, rfl⟩)
      · rfl
      · rfl
      · simp only [List.foldl, Part.toolFrame, Part.setTlp_ctl, hl, if_true]
        rfl
    · have hp : (s.part.setTlp u).restartSilence.mgmt.parked = s.part.mgmt.parked :=
        (Part.restartSilence_ordinary _).parked
      simp only [hrs, List.foldl, Part.toolFrame_down _ (s.part.setTlp u) f hl hk]
      refine ⟨(s.part.setTlp u).restartSilence, rfl, Part.restartSilence_silence _, ?_, fun h => ?_, fun h ho => ?_,
        fun h ho => ?_⟩
      · rw [Part.restartSilence, Part.reportCause_causes]
      · rw [Part.takeDown_parked _ f (hp.trans h)]
      · rw [Part.takeDown_other _ f (hp.trans h) ho]
      · rw [Part.takeDown_poll _ f (hp.trans h) ho]
  · rw [p.takeDraw_above draw hd, ho, hc]
    rfl
  · rw [p.takeDraw_above draw hd, if_neg]
    rcases h with h | h <;> simp [h]
  · rw [p.takeDraw_within draw hd]
    obtain ⟨hctl, hlinks, hengine, hgrants, -⟩ := (p.setOverdraw none).reportCause_absent_frame .overdraw
      { p.fault.causes with overdraw := false } rfl
    exact ⟨hgrants, Part.reportCause_causes _ _ _, (Part.reportCause_plain _ _ _).map, hengine, hlinks, hctl,
      fun hl hc ha => Part.reportCause_departs_conds _ .overdraw _ hl hc rfl ha,
      fun h => Part.reportCause_absent_conds _ .overdraw _ rfl h⟩

end Sys2Proof.Proofs

namespace Sys2Proof.Machine
open Sys2Proof.Claims

/-! ## Matching and the synthesized STATUS (R56, R57, R61) -/

theorem neverRelayed_eq_false_iff (k : BitVec 4) :
    neverRelayed k = false ↔ k ∉ [(3 : BitVec 4), 4, 5, 6, 8, 9, 10, 11] := by
  revert k
  decide

/-- The session states in the order of their codes (Table 1.14). -/
theorem SessState.code_of_getElem (st : SessState) (i : Nat)
    (h : [SessState.none, .identifying, .verifying, .admitted, .suspect, .refused, .withdrawn][i]? = some st) :
    st.code = i := by
  obtain ⟨hi, -⟩ := List.getElem?_eq_some_iff.mp h
  simp only [List.length_cons, List.length_nil] at hi
  interval_cases i <;> cases h <;> rfl

theorem Rule.matches_iff (r : Rule) (d : Direction) (k : BitVec 4) (n : Socket) (st : SessState) :
    r.matches d k n st = true ↔ r.direction = d ∧ (r.kind = none ∨ r.kind = some k) ∧
      k ∉ [(3 : BitVec 4), 4, 5, 6, 8, 9, 10, 11] ∧ r.socketMask.getLsbD n.val = true ∧
      r.stateMask.getLsbD st.code = true := by
  rw [← neverRelayed_eq_false_iff]
  unfold Rule.matches
  cases r.kind <;> simp [and_assoc]

/-- The flags of a synthesized STATUS: UNVERIFIED, and VACANT for a session at NONE (Table 4.4a). -/
theorem Part.synthesizedFlags_bits (p : Part) (n : Socket) :
    (∀ i, i < 4 → (p.synthesizedFlags n).getLsbD i = false) ∧ (p.synthesizedFlags n).getLsbD 4 = true ∧
      (p.synthesizedFlags n).getLsbD 5 = false ∧ (p.synthesizedFlags n).getLsbD 6 = false ∧
      ((p.synthesizedFlags n).getLsbD 7 = true ↔ (p.session n).state = .none) := by
  unfold Part.synthesizedFlags
  rw [← beq_iff_eq (a := (p.session n).state)]
  cases (p.session n).state == .none <;> decide

/-! ## The decision on a DOWN frame (R58 to R62, R65) -/

theorem find?_eq_of_first {α : Type} (q : α → Bool) (a b : List α) (x : α) (hx : q x = true)
    (ha : ∀ y ∈ a, q y = false) : (a ++ x :: b).find? q = some x := by
  rw [List.find?_append, List.find?_eq_none.mpr fun y hy => by simp [ha y hy], Option.none_or, List.find?_cons_of_pos hx]

/-- The first enabled rule that matches decides, in a LIVE table. -/
theorem Part.decidingRule_first (p : Part) (d : Direction) (k : BitVec 4) (n : Socket) (a b : List Rule) (r : Rule)
    (hlive : p.classifier.editing = false) (hr : p.classifier.rules.toList = a ++ r :: b) (he : r.enabled = true)
    (hm : r.matches d k n (p.session n).state = true)
    (ha : ∀ x ∈ a, x.enabled = true → x.matches d k n (p.session n).state = false) :
    p.decidingRule d k n = some r := by
  rw [Part.decidingRule, hlive, hr, if_neg Bool.false_ne_true]
  refine find?_eq_of_first _ a b r (by rw [he, hm]; rfl) fun x hx => ?_
  cases hen : x.enabled with
  | false => rfl
  | true => rw [ha x hx hen]; rfl

/-- No rule decides while the table is being edited, or when no enabled rule matches. -/
theorem Part.decidingRule_none (p : Part) (d : Direction) (k : BitVec 4) (n : Socket)
    (h : p.classifier.editing = true ∨ ∀ x ∈ p.classifier.rules.toList, x.enabled = true →
      x.matches d k n (p.session n).state = false) : p.decidingRule d k n = none := by
  unfold Part.decidingRule
  split
  · rfl
  · next hlive =>
    refine List.find?_eq_none.mpr fun x hx => ?_
    rw [Bool.and_eq_true]
    rintro ⟨hen, hm⟩
    rw [(h.resolve_left hlive) x hx hen] at hm
    exact Bool.false_ne_true hm

theorem Part.classifyDown_of_rule (p : Part) (f : Frame) (r : Rule) (h : p.decidingRule .down f.kind f.socket = some r) :
    (r.action = .forward → p.classifyDown f = p.pollTake f.socket f) ∧
    (r.action = .discard → p.classifyDown f = p) ∧
    (r.action = .answer → f.kind = kindPoll →
      p.classifyDown f = p.place (Lane.ofByte r.lane) (p.synthesized f.socket)) := by
  simp only [Part.classifyDown, h]
  refine ⟨fun ha => by rw [ha], fun ha => by rw [ha], fun ha hk => ?_⟩
  simp only [ha, hk, if_true]
  rfl

theorem Part.fallbackDown_eq (p : Part) (f : Frame) :
    (f.kind = kindPoll → (p.session f.socket).state.trusted = true → p.fallbackDown f = p.pollTake f.socket f) ∧
    (f.kind = kindPoll → (p.session f.socket).state.trusted = false →
      p.fallbackDown f = p.place .l1 (p.synthesized f.socket)) ∧
    (f.kind = kindPackAux → (p.session f.socket).state = .admitted → p.fallbackDown f = p.pollTake f.socket f) ∧
    (f.kind = kindPackAux → (p.session f.socket).state ≠ .admitted → p.fallbackDown f = p) ∧
    (f.kind ≠ kindPoll → f.kind ≠ kindPackAux → p.fallbackDown f = p) := by
  have hne : kindPackAux ≠ kindPoll := by decide
  refine ⟨fun hk ht => ?_, fun hk ht => ?_, fun hk ht => ?_, fun hk ht => ?_, fun h1 h2 => ?_⟩
  · simp [Part.fallbackDown, hk, ht]
  · simp [Part.fallbackDown, Part.answer, hk, ht]
  · simp [Part.fallbackDown, hk, ht, hne]
  · simp [Part.fallbackDown, hk, ht, hne]
  · simp [Part.fallbackDown, h1, h2]

end Sys2Proof.Machine

namespace Sys2Proof.Proofs
open Sys2Proof Sys2Proof.Machine Sys2Proof.Claims

/-- Settles O21: the search of R58 finds the first enabled rule that matches, or none. -/
theorem downFramesAreDecidedByTheFirstMatch : Obligations.DownFramesAreDecidedByTheFirstMatch := by
  refine ⟨fun r d k n st i hi => ?_, fun p n => ⟨_, _, rfl, fun x hx => ?_, fun hx => ?_, p.synthesizedFlags_bits n⟩,
    fun p f => ⟨fun a b r hlive hr he hm ha => ?_, fun h => ?_⟩⟩
  · rw [← SessState.code_of_getElem st i hi]
    exact r.matches_iff d k n st
  · rw [hx]
  · rw [hx]
  · exact p.classifyDown_of_rule f r (p.decidingRule_first .down f.kind f.socket a b r hlive hr he hm ha)
  · have hdown : p.classifyDown f = p.fallbackDown f := by
      rw [Part.classifyDown, p.decidingRule_none .down f.kind f.socket h]
    rw [hdown]
    exact p.fallbackDown_eq f

end Sys2Proof.Proofs

namespace Sys2Proof.Machine
open Sys2Proof.Claims

/-! ## What the queuing of jobs does to the store controller (R176) -/

/-- No job waits while none is in progress. -/
def StoreCtl.Settled (c : StoreCtl) : Prop := c.job = none → c.queue = []

/-- The store controller after some jobs have been queued: nothing but the queue has changed, no job but a watermark job has
left it, and no room for log entries has been made. -/
structure StoreCtl.Queued (c d : StoreCtl) : Prop where
  loading : d.loading = c.loading
  cursor : d.cursor = c.cursor
  firstMark : d.firstMark = c.firstMark
  logPos : d.logPos = c.logPos
  storedSettings : d.storedSettings = c.storedSettings
  storedMap : d.storedMap = c.storedMap
  jobs : ∀ j, j.isWatermark = false → j ∈ c.jobs → j ∈ d.jobs
  settled : c.Settled → d.Settled
  logs : c.Settled → c.queue.countP Job.isLog ≤ d.queue.countP Job.isLog

theorem StoreCtl.Queued.refl (c : StoreCtl) : c.Queued c :=
  ⟨rfl, rfl, rfl, rfl, rfl, rfl, fun _ _ => id, id, fun _ => le_rfl⟩

theorem StoreCtl.Queued.trans {c d e : StoreCtl} (h : c.Queued d) (k : d.Queued e) : c.Queued e :=
  ⟨k.loading.trans h.loading, k.cursor.trans h.cursor, k.firstMark.trans h.firstMark, k.logPos.trans h.logPos,
   k.storedSettings.trans h.storedSettings, k.storedMap.trans h.storedMap,
   fun j hj hm => k.jobs j hj (h.jobs j hj hm), fun hc => k.settled (h.settled hc),
   fun hc => (h.logs hc).trans (k.logs (h.settled hc))⟩

theorem StoreCtl.start_settled (c : StoreCtl) : c.start.Settled := by
  unfold StoreCtl.start
  split
  · exact fun h => absurd h (by simp)
  · next hq => exact fun _ => hq
  · next hj => exact fun h => absurd h (by simp [hj])

theorem StoreCtl.next_settled (c : StoreCtl) : c.next.Settled := StoreCtl.start_settled _

/-- Every job queued is in the queue or in progress afterwards. -/
theorem StoreCtl.append_start_jobs (c : StoreCtl) (j : Job) :
    { c with queue := c.queue ++ [j] }.start.jobs = c.jobs ++ [j] := by
  rw [StoreCtl.start_jobs]
  simp [StoreCtl.jobs]

theorem StoreCtl.append_queued (c : StoreCtl) (j : Job) : c.Queued { c with queue := c.queue ++ [j] }.start where
  loading := StoreCtl.start_loading _
  cursor := by unfold StoreCtl.start; split <;> rfl
  firstMark := by unfold StoreCtl.start; split <;> rfl
  logPos := StoreCtl.start_logPos _
  storedSettings := StoreCtl.start_storedSettings _
  storedMap := StoreCtl.start_storedMap _
  jobs k _ hk := by rw [StoreCtl.append_start_jobs]; exact List.mem_append_left _ hk
  settled _ := StoreCtl.start_settled _
  logs h := by
    cases hj : c.job with
    | none => simp [h hj]
    | some k => simp [StoreCtl.start]

theorem mem_replaceWatermark (v : Word) (q : List Job) (j : Job) (h : j.isWatermark = false) (hj : j ∈ q) :
    j ∈ replaceWatermark v q := by
  induction q with
  | nil => exact hj
  | cons k q ih =>
    rcases List.mem_cons.mp hj with rfl | hq
    · cases j with
      | log e => exact List.mem_cons_self ..
      | table t => exact List.mem_cons_self ..
      | watermark w => exact absurd h (by simp [Job.isWatermark])
    · cases k with
      | log e => exact List.mem_cons_of_mem _ (ih hq)
      | table t => exact List.mem_cons_of_mem _ (ih hq)
      | watermark w => exact List.mem_cons_of_mem _ hq

theorem StoreCtl.replaceWatermark_queued (c : StoreCtl) (v : Word) :
    c.Queued { c with queue := replaceWatermark v c.queue } where
  loading := rfl
  cursor := rfl
  firstMark := rfl
  logPos := rfl
  storedSettings := rfl
  storedMap := rfl
  jobs j h hj := by
    simp only [StoreCtl.jobs, List.mem_append] at hj ⊢
    exact hj.imp_right (mem_replaceWatermark v c.queue j h)
  settled h hn := by
    have hq : c.queue = [] := h hn
    simp only [hq, replaceWatermark]
  logs _ := (replaceWatermark_countP v c.queue).2.ge

/-! ## Actions on some of the sockets -/

theorem JobFrame.refl (p : Part) : JobFrame p p := ⟨rfl, rfl, rfl, rfl, rfl, rfl, rfl, rfl, rfl, rfl⟩

theorem JobFrame.trans {p q r : Part} (h : JobFrame p q) (k : JobFrame q r) : JobFrame p r := by
  unfold JobFrame at *
  simp_all

/-- What an action of the part on the sockets in `S` leaves alone: what no job's end changes (`JobFrame`), the trust tables,
a running request, a response on its way, the jobs, the links' states and error counts, and of the sockets outside `S` the
session, the link, and the grant of 0 of a session that is not trusted. -/
structure Part.Local (S : Set Socket) (p q : Part) : Prop where
  frame : JobFrame p q
  trust : q.trust = p.trust
  ctl : p.ctl.Queued q.ctl
  running : ∀ code, Running p code → Running q code
  carries : ∀ f, Carries p f → Carries q f
  state : ∀ m, (q.link m).state = (p.link m).state
  errors : ∀ m, (q.link m).errors = (p.link m).errors
  sessions : ∀ m, m ∉ S → q.session m = p.session m
  links : ∀ m, m ∉ S → q.link m = p.link m
  idle : ∀ m, m ∉ S → (p.session m).state.trusted = false → p.grants.grant.get m = 0 → q.grants.grant.get m = 0

section
variable {S : Set Socket}

theorem Part.Local.refl (p : Part) : p.Local S p :=
  ⟨JobFrame.refl p, rfl, .refl _, fun _ => id, fun _ => id, fun _ => rfl, fun _ => rfl, fun _ _ => rfl, fun _ _ => rfl,
   fun _ _ _ => id⟩

theorem Part.Local.trans {p q r : Part} (h : p.Local S q) (k : q.Local S r) : p.Local S r :=
  ⟨JobFrame.trans h.frame k.frame, k.trust.trans h.trust, h.ctl.trans k.ctl, fun c hc => k.running c (h.running c hc),
   fun f hf => k.carries f (h.carries f hf), fun m => (k.state m).trans (h.state m),
   fun m => (k.errors m).trans (h.errors m), fun m hm => (k.sessions m hm).trans (h.sessions m hm),
   fun m hm => (k.links m hm).trans (h.links m hm),
   fun m hm ht h0 => k.idle m hm (by rw [h.sessions m hm]; exact ht) (h.idle m hm ht h0)⟩

/-! ### Single replacements -/

theorem Part.setSession_local (p : Part) (n : Socket) (x : Session) (hn : n ∈ S) : p.Local S (p.setSession n x) where
  __ := Part.Local.refl (S := S) p
  sessions m hm := by rw [Part.setSession_session, if_neg (ne_of_mem_of_not_mem hn hm).symm]

theorem Part.setLink_local (p : Part) (n : Socket) (x : Link) (hn : n ∈ S) (hs : x.state = (p.link n).state)
    (he : x.errors = (p.link n).errors) : p.Local S (p.setLink n x) where
  __ := Part.Local.refl (S := S) p
  state m := by
    rw [Part.setLink_link]
    split
    · next h => rw [h, hs]
    · rfl
  errors m := by
    rw [Part.setLink_link]
    split
    · next h => rw [h, he]
    · rfl
  links m hm := by rw [Part.setLink_link, if_neg (ne_of_mem_of_not_mem hn hm).symm]

theorem Part.setAudit_local (p : Part) (x : Option Audit) : p.Local S (p.setAudit x) where
  __ := Part.Local.refl (S := S) p

theorem Part.setRecent_local (p : Part) (x : List (Word × Nat)) : p.Local S (p.setRecent x) where
  __ := Part.Local.refl (S := S) p

theorem Part.setProof_local (p : Part) (x : ProofUnit) : p.Local S (p.setProof x) where
  __ := Part.Local.refl (S := S) p

theorem Part.setClassifier_local (p : Part) (x : Classifier) : p.Local S (p.setClassifier x) where
  __ := Part.Local.refl (S := S) p

theorem Part.setFault_local (p : Part) (x : FaultUnit) (h : x.map = p.fault.map) : p.Local S (p.setFault x) where
  __ := Part.Local.refl (S := S) p
  frame := ⟨rfl, rfl, rfl, rfl, rfl, h, rfl, rfl, rfl, rfl⟩

theorem Part.setGrants_local (p : Part) (x : Grants)
    (h : ∀ m, (p.session m).state.trusted = false → p.grants.grant.get m = 0 → x.grant.get m = 0) :
    p.Local S (p.setGrants x) where
  __ := Part.Local.refl (S := S) p
  idle m _ := h m

theorem Part.setCtl_local (p : Part) (x : StoreCtl) (h : p.ctl.Queued x) : p.Local S (p.setCtl x) where
  __ := Part.Local.refl (S := S) p
  frame := ⟨rfl, rfl, rfl, rfl, rfl, rfl, rfl, rfl, h.loading, h.cursor⟩
  ctl := h

theorem Part.setTlp_local (p : Part) (x : Tlp) (h1 : x.response = p.tlp.response) (h2 : x.sending = p.tlp.sending) :
    p.Local S (p.setTlp x) where
  __ := Part.Local.refl (S := S) p
  carries f := by
    unfold Carries
    rw [Part.setTlp_tlp, h1, h2]
    exact id

/-! ### The tool link and the store job queue -/

/-- An idle transmitter's choice ends the flight of a waiting request alone, whose response it takes (R49, R162). -/
theorem Part.transmit_local (p : Part) : p.Local S p.transmit := by
  unfold Part.transmit
  split
  · exact .refl p
  next hs =>
  split
  · next f hf =>
    refine { Part.Local.refl (S := S) p with running := ?_, carries := ?_ }
    · rintro code ⟨r, hr, hc, hp⟩
      exact ⟨r, by simp [endFlight, hr, hp], hc, hp⟩
    · rintro g (hg | hg)
      · exact .inr (hf.symm.trans hg)
      · exact absurd (hs.symm.trans hg) (by simp)
  · next hr =>
    have hnone (f : Frame) : ¬ Carries p f := by rintro (h | h) <;> simp_all
    split
    · exact { Part.Local.refl (S := S) p with carries := fun g hg => absurd hg (hnone g) }
    · exact { Part.Local.refl (S := S) p with carries := fun g hg => absurd hg (hnone g) }
    · exact { Part.Local.refl (S := S) p with carries := fun g hg => absurd hg (hnone g) }
    · exact .refl p

theorem Part.place_local (p : Part) (k : Lane) (f : Frame) : p.Local S (p.place k f) := by
  refine Part.Local.trans (p.setTlp_local _ ?_ ?_) (Part.transmit_local _)
  · cases k <;> rfl
  · cases k <;> rfl

theorem Part.sendAggregate_local (p : Part) : p.Local S p.sendAggregate :=
  (p.setTlp_local _ (by rfl) (by rfl)).trans (Part.place_local _ _ _)

theorem Part.queueJob_local (p : Part) (j : Job) : p.Local S (p.queueJob j) :=
  p.setCtl_local _ (p.ctl.append_queued j)

theorem Part.log_local (p : Part) (e : LogEntry) : p.Local S (p.log e) := by
  unfold Part.log
  split
  · exact p.queueJob_local _
  · exact .refl p

/-! ### The fault unit -/

theorem Part.evalPermits_local (p : Part) : p.Local S p.evalPermits := p.setFault_local _ rfl

theorem Part.changeCond_local (p : Part) (c : Cond) (st : CondState) : p.Local S (p.changeCond c st) := by
  unfold Part.changeCond Part.adviseCond
  have hset : p.Local S (p.setCond c st) := (p.setFault_local _ (by rfl)).trans (Part.evalPermits_local _)
  split
  · exact hset.trans (Part.place_local _ _ _)
  · exact hset

theorem Part.raiseCond_local (p : Part) (c : Cond) : p.Local S (p.raiseCond c) :=
  (p.changeCond_local c _).trans (Part.log_local _ _)

theorem Part.clearCond_local (p : Part) (c : Cond) : p.Local S (p.clearCond c) := by
  unfold Part.clearCond
  split
  · exact p.changeCond_local c _
  · exact .refl p
  · exact .refl p

theorem Part.recordCauses_local (p : Part) (k : Causes) : p.Local S (p.recordCauses k) := p.setFault_local _ rfl

theorem Part.reportCause_local (p : Part) (c : Cond) (k : Causes) : p.Local S (p.reportCause c k) := by
  unfold Part.reportCause
  repeat' split
  · exact p.recordCauses_local k
  · exact (p.recordCauses_local k).trans (Part.raiseCond_local _ c)
  · exact (p.recordCauses_local k).trans (Part.clearCond_local _ c)
  · exact p.recordCauses_local k
  · exact p.recordCauses_local k

theorem Part.momentary_local (p : Part) (c : Cond) : p.Local S (p.momentary c) := by
  unfold Part.momentary
  repeat' split
  · exact Part.log_local _ _
  · exact (p.changeCond_local c _).trans (Part.log_local _ _)
  · exact (p.changeCond_local c _).trans (Part.log_local _ _)
  · exact (p.raiseCond_local c).trans (Part.changeCond_local _ c _)

/-! ### The grant calculator and the proof unit -/

/-- A session that is not trusted has a grant of 0 (R134). -/
theorem Part.grantOf_of_untrusted (p : Part) (n : Socket) (h : (p.session n).state.trusted = false) :
    p.grantOf n = 0 := by
  unfold Part.grantOf
  split <;> simp [h]

theorem Part.computeGrants_grant (p : Part) (n : Socket) : p.computeGrants.grant.get n = p.grantOf n :=
  PerSocket.get_ofFn _ n

theorem Part.noteDecrease_local (p : Part) : p.Local S p.noteDecrease := by
  unfold Part.noteDecrease
  dsimp only
  split
  · exact p.sendAggregate_local.trans (Part.setGrants_local _ _ fun _ _ => id)
  · exact p.setGrants_local _ fun _ _ => id

theorem Part.recompute_local (p : Part) : p.Local S p.recompute := by
  have hgrants : p.Local S (p.setGrants p.computeGrants) := p.setGrants_local _ fun m hm _ => by
    rw [p.computeGrants_grant, p.grantOf_of_untrusted m hm]
  exact ((hgrants.trans (Part.reportCause_local _ _ _)).trans (Part.evalPermits_local _)).trans
    (Part.noteDecrease_local _)

theorem Part.queueWatermark_local (p : Part) (v : Word) : p.Local S (p.queueWatermark v) := by
  unfold Part.queueWatermark
  repeat' split
  · exact .refl p
  · exact p.setCtl_local _ (p.ctl.replaceWatermark_queued v)
  · exact p.queueJob_local _

theorem Part.renewalTest_local (p : Part) : p.Local S p.renewalTest := by
  unfold Part.renewalTest
  repeat' split
  · exact (p.setProof_local _).trans (Part.queueWatermark_local _ _)
  · exact p.queueJob_local _
  · exact .refl p

theorem Part.draw_local (p : Part) : p.Local S p.draw :=
  ((p.setProof_local _).trans (Part.renewalTest_local _)).trans (Part.reportCause_local _ _ _)

/-! ### The engine's actions on socket n -/

theorem Part.auditResult_local (p : Part) (n : Socket) (o : AuditOutcome) : p.Local S (p.auditResult n o) := by
  unfold Part.auditResult
  repeat' split
  · exact .refl p
  · exact p.setAudit_local _
  · exact .refl p

theorem Part.reportSession_local (p : Part) (n : Socket) : p.Local S (p.reportSession n) :=
  (p.place_local _ _).trans (Part.recompute_local _)

theorem Part.setMarks_local (p : Part) (n : Socket) (m : Marks) (hn : n ∈ S) : p.Local S (p.setMarks n m) := by
  unfold Part.setMarks
  split
  · exact .refl p
  · exact (p.setSession_local n _ hn).trans (Part.recompute_local _)

theorem Link.passOver_health (l : Link) : l.passOver.state = l.state ∧ l.passOver.errors = l.errors := by
  unfold Link.passOver
  repeat' split
  all_goals exact ⟨rfl, rfl⟩

theorem Part.discardChallenge_local (p : Part) (n : Socket) (hn : n ∈ S) : p.Local S (p.discardChallenge n) := by
  unfold Part.discardChallenge
  split
  · exact .refl p
  · dsimp only
    split
    · exact ((p.setSession_local n _ hn).trans (Part.setLink_local _ n _ hn (by rfl) (by rfl))).trans (Part.setProof_local _ _)
    · exact (p.setSession_local n _ hn).trans
        (Part.setLink_local _ n _ hn (Link.passOver_health _).1 (Link.passOver_health _).2)

theorem Part.countReason_local (p : Part) (r : Reason) (x : Option Word) : p.Local S (p.countReason r x) := by
  unfold Part.countReason
  split
  · exact p.setRecent_local _
  · exact .refl p
  · exact .refl p

theorem Part.refuse_local (p : Part) (n : Socket) (r : Reason) (hn : n ∈ S) : p.Local S (p.refuse n r) :=
  (((((p.discardChallenge_local n hn).trans (Part.setSession_local _ n _ hn)).trans
    (Part.auditResult_local _ n _)).trans (Part.log_local _ _)).trans (Part.countReason_local _ _ _)).trans
    (Part.reportSession_local _ n)

theorem Part.withdraw_local (p : Part) (n : Socket) (hn : n ∈ S) : p.Local S (p.withdraw n) :=
  ((((p.discardChallenge_local n hn).trans (Part.setSession_local _ n _ hn)).trans
    (Part.auditResult_local _ n _)).trans (Part.log_local _ _)).trans (Part.reportSession_local _ n)

theorem Part.markSent_local (p : Part) (n : Socket) (x : Nonce) (hn : n ∈ S) : p.Local S (p.markSent n x) := by
  unfold Part.markSent
  split
  · exact .refl p
  · exact p.setSession_local n _ hn

theorem Part.startChallenge_local (p : Part) (n : Socket) (hn : n ∈ S) : p.Local S (p.startChallenge n) :=
  (p.draw_local.trans (Part.markSent_local _ n _ hn)).trans (Part.setLink_local _ n _ hn (by rfl) (by rfl))

theorem Part.tryStart_local (p : Part) (n : Socket) (hn : n ∈ S) : p.Local S (p.tryStart n) := by
  unfold Part.tryStart
  repeat' split
  · exact p.setLink_local n _ hn (by rfl) (by rfl)
  · exact p.startChallenge_local n hn
  · exact p.setLink_local n _ hn (by rfl) (by rfl)
  · exact .refl p
  · exact .refl p

theorem Part.placeChallenge_local (p : Part) (n : Socket) (why : Purpose) (hn : n ∈ S) :
    p.Local S (p.placeChallenge n why) :=
  ((p.setLink_local n _ hn (by rfl) (by rfl)).trans (Part.setSession_local _ n _ hn)).trans (Part.tryStart_local _ n hn)

theorem Part.bindKey_local (p : Part) (n : Socket) (k : Fin 16) (hn : n ∈ S) : p.Local S (p.bindKey n k) :=
  (p.setSession_local n _ hn).trans (Part.setMarks_local _ n _ hn)

theorem Part.issueChallenge_local (p : Part) (n : Socket) (why : Purpose) (hn : n ∈ S) :
    p.Local S (p.issueChallenge n why) := by
  unfold Part.issueChallenge Part.reserveAndPlace
  repeat' split
  · exact .refl p
  · exact p.refuse_local n _ hn
  · exact ((p.bindKey_local n _ hn).trans (Part.setProof_local _ _)).trans (Part.placeChallenge_local _ n why hn)
  · exact (p.bindKey_local n _ hn).trans (Part.refuse_local _ n _ hn)

theorem Part.recheckNow_local (p : Part) (n : Socket) (hn : n ∈ S) : p.Local S (p.recheckNow n) := by
  unfold Part.recheckNow
  split
  · exact p.issueChallenge_local n _ hn
  · exact .refl p

theorem Part.relookup_local (p : Part) (n : Socket) (hn : n ∈ S) : p.Local S (p.relookup n) := by
  unfold Part.relookup
  dsimp only
  split
  · exact p.issueChallenge_local n _ hn
  · exact (p.discardChallenge_local n hn).trans (Part.issueChallenge_local _ n _ hn)
  · exact .refl p

/-- An order concerns its socket (R92). -/
theorem Part.order_local (p : Part) (n : Socket) (o : Order) (hn : n ∈ S) : p.Local S (p.order n o) := by
  unfold Part.order
  repeat' split
  · exact p.relookup_local n hn
  · exact p.refuse_local n _ hn
  · exact p.withdraw_local n hn
  · exact p.setMarks_local n _ hn
  · exact .refl p

end

/-! ## One action for every socket -/

/-- The actions on a list of sockets in turn. -/
def onSockets (f : Socket → Part → Part) (l : List Socket) (p : Part) : Part := l.foldl (fun q n => f n q) p

/-- Every socket's turn comes between those of at most three others. -/
theorem forSockets_split (f : Socket → Part → Part) (p : Part) (n : Socket) :
    ∃ before after, n ∉ before ∧ n ∉ after ∧ before.length ≤ 3 ∧
      forSockets f p = onSockets f after (f n (onSockets f before p)) := by
  match n with
  | 0 => exact ⟨[], [1, 2, 3], by decide, by decide, by decide, rfl⟩
  | 1 => exact ⟨[0], [2, 3], by decide, by decide, by decide, rfl⟩
  | 2 => exact ⟨[0, 1], [3], by decide, by decide, by decide, rfl⟩
  | 3 => exact ⟨[0, 1, 2], [], by decide, by decide, by decide, rfl⟩

theorem onSockets_local {S : Set Socket} (f : Socket → Part → Part) (l : List Socket) (p : Part)
    (h : ∀ m ∈ l, ∀ q, Part.Local S q (f m q)) : p.Local S (onSockets f l p) := by
  induction l generalizing p with
  | nil => exact .refl p
  | cons m l ih =>
    exact (h m (List.mem_cons_self ..) p).trans (ih (f m p) fun k hk => h k (List.mem_cons_of_mem _ hk))

/-- An action for every socket is one for socket n, between actions on the others. -/
theorem forSockets_at (f : Socket → Part → Part) (hf : ∀ m q (S : Set Socket), m ∈ S → Part.Local S q (f m q)) (p : Part)
    (n : Socket) : ∃ q, p.Local {n}ᶜ q ∧ (f n q).Local {n}ᶜ (forSockets f p) := by
  obtain ⟨before, after, hb, ha, -, heq⟩ := forSockets_split f p n
  refine ⟨onSockets f before p, ?_, ?_⟩
  · exact onSockets_local f before p fun m hm q => hf m q _ (ne_of_mem_of_not_mem hm hb)
  · rw [heq]
    exact onSockets_local f after _ fun m hm q => hf m q _ (ne_of_mem_of_not_mem hm ha)

theorem forSockets_local {S : Set Socket} (f : Socket → Part → Part) (hf : ∀ m q, Part.Local S q (f m q)) (p : Part) :
    p.Local S (forSockets f p) := onSockets_local f allSockets p fun m _ q => hf m q

end Sys2Proof.Machine

namespace Sys2Proof.Machine
open Sys2Proof.Claims

/-! ## What the fault unit's actions leave alone -/

/-- Nothing but the fault unit, the tool link, the request in flight and the job queue has changed. -/
structure Part.SameUnits (p q : Part) : Prop where
  links : q.links = p.links
  classifier : q.classifier = p.classifier
  engine : q.engine = p.engine
  proof : q.proof = p.proof
  trust : q.trust = p.trust
  grants : q.grants = p.grants

theorem Part.SameUnits.refl (p : Part) : p.SameUnits p := ⟨rfl, rfl, rfl, rfl, rfl, rfl⟩

theorem Part.SameUnits.trans {p q r : Part} (h : p.SameUnits q) (k : q.SameUnits r) : p.SameUnits r :=
  ⟨k.links.trans h.links, k.classifier.trans h.classifier, k.engine.trans h.engine, k.proof.trans h.proof,
   k.trust.trans h.trust, k.grants.trans h.grants⟩

theorem Part.SameUnits.session {p q : Part} (h : p.SameUnits q) (n : Socket) : q.session n = p.session n := by
  unfold Part.session
  rw [h.engine]

theorem Part.place_units (p : Part) (k : Lane) (f : Frame) : p.SameUnits (p.place k f) :=
  ⟨p.place_links k f, p.place_classifier k f, p.place_engine k f, p.place_proof k f, p.place_trust k f,
   p.place_grants k f⟩

theorem Part.log_units (p : Part) (e : LogEntry) : p.SameUnits (p.log e) :=
  ⟨p.log_links e, p.log_classifier e, p.log_engine e, p.log_proof e, p.log_trust e, p.log_grants e⟩

theorem Part.complete_units (p : Part) (code : Byte) (o : ReqOutcome) (ws : List Word) :
    p.SameUnits (p.complete code o ws) :=
  ⟨p.complete_links code o ws, p.complete_classifier code o ws, p.complete_engine code o ws, p.complete_proof code o ws,
   p.complete_trust code o ws, p.complete_grants code o ws⟩

theorem Part.changeCond_units (p : Part) (c : Cond) (st : CondState) : p.SameUnits (p.changeCond c st) := by
  have hset : p.SameUnits (p.setCond c st) := ⟨rfl, rfl, rfl, rfl, rfl, rfl⟩
  unfold Part.changeCond Part.adviseCond
  split
  · exact hset.trans (Part.place_units _ _ _)
  · exact hset

theorem Part.raiseCond_units (p : Part) (c : Cond) : p.SameUnits (p.raiseCond c) :=
  (p.changeCond_units c .active).trans (Part.log_units _ _)

theorem Part.clearCond_units (p : Part) (c : Cond) : p.SameUnits (p.clearCond c) := by
  unfold Part.clearCond
  split
  · exact p.changeCond_units c _
  · exact .refl p
  · exact .refl p

theorem Part.reportCause_units (p : Part) (c : Cond) (k : Causes) : p.SameUnits (p.reportCause c k) := by
  have hk : p.SameUnits (p.recordCauses k) := ⟨rfl, rfl, rfl, rfl, rfl, rfl⟩
  unfold Part.reportCause
  repeat' split
  · exact hk
  · exact hk.trans (Part.raiseCond_units _ c)
  · exact hk.trans (Part.clearCond_units _ c)
  · exact hk
  · exact hk

/-! ## The response to a request in flight -/

theorem Part.running_iff (p : Part) (code : Byte) : p.running code = true ↔ Running p code := by
  unfold Part.running Running
  cases p.mgmt.request with
  | none => simp
  | some q => cases hq : q.phase <;> simp [hq]

/-- The response placed stands in the response slot or is sent at once (R48, R49). -/
theorem Part.respond_carries (p : Part) (code : Byte) (o : ReqOutcome) (ws : List Word) :
    Carries (p.respond code o ws) (response code o ws) := by
  rw [Part.respond_eq_answered]
  unfold answered
  split
  · exact .inr rfl
  · exact .inl rfl

theorem Part.complete_carries (p : Part) (code : Byte) (o : ReqOutcome) (ws : List Word) (h : Running p code) :
    Carries (p.complete code o ws) (response code o ws) := by
  rw [Part.complete, if_pos ((p.running_iff code).mpr h)]
  exact p.respond_carries code o ws

theorem Part.complete_frame (p : Part) (code : Byte) (o : ReqOutcome) (ws : List Word) :
    JobFrame p (p.complete code o ws) := by
  unfold Part.complete
  split
  · rw [Part.respond_eq_answered]
    unfold answered
    split <;> exact ⟨rfl, rfl, rfl, rfl, rfl, rfl, rfl, rfl, rfl, rfl⟩
  · exact JobFrame.refl p

/-! ## Log entries (R176) -/

theorem Part.log_logged (p : Part) (e : LogEntry) (h : LogRoom p) : Logged (p.log e) e := by
  have hlog : p.log e = p.queueJob (.log e) := if_pos h
  rw [hlog]
  show _ ∈ StoreCtl.jobs _
  rw [Part.queueJob, Part.setCtl_ctl, StoreCtl.append_start_jobs]
  exact List.mem_append_right _ (List.mem_singleton_self _)

/-- An entry for which there is room afterwards has been taken. -/
theorem Part.log_logged_of_room (p : Part) (e : LogEntry) (h : LogRoom (p.log e)) : Logged (p.log e) e := by
  by_cases hp : LogRoom p
  · exact p.log_logged e hp
  · have hlog : p.log e = p := if_neg hp
    rw [hlog] at h
    exact absurd h hp

/-- It stands among the jobs after everything that has been queued since, when there is still room then. -/
theorem Part.logged_of_queued (p q : Part) (e : LogEntry) (hs : p.ctl.Settled) (h : (p.log e).ctl.Queued q.ctl)
    (hroom : LogRoom q) : Logged q e :=
  h.jobs _ rfl (p.log_logged_of_room e
    (lt_of_le_of_lt (h.logs ((p.log_local (S := ∅) e).ctl.settled hs)) hroom))

/-! ## The end of a job (R176) -/

/-- The part as the owner of a finished job finds it: the controller has gone on to the next job. -/
def Part.released (p : Part) (a : StoreArray) (j : Job) (r : JobEnd) : Part := p.setCtl (p.ctl.keep a j r).next

/-- The part after the owner of a finished job has acted: the STORE cause reported, a waiting PARK or RESET told. -/
def Part.finished (p : Part) (ok : Bool) : Part := (p.reportStore ok).countDown ok

theorem Part.jobEnded_eq (p : Part) (a : StoreArray) (j : Job) (r : JobEnd) (own : Bool → Part → Part) :
    p.jobEnded a j r own = (own (jobOk r) (p.released a j r)).finished (jobOk r) := rfl

theorem StoreCtl.keep_cursor (c : StoreCtl) (a : StoreArray) (j : Job) (r : JobEnd) : (c.keep a j r).cursor = c.cursor := by
  unfold StoreCtl.keep
  dsimp only
  repeat' split
  all_goals rfl

/-- Going on to the next job keeps what the controller holds besides its jobs. -/
theorem StoreCtl.next_fields (c : StoreCtl) :
    c.next.loading = c.loading ∧ c.next.cursor = c.cursor ∧ c.next.firstMark = c.firstMark ∧ c.next.logPos = c.logPos ∧
      c.next.storedSettings = c.storedSettings ∧ c.next.storedMap = c.storedMap := by
  unfold StoreCtl.next StoreCtl.start
  split <;> exact ⟨rfl, rfl, rfl, rfl, rfl, rfl⟩

theorem Part.released_frame (p : Part) (a : StoreArray) (j : Job) (r : JobEnd) : JobFrame p (p.released a j r) := by
  obtain ⟨hloading, hcursor, -⟩ := (p.ctl.keep a j r).next_fields
  exact ⟨rfl, rfl, rfl, rfl, rfl, rfl, rfl, rfl, hloading.trans (p.ctl.keep_queue a j r).2.1,
    hcursor.trans (p.ctl.keep_cursor a j r)⟩

theorem Part.released_settled (p : Part) (a : StoreArray) (j : Job) (r : JobEnd) : (p.released a j r).ctl.Settled :=
  StoreCtl.next_settled _

theorem Part.countDown_local {S : Set Socket} (p : Part) (ok : Bool) : p.Local S (p.countDown ok) where
  __ := Part.Local.refl (S := S) p
  running code h := by
    obtain ⟨q, hq, hc, hp⟩ := h
    refine ⟨q.countDown ok, by simp [Part.countDown, hq], ?_, ?_⟩
    · unfold Request.countDown
      split <;> exact hc
    · unfold Request.countDown
      split <;> exact hp

theorem Part.finished_local {S : Set Socket} (p : Part) (ok : Bool) : p.Local S (p.finished ok) :=
  (p.reportCause_local _ _).trans (Part.countDown_local _ ok)

theorem Part.finished_units (p : Part) (ok : Bool) : p.SameUnits (p.finished ok) :=
  (p.reportCause_units _ _).trans ⟨rfl, rfl, rfl, rfl, rfl, rfl⟩

/-- The STORE cause says how the job ended; the other causes are as the owner left them. -/
theorem Part.finished_causes (p : Part) (ok : Bool) :
    (p.finished ok).fault.causes = { p.fault.causes with store := !ok } := Part.reportCause_causes _ _ _

/-- What every end of a job has in common, for a job whose owner keeps the frame of a job's end. -/
theorem jobEnded_of (c : JobEnd → Instr) (s : State) (j : Job) (own : Job → Option (Bool → Part → Part))
    (f : Bool → Part → Part) (P : JobEnd → State → Prop) (hexec : ∀ r, exec (c r) s = s.endJob r own)
    (hown : own j = some f) (hframe : ∀ ok p, JobFrame p (f ok p))
    (h : ∀ r, P r { s with
      part := s.part.jobEnded s.array j r f, array := applySteps s.array (j.taken (j.steps s.part s.array) r) }) :
    JobEnded c s j P := by
  intro hon hj r
  refine ⟨_, ?_, rfl, ?_, ?_, h r⟩
  · rw [hexec]
    simp only [State.endJob, hon, hj, hown]
  · exact JobFrame.trans (JobFrame.trans (s.part.released_frame s.array j r) (hframe _ _))
      (Part.finished_local (S := ∅) _ _).frame
  · show (Part.jobEnded _ _ _ _ _).fault.causes.store = _
    rw [Part.jobEnded_eq, Part.finished_causes]

theorem jobOk_of_ne {r : JobEnd} (h : r ≠ .success) : jobOk r = false := by
  cases r with
  | success => exact absurd rfl h
  | failedAt i => rfl

/-- A failed job whose owner answers STORE_FAULT (R113). -/
theorem jobFailed_of (s : State) (j : Job) (r : JobEnd) (f : Bool → Part → Part) (code : Byte) (a : StoreArray)
    (hf : ∀ p, f false p = p.complete code .storeFault []) (hr : r ≠ .success) :
    JobFailed code s { s with part := s.part.jobEnded s.array j r f, array := a } := by
  have hu : (s.part.released s.array j r).SameUnits
      (((s.part.released s.array j r).complete code .storeFault []).finished false) :=
    (Part.complete_units _ _ _ _).trans (Part.finished_units _ _)
  unfold JobFailed
  dsimp only
  rw [Part.jobEnded_eq, jobOk_of_ne hr, hf, Part.finished_causes, Part.complete_fault]
  exact ⟨hu.trust, hu.engine, hu.links, hu.classifier, hu.proof, hu.grants, rfl, fun h =>
    (Part.finished_local (S := ∅) _ _).carries _ (Part.complete_carries _ _ _ _ h)⟩

/-- The end of a table job: what its owner does on a success, and STORE_FAULT on a failure. -/
theorem tableJobEnded_of (c : JobEnd → Instr) (s : State) (j : Job) (own : Job → Option (Bool → Part → Part))
    (f : Bool → Part → Part) (code : Byte) (Q : State → Prop) (hexec : ∀ r, exec (c r) s = s.endJob r own)
    (hown : own j = some f) (hfail : ∀ p, f false p = p.complete code .storeFault [])
    (hframe : ∀ p, JobFrame p (f true p))
    (h : ∀ a, Q { s with part := (f true (s.part.released s.array j .success)).finished true, array := a }) :
    JobEnded c s j fun r t => (r = .success → Q t) ∧ (r ≠ .success → JobFailed code s t) := by
  refine jobEnded_of c s j own f _ hexec hown (fun ok p => ?_) fun r =>
    ⟨fun hr => ?_, jobFailed_of s j r f code _ hfail⟩
  · cases ok with
    | false => rw [hfail]; exact p.complete_frame _ _ _
    | true => exact hframe p
  · subst hr
    exact h _

/-- How an owner answers a success: a TABLE_CHANGE entry, then the response, then the reports of the job's end. -/
def Part.succeed (p : Part) (e : LogEntry) (code : Byte) (ws : List Word) : Part :=
  ((p.log e).complete code .done ws).finished true

theorem Part.succeed_units (p : Part) (e : LogEntry) (code : Byte) (ws : List Word) :
    p.SameUnits (p.succeed e code ws) :=
  ((p.log_units e).trans (Part.complete_units _ code _ ws)).trans (Part.finished_units _ _)

theorem Part.succeed_causes (p : Part) (e : LogEntry) (code : Byte) (ws : List Word) :
    (p.succeed e code ws).fault.causes = { p.fault.causes with store := false } := by
  rw [Part.succeed, Part.finished_causes, Part.complete_fault, Part.log_fault]
  rfl

theorem Part.succeed_queued (p : Part) (e : LogEntry) (code : Byte) (ws : List Word) :
    (p.log e).ctl.Queued (p.succeed e code ws).ctl := by
  have h := (Part.finished_local (S := ∅) ((p.log e).complete code .done ws) true).ctl
  rwa [Part.complete_ctl] at h

/-- The entry is logged when there is room for it at the end. -/
theorem Part.succeed_logged (p : Part) (e : LogEntry) (code : Byte) (ws : List Word) (hs : p.ctl.Settled)
    (h : LogRoom (p.succeed e code ws)) : Logged (p.succeed e code ws) e :=
  p.logged_of_queued _ e hs (p.succeed_queued e code ws) h

theorem Part.succeed_carries (p : Part) (e : LogEntry) (code : Byte) (ws : List Word) (h : Running p code) :
    Carries (p.succeed e code ws) (response code .done ws) :=
  (Part.finished_local (S := ∅) _ _).carries _
    (Part.complete_carries _ _ _ _ ((p.log_local (S := ∅) e).running code h))

theorem Part.logComplete_frame (p : Part) (e : LogEntry) (code : Byte) (ws : List Word) :
    JobFrame p ((p.log e).complete code .done ws) :=
  JobFrame.trans (p.log_local (S := ∅) e).frame (Part.complete_frame _ code _ ws)

/-! ## What an order makes of its session (R79, R85, R86, R92) -/

/-- An action on no socket keeps every session. -/
theorem Part.Local.session_eq {p q : Part} (h : p.Local ∅ q) (n : Socket) : q.session n = p.session n :=
  h.sessions n (Set.notMem_empty n)

theorem Part.discardChallenge_session (p : Part) (n : Socket) :
    (p.discardChallenge n).session n = { p.session n with challenge := none } := by
  unfold Part.discardChallenge
  split
  · next h => rw [← h]
  · dsimp only
    split
    · exact Part.setSession_session_self p n _
    · exact Part.setSession_session_self p n _

/-- A refusal's record (R85). -/
theorem Part.refuse_session (p : Part) (n : Socket) (r : Reason) :
    (p.refuse n r).session n =
      { p.session n with state := .refused, reason := some r, challenge := none, recheck := none } := by
  unfold Part.refuse
  dsimp only
  rw [(Part.reportSession_local _ n).session_eq, (Part.countReason_local _ _ _).session_eq,
    (Part.log_local _ _).session_eq, (Part.auditResult_local _ n _).session_eq, Part.setSession_session_self,
    Part.discardChallenge_session]

/-- A withdrawal's record (R86). -/
theorem Part.withdraw_session (p : Part) (n : Socket) :
    (p.withdraw n).session n =
      { p.session n with state := .withdrawn, reason := some .withdrawn, challenge := none, recheck := none } := by
  unfold Part.withdraw
  dsimp only
  rw [(Part.reportSession_local _ n).session_eq, (Part.log_local _ _).session_eq,
    (Part.auditResult_local _ n _).session_eq, Part.setSession_session_self, Part.discardChallenge_session]

theorem Part.setMarks_session (p : Part) (n : Socket) (m : Marks) :
    (p.setMarks n m).session n = { p.session n with marks := m } := by
  unfold Part.setMarks
  split
  · next h => rw [h]
  · rw [(Part.recompute_local _).session_eq, Part.setSession_session_self]

/-- The marks re-evaluated from the key slot and the class entry; SUSPECT stays. -/
theorem Part.remark_session (p : Part) (n : Socket) : ∃ m : Marks,
    (p.remark n).session n = { p.session n with marks := m } ∧ m.suspect = (p.session n).marks.suspect ∧
    (∀ k, (p.session n).keySlot = some k → m.keyRetired = p.trust.slotRetired k) ∧
    (∀ c i, (p.session n).classIndex = some c → (p.session n).identity = some i →
      m.worn = p.trust.wornUnder c i.cycles) := by
  refine ⟨_, p.setMarks_session n _, rfl, fun k hk => ?_, fun c i hc hi => ?_⟩
  · simp only [hk]
  · simp only [hc, hi]

/-! ### Orders to several sessions -/

/-- An order, which may depend on the session, to every session that a test names, in ascending socket order. -/
def Part.orderEach (p : Part) (test : Session → Bool) (o : Session → Order) : Part :=
  forSockets (fun n p => if test (p.session n) then p.order n (o (p.session n)) else p) p

theorem Part.orderAll_eq (p : Part) (test : Session → Bool) (o : Order) :
    p.orderAll test o = p.orderEach test fun _ => o := rfl

theorem Part.orderStep_local {S : Set Socket} (test : Session → Bool) (o : Session → Order) (n : Socket) (p : Part)
    (hn : n ∈ S) : p.Local S (if test (p.session n) then p.order n (o (p.session n)) else p) := by
  split
  · exact p.order_local n _ hn
  · exact .refl p

theorem Part.orderEach_local (p : Part) (test : Session → Bool) (o : Session → Order) :
    p.Local Set.univ (p.orderEach test o) :=
  forSockets_local _ (fun n q => q.orderStep_local test o n (Set.mem_univ n)) p

/-- A session that the orders name meets its own, between those to the other sockets. -/
theorem Part.orderEach_at (p : Part) (test : Session → Bool) (o : Session → Order) (n : Socket)
    (ht : test (p.session n) = true) :
    ∃ q, p.Local {n}ᶜ q ∧ (q.order n (o (p.session n))).Local {n}ᶜ (p.orderEach test o) := by
  obtain ⟨q, hq, hr⟩ := forSockets_at _ (fun m q S hm => q.orderStep_local (S := S) test o m hm) p n
  have hs : q.session n = p.session n := hq.sessions n (by simp)
  rw [hs, if_pos ht] at hr
  exact ⟨q, hq, hr⟩

/-- An order to a session in another state than VERIFYING, ADMITTED and SUSPECT does nothing (R92). -/
theorem Part.order_of_not_live (p : Part) (n : Socket) (o : Order) (h : (p.session n).state.live = false) :
    p.order n o = p := by
  unfold Part.order
  rw [h, if_neg Bool.false_ne_true]

/-- A session that the orders do not name, or that is not live, stays as it is. -/
theorem Part.orderEach_other (p : Part) (test : Session → Bool) (o : Session → Order) (n : Socket)
    (h : test (p.session n) = false ∨ (p.session n).state.live = false) :
    (p.orderEach test o).session n = p.session n := by
  obtain ⟨q, hq, hr⟩ := forSockets_at _ (fun m q S hm => q.orderStep_local (S := S) test o m hm) p n
  have hs : q.session n = p.session n := hq.sessions n (by simp)
  have hstep : (if test (q.session n) then q.order n (o (q.session n)) else q) = q := by
    rw [hs]
    rcases h with h | h
    · rw [h, if_neg Bool.false_ne_true]
    · rw [q.order_of_not_live n _ (by rw [hs]; exact h), ite_self]
  rw [hstep] at hr
  exact (hr.sessions n (by simp)).trans hs

/-- A named live session after a refusal order: refused, and no longer challenged. -/
theorem Part.orderEach_refused (p : Part) (test : Session → Bool) (o : Session → Order) (n : Socket) (r : Reason)
    (ht : test (p.session n) = true) (hl : (p.session n).state.live = true) (ho : o (p.session n) = .refuse r) :
    (p.orderEach test o).session n =
      { p.session n with state := .refused, reason := some r, challenge := none, recheck := none } := by
  obtain ⟨q, hq, hr⟩ := p.orderEach_at test o n ht
  have hs : q.session n = p.session n := hq.sessions n (by simp)
  rw [hr.sessions n (by simp), ho, Part.order, hs, if_pos hl, Part.refuse_session, hs]

/-- A named live session after a withdraw order. -/
theorem Part.orderEach_withdrawn (p : Part) (test : Session → Bool) (n : Socket) (ht : test (p.session n) = true)
    (hl : (p.session n).state.live = true) :
    (p.orderEach test fun _ => .withdraw).session n =
      { p.session n with state := .withdrawn, reason := some .withdrawn, challenge := none, recheck := none } := by
  obtain ⟨q, hq, hr⟩ := p.orderEach_at test (fun _ => .withdraw) n ht
  have hs : q.session n = p.session n := hq.sessions n (by simp)
  rw [hr.sessions n (by simp), Part.order, hs, if_pos hl, Part.withdraw_session, hs]

/-- A named live session after a mark order. -/
theorem Part.orderEach_marked (p : Part) (test : Session → Bool) (o : Session → Order) (n : Socket)
    (ht : test (p.session n) = true) (hl : (p.session n).state.live = true) (ho : o (p.session n) = .mark) :
    ∃ m : Marks, (p.orderEach test o).session n = { p.session n with marks := m } ∧
      m.suspect = (p.session n).marks.suspect ∧
      (∀ k, (p.session n).keySlot = some k → m.keyRetired = p.trust.slotRetired k) ∧
      (∀ c i, (p.session n).classIndex = some c → (p.session n).identity = some i →
        m.worn = p.trust.wornUnder c i.cycles) := by
  obtain ⟨q, hq, hr⟩ := p.orderEach_at test o n ht
  have hs : q.session n = p.session n := hq.sessions n (by simp)
  obtain ⟨m, hm, hrest⟩ := q.remark_session n
  rw [hs, hq.trust] at hrest
  refine ⟨m, ?_, hrest⟩
  rw [hr.sessions n (by simp), ho, Part.order, hs, if_pos hl, hm, hs]

end Sys2Proof.Machine

namespace Sys2Proof.Machine
open Sys2Proof.Claims

/-! ## How many challenges can still be issued (R103) -/

/-- The counter values that are left and not reserved. -/
def ProofUnit.slack (x : ProofUnit) : Nat := x.left - x.reserved

theorem ProofUnit.canReserve_iff (x : ProofUnit) : x.canReserve = true ↔ 0 < x.slack := by
  unfold ProofUnit.canReserve ProofUnit.slack
  rw [decide_eq_true_iff]
  omega

/-- A draw takes one value and one reservation. -/
theorem ProofUnit.slack_drawn (x : ProofUnit) (h : 0 < x.reserved) : x.slack ≤ x.drawn.slack := by
  unfold ProofUnit.slack ProofUnit.left ProofUnit.drawn
  dsimp only
  by_cases hmax : x.counter.toNat = 0xFFFFFFFF
  · omega
  · have hlt := x.counter.isLt
    have hone : (1 : Word).toNat = 1 := rfl
    have hsucc : (x.counter + 1).toNat = x.counter.toNat + 1 := by
      rw [BitVec.toNat_add, hone]
      omega
    omega

/-- The proof unit after a recomputation, a report or a result is as before. -/
theorem Part.recompute_proof (p : Part) : p.recompute.proof = p.proof := by
  have hnote (q : Part) : q.noteDecrease.proof = q.proof := by
    unfold Part.noteDecrease
    dsimp only
    split
    · simp [Part.sendAggregate, Part.placeAggregate]
    · rfl
  rw [Part.recompute, hnote]
  exact Part.reportCause_proof _ _ _

theorem Part.reportSession_proof (p : Part) (n : Socket) : (p.reportSession n).proof = p.proof := by
  rw [Part.reportSession, Part.recompute_proof, Part.place_proof]

theorem Part.setMarks_proof (p : Part) (n : Socket) (m : Marks) : (p.setMarks n m).proof = p.proof := by
  unfold Part.setMarks
  split
  · rfl
  · rw [Part.recompute_proof, Part.setSession_proof]

theorem Part.auditResult_proof (p : Part) (n : Socket) (o : AuditOutcome) : (p.auditResult n o).proof = p.proof := by
  unfold Part.auditResult
  repeat' split
  all_goals rfl

theorem Part.countReason_proof (p : Part) (r : Reason) (x : Option Word) : (p.countReason r x).proof = p.proof := by
  unfold Part.countReason
  split <;> rfl

theorem Part.discardChallenge_slack (p : Part) (n : Socket) : p.proof.slack ≤ (p.discardChallenge n).proof.slack := by
  unfold Part.discardChallenge
  split
  · exact le_rfl
  · dsimp only
    split
    · simp only [Part.release, Part.setProof_proof, Part.setLink_proof, Part.setSession_proof, ProofUnit.slack,
        ProofUnit.left]
      omega
    · exact le_rfl

theorem Part.refuse_slack (p : Part) (n : Socket) (r : Reason) : p.proof.slack ≤ (p.refuse n r).proof.slack := by
  unfold Part.refuse
  dsimp only
  rw [Part.reportSession_proof, Part.countReason_proof, Part.log_proof, Part.auditResult_proof, Part.setSession_proof]
  exact p.discardChallenge_slack n

/-- The counter and the reservations after a draw (R104): its tests concern the watermarks and a cause. -/
theorem Part.draw_slack (p : Part) : p.draw.proof.slack = p.proof.drawn.slack := by
  have hrenew (q : Part) : q.renewalTest.proof.slack = q.proof.slack := by
    unfold Part.renewalTest Part.queueWatermark
    repeat' split
    all_goals simp [ProofUnit.slack, ProofUnit.left]
  rw [Part.draw, Part.exhaustionTest, Part.reportCause_proof, hrenew, Part.setProof_proof]

theorem Part.markSent_proof (p : Part) (n : Socket) (x : Nonce) : (p.markSent n x).proof = p.proof := by
  unfold Part.markSent
  split <;> rfl

theorem Part.tryStart_slack (p : Part) (n : Socket) (h : 0 < p.proof.reserved) :
    p.proof.slack ≤ (p.tryStart n).proof.slack := by
  unfold Part.tryStart
  repeat' split
  · exact le_rfl
  · rw [Part.startChallenge, Part.setLink_proof, Part.markSent_proof, Part.draw_slack]
    exact p.proof.slack_drawn h
  · exact le_rfl
  · exact le_rfl
  · exact le_rfl

theorem Part.bindKey_proof (p : Part) (n : Socket) (k : Fin 16) : (p.bindKey n k).proof = p.proof := by
  rw [Part.bindKey, Part.setMarks_proof, Part.setSession_proof]

theorem Part.placeChallenge_slack (p : Part) (n : Socket) (why : Purpose) (h : 0 < p.proof.reserved) :
    p.proof.slack ≤ (p.placeChallenge n why).proof.slack := by
  unfold Part.placeChallenge
  exact Part.tryStart_slack ((p.setLink n _).setSession n _) n h

theorem Part.reserve_slack (p : Part) : p.proof.slack ≤ p.reserve.proof.slack + 1 := by
  simp only [Part.reserve, Part.setProof_proof, ProofUnit.slack, ProofUnit.left]
  omega

/-- The issuing of a challenge takes at most one of the values that are left. -/
theorem Part.issueChallenge_slack (p : Part) (n : Socket) (why : Purpose) :
    p.proof.slack ≤ (p.issueChallenge n why).proof.slack + 1 := by
  unfold Part.issueChallenge Part.reserveAndPlace
  repeat' split
  · exact Nat.le_succ _
  · exact (p.refuse_slack n _).trans (Nat.le_succ _)
  · refine le_trans ?_ (Nat.succ_le_succ (Part.placeChallenge_slack _ n why (Nat.succ_pos _)))
    rw [← Part.bindKey_proof p n]
    exact Part.reserve_slack _
  · refine le_trans ?_ (Nat.le_succ_of_le (Part.refuse_slack _ n _))
    rw [Part.bindKey_proof]

/-! ## A challenge issued, a re-lookup (R79, R92) -/

theorem Part.tryStart_session (p : Part) (n : Socket) (c : Challenge) (h : (p.session n).challenge = some c) :
    ∃ ph, (p.tryStart n).session n = { p.session n with challenge := some { c with phase := ph } } := by
  have hsame : p.session n = { p.session n with challenge := some { c with phase := c.phase } } := by rw [← h]
  unfold Part.tryStart
  repeat' split
  · exact ⟨c.phase, hsame⟩
  · have hd : p.draw.session n = p.session n := p.draw_local.session_eq n
    rw [Part.startChallenge, Part.setLink_session, Part.markSent, hd, h]
    exact ⟨_, Part.setSession_session_self _ n _⟩
  · exact ⟨c.phase, hsame⟩
  · exact ⟨c.phase, hsame⟩
  · exact ⟨c.phase, hsame⟩

theorem Part.placeChallenge_session (p : Part) (n : Socket) (why : Purpose) :
    ∃ ph, (p.placeChallenge n why).session n = { p.session n with challenge := some ⟨why, ph⟩ } := by
  unfold Part.placeChallenge
  dsimp only
  obtain ⟨ph, hph⟩ := Part.tryStart_session _ n ⟨why, .queued⟩ (congrArg Session.challenge
    (Part.setSession_session_self (p.setLink n { p.link n with engineSlot := some .challenge }) n
      { p.session n with challenge := some ⟨why, .queued⟩ }))
  refine ⟨ph, hph.trans ?_⟩
  rw [Part.setSession_session_self]

theorem Part.bindKey_session (p : Part) (n : Socket) (k : Fin 16) :
    (p.bindKey n k).session n = { p.session n with
      keySlot := some k, marks := { (p.session n).marks with keyRetired := p.trust.slotRetired k } } := by
  rw [Part.bindKey, Part.setMarks_session, Part.setSession_session_self]

/-- A challenge issued to a session whose key is found and for which a counter value is left (R79). -/
theorem Part.issueChallenge_session (p : Part) (n : Socket) (why : Purpose) (i : Identity) (k : Fin 16)
    (hi : (p.session n).identity = some i) (hk : p.trust.findKey i.family i.generation = some k)
    (hr : 0 < p.proof.slack) :
    ∃ ph, (p.issueChallenge n why).session n = { p.session n with
      keySlot := some k, marks := { (p.session n).marks with keyRetired := p.trust.slotRetired k },
      challenge := some ⟨why, ph⟩ } := by
  have hres : (p.bindKey n k).proof.canReserve = true := by
    rw [Part.bindKey_proof, ProofUnit.canReserve_iff]
    exact hr
  have heq : p.issueChallenge n why = (p.bindKey n k).reserve.placeChallenge n why := by
    simp only [Part.issueChallenge, hi, hk, Part.reserveAndPlace, hres, if_true]
  obtain ⟨ph, hph⟩ := Part.placeChallenge_session (p.bindKey n k).reserve n why
  refine ⟨ph, ?_⟩
  rw [heq, hph, Part.reserve, Part.setProof_session, Part.bindKey_session]

/-- A session whose key is not found is refused (R79 step 1). -/
theorem Part.issueChallenge_noKey (p : Part) (n : Socket) (why : Purpose) (i : Identity)
    (hi : (p.session n).identity = some i) (hk : p.trust.findKey i.family i.generation = none) :
    p.issueChallenge n why = p.refuse n .noKey := by
  simp only [Part.issueChallenge, hi, hk]

/-- What a re-lookup issues its challenge for. -/
def relookupPurpose (st : SessState) : Purpose := if st = .verifying then .admission else .recheck

/-- A re-lookup leaves a challenge that has been sent alone (R92). -/
theorem Part.relookup_sent (p : Part) (n : Socket) (why : Purpose) (x : Nonce) (snap : Byte)
    (h : (p.session n).challenge = some ⟨why, .sent x snap⟩) : p.relookup n = p := by
  simp only [Part.relookup, h]

/-- Otherwise a challenge that is queued is discarded and the session is challenged anew. -/
theorem Part.relookup_unsent (p : Part) (n : Socket)
    (h : ∀ why x snap, (p.session n).challenge ≠ some ⟨why, .sent x snap⟩) :
    p.relookup n = (p.discardChallenge n).issueChallenge n (relookupPurpose (p.session n).state) := by
  unfold Part.relookup relookupPurpose
  dsimp only
  split
  · next hc =>
    have hd : p.discardChallenge n = p := by rw [Part.discardChallenge, hc]
    rw [hd]
  · rfl
  · next hc => exact absurd hc (h _ _ _)

theorem Part.relookup_slack (p : Part) (n : Socket) : p.proof.slack ≤ (p.relookup n).proof.slack + 1 := by
  by_cases h : ∀ why x snap, (p.session n).challenge ≠ some ⟨why, .sent x snap⟩
  · rw [p.relookup_unsent n h]
    exact (p.discardChallenge_slack n).trans (Part.issueChallenge_slack _ n _)
  · push Not at h
    obtain ⟨why, x, snap, hc⟩ := h
    rw [p.relookup_sent n why x snap hc]
    exact Nat.le_succ _

/-- A re-lookup order to socket n, when a test names its session. -/
def relookupIf (test : Session → Bool) (n : Socket) (p : Part) : Part :=
  if test (p.session n) then p.order n .relookup else p

theorem relookupIf_slack (test : Session → Bool) (n : Socket) (p : Part) :
    p.proof.slack ≤ (relookupIf test n p).proof.slack + 1 := by
  unfold relookupIf
  split
  · cases hl : (p.session n).state.live with
    | true =>
      have ho : p.order n .relookup = p.relookup n := if_pos hl
      rw [ho]
      exact p.relookup_slack n
    | false =>
      rw [p.order_of_not_live n _ hl]
      exact Nat.le_succ _
  · exact Nat.le_succ _

/-- Re-lookup orders to some sockets take at most one value each. -/
theorem onSockets_relookup_slack (test : Session → Bool) (l : List Socket) (p : Part) :
    p.proof.slack ≤ (onSockets (relookupIf test) l p).proof.slack + l.length := by
  induction l generalizing p with
  | nil => exact le_rfl
  | cons n l ih =>
    have hrest := ih (relookupIf test n p)
    have hstep := relookupIf_slack test n p
    show _ ≤ (onSockets (relookupIf test) l (relookupIf test n p)).proof.slack + (l.length + 1)
    omega

/-- A session that re-lookup orders name meets its own, with at most three values taken before. -/
theorem Part.relookupAll_at (p : Part) (test : Session → Bool) (n : Socket) (ht : test (p.session n) = true) :
    ∃ q, p.Local {n}ᶜ q ∧ p.proof.slack ≤ q.proof.slack + 3 ∧
      (q.order n .relookup).Local {n}ᶜ (p.orderAll test .relookup) := by
  obtain ⟨before, after, hb, ha, hlen, heq⟩ := forSockets_split (relookupIf test) p n
  have hlocal (l : List Socket) (hl : n ∉ l) (q : Part) : q.Local {n}ᶜ (onSockets (relookupIf test) l q) :=
    onSockets_local _ l q fun m hm r => r.orderStep_local test (fun _ => .relookup) m (ne_of_mem_of_not_mem hm hl)
  refine ⟨onSockets (relookupIf test) before p, hlocal before hb p, ?_, ?_⟩
  · exact (onSockets_relookup_slack test before p).trans (Nat.add_le_add_left hlen _)
  · have hs := (hlocal before hb p).sessions n (by simp)
    have hown : relookupIf test n (onSockets (relookupIf test) before p) =
        (onSockets (relookupIf test) before p).order n .relookup := if_pos (by rw [hs]; exact ht)
    show Part.Local _ _ (forSockets (relookupIf test) p)
    rw [heq, hown]
    exact hlocal after ha _

/-! ## Lookups by pair (R112) -/

theorem mem_allSlots (k : Fin 16) : k ∈ allSlots := by
  revert k
  decide

theorem Trust.holdsPair_iff (t : Trust) (family generation : Byte) (k : Fin 16) :
    t.holdsPair family generation k = true ↔
      ∃ y, t.keys[k] = some y ∧ y.family = family ∧ y.generation = generation := by
  unfold Trust.holdsPair
  cases t.keys[k] <;> simp

theorem Trust.findKey_eq_none (t : Trust) (family generation : Byte)
    (h : ∀ (l : Fin 16) y, t.keys[l] = some y → ¬(y.family = family ∧ y.generation = generation)) :
    t.findKey family generation = none := by
  refine List.find?_eq_none.mpr fun k _ hk => ?_
  obtain ⟨y, hy, hp⟩ := (t.holdsPair_iff family generation k).mp hk
  exact h k y hy hp

/-- The only slot that holds a pair is found. -/
theorem Trust.findKey_of_unique (t : Trust) (family generation : Byte) (k : Fin 16)
    (hk : t.holdsPair family generation k = true)
    (hu : ∀ l, t.holdsPair family generation l = true → l = k) : t.findKey family generation = some k := by
  cases h : t.findKey family generation with
  | none => exact absurd hk (List.find?_eq_none.mp h k (mem_allSlots k))
  | some l => rw [hu l (List.find?_some h)]

theorem Trust.noUsableKey_iff (t : Trust) : t.noUsableKey = true ↔ ∀ k : Fin 16, t.keys[k] = none := by
  unfold Trust.noUsableKey
  simp only [List.all_eq_true, Vector.mem_toList_iff, Option.isNone_iff_eq_none]
  constructor
  · exact fun h k => h _ (Vector.getElem_mem _)
  · intro h x hx
    obtain ⟨i, hi, rfl⟩ := Vector.mem_iff_getElem.mp hx
    exact h ⟨i, hi⟩

end Sys2Proof.Machine

namespace Sys2Proof.Machine
open Sys2Proof.Claims

/-! ## A success after orders to sessions (R113) -/

theorem Trust.slotRetired_of (t : Trust) (k : Fin 16) (y : KeyEntry) (h : t.keys[k] = some y) :
    t.slotRetired k = y.retired := by
  unfold Trust.slotRetired
  rw [h]

theorem Part.reportKeys_units (p : Part) : p.SameUnits p.reportKeys := p.reportCause_units _ _

theorem Part.reportKeys_causes (p : Part) :
    p.reportKeys.fault.causes = { p.fault.causes with noUsableKey := p.trust.noUsableKey } :=
  Part.reportCause_causes _ _ _

/-- What the answer to a success says and leaves, when the owner's action before it has set the trust tables to `x`: the tables,
the log entry, the response. -/
theorem Part.released_succeed (p : Part) (a : StoreArray) (j : Job) (x : Trust) (q : Part)
    (h : ((p.released a j .success).setTrust x).Local Set.univ q) (e : LogEntry) (code : Byte) (ws : List Word) :
    (q.succeed e code ws).trust = x ∧ (LogRoom (q.succeed e code ws) → Logged (q.succeed e code ws) e) ∧
      (Running p code → Carries (q.succeed e code ws) (response code .done ws)) :=
  ⟨(q.succeed_units e code ws).trust.trans h.trust,
   q.succeed_logged e code ws (h.ctl.settled (p.released_settled a j .success)),
   fun hr => q.succeed_carries e code ws (h.running code hr)⟩

/-- What a success comes to may be stated more weakly. -/
theorem jobEnded_imp {c : JobEnd → Instr} {s : State} {j : Job} {P Q : State → Prop} {F : JobEnd → State → Prop}
    (h : JobEnded c s j fun r t => (r = .success → P t) ∧ F r t) (hpq : ∀ t, P t → Q t) :
    JobEnded c s j fun r t => (r = .success → Q t) ∧ F r t := by
  intro hon hj r
  obtain ⟨t, ht, ha, hf, hs, hp, hfail⟩ := h hon hj r
  exact ⟨t, ht, ha, hf, hs, fun hr => hpq t (hp hr), hfail⟩

end Sys2Proof.Machine

namespace Sys2Proof.Proofs
open Sys2Proof Sys2Proof.Machine Sys2Proof.Claims

/-! ## The ends of the key table jobs (R115 to R118) -/

/-- The part once a key slot has its new content and edit count, and the sessions bound to it have their orders. -/
def keyOrdered (p : Part) (k : Fin 16) (e : Option KeyEntry) (o : Order) : Part :=
  ((p.setKey k e).bumpEdit k).orderAll (boundTo k) o

theorem keyOrdered_local (p : Part) (k : Fin 16) (e : Option KeyEntry) (o : Order) :
    (p.setTrust { p.trust with keys := p.trust.keys.set k e, edits := p.trust.edits.set k (p.trust.edits[k] + 1) }).Local
      Set.univ (keyOrdered p k e o).reportKeys :=
  (((p.setKey k e).bumpEdit k).orderEach_local (boundTo k) fun _ => o).trans (Part.reportCause_local _ _ _)

theorem boundTo_iff (k : Fin 16) (x : Session) : boundTo k x = true ↔ x.keySlot = some k := beq_iff_eq

/-- A session that is not bound to the slot, or not live, is left alone. -/
theorem keyOrdered_other (p : Part) (k : Fin 16) (e : Option KeyEntry) (o : Order) (n : Socket)
    (h : (p.session n).keySlot ≠ some k ∨ (p.session n).state.live = false) :
    (keyOrdered p k e o).session n = p.session n :=
  Part.orderEach_other ((p.setKey k e).bumpEdit k) (boundTo k) (fun _ => o) n
    (h.imp_left fun hk => by rw [Bool.eq_false_iff, ne_eq, boundTo_iff]; exact hk)

/-- A re-lookup order leaves a session whose challenge has been sent alone. -/
theorem relookup_of_sent (p : Part) (k : Fin 16) (e : Option KeyEntry) (n : Socket) (why : Purpose) (x : Nonce)
    (snap : Byte) (h : (p.session n).challenge = some ⟨why, .sent x snap⟩) :
    (keyOrdered p k e .relookup).session n = p.session n := by
  by_cases hb : (p.session n).keySlot = some k ∧ (p.session n).state.live = true
  · obtain ⟨q, hq, -, hr⟩ := ((p.setKey k e).bumpEdit k).relookupAll_at (boundTo k) n ((boundTo_iff k _).mpr hb.1)
    have hs : q.session n = p.session n := hq.sessions n (by simp)
    have ho : q.order n .relookup = q := by
      rw [← hs] at h hb
      exact (if_pos hb.2).trans (q.relookup_sent n why x snap h)
    rw [ho] at hr
    exact (hr.sessions n (by simp)).trans hs
  · refine keyOrdered_other p k e .relookup n ?_
    rw [not_and_or, Bool.not_eq_true] at hb
    exact hb

/-- A live session bound to the slot is looked up again in the new table, with at least one counter value left. -/
theorem relookup_of_unsent (p : Part) (k : Fin 16) (e : Option KeyEntry) (n : Socket)
    (hk : (p.session n).keySlot = some k) (hl : (p.session n).state.live = true)
    (hc : ∀ why x snap, (p.session n).challenge ≠ some ⟨why, .sent x snap⟩) :
    ∃ q : Part, q.session n = { p.session n with challenge := none } ∧
      q.trust = { p.trust with keys := p.trust.keys.set k e, edits := p.trust.edits.set k (p.trust.edits[k] + 1) } ∧
      p.proof.slack ≤ q.proof.slack + 3 ∧
      (keyOrdered p k e .relookup).session n =
        (q.issueChallenge n (relookupPurpose (p.session n).state)).session n := by
  obtain ⟨q, hq, hslack, hr⟩ :=
    ((p.setKey k e).bumpEdit k).relookupAll_at (boundTo k) n ((boundTo_iff k _).mpr hk)
  have hs : q.session n = p.session n := hq.sessions n (by simp)
  have ho : q.order n .relookup = (q.discardChallenge n).issueChallenge n (relookupPurpose (p.session n).state) := by
    rw [← hs] at hl hc ⊢
    exact (if_pos hl).trans (q.relookup_unsent n hc)
  refine ⟨q.discardChallenge n, ?_, ?_, ?_, ?_⟩
  · rw [Part.discardChallenge_session, hs]
  · exact (q.discardChallenge_local n (Set.mem_univ n)).trust.trans hq.trust
  · exact hslack.trans (Nat.add_le_add_right (q.discardChallenge_slack n) 3)
  · rw [← ho]
    exact hr.sessions n (by simp)

/-- A re-lookup that finds no slot refuses the session. -/
theorem relookup_refused (p : Part) (k : Fin 16) (e : Option KeyEntry) (n : Socket) (i : Identity)
    (hk : (p.session n).keySlot = some k) (hl : (p.session n).state.live = true)
    (hi : (p.session n).identity = some i)
    (hc : ∀ why x snap, (p.session n).challenge ≠ some ⟨why, .sent x snap⟩)
    (hno : ∀ (l : Fin 16) y, (p.trust.keys.set k e)[l] = some y → ¬(y.family = i.family ∧ y.generation = i.generation)) :
    ((keyOrdered p k e .relookup).session n).state = .refused ∧
      ((keyOrdered p k e .relookup).session n).reason = some .noKey := by
  obtain ⟨q, hq, hqt, -, heq⟩ := relookup_of_unsent p k e n hk hl hc
  have hfind : q.trust.findKey i.family i.generation = none := by
    rw [hqt]
    exact Trust.findKey_eq_none _ _ _ hno
  rw [heq, q.issueChallenge_noKey n _ i (by rw [hq]; exact hi) hfind, Part.refuse_session]
  exact ⟨rfl, rfl⟩

/-- A re-lookup that finds one slot binds the session to it and challenges it anew, while four counter values are left. -/
theorem relookup_challenged (p : Part) (k : Fin 16) (e : Option KeyEntry) (n : Socket) (i : Identity) (l : Fin 16)
    (y : KeyEntry) (hk : (p.session n).keySlot = some k) (hl : (p.session n).state.live = true)
    (hi : (p.session n).identity = some i)
    (hc : ∀ why x snap, (p.session n).challenge ≠ some ⟨why, .sent x snap⟩)
    (hy : (p.trust.keys.set k e)[l] = some y) (hf : y.family = i.family) (hg : y.generation = i.generation)
    (hu : ∀ (l' : Fin 16) y', (p.trust.keys.set k e)[l'] = some y' → y'.family = i.family →
      y'.generation = i.generation → l' = l) (hleft : 4 ≤ p.proof.slack) :
    ((keyOrdered p k e .relookup).session n).state = (p.session n).state ∧
      ((keyOrdered p k e .relookup).session n).keySlot = some l ∧
      ((keyOrdered p k e .relookup).session n).marks.keyRetired = y.retired ∧
      ∃ ph, ((keyOrdered p k e .relookup).session n).challenge =
        some ⟨if (p.session n).state = .verifying then .admission else .recheck, ph⟩ := by
  obtain ⟨q, hq, hqt, hslack, heq⟩ := relookup_of_unsent p k e n hk hl hc
  have hfind : q.trust.findKey i.family i.generation = some l := by
    rw [hqt]
    refine Trust.findKey_of_unique _ _ _ l ((Trust.holdsPair_iff _ _ _ _).mpr ⟨y, hy, hf, hg⟩) fun l' hl' => ?_
    obtain ⟨y', hy', hf', hg'⟩ := (Trust.holdsPair_iff _ _ _ _).mp hl'
    exact hu l' y' hy' hf' hg'
  have hret : q.trust.slotRetired l = y.retired := by
    rw [hqt]
    exact Trust.slotRetired_of _ l y hy
  obtain ⟨ph, hph⟩ := q.issueChallenge_session n (relookupPurpose (p.session n).state) i l (by rw [hq]; exact hi) hfind
    (by omega)
  rw [heq.trans hph, hq, hret]
  exact ⟨rfl, rfl, rfl, ph, rfl⟩

/-- What the ends of a KEY-WRITE's and a KEY-ERASE's job have in common: the slot's new content, its edit count, the
no-usable-key cause, the log entry and the response; the sessions are as the orders leave them. -/
def KeyLanded (s : State) (k : Fin 16) (e : Option KeyEntry) (o : Order) (code : Byte) (detail : Nat) (j : Job)
    (t : State) : Prop :=
  t.part.trust = { s.part.trust with
    keys := s.part.trust.keys.set k e, edits := s.part.trust.edits.set k (s.part.trust.edits[k] + 1) } ∧
  t.part.fault.causes.noUsableKey = t.part.trust.noUsableKey ∧
  (LogRoom t.part → Logged t.part { type := 7, socket := 7, detail := halfOf detail, data := [] }) ∧
  (Running s.part code → Carries t.part (response code .done [Word.ofBytes (s.part.trust.edits[k] + 1) 0 0 0])) ∧
  ∀ n, t.part.session n = (keyOrdered (s.part.released s.array j .success) k e o).session n

theorem keyLanded_of (s : State) (k : Fin 16) (e : Option KeyEntry) (o : Order) (code : Byte) (op : Nat) (j : Job)
    (a : StoreArray) :
    KeyLanded s k e o code (1 * 4096 + op * 256 + k.val) j { s with
      part := (keyOrdered (s.part.released s.array j .success) k e o).reportKeys.succeed (tableChange 1 op k.val) code
        [byteWord (s.part.trust.edits[k] + 1)], array := a } := by
  obtain ⟨htrust, hlog, hresp⟩ := s.part.released_succeed s.array j _ _
    (keyOrdered_local (s.part.released s.array j .success) k e o) (tableChange 1 op k.val) code
    [byteWord (s.part.trust.edits[k] + 1)]
  refine ⟨htrust, ?_, hlog, hresp, fun n => ?_⟩
  · show (Part.succeed _ _ _ _).fault.causes.noUsableKey = (Part.succeed _ _ _ _).trust.noUsableKey
    rw [Part.succeed_causes, Part.reportKeys_causes, (Part.succeed_units _ _ _ _).trust, (Part.reportKeys_units _).trust]
  · exact ((Part.reportKeys_units _).trans (Part.succeed_units _ _ _ _)).session n

theorem keyWrite_landed (s : State) (k : Fin 16) (e : KeyEntry) :
    JobEnded .keyWriteComplete s (.table (.keyWrite k e)) (fun r t =>
      (r = .success → KeyLanded s k (some e) .relookup 0x10 (0x1100 + k.val) (.table (.keyWrite k e)) t) ∧
      (r ≠ .success → JobFailed 0x10 s t)) :=
  tableJobEnded_of .keyWriteComplete s _ _ (Part.keyWriteDone k e) 0x10 _ (fun _ => rfl) rfl (fun _ => rfl)
    (fun p => JobFrame.trans (keyOrdered_local p k (some e) .relookup).frame (Part.logComplete_frame _ _ _ _))
    fun a => keyLanded_of s k (some e) .relookup 0x10 1 _ a

theorem keyErase_landed (s : State) (k : Fin 16) :
    JobEnded .keyEraseComplete s (.table (.keyErase k)) (fun r t =>
      (r = .success → KeyLanded s k none (.refuse .noKey) 0x12 (0x1300 + k.val) (.table (.keyErase k)) t) ∧
      (r ≠ .success → JobFailed 0x12 s t)) :=
  tableJobEnded_of .keyEraseComplete s _ _ (Part.keyEraseDone k) 0x12 _ (fun _ => rfl) rfl (fun _ => rfl)
    (fun p => JobFrame.trans (keyOrdered_local p k none (.refuse .noKey)).frame (Part.logComplete_frame _ _ _ _))
    fun a => keyLanded_of s k none (.refuse .noKey) 0x12 3 _ a

theorem keyRetire_landed (s : State) (k : Fin 16) (y : KeyEntry) (hy : s.part.trust.keys[k] = some y) :
    JobEnded .keyRetireComplete s (.table (.keyRetire k)) (fun r t =>
      (r = .success →
        t.part.trust = { s.part.trust with keys := s.part.trust.keys.set k (some { y with retired := true }) } ∧
        (LogRoom t.part → Logged t.part { type := 7, socket := 7, detail := halfOf (0x1200 + k.val), data := [] }) ∧
        (Running s.part 0x11 → Carries t.part (response 0x11 .done [])) ∧
        ∀ n, t.part.session n = (((s.part.released s.array (.table (.keyRetire k)) .success).setKey k
          (some { y with retired := true })).orderAll (boundTo k) .mark).session n) ∧
      (r ≠ .success → JobFailed 0x11 s t)) := by
  have hlocal (p : Part) (e : Option KeyEntry) := (p.setKey k e).orderEach_local (boundTo k) fun _ => .mark
  refine tableJobEnded_of .keyRetireComplete s _ _ (Part.keyRetireDone k) 0x11 _ (fun _ => rfl) rfl (fun _ => rfl)
    (fun p => JobFrame.trans (hlocal p _).frame (Part.logComplete_frame _ _ _ _)) fun a => ?_
  have hret : retire s.part.trust.keys[k] = some { y with retired := true } := by rw [hy]; rfl
  obtain ⟨htrust, hlog, hresp⟩ := s.part.released_succeed s.array (.table (.keyRetire k)) _ _
    (hlocal (s.part.released s.array (.table (.keyRetire k)) .success) (retire s.part.trust.keys[k]))
    (tableChange 1 2 k.val) 0x11 []
  rw [← hret]
  exact ⟨htrust, hlog, hresp, fun n => (Part.succeed_units _ _ _ _).session n⟩

/-- Slots of a key table with one slot replaced. -/
theorem keys_set_getElem (keys : Vector (Option KeyEntry) 16) (k l : Fin 16) (e : Option KeyEntry) :
    (keys.set k e)[l] = if l = k then e else keys[l] := by
  simp only [Fin.getElem_fin, Vector.getElem_set, Fin.ext_iff, eq_comm]

/-- Settles O43: the slot and its edit count change at the job's end, and each bound live session meets its order. -/
theorem keyJobsLandAtTheirCompletion : Obligations.KeyJobsLandAtTheirCompletion := by
  refine fun s k => ⟨fun e => jobEnded_imp (keyWrite_landed s k e) ?_,
    fun y hy => jobEnded_imp (keyRetire_landed s k y hy) ?_, jobEnded_imp (keyErase_landed s k) ?_⟩
  · rintro t ⟨htrust, hcause, hlog, hresp, hsess⟩
    refine ⟨htrust, ?_, hlog, hresp, fun n h => ?_, fun n why x snap h => ?_, fun n i hk hl hi hc hno => ?_,
      fun n i l y hk hl hi hc hy hf hg hu hres => ?_⟩
    · rw [hcause, htrust, Bool.eq_false_iff, ne_eq, Trust.noUsableKey_iff]
      intro h
      simpa [keys_set_getElem] using h k
    · exact (hsess n).trans (keyOrdered_other _ k _ _ n h)
    · exact (hsess n).trans (relookup_of_sent _ k _ n why x snap h)
    · rw [hsess n]
      exact relookup_refused _ k (some e) n i hk hl hi hc hno
    · rw [hsess n]
      exact relookup_challenged _ k (some e) n i l y hk hl hi hc hy hf hg hu
        (Nat.le_sub_of_add_le (by rw [Nat.add_comm]; exact hres))
  · rintro t ⟨htrust, hlog, hresp, hsess⟩
    refine ⟨htrust, hlog, hresp, fun n h => ?_, fun n hk hl => ?_⟩
    · refine (hsess n).trans (Part.orderEach_other _ (boundTo k) (fun _ => .mark) n (h.imp_left fun hk => ?_))
      rw [Bool.eq_false_iff, ne_eq, boundTo_iff]
      exact hk
    · obtain ⟨m, hm, hsus, hret, -⟩ := Part.orderEach_marked
        ((s.part.released s.array (.table (.keyRetire k)) .success).setKey k (some { y with retired := true }))
        (boundTo k) (fun _ => .mark) n ((boundTo_iff k _).mpr hk) hl rfl
      refine ⟨m, ?_, hsus, (hsess n).trans hm⟩
      exact (hret k hk).trans
        (Trust.slotRetired_of _ k { y with retired := true } ((keys_set_getElem _ k k _).trans (if_pos rfl)))
  · rintro t ⟨htrust, hcause, hlog, hresp, hsess⟩
    refine ⟨htrust, hlog, ?_, hresp, fun n h => ?_, fun n hk hl => ?_⟩
    · rw [hcause, htrust, Trust.noUsableKey_iff]
      refine forall_congr' fun l => ?_
      rw [keys_set_getElem]
      by_cases h : l = k <;> simp [h]
    · exact (hsess n).trans (keyOrdered_other _ k _ _ n h)
    · have h := (hsess n).trans (Part.orderEach_refused
        (((s.part.released s.array (.table (.keyErase k)) .success).setKey k none).bumpEdit k) (boundTo k)
        (fun _ => .refuse .noKey) n .noKey ((boundTo_iff k _).mpr hk) hl rfl)
      rw [h]
      exact ⟨rfl, rfl, rfl⟩

end Sys2Proof.Proofs

namespace Sys2Proof.Machine
open Sys2Proof.Claims

/-! ## Grants after a recomputation (R131, R134) -/

/-- What R134's grant is computed from. -/
theorem Part.grantOf_congr {p q : Part} (he : q.engine = p.engine) (ht : q.trust = p.trust)
    (hs : q.mgmt.settings = p.mgmt.settings) (hg : q.grants.stale = p.grants.stale) (n : Socket) :
    q.grantOf n = p.grantOf n := by
  have hsession (m : Socket) : q.session m = p.session m := by rw [Part.session, he]; rfl
  simp only [Part.grantOf, Part.derateOf, Part.trustOf, Part.classOf, Part.settings, hsession, ht, hs, hg]

/-- An AGGREGATE sent and the values kept for the next comparison are all that a note of a decrease changes. -/
theorem Part.noteDecrease_grants (p : Part) : p.noteDecrease.grants = p.grants.keepPrevious := by
  unfold Part.noteDecrease
  dsimp only
  split
  · simp [Part.sendAggregate, Part.placeAggregate]
  · rfl

theorem Part.recompute_grants (p : Part) : p.recompute.grants = p.computeGrants.keepPrevious := by
  have hover : (p.setGrants p.computeGrants).evalOverheat.grants = p.computeGrants :=
    (Part.reportCause_units (p.setGrants p.computeGrants) _ _).grants
  rw [Part.recompute, Part.noteDecrease_grants]
  exact congrArg Grants.keepPrevious hover

theorem Part.recompute_grant (p : Part) (n : Socket) : p.recompute.grants.grant.get n = p.grantOf n := by
  rw [Part.recompute_grants]
  exact p.computeGrants_grant n

theorem Part.recompute_stale (p : Part) : p.recompute.grants.stale = p.grants.stale := by
  rw [Part.recompute_grants]
  rfl

theorem Part.recompute_engine (p : Part) : p.recompute.engine = p.engine := by
  have hnote (q : Part) : q.noteDecrease.engine = q.engine := by
    unfold Part.noteDecrease
    dsimp only
    split
    · simp [Part.sendAggregate, Part.placeAggregate]
    · rfl
  rw [Part.recompute, hnote]
  exact (Part.reportCause_units (p.setGrants p.computeGrants) _ _).engine

/-- After a recomputation every grant is what R134 gives in the part as it then is. -/
theorem Part.recompute_grantOf (p : Part) (n : Socket) : p.recompute.grants.grant.get n = p.recompute.grantOf n := by
  rw [p.recompute_grant n]
  exact (Part.grantOf_congr p.recompute_engine (p.recompute_local (S := ∅)).trust p.recompute_ordinary.settings
    p.recompute_stale n).symm

/-- A refused session has a grant of 0: its report has every grant recomputed (R73). -/
theorem Part.refuse_grant (p : Part) (n : Socket) (r : Reason) : (p.refuse n r).grants.grant.get n = 0 := by
  have hstate : ((p.refuse n r).session n).state = .refused := by rw [Part.refuse_session]
  unfold Part.refuse Part.reportSession at hstate ⊢
  dsimp only at hstate ⊢
  rw [(Part.recompute_local _).session_eq] at hstate
  rw [Part.recompute_grant, Part.grantOf_of_untrusted _ n (by rw [hstate]; rfl)]

/-- So has one that an order has refused, whatever the orders to the other sockets do. -/
theorem Part.orderEach_refused_grant (p : Part) (test : Session → Bool) (o : Session → Order) (n : Socket) (r : Reason)
    (ht : test (p.session n) = true) (hl : (p.session n).state.live = true) (ho : o (p.session n) = .refuse r) :
    (p.orderEach test o).grants.grant.get n = 0 := by
  obtain ⟨q, hq, hr⟩ := p.orderEach_at test o n ht
  have hs : q.session n = p.session n := hq.sessions n (by simp)
  have hown : q.order n (o (p.session n)) = q.refuse n r := by
    rw [ho]
    exact if_pos (by rw [hs]; exact hl)
  rw [hown] at hr
  exact hr.idle n (by simp) (by rw [Part.refuse_session]; rfl) (q.refuse_grant n r)

/-- The answer to a success keeps the grants, and what they are computed from. -/
theorem Part.succeed_grantOf (p : Part) (e : LogEntry) (code : Byte) (ws : List Word)
    (h : ∀ n, p.grants.grant.get n = p.grantOf n) (n : Socket) :
    (p.succeed e code ws).grants.grant.get n = (p.succeed e code ws).grantOf n := by
  have hu := p.succeed_units e code ws
  obtain ⟨-, -, -, -, hsettings, -⟩ := JobFrame.trans (p.logComplete_frame e code ws)
    (Part.finished_local (S := ∅) _ true).frame
  rw [Part.grantOf_congr hu.engine hu.trust hsettings (congrArg Grants.stale hu.grants) n, hu.grants]
  exact h n

theorem ofClass_iff (i : Fin 32) (x : Session) : ofClass i x = true ↔ x.classIndex = some i := beq_iff_eq

theorem Trust.wornUnder_of (t : Trust) (i : Fin 32) (e : ClassEntry) (cycles : Half) (h : t.classes[i] = some e) :
    t.wornUnder i cycles = decide (e.wearLimit ≠ 0 ∧ e.wearLimit.toNat ≤ cycles.toNat) := by
  unfold Trust.wornUnder
  rw [h, Bool.decide_and]
  simp [bne, beq_eq_decide]

end Sys2Proof.Machine

namespace Sys2Proof.Proofs
open Sys2Proof Sys2Proof.Machine Sys2Proof.Claims

/-! ## The ends of the class table jobs (R121, R122) -/

/-- The order of a CLASS-WRITE: marks for a session that reports the entry's code, else a refusal (R121). -/
def classOrder (code : Byte) (x : Session) : Order := if reportsCode code x then .mark else .refuse .noClass

theorem classOrder_eq (code : Byte) (x : Session) (d : Identity) (h : x.identity = some d) :
    classOrder code x = if d.classCode = code then .mark else .refuse .noClass := by
  unfold classOrder reportsCode
  simp only [h, beq_iff_eq]

/-- The part once a class entry has its new content and the sessions of its index have their orders. -/
def classOrdered (p : Part) (i : Fin 32) (e : Option ClassEntry) (o : Session → Order) : Part :=
  (p.setClass i e).orderEach (ofClass i) o

theorem classOrdered_local (p : Part) (i : Fin 32) (e : Option ClassEntry) (o : Session → Order) :
    (p.setTrust { p.trust with classes := p.trust.classes.set i e }).Local Set.univ (classOrdered p i e o) :=
  (p.setClass i e).orderEach_local (ofClass i) o

theorem classOrdered_other (p : Part) (i : Fin 32) (e : Option ClassEntry) (o : Session → Order) (n : Socket)
    (h : (p.session n).classIndex ≠ some i ∨ (p.session n).state.live = false) :
    (classOrdered p i e o).session n = p.session n :=
  (p.setClass i e).orderEach_other (ofClass i) o n
    (h.imp_left fun hk => by rw [Bool.eq_false_iff, ne_eq, ofClass_iff]; exact hk)

/-- What the ends of the two class table jobs have in common; the sessions are as the orders leave them. -/
def ClassLanded (s : State) (i : Fin 32) (e : Option ClassEntry) (o : Session → Order) (code : Byte) (detail : Nat)
    (j : Job) (t : State) : Prop :=
  t.part.trust = { s.part.trust with classes := s.part.trust.classes.set i e } ∧
  (LogRoom t.part → Logged t.part { type := 7, socket := 7, detail := halfOf detail, data := [] }) ∧
  (Running s.part code → Carries t.part (response code .done [])) ∧
  ∀ n, t.part.session n = (classOrdered (s.part.released s.array j .success) i e o).session n

theorem classWrite_landed (s : State) (i : Fin 32) (e : ClassEntry) :
    JobEnded .classWriteComplete s (.table (.classWrite i e)) (fun r t =>
      (r = .success →
        ClassLanded s i (some e) (classOrder e.code) 0x14 (0x2100 + i.val) (.table (.classWrite i e)) t ∧
        ∀ n, t.part.grants.grant.get n = t.part.grantOf n) ∧
      (r ≠ .success → JobFailed 0x14 s t)) := by
  have hlocal (p : Part) := (classOrdered_local p i (some e) (classOrder e.code)).trans (Part.recompute_local _)
  refine tableJobEnded_of .classWriteComplete s _ _ (Part.classWriteDone i e) 0x14 _ (fun _ => rfl) rfl (fun _ => rfl)
    (fun p => JobFrame.trans (hlocal p).frame (Part.logComplete_frame _ _ _ _)) fun a => ?_
  have hloc := hlocal (s.part.released s.array (.table (.classWrite i e)) .success)
  obtain ⟨htrust, hlog, hresp⟩ := s.part.released_succeed s.array (.table (.classWrite i e)) _ _ hloc
    (tableChange 2 1 i.val) 0x14 []
  have hu := Part.succeed_units (classOrdered (s.part.released s.array (.table (.classWrite i e)) .success) i (some e)
    (classOrder e.code)).recompute (tableChange 2 1 i.val) 0x14 []
  exact ⟨⟨htrust, hlog, hresp, fun n => (hu.session n).trans ((Part.recompute_local _).session_eq n)⟩,
    fun n => Part.succeed_grantOf _ _ _ _ (Part.recompute_grantOf _) n⟩

theorem classErase_landed (s : State) (i : Fin 32) :
    JobEnded .classEraseComplete s (.table (.classErase i)) (fun r t =>
      (r = .success →
        ClassLanded s i none (fun _ => .refuse .noClass) 0x15 (0x2300 + i.val) (.table (.classErase i)) t ∧
        ∀ n, (s.part.session n).classIndex = some i → (s.part.session n).state.live = true →
          t.part.grants.grant.get n = 0) ∧
      (r ≠ .success → JobFailed 0x15 s t)) := by
  refine tableJobEnded_of .classEraseComplete s _ _ (Part.classEraseDone i) 0x15 _ (fun _ => rfl) rfl (fun _ => rfl)
    (fun p => JobFrame.trans (classOrdered_local p i none fun _ => .refuse .noClass).frame
      (Part.logComplete_frame _ _ _ _)) fun a => ?_
  have hlocal := classOrdered_local (s.part.released s.array (.table (.classErase i)) .success) i none
    fun _ => .refuse .noClass
  obtain ⟨htrust, hlog, hresp⟩ := s.part.released_succeed s.array (.table (.classErase i)) _ _ hlocal
    (tableChange 2 3 i.val) 0x15 []
  have hu := Part.succeed_units (classOrdered (s.part.released s.array (.table (.classErase i)) .success) i none
    fun _ => .refuse .noClass) (tableChange 2 3 i.val) 0x15 []
  refine ⟨⟨htrust, hlog, hresp, fun n => hu.session n⟩, fun n hk hl => ?_⟩
  have hzero := Part.orderEach_refused_grant
    ((s.part.released s.array (.table (.classErase i)) .success).setClass i none) (ofClass i) (fun _ => .refuse .noClass)
    n .noClass ((ofClass_iff i _).mpr hk) hl rfl
  rw [← hzero]
  exact congrArg (fun g : Grants => g.grant.get n) hu.grants

/-- Settles O44: every session of the entry is marked or refused, and the grants follow. -/
theorem classJobsLandAtTheirCompletion : Obligations.ClassJobsLandAtTheirCompletion := by
  refine fun s i => ⟨fun e => jobEnded_imp (classWrite_landed s i e) ?_, jobEnded_imp (classErase_landed s i) ?_⟩
  · rintro t ⟨⟨htrust, hlog, hresp, hsess⟩, hgrants⟩
    refine ⟨htrust, hlog, hresp, hgrants, fun n h => (hsess n).trans (classOrdered_other _ i _ _ n h),
      fun n d hk hl hd => ⟨fun hcode => ?_, fun hcode => ?_⟩⟩
    · obtain ⟨m, hm, hsus, -, hworn⟩ := Part.orderEach_marked
        ((s.part.released s.array (.table (.classWrite i e)) .success).setClass i (some e)) (ofClass i)
        (classOrder e.code) n ((ofClass_iff i _).mpr hk) hl ((classOrder_eq e.code _ d hd).trans (if_pos hcode))
      refine ⟨m, (hworn i d hk hd).trans (Trust.wornUnder_of _ i e d.cycles ?_), hsus, (hsess n).trans hm⟩
      simp [Part.setClass]
    · rw [(hsess n).trans (Part.orderEach_refused
        ((s.part.released s.array (.table (.classWrite i e)) .success).setClass i (some e)) (ofClass i)
        (classOrder e.code) n .noClass ((ofClass_iff i _).mpr hk) hl
        ((classOrder_eq e.code _ d hd).trans (if_neg hcode)))]
      exact ⟨rfl, rfl, rfl⟩
  · rintro t ⟨⟨htrust, hlog, hresp, hsess⟩, hgrants⟩
    refine ⟨htrust, hlog, hgrants, hresp, fun n h => (hsess n).trans (classOrdered_other _ i _ _ n h), fun n hk hl => ?_⟩
    rw [(hsess n).trans (Part.orderEach_refused
      ((s.part.released s.array (.table (.classErase i)) .success).setClass i none) (ofClass i)
      (fun _ => .refuse .noClass) n .noClass ((ofClass_iff i _).mpr hk) hl rfl)]
    exact ⟨rfl, rfl, rfl⟩

end Sys2Proof.Proofs

namespace Sys2Proof.Machine
open Sys2Proof.Claims

/-! ## The withdrawal list (R123, R125) -/

theorem mem_insertSerial (x w : Word) (l : List Word) : w ∈ insertSerial x l ↔ w = x ∨ w ∈ l := by
  induction l with
  | nil => simp [insertSerial]
  | cons y l ih =>
    unfold insertSerial
    split
    · simp
    · split
      · next h => simp [h]
      · simp only [List.mem_cons, ih]
        exact or_left_comm

theorem insertSerial_sorted (x : Word) (l : List Word) (h : l.Pairwise fun x y => x.toNat < y.toNat) :
    (insertSerial x l).Pairwise fun x y => x.toNat < y.toNat := by
  induction l with
  | nil => simp [insertSerial]
  | cons y l ih =>
    obtain ⟨hy, hl⟩ := List.pairwise_cons.mp h
    unfold insertSerial
    split
    · next hlt =>
      refine List.pairwise_cons.mpr ⟨fun z hz => ?_, h⟩
      rcases List.mem_cons.mp hz with rfl | hz
      · exact hlt
      · exact hlt.trans (hy z hz)
    · next hge =>
      split
      · exact h
      · next hne =>
        refine List.pairwise_cons.mpr ⟨fun z hz => ?_, ih hl⟩
        rcases (mem_insertSerial x z l).mp hz with rfl | hz
        · exact lt_of_le_of_ne (not_lt.mp hge) fun heq => hne (BitVec.eq_of_toNat_eq heq.symm)
        · exact hy z hz

theorem mem_mergeSerials (new list : List Word) (w : Word) : w ∈ mergeSerials new list ↔ w ∈ list ∨ w ∈ new := by
  induction new with
  | nil => simp [mergeSerials]
  | cons x new ih =>
    show w ∈ insertSerial x (mergeSerials new list) ↔ _
    rw [mem_insertSerial, ih, List.mem_cons]
    exact or_left_comm

theorem mergeSerials_sorted (new list : List Word) (h : list.Pairwise fun x y => x.toNat < y.toNat) :
    (mergeSerials new list).Pairwise fun x y => x.toNat < y.toNat := by
  induction new with
  | nil => exact h
  | cons x new ih => exact insertSerial_sorted x _ ih

theorem holdsOne_iff (ws : List Word) (x : Session) :
    holdsOne ws x = true ↔ ∃ i, x.identity = some i ∧ i.serial ∈ ws := by
  unfold holdsOne Session.serial
  cases x.identity <;> simp

/-! ## An audit's course (R99, R128) -/

/-- The serials that are in the list already are passed over. -/
theorem nextSerial_done (list l : List Word) (h : ∀ w ∈ l, w ∈ list) : nextSerial list l = .done := by
  induction l with
  | nil => rfl
  | cons x l ih =>
    rw [nextSerial, if_pos (List.contains_iff_mem.mpr (h x (List.mem_cons_self ..)))]
    exact ih fun w hw => h w (List.mem_cons_of_mem _ hw)

/-- The first serial that is not in the list gets the next job, unless the list is full. -/
theorem nextSerial_first (list l1 : List Word) (y : Word) (l2 : List Word) (h : ∀ w ∈ l1, w ∈ list) (hy : y ∉ list) :
    nextSerial list (l1 ++ y :: l2) = if 256 ≤ list.length then .full else .job y l2 := by
  induction l1 with
  | nil => rw [List.nil_append, nextSerial, if_neg (by rw [List.contains_iff_mem]; exact hy)]
  | cons x l1 ih =>
    rw [List.cons_append, nextSerial, if_pos (List.contains_iff_mem.mpr (h x (List.mem_cons_self ..)))]
    exact ih fun w hw => h w (List.mem_cons_of_mem _ hw)

theorem Part.auditWithdrawNext_done (p : Part) (a : Audit) (l : List Word) (h : ∀ w ∈ l, w ∈ p.trust.withdrawn) :
    p.auditWithdrawNext a l = p.setAudit (some { a with phase := .ready }) := by
  rw [Part.auditWithdrawNext, nextSerial_done _ l h]

theorem Part.auditWithdrawNext_full (p : Part) (a : Audit) (l1 : List Word) (y : Word) (l2 : List Word)
    (h : ∀ w ∈ l1, w ∈ p.trust.withdrawn) (hy : y ∉ p.trust.withdrawn) (hf : 256 ≤ p.trust.withdrawn.length) :
    p.auditWithdrawNext a (l1 ++ y :: l2) = p.setAudit (some { a with phase := .ready, full := true }) := by
  rw [Part.auditWithdrawNext, nextSerial_first _ l1 y l2 h hy, if_pos hf]

theorem Part.auditWithdrawNext_job (p : Part) (a : Audit) (l1 : List Word) (y : Word) (l2 : List Word)
    (h : ∀ w ∈ l1, w ∈ p.trust.withdrawn) (hy : y ∉ p.trust.withdrawn) (hf : p.trust.withdrawn.length < 256)
    (hr : Running p 0x31) : p.auditWithdrawNext a (l1 ++ y :: l2) =
      (p.setAudit (some { a with phase := .withdrawing l2 })).queueJob (.table (.auditWithdrawal y)) := by
  rw [Part.auditWithdrawNext, nextSerial_first _ l1 y l2 h hy, if_neg (by omega)]
  exact if_pos ((p.running_iff 0x31).mpr hr)

theorem Part.auditWithdrawNext_local {S : Set Socket} (p : Part) (a : Audit) (l : List Word) :
    p.Local S (p.auditWithdrawNext a l) := by
  unfold Part.auditWithdrawNext
  repeat' split
  · exact p.setAudit_local _
  · exact p.setAudit_local _
  · exact (p.setAudit_local _).trans (Part.queueJob_local _ _)
  · exact p.setAudit_local _

/-- The next withdrawal changes the phase of the audit and its FULL flag alone. -/
theorem Part.auditWithdrawNext_audit (p : Part) (a : Audit) (l : List Word) :
    ∃ phase full, (p.auditWithdrawNext a l).engine.audit = some { a with phase := phase, full := full } := by
  unfold Part.auditWithdrawNext
  repeat' split
  · exact ⟨_, _, rfl⟩
  · exact ⟨_, _, rfl⟩
  · rw [Part.queueJob_engine]
    exact ⟨_, _, rfl⟩
  · exact ⟨_, _, rfl⟩

/-! ## The mass failure test (R99) -/

theorem Audit.mismatches_eq (a : Audit) :
    a.mismatches = allSockets.countP fun n => a.results.get n == some .mismatch := by
  refine List.countP_congr fun n _ => ?_
  cases a.results.get n <;> simp

theorem Audit.allResults_iff (a : Audit) : a.allResults = true ↔ ∀ n, a.results.get n ≠ none := by
  unfold Audit.allResults
  simp only [List.all_eq_true, Option.isSome_iff_ne_none]
  exact ⟨fun h n => h n (Socket.mem_all n), fun h n _ => h n⟩

/-- With every result in, those that count against a mass failure are neither SKIPPED nor REMOVED. -/
theorem Audit.massFailure_iff (a : Audit) (h : ∀ n, a.results.get n ≠ none) :
    a.massFailure = true ↔ 2 ≤ a.mismatches ∧
      allSockets.countP (fun n => a.results.get n != some .skipped && a.results.get n != some .removed) <
        2 * a.mismatches := by
  have hcount : a.count (fun o => o != .skipped && o != .removed) =
      allSockets.countP (fun n => a.results.get n != some .skipped && a.results.get n != some .removed) := by
    refine List.countP_congr fun n _ => ?_
    cases hn : a.results.get n with
    | none => exact absurd hn (h n)
    | some o => simp [bne]
  rw [Audit.massFailure, hcount]
  simp

theorem Part.auditTest_idle (p : Part) (a : Audit) (ha : p.engine.audit = some a)
    (h : a.phase ≠ .collecting ∨ ∃ n, a.results.get n = none) : p.auditTest = p := by
  unfold Part.auditTest
  simp only [ha]
  split
  · next hp =>
    obtain ⟨n, hn⟩ := h.resolve_left (not_not_intro hp)
    refine if_neg fun hall => ?_
    exact (a.allResults_iff.mp hall) n hn
  · rfl
  · rfl

theorem Part.auditTest_complete (p : Part) (a : Audit) (ha : p.engine.audit = some a) (hp : a.phase = .collecting)
    (h : ∀ n, a.results.get n ≠ none) : p.auditTest = p.massTest a := by
  unfold Part.auditTest
  simp only [ha, hp]
  exact if_pos (a.allResults_iff.mpr h)

/-! ## Serials taking effect under an audit (R98, R125) -/

/-- The audit is as before but for its results and the serials kept with them. -/
def Part.SameCourse (p q : Part) : Prop :=
  ∀ a, p.engine.audit = some a →
    ∃ results serials, q.engine.audit = some { a with results := results, serials := serials }

theorem Part.SameCourse.trans {p q r : Part} (h : p.SameCourse q) (k : q.SameCourse r) : p.SameCourse r := by
  intro a ha
  obtain ⟨results, serials, hq⟩ := h a ha
  obtain ⟨results', serials', hr⟩ := k _ hq
  exact ⟨results', serials', hr⟩

theorem Part.SameCourse.of_eq {p q : Part} (h : q.engine.audit = p.engine.audit) : p.SameCourse q :=
  fun a ha => ⟨a.results, a.serials, h.trans ha⟩

theorem Part.auditResult_course (p : Part) (n : Socket) (o : AuditOutcome) : p.SameCourse (p.auditResult n o) := by
  intro a ha
  unfold Part.auditResult
  simp only [ha]
  split
  · exact ⟨_, _, rfl⟩
  · exact ⟨a.results, a.serials, ha⟩

theorem Part.discardChallenge_audit (p : Part) (n : Socket) : (p.discardChallenge n).engine.audit = p.engine.audit := by
  unfold Part.discardChallenge
  split
  · rfl
  · dsimp only
    split <;> rfl

theorem Part.reportSession_engine (p : Part) (n : Socket) : (p.reportSession n).engine = p.engine := by
  rw [Part.reportSession, Part.recompute_engine, Part.place_engine]

theorem Part.withdraw_course (p : Part) (n : Socket) : p.SameCourse (p.withdraw n) := by
  unfold Part.withdraw
  dsimp only
  have hdiscard : p.SameCourse ((p.discardChallenge n).setSession n { (p.discardChallenge n).session n with
      state := .withdrawn, reason := some .withdrawn, recheck := none }) := .of_eq (p.discardChallenge_audit n)
  refine (hdiscard.trans (Part.auditResult_course _ n .removed)).trans (.of_eq ?_)
  rw [Part.reportSession_engine, Part.log_engine]

theorem Part.withdrawAll_course (p : Part) (test : Session → Bool) : p.SameCourse (p.orderAll test .withdraw) := by
  have hstep (n : Socket) (q : Part) : q.SameCourse (if test (q.session n) then q.order n .withdraw else q) := by
    unfold Part.order
    split
    · split
      · exact q.withdraw_course n
      · exact .of_eq rfl
    · exact .of_eq rfl
  exact (((hstep 0 p).trans (hstep 1 _)).trans (hstep 2 _)).trans (hstep 3 _)

/-! ## The parts of the jobs' ends (R125, R126, R128) -/

/-- The part once serials stand in the list and the sessions that hold one are withdrawn. -/
def Part.serialsOrdered (p : Part) (new : List Word) : Part :=
  (p.setWithdrawn (mergeSerials new p.trust.withdrawn)).orderAll (holdsOne new) .withdraw

theorem Part.takeSerials_eq (p : Part) (new : List Word) :
    p.takeSerials new = (p.serialsOrdered new).log (tableChange 3 4 new.length) := rfl

theorem Part.serialsOrdered_local (p : Part) (new : List Word) :
    (p.setTrust { p.trust with withdrawn := mergeSerials new p.trust.withdrawn }).Local Set.univ
      (p.serialsOrdered new) :=
  (p.setWithdrawn (mergeSerials new p.trust.withdrawn)).orderEach_local (holdsOne new) fun _ => .withdraw

theorem Part.serialsOrdered_other (p : Part) (new : List Word) (n : Socket)
    (h : (p.session n).state.live = false ∨ ∀ i, (p.session n).identity = some i → i.serial ∉ new) :
    (p.serialsOrdered new).session n = p.session n := by
  refine Part.orderEach_other _ (holdsOne new) (fun _ => .withdraw) n (h.symm.imp_left fun hi => ?_)
  rw [Bool.eq_false_iff, ne_eq, holdsOne_iff]
  rintro ⟨i, hid, hmem⟩
  exact hi i hid hmem

theorem Part.serialsOrdered_withdrawn (p : Part) (new : List Word) (n : Socket) (i : Identity)
    (hl : (p.session n).state.live = true) (hi : (p.session n).identity = some i) (hm : i.serial ∈ new) :
    (p.serialsOrdered new).session n =
      { p.session n with state := .withdrawn, reason := some .withdrawn, challenge := none, recheck := none } :=
  Part.orderEach_withdrawn (p.setWithdrawn (mergeSerials new p.trust.withdrawn)) (holdsOne new) n
    ((holdsOne_iff new _).mpr ⟨i, hi, hm⟩) hl

theorem Part.auditJobEnded_withdrawing (p : Part) (a : Audit) (rest : List Word) (ok : Bool)
    (ha : p.engine.audit = some a) (hp : a.phase = .withdrawing rest) :
    p.auditJobEnded ok = if ok then p.auditWithdrawNext { a with withdrawnCount := a.withdrawnCount + 1 } rest
      else p.setAudit (some { a with failed := true, phase := .ready }) := by
  simp only [Part.auditJobEnded, ha, hp]

theorem Part.auditJobEnded_local {S : Set Socket} (p : Part) (ok : Bool) : p.Local S (p.auditJobEnded ok) := by
  unfold Part.auditJobEnded
  repeat' split
  · exact .refl p
  · exact p.auditWithdrawNext_local _ _
  · exact p.setAudit_local _
  · exact .refl p
  · exact .refl p

/-- A stored audit withdrawal: its serial takes effect, and the audit goes on to the next one. -/
theorem Part.auditWithdrawalDone_stored (p : Part) (x : Word) (a : Audit) (rest : List Word)
    (ha : p.engine.audit = some a) (hp : a.phase = .withdrawing rest) :
    ∃ results serials, p.auditWithdrawalDone x true = ((p.serialsOrdered [x]).log (tableChange 3 4 1)).auditWithdrawNext
      { a with results := results, serials := serials, withdrawnCount := a.withdrawnCount + 1 } rest := by
  obtain ⟨results, serials, hq⟩ := (p.setWithdrawn (mergeSerials [x] p.trust.withdrawn)).withdrawAll_course (holdsOne [x]) a ha
  have hlog : ((p.serialsOrdered [x]).log (tableChange 3 4 1)).engine.audit =
      some { a with results := results, serials := serials } := by
    rw [Part.log_engine]
    exact hq
  exact ⟨results, serials, Part.auditJobEnded_withdrawing _ _ rest true hlog hp⟩

theorem Part.auditWithdrawalDone_local (p : Part) (x : Word) :
    (p.setTrust { p.trust with withdrawn := mergeSerials [x] p.trust.withdrawn }).Local Set.univ
      (p.auditWithdrawalDone x true) :=
  ((p.serialsOrdered_local [x]).trans (Part.log_local _ _)).trans (Part.auditJobEnded_local _ true)

end Sys2Proof.Machine

namespace Sys2Proof.Proofs
open Sys2Proof Sys2Proof.Machine Sys2Proof.Claims

/-! ## The mass failure test and the withdrawal jobs (R99, R125, R126, R128) -/

/-- The test that follows an audit's last result. -/
theorem auditTest_lands (p : Part) (a : Audit) (m k : Nat) (ha : p.engine.audit = some a)
    (hm : m = allSockets.countP (fun n => a.results.get n == some .mismatch))
    (hk : k = allSockets.countP (fun n => a.results.get n != some .skipped && a.results.get n != some .removed))
    (hp : a.phase = .collecting) (hall : ∀ n, a.results.get n ≠ none) :
    (a.withdraw = false ∨ m = 0 → p.auditTest = p.setAudit (some { a with phase := .ready })) ∧
    (a.withdraw = true → 2 ≤ m → k < 2 * m →
      p.auditTest = (p.setAudit (some { a with phase := .ready, mass := true })).momentary .massFail) ∧
    (a.withdraw = true → 0 < m → m < 2 ∨ 2 * m ≤ k → p.auditTest = p.auditWithdrawNext a a.failedSerials) := by
  have hmass : a.massFailure = true ↔ 2 ≤ m ∧ k < 2 * m := by rw [hm, hk, ← a.mismatches_eq, a.massFailure_iff hall]
  rw [p.auditTest_complete a ha hp hall, Part.massTest, a.mismatches_eq, ← hm]
  refine ⟨fun h => if_pos (by simpa using h), fun hw h2 hlt => ?_, fun hw h0 h => ?_⟩
  · rw [if_neg (by simp [hw]; omega), if_pos (hmass.mpr ⟨h2, hlt⟩)]
  · rw [if_neg (by simp [hw]; omega), if_neg (by rw [hmass]; omega)]

theorem withdrawAdd_lands (s : State) (new : List Word) :
    JobEnded .withdrawAddComplete s (.table (.withdrawAdd new)) (fun r t =>
      (r = .success →
        t.part.trust = { s.part.trust with withdrawn := mergeSerials new s.part.trust.withdrawn } ∧
        (LogRoom t.part → Logged t.part
          { type := 7, socket := 7, detail := halfOf (0x3400 + new.length), data := [] }) ∧
        (Running s.part 0x18 → Carries t.part (response 0x18 .done
          [Word.ofBytesHalf (byteOf new.length) 0 (halfOf t.part.trust.withdrawn.length)])) ∧
        ∀ n, t.part.session n =
          ((s.part.released s.array (.table (.withdrawAdd new)) .success).serialsOrdered new).session n) ∧
      (r ≠ .success → JobFailed 0x18 s t)) := by
  refine tableJobEnded_of .withdrawAddComplete s _ _ (Part.withdrawAddDone new) 0x18 _ (fun _ => rfl) rfl
    (fun _ => rfl) (fun p => JobFrame.trans (p.serialsOrdered_local new).frame (Part.logComplete_frame _ _ _ _))
    fun a => ?_
  have hloc := (s.part.released s.array (.table (.withdrawAdd new)) .success).serialsOrdered_local new
  generalize hw : [((s.part.released s.array (.table (.withdrawAdd new)) .success).takeSerials new).listWord
    (byteOf new.length)] = ws
  obtain ⟨htrust, hlog, hresp⟩ := s.part.released_succeed s.array (.table (.withdrawAdd new)) _ _ hloc
    (tableChange 3 4 new.length) 0x18 ws
  have hwords : ws = [Word.ofBytesHalf (byteOf new.length) 0
      (halfOf (mergeSerials new s.part.trust.withdrawn).length)] := by
    rw [← hw, Part.listWord, Part.takeSerials_eq, Part.log_trust, hloc.trust]
    rfl
  have heq : (Part.withdrawAddDone new true (s.part.released s.array (.table (.withdrawAdd new)) .success)).finished
      true = Part.succeed ((s.part.released s.array (.table (.withdrawAdd new)) .success).serialsOrdered new)
        (tableChange 3 4 new.length) 0x18 ws := by
    rw [← hw]
    rfl
  dsimp only
  rw [heq]
  refine ⟨htrust, hlog, fun h => ?_, fun n => (Part.succeed_units _ _ _ _).session n⟩
  have h' := hresp h
  rw [htrust]
  rw [hwords] at h' ⊢
  exact h'

theorem withdrawClear_lands (s : State) :
    JobEnded .withdrawClearComplete s (.table .withdrawClear) (fun r t =>
      (r = .success →
        t.part.trust = { s.part.trust with withdrawn := [] } ∧ t.part.engine = s.part.engine ∧
        (LogRoom t.part → Logged t.part { type := 7, socket := 7, detail := 0x3500, data := [] }) ∧
        (Running s.part 0x19 → Carries t.part (response 0x19 .done []))) ∧
      (r ≠ .success → JobFailed 0x19 s t)) := by
  refine tableJobEnded_of .withdrawClearComplete s _ _ Part.withdrawClearDone 0x19 _ (fun _ => rfl) rfl
    (fun _ => rfl) (fun p => (p.setWithdrawn []).logComplete_frame _ _ _) fun a => ?_
  obtain ⟨htrust, hlog, hresp⟩ := s.part.released_succeed s.array (.table .withdrawClear) _ _
    (.refl ((s.part.released s.array (.table .withdrawClear) .success).setWithdrawn [])) (tableChange 3 5 0) 0x19 []
  exact ⟨htrust, (Part.succeed_units _ _ _ _).engine, hlog, hresp⟩

end Sys2Proof.Proofs

namespace Sys2Proof.Proofs
open Sys2Proof Sys2Proof.Machine Sys2Proof.Claims

/-! ## The end of an audit's withdrawal job (R99, R128) -/

/-- The phase that a stored withdrawal leaves the audit in, and the next job (R128). -/
theorem auditWithdrawNext_phases (p : Part) (a : Audit) (l : List Word) (e : LogEntry) (hs : p.ctl.Settled) :
    let t := ((p.log e).auditWithdrawNext a l).finished true
    ∃ a', t.engine.audit = some a' ∧ a'.withdrawnCount = a.withdrawnCount ∧
      (LogRoom t → Logged t e) ∧
      ((∀ w ∈ l, w ∈ p.trust.withdrawn) → a'.phase = .ready ∧ a'.full = a.full) ∧
      ∀ l1 y l2, l = l1 ++ y :: l2 → (∀ w ∈ l1, w ∈ p.trust.withdrawn) → y ∉ p.trust.withdrawn →
        (256 ≤ p.trust.withdrawn.length → a'.phase = .ready ∧ a'.full = true) ∧
        (p.trust.withdrawn.length < 256 → Running p 0x31 →
          a'.phase = .withdrawing l2 ∧ .table (.auditWithdrawal y) ∈ t.ctl.jobs) := by
  intro t
  have hf : ((p.log e).auditWithdrawNext a l).Local ∅ t := Part.finished_local _ true
  have haud : t.engine.audit = ((p.log e).auditWithdrawNext a l).engine.audit := by
    rw [(Part.finished_units _ true).engine]
  obtain ⟨phase, full, hph⟩ := (p.log e).auditWithdrawNext_audit a l
  have htrust : (p.log e).trust = p.trust := p.log_trust e
  refine ⟨_, haud.trans hph, rfl, fun hroom => ?_, fun hall => ?_, fun l1 y l2 hl h1 hy => ⟨fun hfull => ?_, fun hlt hrun => ?_⟩⟩
  · exact p.logged_of_queued t e hs (((Part.auditWithdrawNext_local (S := ∅) _ a l).trans hf).ctl) hroom
  · rw [Part.auditWithdrawNext_done _ a l (by rwa [htrust])] at hph
    cases hph
    exact ⟨rfl, rfl⟩
  · rw [hl, Part.auditWithdrawNext_full _ a l1 y l2 (by rwa [htrust]) (by rwa [htrust]) (by rwa [htrust])] at hph
    cases hph
    exact ⟨rfl, rfl⟩
  · have heq := Part.auditWithdrawNext_job (p.log e) a l1 y l2 (by rwa [htrust]) (by rwa [htrust]) (by rwa [htrust])
      ((p.log_local (S := ∅) e).running _ hrun)
    rw [← hl] at heq
    rw [heq, Part.queueJob_engine] at hph
    cases hph
    refine ⟨rfl, hf.ctl.jobs _ rfl ?_⟩
    rw [heq, Part.queueJob, Part.setCtl_ctl, StoreCtl.append_start_jobs]
    exact List.mem_append_right _ (List.mem_singleton_self _)

/-- The list that new serials are merged into, and what becomes of the sessions (R123, R125). -/
theorem serialsOrdered_effects (p : Part) (new : List Word) :
    (∀ w, w ∈ mergeSerials new p.trust.withdrawn ↔ w ∈ p.trust.withdrawn ∨ w ∈ new) ∧
    (p.trust.withdrawn.Pairwise (fun x y => x.toNat < y.toNat) →
      (mergeSerials new p.trust.withdrawn).Pairwise (fun x y => x.toNat < y.toNat)) ∧
    (∀ n, (p.session n).state.live = false ∨ (∀ i, (p.session n).identity = some i → i.serial ∉ new) →
      (p.serialsOrdered new).session n = p.session n) ∧
    ∀ n i, (p.session n).state.live = true → (p.session n).identity = some i → i.serial ∈ new →
      ((p.serialsOrdered new).session n).state = .withdrawn ∧
      ((p.serialsOrdered new).session n).reason = some .withdrawn ∧
      ((p.serialsOrdered new).session n).challenge = none := by
  refine ⟨fun w => mem_mergeSerials new _ w, mergeSerials_sorted new _, p.serialsOrdered_other new,
    fun n i hl hi hm => ?_⟩
  rw [p.serialsOrdered_withdrawn new n i hl hi hm]
  exact ⟨rfl, rfl, rfl⟩

/-- A stored audit withdrawal, as the part stands once the next job is in progress. -/
theorem auditWithdrawal_stored (p : Part) (x : Word) (a : Audit) (rest : List Word) (hs : p.ctl.Settled)
    (ha : p.engine.audit = some a) (hp : a.phase = .withdrawing rest) :
    let t := (p.auditWithdrawalDone x true).finished true
    ∃ a', t.engine.audit = some a' ∧ t.trust = { p.trust with withdrawn := mergeSerials [x] p.trust.withdrawn } ∧
      (∀ n, t.session n = (p.serialsOrdered [x]).session n) ∧
      (LogRoom t → Logged t { type := 7, socket := 7, detail := 0x3401, data := [] }) ∧
      a'.withdrawnCount = a.withdrawnCount + 1 ∧
      ((∀ w ∈ rest, w ∈ t.trust.withdrawn) → a'.phase = .ready ∧ a'.full = a.full) ∧
      (∀ l1 y l2, rest = l1 ++ y :: l2 → (∀ w ∈ l1, w ∈ t.trust.withdrawn) → y ∉ t.trust.withdrawn →
        (256 ≤ t.trust.withdrawn.length → a'.phase = .ready ∧ a'.full = true) ∧
        (t.trust.withdrawn.length < 256 → Running p 0x31 →
          a'.phase = .withdrawing l2 ∧ .table (.auditWithdrawal y) ∈ t.ctl.jobs)) := by
  intro t
  have hloc := p.serialsOrdered_local [x]
  obtain ⟨results, serials, heq⟩ := p.auditWithdrawalDone_stored x a rest ha hp
  obtain ⟨a', ha', hcount, hlog, hdone, hnext⟩ := auditWithdrawNext_phases (p.serialsOrdered [x])
    { a with results := results, serials := serials, withdrawnCount := a.withdrawnCount + 1 } rest (tableChange 3 4 1)
    (hloc.ctl.settled hs)
  rw [← heq] at ha' hlog hnext
  have htrust : t.trust = (p.serialsOrdered [x]).trust := by
    rw [(Part.finished_units _ true).trust, (p.auditWithdrawalDone_local x).trust, hloc.trust]
  have hsess (n : Socket) : t.session n = (p.serialsOrdered [x]).session n := by
    rw [(Part.finished_units _ true).session, heq, (Part.auditWithdrawNext_local _ _ _).session_eq,
      (Part.log_local _ _).session_eq]
  refine ⟨a', ha', htrust.trans hloc.trust, hsess, hlog, hcount, ?_, ?_⟩
  · rwa [htrust]
  · rw [htrust]
    exact fun l1 y l2 hl h1 hy => (hnext l1 y l2 hl h1 hy).imp id fun h hlt hrun => h hlt (hloc.running _ hrun)

/-- Settles O45, by cases on how the job ends. -/
theorem withdrawalJobsLandAtTheirCompletion : Obligations.WithdrawalJobsLandAtTheirCompletion := by
  refine ⟨fun p a m k ha hm hk => ⟨p.auditTest_idle a ha, fun hp hall => ?_⟩, fun s => ⟨fun new => ?_,
    withdrawClear_lands s, fun x a rest ha hp => ?_⟩⟩
  · obtain ⟨hnone, hmass, hnext⟩ := auditTest_lands p a m k ha hm hk hp hall
    refine ⟨hnone, hmass, fun hw h0 h l hl => ?_⟩
    have hfailed : a.failedSerials = l := hl.symm
    rw [hnext hw h0 h, hfailed]
    refine ⟨p.auditWithdrawNext_done a l, fun l1 y l2 hsplit h1 hy => ?_⟩
    subst hsplit
    refine ⟨p.auditWithdrawNext_full a l1 y l2 h1 hy, fun hlt hrun => ?_⟩
    rw [p.auditWithdrawNext_job a l1 y l2 h1 hy hlt hrun]
    exact Part.queueJob_eq_withJob _ _
  · refine jobEnded_imp (withdrawAdd_lands s new) fun t ht => ?_
    obtain ⟨htrust, hlog, hresp, hsess⟩ := ht
    obtain ⟨hmem, hsort, hother, hwith⟩ :=
      serialsOrdered_effects (s.part.released s.array (.table (.withdrawAdd new)) .success) new
    have hlist : t.part.trust.withdrawn = mergeSerials new s.part.trust.withdrawn := by rw [htrust]
    simp only [hsess]
    rw [hlist]
    exact ⟨hmem, hsort, htrust, hlog, by rwa [hlist] at hresp, hother, hwith⟩
  · refine jobEnded_of .auditWithdrawalComplete s _ _ (Part.auditWithdrawalDone x) _ (fun _ => rfl) rfl
      (fun ok p => ?_) fun r => ?_
    · cases ok with
      | true => exact (p.auditWithdrawalDone_local x).frame
      | false => exact (p.auditJobEnded_local (S := ∅) false).frame
    dsimp only
    by_cases hr : r = .success
    · have hend := s.part.jobEnded_eq s.array (.table (.auditWithdrawal x)) .success (Part.auditWithdrawalDone x)
      rw [show jobOk .success = true from rfl] at hend
      obtain ⟨a', ha', htrust, hsess, hlog, hcount, hdone, hnext⟩ := auditWithdrawal_stored
        (s.part.released s.array (.table (.auditWithdrawal x)) .success) x a rest (s.part.released_settled _ _ _) ha hp
      obtain ⟨hmem, hsort, hother, hwith⟩ :=
        serialsOrdered_effects (s.part.released s.array (.table (.auditWithdrawal x)) .success) [x]
      simp only [List.mem_singleton] at hmem hother hwith
      rw [hr, hend]
      refine ⟨a', ha', fun _ => ?_, fun h => absurd rfl h⟩
      have hlist := congrArg Trust.withdrawn htrust
      simp only [hsess]
      refine ⟨by rw [hlist]; exact hmem, by rw [hlist]; exact hsort, ?_, hlog, hcount, hdone, hnext, hwith, hother⟩
      rw [hlist]
      exact htrust
    · have hfail := Part.auditJobEnded_withdrawing (s.part.released s.array (.table (.auditWithdrawal x)) r) a rest false
        ha hp
      have hunits := Part.finished_units
        ((s.part.released s.array (.table (.auditWithdrawal x)) r).setAudit
          (some { a with failed := true, phase := .ready })) false
      have hend : s.part.jobEnded s.array (.table (.auditWithdrawal x)) r (Part.auditWithdrawalDone x) =
          ((s.part.released s.array (.table (.auditWithdrawal x)) r).setAudit
            (some { a with failed := true, phase := .ready })).finished false := by
        rw [Part.jobEnded_eq, jobOk_of_ne hr, Part.auditWithdrawalDone, if_neg Bool.false_ne_true, hfail,
          if_neg Bool.false_ne_true]
      rw [hend, hunits.engine, hunits.trust]
      exact ⟨_, rfl, fun h => absurd h hr, fun _ => ⟨rfl, rfl, hunits.session⟩⟩
end Sys2Proof.Proofs

namespace Sys2Proof.Machine
open Sys2Proof.Claims

/-! ## Where a log entry goes (R180) -/

/-- An entry of the array in its canonical form is what its address reads, and is not erased. -/
theorem StoreArray.readWord_of_mem (a : StoreArray) (h : a.wf = true) (e : Nat × Word) (he : e ∈ a) :
    readWord a e.1 = e.2 ∧ e.2 ≠ erased := by
  induction a with
  | nil => exact absurd he (List.not_mem_nil)
  | cons x a ih =>
    obtain ⟨-, hx, hlt, ha⟩ := (StoreArray.wf_cons x.1 x.2 a).mp h
    rcases List.mem_cons.mp he with rfl | he
    · exact ⟨by rw [readWord, if_pos rfl], hx⟩
    · rw [readWord, if_neg (hlt e he).ne]
      exact ih ha he

/-- A sector is taken as wholly erased when each of its words reads erased. -/
theorem logErased_iff (a : StoreArray) (k : Fin 8) (h : a.wf = true) :
    logErased a k = true ↔ ∀ i, i < 128 → readWord a (logBase k + i) = erased := by
  unfold logErased
  simp only [List.all_eq_true, Bool.or_eq_true, decide_eq_true_eq]
  constructor
  · intro hall i hi
    by_contra hne
    have hout := hall _ (mem_of_readWord_ne_erased a (logBase k + i) hne)
    dsimp only at hout
    omega
  · intro hall e he
    by_contra hin
    obtain ⟨hread, hne⟩ := a.readWord_of_mem h e he
    have herased := hall (e.1 - logBase k) (by omega)
    rw [show logBase k + (e.1 - logBase k) = e.1 by omega, hread] at herased
    exact hne herased

/-- The sectors after a given one that come before the `j`-th are those at a smaller distance. -/
theorem sectorsAfter_split (k j : Fin 8) (hj : j ≠ 0) : ∃ before after, sectorsAfter k = before ++ (k + j) :: after ∧
    ∀ m ∈ before, ∃ i, i ≠ 0 ∧ i < j ∧ m = k + i := by
  refine ⟨(sectorsAfter k).take (j.val - 1), (sectorsAfter k).drop j.val, ?_⟩
  revert hj j k
  decide

/-- The sector taken is the first after the write sector that is not in use. -/
theorem newLogSector_first (a : StoreArray) (q : LogPos) (j : Fin 8) (hj : j ≠ 0)
    (hfree : logInUse a (q.sector + j) = false)
    (hused : ∀ i : Fin 8, i ≠ 0 → i < j → logInUse a (q.sector + i) = true) :
    newLogSector a (some q) = q.sector + j := by
  obtain ⟨before, after, hsplit, hbefore⟩ := sectorsAfter_split q.sector j hj
  have hfind : (sectorsAfter q.sector).find? (fun k => !logInUse a k) = some (q.sector + j) := by
    refine List.find?_eq_some_iff_append.mpr ⟨by simp [hfree], before, after, hsplit, fun m hm => ?_⟩
    obtain ⟨i, hi, hlt, rfl⟩ := hbefore m hm
    simp [hused i hi hlt]
  simp only [newLogSector, hfind]

/-- With every sector in use the one with the lowest sequence number is taken. -/
theorem newLogSector_lowest (a : StoreArray) (q : LogPos) (h : ∀ k, logInUse a k = true) (k : Fin 8) :
    (logSeq a (newLogSector a (some q))).toNat ≤ (logSeq a k).toNat := by
  have hfind : (sectorsAfter q.sector).find? (fun k => !logInUse a k) = none :=
    List.find?_eq_none.mpr fun m _ => by simp [h m]
  obtain ⟨m, hm⟩ := bestSector_isSome a (fun x y => x.toNat < y.toNat) logSectors (by decide)
  simp only [newLogSector, hfind, hm, Option.getD_some]
  exact bestSector_le a _ m hm k (mem_logSectors k)

/-- An entry for which the write sector has room goes to the write position. -/
theorem logPlan_room (a : StoreArray) (q : LogPos) (first : Bool) (e : LogEntry) (h : q.offset + 1 + e.data.length ≤ 128) :
    logPlan a (some q) first e = { room := [], body := entrySteps first e q, pos := q } := by
  have hroom : logRoom (some q) (1 + e.data.length) = some q := if_pos (by omega)
  simp only [logPlan, hroom]

/-- Otherwise it is the first entry of a new sector. -/
theorem logPlan_new (a : StoreArray) (pos : Option LogPos) (first : Bool) (e : LogEntry)
    (h : pos = none ∨ ∃ q, pos = some q ∧ 128 < q.offset + 1 + e.data.length) :
    (logPlan a pos first e).pos = { sector := newLogSector a pos, seq := newLogSeq pos, offset := 1 } ∧
    (logPlan a pos first e).room = (if logErased a (newLogSector a pos) then [] else
      [.erase (7 + (newLogSector a pos).val)]) ++ [.program (logBase (newLogSector a pos)) (newLogSeq pos)] := by
  have hroom : logRoom pos (1 + e.data.length) = none := by
    rcases h with rfl | ⟨q, rfl, hq⟩
    · rfl
    · exact if_neg (by omega)
  simp only [logPlan, hroom]
  exact ⟨trivial, trivial⟩

/-- Wherever it goes, an entry takes its header, its data, and its header again with the commit bit 0. -/
theorem logPlan_body (a : StoreArray) (pos : Option LogPos) (first : Bool) (e : LogEntry) :
    (logPlan a pos first e).body = entrySteps first e (logPlan a pos first e).pos := by
  unfold logPlan
  split <;> rfl

/-- The three fields of the header word that R13 and Table 1.20 place, and the words around it. -/
theorem entrySteps_words (first : Bool) (e : LogEntry) (q : LogPos) (h1 : e.type < 16) (h2 : e.socket < 8)
    (h3 : e.data.length < 4) : ∃ h : Word,
      entrySteps first e q = [.program (logBase q.sector + q.offset) h] ++
        (e.data.zipIdx (logBase q.sector + q.offset + 1)).map (fun x => .program x.2 x.1) ++
        [.program (logBase q.sector + q.offset) (h &&& 0x7FFFFFFF)] ∧
      h.getLsbD 31 = true ∧ h.getLsbD 30 = !first ∧ (h.extractLsb' 26 4).toNat = e.type ∧
      (h.extractLsb' 23 3).toNat = e.socket ∧ (h.extractLsb' 21 2).toNat = e.data.length ∧
      h.extractLsb' 16 5 = (0 : BitVec 5) ∧ h.extractLsb' 0 16 = e.detail := by
  obtain ⟨⟨hcommit, hfirst⟩, htype, hsocket, hlength, hzero, hdetail⟩ := header_fields (logHeader first e) _ _ _ _ _
    (Bool.toNat_lt (!first)) h1 h2 h3 e.detail.isLt (logHeader_toNat first e h1 h2 h3)
  refine ⟨logHeader first e, ?_, hcommit, ?_, htype, hsocket, hlength, BitVec.eq_of_toNat_eq hzero,
    BitVec.eq_of_toNat_eq hdetail⟩
  · rw [← programAll_eq_map]
    rfl
  · rw [hfirst]
    cases first <;> rfl

/-! ## The log entries of sessions (R14) -/

theorem Part.discardChallenge_ctl (p : Part) (n : Socket) : (p.discardChallenge n).ctl = p.ctl := by
  unfold Part.discardChallenge
  split
  · rfl
  · dsimp only
    split <;> rfl

theorem Part.auditResult_ctl (p : Part) (n : Socket) (o : AuditOutcome) : (p.auditResult n o).ctl = p.ctl := by
  unfold Part.auditResult
  repeat' split
  all_goals rfl

/-- An entry logged stands among the jobs after an action of the part. -/
theorem Part.Local.logged {S : Set Socket} {p q : Part} (h : p.Local S q) {e : LogEntry} (hl : Logged p e) : Logged q e :=
  h.ctl.jobs _ rfl hl

theorem Part.refuse_logged (p : Part) (n : Socket) (r : Reason) (h : LogRoom p) :
    Logged (p.refuse n r) (refusalEntry n r (p.session n).serial) := by
  refine (((Part.countReason_local (S := ∅) _ r _)).trans (Part.reportSession_local _ n)).logged ?_
  refine Part.log_logged _ _ ?_
  unfold LogRoom
  rw [Part.auditResult_ctl, Part.setSession_ctl, Part.discardChallenge_ctl]
  exact h

theorem Part.withdraw_logged (p : Part) (n : Socket) (h : LogRoom p) :
    Logged (p.withdraw n) (withdrawnHit n (p.session n).serial) := by
  refine (Part.reportSession_local (S := ∅) _ n).logged ?_
  refine Part.log_logged _ _ ?_
  unfold LogRoom
  rw [Part.auditResult_ctl, Part.setSession_ctl, Part.discardChallenge_ctl]
  exact h

theorem Part.endSession_of_ne (p : Part) (n : Socket) (h : (p.session n).state ≠ .none) :
    p.endSession n = (p.closeSession n).reportSession n := by
  unfold Part.endSession
  split
  · next hn => exact absurd hn h
  · rfl

theorem Part.closeSession_ctl (p : Part) (n : Socket) (i : Identity) (h : (p.session n).identity = some i) :
    (p.closeSession n).ctl = ((p.discardChallenge n).log (peakEntry n i (p.session n).peak)).ctl := by
  have hpeak : (p.discardChallenge n).logPeak n = (p.discardChallenge n).log (peakEntry n i (p.session n).peak) := by
    simp only [Part.logPeak, p.discardChallenge_session n, h]
  rw [← hpeak]
  exact Part.auditResult_ctl _ n .removed

theorem Part.endSession_logged (p : Part) (n : Socket) (i : Identity) (hs : (p.session n).state ≠ .none)
    (hi : (p.session n).identity = some i) (h : LogRoom p) :
    Logged (p.endSession n) (peakEntry n i (p.session n).peak) := by
  rw [p.endSession_of_ne n hs]
  refine (Part.reportSession_local (S := ∅) _ n).logged ?_
  unfold Logged
  rw [p.closeSession_ctl n i hi]
  refine Part.log_logged _ _ ?_
  unfold LogRoom
  rw [Part.discardChallenge_ctl]
  exact h

end Sys2Proof.Machine

namespace Sys2Proof.Proofs
open Sys2Proof Sys2Proof.Machine Sys2Proof.Claims

/-! ## The place and the words of log entries (R13, R14, R180) -/

theorem logPlan_newSector (a : StoreArray) (pos : Option LogPos) (first : Bool) (e : LogEntry) (plan : LogPlan)
    (base : Nat) (ha : a.wf = true) (hplan : plan = logPlan a pos first e)
    (hbase : base = logBase plan.pos.sector)
    (h : pos = none ∨ ∃ q, pos = some q ∧ 128 < q.offset + 1 + e.data.length) :
    plan.pos.offset = 1 ∧
    ((∀ i, i < 128 → readWord a (base + i) = 0xFFFFFFFF) → plan.room = [.program base plan.pos.seq]) ∧
    (∀ i, i < 128 → readWord a (base + i) ≠ 0xFFFFFFFF →
      plan.room = [.erase (7 + plan.pos.sector.val), .program base plan.pos.seq]) ∧
    (pos = none → plan.pos.sector = 0 ∧ plan.pos.seq = 0) ∧
    (∀ q, pos = some q → plan.pos.seq = q.seq + 1 ∧
      (∀ j : Fin 8, j ≠ 0 → logInUse a (q.sector + j) = false →
        (∀ i : Fin 8, i ≠ 0 → i < j → logInUse a (q.sector + i) = true) → plan.pos.sector = q.sector + j) ∧
      ((∀ k, logInUse a k = true) → ∀ k, (logSeq a plan.pos.sector).toNat ≤ (logSeq a k).toNat)) := by
  obtain ⟨hpos, hroom⟩ := logPlan_new a pos first e h
  rw [← hplan] at hpos hroom
  rw [hbase, hroom, hpos]
  refine ⟨rfl, fun hall => ?_, fun i hi hne => ?_, fun hnone => ?_, fun q hq => ?_⟩
  · rw [if_pos ((logErased_iff a _ ha).mpr hall)]
    rfl
  · rw [if_neg fun hall => hne ((logErased_iff a _ ha).mp hall i hi)]
    rfl
  · rw [hnone]
    exact ⟨rfl, rfl⟩
  · rw [hq]
    exact ⟨rfl, fun j hj hfree hused => newLogSector_first a q j hj hfree hused, newLogSector_lowest a q⟩

/-- The reasons in the order of their codes (Table 7.4). -/
theorem reason_code (r : Reason) (k : Nat) (h : [Reason.noIdentity, .badIdentity, .withdrawn, .repeated, .duplicate,
    .noClass, .noKey, .mismatch, .late, .noAnswer, .exhausted][k]? = some r) : r.code = k + 1 := by
  obtain ⟨hk, rfl⟩ := List.getElem?_eq_some_iff.mp h
  clear h
  revert k
  decide

end Sys2Proof.Proofs

namespace Sys2Proof.Machine
open Sys2Proof.Claims

/-! ## Jobs kept by the reports of a job's end -/

theorem Part.changeCond_ctl (p : Part) (c : Cond) (st : CondState) : (p.changeCond c st).ctl = p.ctl :=
  Part.adviseCond_ctl _ c st

theorem Part.log_jobs (p : Part) (e : LogEntry) (j : Job) (h : j ∈ p.ctl.jobs) : j ∈ (p.log e).ctl.jobs := by
  unfold Part.log
  split
  · rw [Part.queueJob, Part.setCtl_ctl, StoreCtl.append_start_jobs]
    exact List.mem_append_left _ h
  · exact h

theorem Part.reportCause_jobs (p : Part) (c : Cond) (k : Causes) (j : Job) (h : j ∈ p.ctl.jobs) :
    j ∈ (p.reportCause c k).ctl.jobs := by
  have hclear (q : Part) : (q.clearCond c).ctl = q.ctl := by
    unfold Part.clearCond
    split
    · exact q.changeCond_ctl c _
    · rfl
    · rfl
  unfold Part.reportCause
  repeat' split
  · exact h
  · refine Part.log_jobs _ _ j ?_
    rw [Part.changeCond_ctl]
    exact h
  · rw [hclear]
    exact h
  · exact h
  · exact h

theorem Part.finished_jobs (p : Part) (ok : Bool) (j : Job) (h : j ∈ p.ctl.jobs) : j ∈ (p.finished ok).ctl.jobs :=
  p.reportCause_jobs .store _ j h

/-! ## What the controller keeps of a job (R180, R183) -/

/-- The write position, the first-entry mark and the stored copies are what the controller has made of them, whatever the
owner then queues. -/
theorem Part.jobEnded_kept (p : Part) (a : StoreArray) (j : Job) (r : JobEnd) (own : Bool → Part → Part)
    (h : ∀ ok (q : Part), q.ctl.Queued (own ok q).ctl) :
    (p.jobEnded a j r own).ctl.logPos = (p.ctl.keep a j r).logPos ∧
    (p.jobEnded a j r own).ctl.firstMark = (p.ctl.keep a j r).firstMark ∧
    (p.jobEnded a j r own).ctl.storedSettings = (p.ctl.keep a j r).storedSettings ∧
    (p.jobEnded a j r own).ctl.storedMap = (p.ctl.keep a j r).storedMap := by
  have hq : (p.released a j r).ctl.Queued (p.jobEnded a j r own).ctl :=
    (h (jobOk r) (p.released a j r)).trans (Part.finished_local (S := ∅) _ _).ctl
  obtain ⟨-, -, hfirst, hpos, hsettings, hmap⟩ := (p.ctl.keep a j r).next_fields
  exact ⟨hq.logPos.trans hpos, hq.firstMark.trans hfirst, hq.storedSettings.trans hsettings, hq.storedMap.trans hmap⟩

/-- The proof unit after a watermark job. -/
def ProofUnit.committed (x : ProofUnit) (v : Word) (ok : Bool) : ProofUnit :=
  { x with committedMark := if ok = true then v else x.committedMark }

/-- A stored watermark is committed, and a renewal that fell due meanwhile is queued (R107, R108). -/
theorem Part.watermarkDone_eq (p : Part) (v : Word) (ok : Bool) :
    p.watermarkDone v ok = if p.proof.pendingMark = v then p.setProof (p.proof.committed v ok)
      else (p.setProof (p.proof.committed v ok)).queueJob (.watermark p.proof.pendingMark) := by
  cases ok <;> rfl

theorem Part.watermarkDone_local {S : Set Socket} (p : Part) (v : Word) (ok : Bool) :
    p.Local S (p.watermarkDone v ok) := by
  rw [Part.watermarkDone_eq]
  split
  · exact p.setProof_local _
  · exact (p.setProof_local _).trans (Part.queueJob_local _ _)

/-- The units but the controller after a watermark job. -/
theorem Part.watermarkDone_units (p : Part) (v : Word) (ok : Bool) :
    (p.setProof (p.proof.committed v ok)).SameUnits (p.watermarkDone v ok) := by
  rw [Part.watermarkDone_eq]
  split
  · exact .refl _
  · exact ⟨rfl, rfl, rfl, rfl, rfl, rfl⟩

theorem Part.watermarkDone_queued (p : Part) (v : Word) (ok : Bool) (h : p.proof.pendingMark ≠ v) :
    .watermark p.proof.pendingMark ∈ (p.watermarkDone v ok).ctl.jobs := by
  rw [Part.watermarkDone_eq, if_neg h, Part.queueJob, Part.setCtl_ctl, StoreCtl.append_start_jobs]
  exact List.mem_append_right _ (List.mem_singleton_self _)

/-- The owner of a job that only logs its success and answers. -/
def Part.logAnswer (p : Part) (e : LogEntry) (code : Byte) (ws : List Word) (ok : Bool) : Part :=
  if ok then (p.log e).complete code .done ws else p.complete code .storeFault []

theorem Part.logAnswer_queued (p : Part) (e : LogEntry) (code : Byte) (ws : List Word) (ok : Bool) :
    p.ctl.Queued (p.logAnswer e code ws ok).ctl := by
  unfold Part.logAnswer
  split
  · rw [Part.complete_ctl]
    exact (p.log_local (S := ∅) e).ctl
  · rw [Part.complete_ctl]
    exact .refl _

end Sys2Proof.Machine

namespace Sys2Proof.Proofs
open Sys2Proof Sys2Proof.Machine Sys2Proof.Claims

/-! ## The ends of the rules, setting, fault map, log entry and watermark jobs -/

theorem rulesApply_lands (s : State) (rules : Vector Rule 32) :
    JobEnded .rulesApplyComplete s (.table (.rulesApply rules)) (fun r t =>
      (r = .success →
        t.part.classifier = { s.part.classifier with editing := false } ∧ t.part.engine = s.part.engine ∧
        t.part.trust = s.part.trust ∧ t.part.links = s.part.links ∧
        (LogRoom t.part → Logged t.part { type := 7, socket := 7, detail := 0x4600, data := [] }) ∧
        (Running s.part 0x22 → Carries t.part (response 0x22 .done []))) ∧
      (r ≠ .success → JobFailed 0x22 s t)) := by
  refine tableJobEnded_of .rulesApplyComplete s _ _ Part.rulesApplyDone 0x22 _ (fun _ => rfl) rfl
    (fun _ => rfl) (fun p => (p.setClassifier { p.classifier with editing := false }).logComplete_frame _ _ _)
    fun a => ?_
  generalize hq : (s.part.released s.array (.table (.rulesApply rules)) .success).setClassifier
    { s.part.classifier with editing := false } = q
  have hunits := q.succeed_units (tableChange 4 6 0) 0x22 []
  have hsettled : q.ctl.Settled := hq ▸ s.part.released_settled _ _ _
  have hrun : Running s.part 0x22 → Running q 0x22 := hq ▸ id
  have heq : (Part.rulesApplyDone true (s.part.released s.array (.table (.rulesApply rules)) .success)).finished true =
      q.succeed (tableChange 4 6 0) 0x22 [] := hq ▸ rfl
  dsimp only
  rw [heq, hunits.classifier, hunits.engine, hunits.trust, hunits.links]
  refine ⟨hq ▸ rfl, hq ▸ rfl, hq ▸ rfl, hq ▸ rfl, q.succeed_logged _ _ _ hsettled,
    fun h => q.succeed_carries _ _ _ (hrun h)⟩

/-- The end of a job that rewrites the settings region, and logs and answers its success alone. -/
theorem storedJob_lands (c : JobEnd → Instr) (s : State) (j : TableJob) (own : Job → Option (Bool → Part → Part))
    (e : LogEntry) (code : Byte) (ws : Part → List Word) (x : Settings) (m : PerCond MapEntry)
    (hexec : ∀ r, exec (c r) s = s.endJob r own)
    (hown : own (.table j) = some fun ok p => p.logAnswer e code (ws p) ok)
    (hws : ws (s.part.released s.array (.table j) .success) = ws s.part)
    (hkeep : s.part.ctl.keep s.array (.table j) .success = { s.part.ctl with storedSettings := x, storedMap := m })
    (hkeepFailed : ∀ k, s.part.ctl.keep s.array (.table j) (.failedAt k) = s.part.ctl) :
    JobEnded c s (.table j) (fun r t =>
      (r = .success → t.part.ctl.storedSettings = x ∧ t.part.ctl.storedMap = m ∧ t.part.engine = s.part.engine ∧
        t.part.trust = s.part.trust ∧ t.part.links = s.part.links ∧ (LogRoom t.part → Logged t.part e) ∧
        (Running s.part code → Carries t.part (response code .done (ws s.part)))) ∧
      (r ≠ .success → JobFailed code s t ∧ t.part.ctl.storedSettings = s.part.ctl.storedSettings ∧
        t.part.ctl.storedMap = s.part.ctl.storedMap)) := by
  have hframe (ok : Bool) (p : Part) : JobFrame p (p.logAnswer e code (ws p) ok) := by
    cases ok with
    | true => exact p.logComplete_frame _ _ _
    | false => exact p.complete_frame _ _ _
  refine jobEnded_of c s _ own _ _ hexec hown hframe fun r => ?_
  obtain ⟨-, -, hsettings, hmap⟩ := s.part.jobEnded_kept s.array (.table j) r
    (fun ok p => p.logAnswer e code (ws p) ok) fun ok q => q.logAnswer_queued e code (ws q) ok
  dsimp only
  rw [hsettings, hmap]
  cases r with
  | success =>
    generalize hq : s.part.released s.array (.table j) .success = q at hws
    have hunits := q.succeed_units e code (ws q)
    have hsettled : q.ctl.Settled := hq ▸ s.part.released_settled _ _ _
    have hrun : Running s.part code → Running q code := hq ▸ id
    have heq : s.part.jobEnded s.array (.table j) .success (fun ok p => p.logAnswer e code (ws p) ok) =
        q.succeed e code (ws q) := hq ▸ rfl
    rw [heq, hkeep, hunits.engine, hunits.trust, hunits.links, ← hws]
    refine ⟨fun _ => ⟨rfl, rfl, hq ▸ rfl, hq ▸ rfl, hq ▸ rfl, q.succeed_logged _ _ _ hsettled,
      fun h => q.succeed_carries _ _ _ (hrun h)⟩, fun h => absurd rfl h⟩
  | failedAt k =>
    rw [hkeepFailed]
    exact ⟨fun h => absurd h (by simp), fun h => ⟨jobFailed_of s _ _ _ code _ (fun _ => rfl) h, rfl, rfl⟩⟩

theorem logEntryJob_lands (s : State) (e : LogEntry) (plan : LogPlan)
    (hplan : plan = logPlan s.array s.part.ctl.logPos s.part.ctl.firstMark e) :
    JobEnded .logEntryJobComplete s (.log e) (fun r t =>
      t.part.engine = s.part.engine ∧ t.part.trust = s.part.trust ∧ t.part.links = s.part.links ∧
      t.part.proof = s.part.proof ∧ t.part.classifier = s.part.classifier ∧ t.part.grants = s.part.grants ∧
      (r = .success → t.part.ctl.firstMark = false ∧
        t.part.ctl.logPos = some { plan.pos with offset := plan.pos.offset + 1 + e.data.length }) ∧
      (∀ i, r = .failedAt i → t.part.ctl.firstMark = s.part.ctl.firstMark ∧
        t.part.ctl.logPos = if i < plan.room.length then s.part.ctl.logPos
          else some { plan.pos with offset := 128 })) := by
  refine jobEnded_of .logEntryJobComplete s _ _ (fun _ p => p) _ (fun _ => rfl) rfl (fun _ p => JobFrame.refl p)
    fun r => ?_
  obtain ⟨hpos, hfirst, -, -⟩ := s.part.jobEnded_kept s.array (.log e) r (fun _ p => p) fun _ q => .refl q.ctl
  have hunits : (s.part.released s.array (.log e) r).SameUnits (s.part.jobEnded s.array (.log e) r fun _ p => p) :=
    Part.finished_units _ _
  dsimp only
  rw [hpos, hfirst]
  refine ⟨hunits.engine, hunits.trust, hunits.links, hunits.proof, hunits.classifier, hunits.grants, fun hr => ?_,
    fun i hr => ?_⟩
  · rw [hr, hplan]
    exact ⟨rfl, rfl⟩
  · rw [hr, hplan, StoreCtl.keep]
    dsimp only
    split
    · exact ⟨rfl, rfl⟩
    · exact ⟨rfl, rfl⟩

theorem watermarkJob_lands (s : State) (v : Word) :
    JobEnded .watermarkJobComplete s (.watermark v) (fun r t =>
      t.part.engine = s.part.engine ∧ t.part.trust = s.part.trust ∧ t.part.links = s.part.links ∧
      t.part.grants = s.part.grants ∧
      t.part.proof = { s.part.proof with
        committedMark := if r = .success then v else s.part.proof.committedMark } ∧
      (s.part.proof.pendingMark ≠ v → .watermark s.part.proof.pendingMark ∈ t.part.ctl.jobs)) := by
  refine jobEnded_of .watermarkJobComplete s _ _ (fun ok p => p.watermarkDone v ok) _ (fun _ => rfl) rfl
    (fun ok p => (p.watermarkDone_local (S := ∅) v ok).frame) fun r => ?_
  have hunits : ((s.part.released s.array (.watermark v) r).setProof (s.part.proof.committed v (jobOk r))).SameUnits
      (s.part.jobEnded s.array (.watermark v) r fun ok p => p.watermarkDone v ok) :=
    (Part.watermarkDone_units _ _ _).trans (Part.finished_units _ _)
  refine ⟨hunits.engine, hunits.trust, hunits.links, hunits.grants, hunits.proof.trans ?_, fun h => ?_⟩
  · cases r <;> rfl
  · exact Part.finished_jobs _ _ _ (Part.watermarkDone_queued (s.part.released s.array (.watermark v) r) v _ h)

/-- Settles O46: the plan of a log entry, the entries of sessions, and the end of each job. -/
theorem otherJobsLandAtTheirCompletion : Obligations.OtherJobsLandAtTheirCompletion := by
  refine ⟨fun a pos first e plan base ha hplan hbase => ?_, fun p n _ hroom => ?_, fun s => ?_⟩
  · have hlog : base = logBase plan.pos.sector := hbase.trans (Nat.mul_comm _ _)
    refine ⟨fun p hpos hfirst => ?_, fun h1 h2 h3 => ?_, fun q hq hfit => ?_,
      logPlan_newSector a pos first e plan base ha hplan hlog⟩
    · rw [hplan, ← hpos, ← hfirst]
      rfl
    · rw [hlog, hplan, logPlan_body]
      exact entrySteps_words first e _ h1 h2 h3
    · rw [hplan, hq, logPlan_room a q first e hfit]
      exact ⟨rfl, rfl⟩
  · refine ⟨fun r k hk => ⟨fun hi => ?_, fun i hi => ?_⟩, fun i hi => ⟨?_, fun hs => ⟨fun t ht => ?_, fun ht => ?_⟩⟩⟩
    · have h := p.refuse_logged n r hroom
      rwa [refusalEntry, reason_code r k hk, Session.serial, hi] at h
    · have h := p.refuse_logged n r hroom
      rwa [refusalEntry, reason_code r k hk, Session.serial, hi] at h
    · have h := p.withdraw_logged n hroom
      rwa [withdrawnHit, Session.serial, hi] at h
    · have h := p.endSession_logged n i hs hi hroom
      rwa [ht] at h
    · have h := p.endSession_logged n i hs hi hroom
      rwa [ht] at h
  · exact ⟨rulesApply_lands s,
      fun id v x m => storedJob_lands .settingWriteComplete s (.settingWrite id v x m) _ (tableChange 5 1 id) 0x05
        (fun _ => [Word.ofHalves (halfOf v) 0]) x m (fun _ => rfl) rfl rfl rfl (fun _ => rfl),
      fun c x m => storedJob_lands .mapWriteComplete s (.mapWrite c x m) _ (tableChange 6 1 c.number) 0x28
        (fun p => [Word.ofBytes (byteOf (p.fault.conds.get c).code) 0 0 0]) x m (fun _ => rfl) rfl rfl rfl (fun _ => rfl),
      logEntryJob_lands s, watermarkJob_lands s⟩

end Sys2Proof.Proofs

namespace Sys2Proof.Machine
open Sys2Proof.Claims

/-! ## A momentary cause (R155) -/

theorem PerCond.set_set {α : Type} (v : PerCond α) (c : Cond) (x y : α) : (v.set c x).set c y = v.set c y := by
  cases c <;> rfl

theorem Part.changeCond_permits (p : Part) (c : Cond) (st : CondState) : (p.changeCond c st).PermitsRight :=
  (Part.adviseCond_ordinary _ c st).permits (Part.evalPermits_right _)

/-- A condition without its advise flag says nothing to the tool (R154). -/
theorem Part.changeCond_tlp_quiet (p : Part) (c : Cond) (st : CondState) (h : (p.fault.map.get c).advise = false) :
    (p.changeCond c st).tlp = p.tlp := by
  have heq : p.changeCond c st = p.setCond c st := if_neg (Bool.eq_false_iff.mp h)
  rw [heq]
  rfl

/-- While a frame is being sent, a frame placed waits in its lane (R49). -/
theorem Part.place_tlp_busy (p : Part) (k : Lane) (f g : Frame) (h : p.tlp.sending = some g) :
    (p.place k f).tlp = p.tlp.setLane k (laneInsert k.capacity f (p.tlp.lane k)) := by
  have hs : (p.tlp.setLane k (laneInsert k.capacity f (p.tlp.lane k))).sending = some g := by cases k <;> exact h
  unfold Part.place Part.transmit
  simp only [Part.setTlp_tlp, hs]

theorem Part.changeCond_tlp_busy (p : Part) (c : Cond) (st : CondState) (g : Frame) (hs : p.tlp.sending = some g)
    (h : (p.fault.map.get c).advise = true) :
    (p.changeCond c st).tlp = p.tlp.setLane .l0 (laneInsert 8 (faultAdvisory c st) p.tlp.lane0) := by
  have heq : p.changeCond c st = (p.setCond c st).place .l0 (faultAdvisory c st) := if_pos h
  rw [heq]
  exact Part.place_tlp_busy (p.setCond c st) .l0 _ g hs

/-- A latching condition already HELD is not changed by another cause. -/
theorem Part.momentary_held (p : Part) (c : Cond) (hl : (p.fault.map.get c).latch = true)
    (h : p.fault.conds.get c = .held) : p.momentary c = p.log (faultEntry c) := by
  simp only [Part.momentary, hl, h, if_true]

theorem Part.momentary_latching (p : Part) (c : Cond) (hl : (p.fault.map.get c).latch = true)
    (h : p.fault.conds.get c ≠ .held) : p.momentary c = (p.changeCond c .held).log (faultEntry c) := by
  unfold Part.momentary
  rw [if_pos hl]
  split
  · next hc => exact absurd hc h
  · rfl
  · rfl

theorem Part.momentary_passing (p : Part) (c : Cond) (hl : (p.fault.map.get c).latch = false) :
    p.momentary c = (p.raiseCond c).changeCond c .inactive := if_neg (Bool.eq_false_iff.mp hl)

theorem Part.momentary_units (p : Part) (c : Cond) : p.SameUnits (p.momentary c) := by
  cases hl : (p.fault.map.get c).latch with
  | false =>
    rw [p.momentary_passing c hl]
    exact (p.raiseCond_units c).trans (Part.changeCond_units _ c _)
  | true =>
    by_cases h : p.fault.conds.get c = .held
    · rw [p.momentary_held c hl h]
      exact p.log_units _
    · rw [p.momentary_latching c hl h]
      exact (p.changeCond_units c _).trans (Part.log_units _ _)

theorem Part.momentary_causes (p : Part) (c : Cond) : (p.momentary c).fault.causes = p.fault.causes := by
  cases hl : (p.fault.map.get c).latch with
  | false => rw [p.momentary_passing c hl, Part.changeCond_causes, Part.raiseCond_causes]
  | true =>
    by_cases h : p.fault.conds.get c = .held
    · rw [p.momentary_held c hl h, Part.log_fault]
    · rw [p.momentary_latching c hl h, Part.log_fault, Part.changeCond_causes]

/-- Each momentary cause is logged when there is room (R155). -/
theorem Part.momentary_logged (p : Part) (c : Cond) (h : LogRoom (p.momentary c)) :
    Logged (p.momentary c) (faultEntry c) := by
  cases hl : (p.fault.map.get c).latch with
  | false =>
    rw [p.momentary_passing c hl] at h ⊢
    unfold LogRoom Logged at *
    rw [Part.changeCond_ctl] at h ⊢
    exact Part.log_logged_of_room _ _ h
  | true =>
    by_cases hc : p.fault.conds.get c = .held
    · rw [p.momentary_held c hl hc] at h ⊢
      exact Part.log_logged_of_room _ _ h
    · rw [p.momentary_latching c hl hc] at h ⊢
      exact Part.log_logged_of_room _ _ h

/-- What a momentary cause does to its condition, the permit lines and the tool link, unless the condition is HELD. -/
theorem Part.momentary_changes (p : Part) (c : Cond) (q : Part) (hq : q = p.momentary c)
    (h : (p.fault.map.get c).latch = false ∨ p.fault.conds.get c ≠ .held) :
    q.fault.conds = p.fault.conds.set c (if (p.fault.map.get c).latch then .held else .inactive) ∧
    (∀ n, q.fault.permits.get n = q.permitDue n) ∧
    ((p.fault.map.get c).advise = false → q.tlp = p.tlp) ∧
    (∀ g, p.tlp.sending = some g → (p.fault.map.get c).advise = true →
      q.tlp = p.tlp.setLane .l0 (if (p.fault.map.get c).latch then laneInsert 8 (faultAdvisory c .held) p.tlp.lane0
        else laneInsert 8 (faultAdvisory c .inactive) (laneInsert 8 (faultAdvisory c .active) p.tlp.lane0))) := by
  subst hq
  cases hl : (p.fault.map.get c).latch with
  | false =>
    have hmap : (p.raiseCond c).fault.map = p.fault.map := (p.raiseCond_plain c).map
    have htlp : (p.raiseCond c).tlp = (p.changeCond c .active).tlp := Part.log_tlp _ _
    rw [p.momentary_passing c hl]
    refine ⟨?_, Part.changeCond_permits _ _ _, fun ha => ?_, fun g hg ha => ?_⟩
    · rw [Part.changeCond_conds, Part.raiseCond_conds, PerCond.set_set]
      rfl
    · rw [Part.changeCond_tlp_quiet _ c _ (by rw [hmap]; exact ha), htlp, p.changeCond_tlp_quiet c _ ha]
    · have hsend : (p.raiseCond c).tlp.sending = some g := by
        rw [htlp, p.changeCond_tlp_busy c _ g hg ha]
        exact hg
      rw [Part.changeCond_tlp_busy _ c _ g hsend (by rw [hmap]; exact ha), htlp, p.changeCond_tlp_busy c _ g hg ha]
      rfl
  | true =>
    rw [p.momentary_latching c hl (h.resolve_left (by simp [hl])), Part.log_tlp]
    refine ⟨?_, (Part.log_ordinary _ _).permits (p.changeCond_permits c .held), p.changeCond_tlp_quiet c _,
      fun g hg ha => p.changeCond_tlp_busy c _ g hg ha⟩
    rw [Part.log_fault, Part.changeCond_conds]
    rfl

/-! ## Flag bytes and the AGGREGATE (R12) -/

theorem flagSet_testBit (l : List Bool) (i : Nat) : (flagSet l).testBit i = l.getD i false := by
  induction l generalizing i with
  | nil => simp [flagSet]
  | cons b l ih =>
    cases i with
    | zero => cases b <;> simp [flagSet, Nat.testBit_zero, Nat.add_mod]
    | succ i =>
      have hdiv : ((if b then 1 else 0) + 2 * flagSet l) / 2 = flagSet l := by split <;> omega
      rw [flagSet, Nat.testBit_succ, hdiv, ih, List.getD_cons_succ]

theorem getLsbD_flagByte (l : List Bool) (i : Nat) (hi : i < 8) : (byteOf (flagSet l)).getLsbD i = l.getD i false := by
  rw [byteOf, BitVec.getLsbD_ofNat, flagSet_testBit]
  simp [hi]

theorem Cond.all_number (c : Cond) : c.number < 8 ∧ Cond.all[c.number]? = some c := by
  cases c <;> exact ⟨by decide, rfl⟩

/-- Each condition has its bit in a mask of conditions (R10). -/
theorem Part.condMask_getLsbD (p : Part) (st : CondState) (c : Cond) :
    (p.condMask st).getLsbD c.number = decide (p.fault.conds.get c = st) := by
  obtain ⟨hlt, hget⟩ := c.all_number
  rw [Part.condMask, getLsbD_flagByte _ _ hlt, List.getD_eq_getElem?_getD, List.getElem?_map, hget]
  rfl

/-- Each permit line has its bit among bits 0 to 3. -/
theorem Part.permitMask_getLsbD (p : Part) :
    (∀ n : Socket, p.permitMask.getLsbD n.val = p.fault.permits.get n) ∧
      ∀ i, 4 ≤ i → p.permitMask.getLsbD i = false := by
  refine ⟨fun n => ?_, fun i hi => ?_⟩
  · rw [Part.permitMask, getLsbD_flagByte _ _ (by omega), List.getD_eq_getElem?_getD, List.getElem?_map]
    match n with
    | 0 => rfl
    | 1 => rfl
    | 2 => rfl
    | 3 => rfl
  · by_cases h8 : i < 8
    · rw [Part.permitMask, getLsbD_flagByte _ _ h8]
      exact List.getD_eq_default _ _ hi
    · exact BitVec.getLsbD_of_ge _ _ (by omega)

theorem SessState.code_lt (st : SessState) : st.code < 7 := by cases st <;> decide

theorem SessState.getElem_code (st : SessState) :
    [SessState.none, .identifying, .verifying, .admitted, .suspect, .refused, .withdrawn][st.code]? = some st := by
  cases st <;> rfl

/-- The session states of two sockets in one byte. -/
theorem SessState.codes_toNat (x y : SessState) : (byteOf (x.code * 16 + y.code)).toNat = 16 * x.code + y.code := by
  have hx := x.code_lt
  have hy := y.code_lt
  rw [byteOf, BitVec.toNat_ofNat, Nat.mod_eq_of_lt (by omega), Nat.mul_comm]

theorem LinkState.aggregateCode_eq (x : LinkState) :
    x.aggregateCode = if x = .vacant then 0 else if x = .settling then 1 else if x = .active then 2 else 3 := by
  cases x <;> rfl

/-- The link states in one byte, two bits each, socket 0 in the uppermost. -/
theorem linkCodes_field (x : Socket → LinkState) (n : Socket) :
    ((byteOf ((x 0).aggregateCode * 64 + (x 1).aggregateCode * 16 + (x 2).aggregateCode * 4 +
      (x 3).aggregateCode)).toNat >>> (6 - 2 * n.val)) % 4 = (x n).aggregateCode := by
  have hlt (m : Socket) : (x m).aggregateCode < 4 := by cases x m <;> decide
  have h0 := hlt 0
  have h1 := hlt 1
  have h2 := hlt 2
  have h3 := hlt 3
  rw [byteOf, BitVec.toNat_ofNat, Nat.shiftRight_eq_div_pow]
  match n with
  | 0 => show _ / 64 % 4 = _; omega
  | 1 => show _ / 16 % 4 = _; omega
  | 2 => show _ / 4 % 4 = _; omega
  | 3 => show _ / 1 % 4 = _; omega

end Sys2Proof.Machine

namespace Sys2Proof.Machine
open Sys2Proof.Claims

theorem Word.bytes_ofBytes (a b c d : Byte) : Word.bytes (Word.ofBytes a b c d) = [a, b, c, d] := by
  simp only [Word.bytes, Word.byte, Word.ofBytes, List.cons.injEq, and_true]
  refine ⟨?_, ?_, ?_, ?_⟩ <;> refine BitVec.eq_of_getLsbD_eq fun k hk => ?_ <;>
    simp only [BitVec.getLsbD_extractLsb', BitVec.getLsbD_append] <;> grind

/-- A cause that appears takes its condition to ACTIVE and logs it (R153). -/
theorem Part.reportCause_appears_conds (p : Part) (c : Cond) (k : Causes) (hl : p.ctl.loading = false)
    (h0 : p.fault.causes.present c = false) (h1 : k.present c = true) :
    (p.reportCause c k).fault.conds = p.fault.conds.set c .active := by
  rw [p.reportCause_appears c k hl h0 h1, Part.raiseCond_conds]
  rfl

theorem Part.reportCause_appears_logged (p : Part) (c : Cond) (k : Causes) (hl : p.ctl.loading = false)
    (h0 : p.fault.causes.present c = false) (h1 : k.present c = true) (h : LogRoom p) :
    Logged (p.reportCause c k) (faultEntry c) := by
  rw [p.reportCause_appears c k hl h0 h1]
  refine Part.log_logged _ _ ?_
  unfold LogRoom
  rw [Part.changeCond_ctl]
  exact h

/-- During loading, and while the cause stays as it was, no condition changes (R153, R159). -/
theorem Part.reportCause_same_conds (p : Part) (c : Cond) (k : Causes)
    (h : p.ctl.loading = true ∨ k.present c = p.fault.causes.present c) :
    (p.reportCause c k).fault.conds = p.fault.conds := by
  rcases h with h | h
  · rw [p.reportCause_loading c k h]
    rfl
  · rw [p.reportCause_same c k h]
    rfl

/-! ## A recheck without an audit (R88, R98) -/

/-- Without an audit no socket is reached and no test follows. -/
theorem Part.auditProgress_none (p : Part) (h : p.engine.audit = none) : p.auditProgress = p := by
  have hturn (n : Socket) : Part.auditTurn n p = p := by simp only [Part.auditTurn, h]
  have hturns : forSockets Part.auditTurn p = p := by simp only [forSockets, hturn]
  rw [Part.auditProgress, hturns]
  simp only [Part.auditTest, h]

theorem Part.draw_engine (p : Part) : p.draw.engine = p.engine := by
  have hrenew (q : Part) : q.renewalTest.engine = q.engine := by
    unfold Part.renewalTest Part.queueWatermark
    repeat' split
    all_goals simp
  rw [Part.draw, Part.exhaustionTest, (Part.reportCause_units _ _ _).engine, hrenew, Part.setProof_engine]

theorem Part.tryStart_audit (p : Part) (n : Socket) : (p.tryStart n).engine.audit = p.engine.audit := by
  have hsent (q : Part) (x : Nonce) : (q.markSent n x).engine.audit = q.engine.audit := by
    unfold Part.markSent
    split <;> rfl
  unfold Part.tryStart
  repeat' split
  · rfl
  · rw [Part.startChallenge, Part.setLink_engine, hsent, Part.draw_engine]
  · rfl
  · rfl
  · rfl

theorem Part.refuse_audit_none (p : Part) (n : Socket) (r : Reason) (h : p.engine.audit = none) :
    (p.refuse n r).engine.audit = none := by
  have hresult (q : Part) (hq : q.engine.audit = none) : (q.auditResult n .removed).engine.audit = none := by
    simp only [Part.auditResult, hq]
  have hcount (q : Part) (x : Option Word) : (q.countReason r x).engine.audit = q.engine.audit := by
    unfold Part.countReason
    split <;> rfl
  unfold Part.refuse
  dsimp only
  rw [Part.reportSession_engine, hcount, Part.log_engine]
  exact hresult _ ((p.discardChallenge_audit n).trans h)

theorem Part.bindKey_audit (p : Part) (n : Socket) (k : Fin 16) : (p.bindKey n k).engine.audit = p.engine.audit := by
  unfold Part.bindKey Part.setMarks
  split
  · rfl
  · rw [Part.recompute_engine]
    rfl

theorem Part.issueChallenge_audit_none (p : Part) (n : Socket) (why : Purpose) (h : p.engine.audit = none) :
    (p.issueChallenge n why).engine.audit = none := by
  unfold Part.issueChallenge Part.reserveAndPlace
  repeat' split
  · exact h
  · exact p.refuse_audit_none n _ h
  · rw [Part.placeChallenge, Part.tryStart_audit]
    exact (p.bindKey_audit n _).trans h
  · exact Part.refuse_audit_none _ n _ ((p.bindKey_audit n _).trans h)

theorem Part.recheckExpiry_none (p : Part) (n : Socket) (ha : p.engine.audit = none)
    (hs : (p.session n).state = .admitted) (hr : (p.session n).recheck.isSome = true) :
    Part.recheckExpiry n p = p.recheckNow n := by
  obtain ⟨r, hr⟩ := Option.isSome_iff_exists.mp hr
  have hreached : p.recheckReached n = p.recheckNow n := by simp only [Part.recheckReached, hs, hr]
  rw [Part.recheckExpiry, hreached, Part.auditProgress_none]
  unfold Part.recheckNow
  split
  · exact p.issueChallenge_audit_none n _ ha
  · exact ha

end Sys2Proof.Machine

namespace Sys2Proof.Proofs
open Sys2Proof Sys2Proof.Machine Sys2Proof.Claims

/-! ## Momentary causes, the AGGREGATE, the timers and LOCK -/

theorem momentary_acts (p q : Part) (c : Cond) (hq : q = p.momentary c) :
    (LogRoom q → Logged q { type := 6, socket := 7, detail := halfOf c.number, data := [] }) ∧
    q.fault.causes = p.fault.causes ∧ q.fault.map = p.fault.map ∧ q.links = p.links ∧ q.engine = p.engine ∧
    q.trust = p.trust ∧ q.grants = p.grants ∧ q.proof = p.proof ∧ q.classifier = p.classifier ∧
    ((p.fault.map.get c).latch = true → p.fault.conds.get c = .held → q.fault = p.fault ∧ q.tlp = p.tlp) ∧
    ((p.fault.map.get c).latch = false ∨ p.fault.conds.get c ≠ .held →
      q.fault.conds = p.fault.conds.set c (if (p.fault.map.get c).latch then .held else .inactive) ∧
      (∀ n, q.fault.permits.get n = q.permitDue n) ∧
      ((p.fault.map.get c).advise = false → q.tlp = p.tlp) ∧
      (∀ (g : Frame) (adv : Byte → Frame), p.tlp.sending = some g → (p.fault.map.get c).advise = true →
        (∀ st, adv st = { kind := 10, socket := 0, payload := [4, 0xFF, byteOf c.number, st, 0, 0] }) →
        q.tlp = p.tlp.setLane .l0 (if (p.fault.map.get c).latch then laneInsert 8 (adv 2) p.tlp.lane0
          else laneInsert 8 (adv 0) (laneInsert 8 (adv 1) p.tlp.lane0)))) := by
  have hunits : p.SameUnits q := hq ▸ p.momentary_units c
  obtain ⟨-, -, -, -, -, hmap, -⟩ := (p.momentary_local (S := ∅) c).frame
  refine ⟨hq ▸ p.momentary_logged c, hq ▸ p.momentary_causes c, hq ▸ hmap, hunits.links, hunits.engine, hunits.trust,
    hunits.grants, hunits.proof, hunits.classifier, fun hl hc => ?_, fun h => ?_⟩
  · rw [hq, p.momentary_held c hl hc]
    exact ⟨Part.log_fault _ _, Part.log_tlp _ _⟩
  · obtain ⟨hconds, hpermits, hquiet, hbusy⟩ := p.momentary_changes c q hq h
    refine ⟨hconds, hpermits, hquiet, fun g adv hg ha hadv => ?_⟩
    have hframe (st : CondState) : faultAdvisory c st = adv (byteOf st.code) := by
      rw [hadv, faultAdvisory, advisory, Word.bytes_ofBytes]
      rfl
    rw [hbusy g hg ha, hframe, hframe, hframe]
    rfl

theorem aggregate_holds (p : Part) : ∃ (permits active held s01 s23 links : Byte) (code : Socket → Nat),
    p.aggregateFrame = { kind := 11, socket := 0, payload := Half.bytes (halfOf p.grants.toolGrant) ++
      (Half.bytes (halfOf (p.grants.published.get 0)) ++ Half.bytes (halfOf (p.grants.published.get 1)) ++
        Half.bytes (halfOf (p.grants.published.get 2)) ++ Half.bytes (halfOf (p.grants.published.get 3))) ++
      [permits, active, held, s01, s23, links] } ∧
    (∀ n : Socket, permits.getLsbD n.val = p.fault.permits.get n) ∧ (∀ i, 4 ≤ i → permits.getLsbD i = false) ∧
    (∀ c : Cond, active.getLsbD c.number = decide (p.fault.conds.get c = .active) ∧
      held.getLsbD c.number = decide (p.fault.conds.get c = .held)) ∧
    (∀ n, [SessState.none, .identifying, .verifying, .admitted, .suspect, .refused, .withdrawn][code n]? =
      some (p.session n).state) ∧
    s01.toNat = 16 * code 0 + code 1 ∧ s23.toNat = 16 * code 2 + code 3 ∧
    (∀ n : Socket, (links.toNat >>> (6 - 2 * n.val)) % 4 =
      if (p.link n).state = .vacant then 0 else if (p.link n).state = .settling then 1
      else if (p.link n).state = .active then 2 else 3) := by
  refine ⟨p.permitMask, p.condMask .active, p.condMask .held, _, _, byteOf ((p.link 0).state.aggregateCode * 64 +
    (p.link 1).state.aggregateCode * 16 + (p.link 2).state.aggregateCode * 4 + (p.link 3).state.aggregateCode),
    fun n => (p.session n).state.code, ?_,
    p.permitMask_getLsbD.1, p.permitMask_getLsbD.2, fun c => ⟨p.condMask_getLsbD _ c, p.condMask_getLsbD _ c⟩,
    fun n => SessState.getElem_code _, SessState.codes_toNat _ _, SessState.codes_toNat _ _, fun n => ?_⟩
  · rfl
  · rw [linkCodes_field (fun m => (p.link m).state) n, LinkState.aggregateCode_eq]

/-- An event that acts on the part alone, while it operates. -/
theorem onPart_on (s : State) (f : Part → Part) (h : s.part.power = .on) :
    s.onPart f = .next { s with part := f s.part } := by
  simp only [State.onPart, Part.whileOn, h]

theorem recheckDue_acts (s : State) (n : Socket) (hon : s.part.power = .on) (ha : s.part.engine.audit = none)
    (hs : (s.part.session n).state = .admitted) (hr : (s.part.session n).recheck.isSome = true) :
    (∀ c, (s.part.session n).challenge = some c → exec (.recheckDue n) s = .next s) ∧
    ((s.part.session n).challenge = none → CanChallenge s.part n → Gives (.recheckDue n) s (fun t =>
      (t.part.session n).state = .admitted ∧ (∃ ph, (t.part.session n).challenge = some ⟨.recheck, ph⟩) ∧
      OthersKept n s.part t.part ∧ t.part.trust = s.part.trust ∧ t.array = s.array)) := by
  have hexec : exec (.recheckDue n) s = .next { s with part := s.part.recheckNow n } := by
    rw [← s.part.recheckExpiry_none n ha hs hr]
    exact onPart_on s _ hon
  refine ⟨fun c hc => ?_, fun hc hcan => ?_⟩
  · have hnow : s.part.recheckNow n = s.part := by simp only [Part.recheckNow, hc]
    rw [hexec, hnow]
  · obtain ⟨⟨i, k, hi, hk⟩, hleft⟩ := hcan
    have hnow : s.part.recheckNow n = s.part.issueChallenge n .recheck := by simp only [Part.recheckNow, hc]
    have hslack : 0 < s.part.proof.slack := Nat.sub_pos_of_lt hleft
    obtain ⟨ph, hph⟩ := s.part.issueChallenge_session n .recheck i k hi hk hslack
    have hlocal := s.part.issueChallenge_local (S := {n}) n .recheck rfl
    rw [hnow] at hexec
    refine ⟨_, hexec, ?_, ⟨ph, ?_⟩, hlocal.sessions, hlocal.trust, rfl⟩
    · dsimp only
      rw [hph]
      exact hs
    · dsimp only
      rw [hph]

theorem holdTimer_acts (s : State) (n : Socket) (hon : s.part.power = .on) :
    ((s.part.session n).telemetry = none ∨ s.part.grants.stale.get n = true → exec (.holdTimerExpiry n) s = .next s) ∧
    (∀ x, (s.part.session n).telemetry = some x → s.part.grants.stale.get n = false →
      Gives (.holdTimerExpiry n) s (fun t =>
        t.part.grants.stale = s.part.grants.stale.set n true ∧ t.part.grants.grant.get n = 0 ∧
        t.part.engine = s.part.engine ∧ t.part.links = s.part.links ∧ t.part.trust = s.part.trust ∧
        t.part.proof = s.part.proof ∧ t.array = s.array)) := by
  have hexec : exec (.holdTimerExpiry n) s = .next { s with part := s.part.holdExpiry n } := onPart_on s _ hon
  refine ⟨fun h => ?_, fun x hx hst => ?_⟩
  · have hidle : s.part.holdRunning n = false := by
      rcases h with h | h <;> simp [Part.holdRunning, h]
    rw [hexec, Part.holdExpiry, hidle]
    rfl
  · have hrun : s.part.holdRunning n = true := by simp [Part.holdRunning, hx, hst]
    have heq : s.part.holdExpiry n = (s.part.setStale n true).recompute := if_pos hrun
    have hgrant : (s.part.setStale n true).grantOf n = 0 := by
      have hstale : (s.part.setStale n true).grants.stale.get n = true := PerSocket.get_set_self _ n true
      unfold Part.grantOf
      split <;> simp [hstale]
    rw [heq] at hexec
    refine ⟨_, hexec, Part.recompute_stale _, ?_, Part.recompute_engine _, Part.recompute_links _,
      (Part.recompute_local (S := ∅) _).trust, Part.recompute_proof _, rfl⟩
    exact (Part.recompute_grant _ n).trans hgrant

theorem overdraw_acts (s : State) (hon : s.part.power = .on) :
    (s.part.grants.overdraw = none → exec .overdrawTimerExpiry s = .next s) ∧
    (∀ d, s.part.grants.overdraw = some d → Gives .overdrawTimerExpiry s (fun t =>
      t.part.grants = { s.part.grants with overdraw := none } ∧
      t.part.fault.causes = { s.part.fault.causes with overdraw := true } ∧
      (s.part.ctl.loading = false → s.part.fault.causes.overdraw = false →
        t.part.fault.conds = s.part.fault.conds.set .overdraw .active) ∧
      t.part.engine = s.part.engine ∧ t.part.links = s.part.links ∧ t.part.trust = s.part.trust ∧
      t.part.proof = s.part.proof ∧ t.array = s.array)) := by
  have hexec : exec .overdrawTimerExpiry s = .next { s with part := s.part.overdrawExpiry } := onPart_on s _ hon
  refine ⟨fun h => ?_, fun d hd => ?_⟩
  · rw [hexec, Part.overdrawExpiry, h]
  · have heq : s.part.overdrawExpiry =
        (s.part.setOverdraw none).reportCause .overdraw { s.part.fault.causes with overdraw := true } := by
      simp only [Part.overdrawExpiry, hd]
    rw [heq] at hexec
    have hunits := (s.part.setOverdraw none).reportCause_units .overdraw { s.part.fault.causes with overdraw := true }
    refine ⟨_, hexec, hunits.grants, Part.reportCause_causes _ _ _, fun hl hc => ?_, hunits.engine, hunits.links,
      hunits.trust, hunits.proof, rfl⟩
    exact Part.reportCause_appears_conds (s.part.setOverdraw none) .overdraw _ hl hc rfl

theorem aggregateTimer_acts (s : State) (hon : s.part.power = .on) :
    (s.part.grants.aggregate = none → exec .aggregateTimerExpiry s = .next s) ∧
    (∀ d, s.part.grants.aggregate = some d → exec .aggregateTimerExpiry s = .next { s with part :=
      { s.part.placeAggregate s.part.aggregateFrame with grants := { s.part.grants with aggregate := some (s.part.clock +
          if s.part.mgmt.settings.aggregatePeriod = 0 then 20000
          else s.part.mgmt.settings.aggregatePeriod * 1000) } } }) := by
  have hexec : exec .aggregateTimerExpiry s = .next { s with part := s.part.aggregateExpiry } := onPart_on s _ hon
  refine ⟨fun h => ?_, fun d hd => ?_⟩
  · rw [hexec, Part.aggregateExpiry, h]
  · have heq : s.part.aggregateExpiry = (s.part.placeAggregate s.part.aggregateFrame).startAggregateTimer := by
      simp only [Part.aggregateExpiry, hd, Part.sendAggregate]
    have hord := s.part.placeAggregate_ordinary s.part.aggregateFrame
    have hgrants : (s.part.placeAggregate s.part.aggregateFrame).grants = s.part.grants := Part.place_grants _ _ _
    rw [hexec, heq, Part.startAggregateTimer, Part.settings, hord.clock, hord.settings, hgrants]
    rfl

theorem lockChange_acts (s : State) (b : Bool) (hon : s.part.power = .on) : Gives (.lockChange b) s (fun t =>
    t.part.lockPin = b ∧ t.part.fault.causes = { s.part.fault.causes with lock := b } ∧
    (s.part.ctl.loading = true ∨ s.part.fault.causes.lock = b → t.part.fault.conds = s.part.fault.conds) ∧
    (s.part.ctl.loading = false → s.part.fault.causes.lock = false → b = true →
      t.part.fault.conds = s.part.fault.conds.set .lock .active ∧
      (LogRoom s.part → Logged t.part { type := 6, socket := 7, detail := 0, data := [] })) ∧
    (s.part.ctl.loading = false → s.part.fault.causes.lock = true → b = false → s.part.fault.conds.lock = .active →
      t.part.fault.conds = s.part.fault.conds.set .lock (if s.part.fault.map.lock.latch then .held else .inactive)) ∧
    t.part.fault.map = s.part.fault.map ∧ t.part.engine = s.part.engine ∧ t.part.links = s.part.links ∧
    t.part.trust = s.part.trust ∧ t.part.grants = s.part.grants ∧ t.part.proof = s.part.proof ∧
    t.part.classifier = s.part.classifier ∧ t.array = s.array) := by
  have hexec : exec (.lockChange b) s =
      .next { s with part := Part.reportLock b { s.part with lockPin := b } } := by
    show Host.Outcome.next { s with part := Part.whileOn { s.part with lockPin := b } (Part.reportLock b) } = _
    simp only [Part.whileOn, hon]
  have hunits := Part.reportCause_units { s.part with lockPin := b } .lock { s.part.fault.causes with lock := b }
  have hplain := Part.reportCause_plain { s.part with lockPin := b } .lock { s.part.fault.causes with lock := b }
  refine ⟨_, hexec, hplain.lockPin, Part.reportCause_causes _ _ _, fun h => ?_, fun hl h0 hb => ⟨?_, fun hroom => ?_⟩,
    fun hl h0 hb ha => ?_, hplain.map, hunits.engine, hunits.links, hunits.trust, hunits.grants, hunits.proof,
    hunits.classifier, rfl⟩
  · exact Part.reportCause_same_conds { s.part with lockPin := b } .lock _ (h.imp_right Eq.symm)
  · exact Part.reportCause_appears_conds { s.part with lockPin := b } .lock _ hl h0 hb
  · exact Part.reportCause_appears_logged { s.part with lockPin := b } .lock _ hl h0 hb hroom
  · exact Part.reportCause_departs_conds { s.part with lockPin := b } .lock _ hl h0 hb ha

/-- Settles O42, event by event. -/
theorem timersAndLockAct : Obligations.TimersAndLockAct := by
  refine ⟨momentary_acts, aggregate_holds, fun s hon => ?_⟩
  obtain ⟨hover, hoverSome⟩ := overdraw_acts s hon
  obtain ⟨hagg, haggSome⟩ := aggregateTimer_acts s hon
  exact ⟨fun n ha hs hr => recheckDue_acts s n hon ha hs hr, fun n => holdTimer_acts s n hon, hover, hoverSome,
    hagg, haggSome, fun b => lockChange_acts s b hon⟩

end Sys2Proof.Proofs

namespace Sys2Proof.Machine
open Sys2Proof.Claims

/-! ## A transaction's report leaves the links' states and error counts alone -/

section
variable {S : Set Socket}

theorem Part.setStale_local (p : Part) (n : Socket) (b : Bool) : p.Local S (p.setStale n b) :=
  p.setGrants_local _ fun _ _ => id

theorem Part.setDecim_local (p : Part) (n : Socket) (v : Nat) : p.Local S (p.setDecim n v) := p.setClassifier_local _

theorem Part.advanceDecim_local (p : Part) (n : Socket) : p.Local S (p.advanceDecim n) := by
  unfold Part.advanceDecim
  split
  · exact .refl p
  · exact p.setDecim_local n _

theorem Part.forwardUp_local (p : Part) (n : Socket) (f : Frame) (k : Lane) (d : Bool) :
    p.Local S (p.forwardUp n f k d) := by
  unfold Part.forwardUp
  repeat' split
  · exact (p.advanceDecim_local n).trans (Part.place_local _ k _)
  · exact p.advanceDecim_local n
  · exact p.place_local k _
  · exact p.place_local k _

theorem Part.classifyUp_local (p : Part) (n : Socket) (f : Frame) : p.Local S (p.classifyUp n f) := by
  have hfallback : p.Local S (p.fallbackUp n f) := by
    unfold Part.fallbackUp
    repeat' split
    · exact p.forwardUp_local n f _ _
    · exact p.forwardUp_local n f _ _
    · exact .refl p
  unfold Part.classifyUp
  repeat' split
  · exact hfallback
  · exact p.forwardUp_local n f _ _
  · exact .refl p
  · exact .refl p

theorem Part.recomputeRecheck_local (p : Part) (n : Socket) (hn : n ∈ S) :
    p.Local S (Part.recomputeRecheck n p) := by
  unfold Part.recomputeRecheck
  split
  · dsimp only
    split
    · exact (p.setSession_local n _ hn).trans (Part.recheckNow_local _ n hn)
    · exact p.setSession_local n _ hn
  · exact .refl p

theorem Part.checkSequence_local (p : Part) (n : Socket) (v : Byte) (hn : n ∈ S) :
    p.Local S (p.checkSequence n v) := by
  unfold Part.checkSequence
  dsimp only
  repeat' split
  · exact p.setSession_local n _ hn
  · exact p.setSession_local n _ hn
  · exact ((p.setSession_local n _ hn).trans (Part.setSession_local _ n _ hn)).trans (Part.recheckNow_local _ n hn)

theorem Part.engineStatus_local (p : Part) (n : Socket) (b : List Byte) (hn : n ∈ S) :
    p.Local S (p.engineStatus n b) := by
  have hseq : p.Local S (if (p.session n).state.trusted then p.checkSequence n (byteAt b 0) else p) := by
    split
    · exact p.checkSequence_local n _ hn
    · exact .refl p
  unfold Part.engineStatus
  dsimp only
  generalize (if (p.session n).state.trusted then p.checkSequence n (byteAt b 0) else p) = q at hseq ⊢
  split
  · exact hseq
  · exact hseq.trans (q.setSession_local n _ hn)

theorem Part.relayReply_local (p : Part) (n : Socket) (f : Frame) (hn : n ∈ S) : p.Local S (p.relayReply n f) := by
  unfold Part.relayReply Part.showStatus
  split
  · exact (((p.engineStatus_local n _ hn).trans (Part.setStale_local _ n _)).trans (Part.recompute_local _)).trans
      (Part.classifyUp_local _ n f)
  · exact p.classifyUp_local n f

theorem Part.placeIdentify_local (p : Part) (n : Socket) (hn : n ∈ S) : p.Local S (p.placeIdentify n) :=
  (p.setLink_local n _ hn (by rfl) (by rfl)).trans (Part.tryStart_local _ n hn)

theorem Part.identifyMiss_local (p : Part) (n : Socket) (hn : n ∈ S) : p.Local S (p.identifyMiss n) := by
  unfold Part.identifyMiss
  dsimp only
  split
  · exact (p.setSession_local n _ hn).trans (Part.placeIdentify_local _ n hn)
  · exact (p.setSession_local n _ hn).trans (Part.refuse_local _ n _ hn)

theorem Part.openAdmission_local (p : Part) (n : Socket) (hn : n ∈ S) : p.Local S (p.openAdmission n) :=
  (p.setSession_local n _ hn).trans (Part.reportSession_local _ n)

theorem Part.failAttempt_local (p : Part) (n : Socket) (r : Reason) (why : Purpose) (hn : n ∈ S) :
    p.Local S (p.failAttempt n r why) := by
  unfold Part.failAttempt
  dsimp only
  split
  · exact (p.setSession_local n _ hn).trans (Part.issueChallenge_local _ n why hn)
  · exact (p.setSession_local n _ hn).trans (Part.refuse_local _ n r hn)

theorem Part.suspectNow_local (p : Part) (n : Socket) (hn : n ∈ S) : p.Local S (p.suspectNow n) :=
  ((p.setSession_local n _ hn).trans (Part.reportSession_local _ n)).trans (Part.issueChallenge_local _ n _ hn)

theorem Part.applyVerdict_local (p : Part) (n : Socket) (v : Verdict) (hn : n ∈ S) :
    p.Local S (p.applyVerdict n v) := by
  unfold Part.applyVerdict
  split
  · exact p.openAdmission_local n hn
  · exact p.failAttempt_local n _ _ hn
  · exact p.failAttempt_local n _ _ hn
  · exact p.refuse_local n _ hn
  · exact p.setSession_local n _ hn
  · exact p.suspectNow_local n hn
  · exact p.suspectNow_local n hn
  · exact p.refuse_local n _ hn
  · exact p.openAdmission_local n hn
  · exact p.failAttempt_local n _ _ hn
  · exact p.failAttempt_local n _ _ hn
  · exact p.refuse_local n _ hn
  · exact .refl p
  · exact .refl p
  · exact .refl p
  · exact .refl p

theorem Part.judged_local (p : Part) (n : Socket) (v : Verdict) (hn : n ∈ S) : p.Local S (p.judged n v) :=
  (p.auditResult_local n _).trans (Part.applyVerdict_local _ n v hn)

theorem Part.judge_local (p : Part) (n : Socket) (t : Transaction) (o : TxOutcome) (hn : n ∈ S) :
    p.Local S (p.judge n t o) := by
  have hset := p.setSession_local n { p.session n with challenge := none } hn
  unfold Part.judge
  split
  · dsimp only
    repeat' split
    · exact hset.trans (Part.issueChallenge_local _ n _ hn)
    · exact hset.trans (Part.judged_local _ n _ hn)
    · exact hset.trans (Part.judged_local _ n _ hn)
    · exact hset.trans (Part.judged_local _ n _ hn)
    · exact hset.trans (Part.judged_local _ n _ hn)
  · exact .refl p

theorem Part.bindSession_local (p : Part) (n : Socket) (i : Identity) (k : Fin 16) (c : Fin 32) (hn : n ∈ S) :
    p.Local S (p.bindSession n i k c) :=
  (p.setSession_local n _ hn).trans (Part.reportSession_local _ n)

/-! ### An audit's turns and its test (R95, R97, R99) -/

theorem Part.auditReach_local (p : Part) (n : Socket) (a : Audit) (hn : n ∈ S) : p.Local S (p.auditReach n a) := by
  unfold Part.auditReach
  dsimp only
  repeat' split
  · exact p.setAudit_local _
  · exact (p.setAudit_local _).trans (Part.issueChallenge_local _ n _ hn)
  · exact (p.setAudit_local _).trans (Part.auditResult_local _ n _)

theorem Part.auditTurn_local (n : Socket) (p : Part) (hn : n ∈ S) : p.Local S (Part.auditTurn n p) := by
  unfold Part.auditTurn
  repeat' split
  · exact .refl p
  · exact p.auditReach_local n _ hn
  · exact .refl p

theorem Part.auditTest_local (p : Part) : p.Local S p.auditTest := by
  have hmass (a : Audit) : p.Local S (p.massTest a) := by
    unfold Part.massTest
    repeat' split
    · exact p.setAudit_local _
    · exact (p.setAudit_local _).trans (Part.momentary_local _ _)
    · exact p.auditWithdrawNext_local _ _
  unfold Part.auditTest
  repeat' split
  · exact .refl p
  · exact hmass _
  · exact .refl p
  · exact .refl p
  · exact .refl p

end

/-! ### Actions that may concern any socket -/

theorem Part.auditProgress_local (p : Part) : p.Local Set.univ p.auditProgress :=
  (forSockets_local _ (fun n q => q.auditTurn_local n (Set.mem_univ n)) p).trans (Part.auditTest_local _)

theorem Part.checkIdentity_local (p : Part) (n : Socket) (i : Identity) : p.Local Set.univ (p.checkIdentity n i) := by
  have hdup (m : Socket) : p.Local Set.univ (p.duplicate n m) :=
    ((p.refuse_local n _ (Set.mem_univ n)).trans (Part.recheckNow_local _ m (Set.mem_univ m))).trans
      (Part.momentary_local _ _)
  have hrefuse (r : Reason) : p.Local Set.univ (p.refuse n r) := p.refuse_local n r (Set.mem_univ n)
  unfold Part.checkIdentity
  repeat' split
  · exact hrefuse _
  · exact p.withdraw_local n (Set.mem_univ n)
  · exact hrefuse _
  · exact hdup _
  · exact hrefuse _
  · exact hrefuse _
  · exact (p.bindSession_local n i _ _ (Set.mem_univ n)).trans (Part.issueChallenge_local _ n _ (Set.mem_univ n))

theorem Part.engineReport_local (p : Part) (n : Socket) (t : Transaction) (o : TxOutcome) :
    p.Local Set.univ (p.engineReport n t o) := by
  have hmiss : p.Local Set.univ (p.identifyMiss n) := p.identifyMiss_local n (Set.mem_univ n)
  have hidentify : p.Local Set.univ (p.identifyOutcome n o) := by
    unfold Part.identifyOutcome
    repeat' split
    · exact (p.setSession_local n _ (Set.mem_univ n)).trans (Part.checkIdentity_local _ n _)
    · exact hmiss
    · exact hmiss
    · exact hmiss
    · exact .refl p
  unfold Part.engineReport
  repeat' split
  · exact .refl p
  · exact hidentify
  · exact p.judge_local n t o (Set.mem_univ n)

theorem Part.reportOutcome_local (p : Part) (n : Socket) (t : Transaction) (o : TxOutcome) :
    p.Local Set.univ (p.reportOutcome n t o) := by
  unfold Part.reportOutcome
  split
  · exact p.engineReport_local n t _
  · exact p.relayReply_local n _ (Set.mem_univ n)
  · exact .refl p
  · exact .refl p
  · exact .refl p

end Sys2Proof.Machine

namespace Sys2Proof.Machine
open Sys2Proof.Claims

/-! ## Line health (R31 to R33) -/

/-- A change between ACTIVE and DEGRADED: its LINK advisory carries the new state and the count as it is. -/
theorem Part.regrade_eq (p : Part) (n : Socket) (st : LinkState) :
    p.regrade n st = (Part.recomputeRecheck n (p.setLink n { p.link n with state := st })).place .l0
      (linkAdvisory n st (p.link n).errors) := by
  have h := Part.recomputeRecheck_local (S := {n}) (p.setLink n { p.link n with state := st }) n rfl
  rw [Part.regrade, Part.adviseLink, h.state, h.errors, Part.setLink_link, if_pos rfl]

theorem Part.regrade_health (p : Part) (n : Socket) (st : LinkState) :
    ((p.regrade n st).link n).state = st ∧ ((p.regrade n st).link n).errors = (p.link n).errors := by
  have h := (Part.recomputeRecheck_local (S := {n}) (p.setLink n { p.link n with state := st }) n rfl).trans
    (Part.place_local _ .l0 (linkAdvisory n st (p.link n).errors))
  rw [p.regrade_eq n st, h.state, h.errors, Part.setLink_link, if_pos rfl]
  exact ⟨rfl, rfl⟩

theorem Part.compareThresholds_active (p : Part) (n : Socket) (h : (p.link n).state = .active) :
    p.compareThresholds n = if 96 ≤ (p.link n).errors then p.regrade n .degraded else p := by
  simp only [Part.compareThresholds, h]

theorem Part.compareThresholds_degraded (p : Part) (n : Socket) (h : (p.link n).state = .degraded) :
    p.compareThresholds n = if (p.link n).errors < 64 then p.regrade n .active else p := by
  simp only [Part.compareThresholds, h]

/-- The state that the thresholds make of an ACTIVE or a DEGRADED link, and the count, which they leave alone. -/
theorem Part.compareThresholds_health (p : Part) (n : Socket)
    (h : (p.link n).state = .active ∨ (p.link n).state = .degraded) :
    ((p.compareThresholds n).link n).errors = (p.link n).errors ∧
    ((p.link n).state = .active →
      ((p.compareThresholds n).link n).state = if 96 ≤ (p.link n).errors then .degraded else .active) ∧
    ((p.link n).state = .degraded →
      ((p.compareThresholds n).link n).state = if (p.link n).errors < 64 then .active else .degraded) := by
  rcases h with h | h
  · rw [p.compareThresholds_active n h]
    split
    · exact ⟨(p.regrade_health n _).2, fun _ => (p.regrade_health n _).1, fun hd => absurd (h.symm.trans hd) (by simp)⟩
    · exact ⟨rfl, fun _ => h, fun hd => absurd (h.symm.trans hd) (by simp)⟩
  · rw [p.compareThresholds_degraded n h]
    split
    · exact ⟨(p.regrade_health n _).2, fun ha => absurd (h.symm.trans ha) (by simp), fun _ => (p.regrade_health n _).1⟩
    · exact ⟨rfl, fun ha => absurd (h.symm.trans ha) (by simp), fun _ => h⟩

/-! ## HALTED (R33) -/

/-- A session's end leaves a link that carries nothing as it is. -/
theorem Part.endSession_link_idle (p : Part) (n : Socket) (ht : (p.link n).tx = none)
    (he : (p.link n).engineSlot = none) : (p.endSession n).link n = p.link n := by
  have hdiscard : (p.discardChallenge n).link n = p.link n := by
    have hslot : { p.link n with engineSlot := none } = p.link n := by rw [← he]
    have hpass : (p.link n).passOver = p.link n := by simp only [Link.passOver, ht]
    unfold Part.discardChallenge
    split
    · rfl
    · dsimp only
      split
      · rw [Part.release, Part.setProof_link, Part.setLink_link, if_pos rfl]
        exact hslot
      · rw [Part.setLink_link, if_pos rfl]
        exact hpass
  have hpeak (q : Part) : (q.logPeak n).links = q.links := by
    unfold Part.logPeak
    split
    · rfl
    · exact q.log_links _
  have hclose : (p.closeSession n).links = (p.discardChallenge n).links := by
    simp only [Part.closeSession, Part.setDecim, Part.setStale, Part.setClassifier_links, Part.setGrants_links,
      Part.setSession_links, Part.auditResult_links, hpeak]
  unfold Part.endSession
  split
  · rfl
  · rw [(Part.reportSession_local (S := ∅) _ n).links n (Set.notMem_empty n), Part.link, hclose]
    exact hdiscard

theorem Part.endSession_state (p : Part) (n : Socket) : ((p.endSession n).session n).state = .none := by
  unfold Part.endSession
  split
  · next h => exact h
  · rw [(Part.reportSession_local _ n).session_eq]
    have hinit : (p.closeSession n).session n = Session.initial := Part.setSession_session_self _ n Session.initial
    rw [hinit]
    rfl

/-- What HALTED leaves of socket n: an empty link that is HALTED, and no session. -/
def Part.HaltedAt (n : Socket) (e : Nat) (p : Part) : Prop :=
  (p.link n).errors = e ∧ (p.link n).state = .halted ∧ (p.link n).engineSlot = none ∧ (p.link n).pollQueue = [] ∧
    (p.link n).tx = none ∧ (p.session n).state = .none

theorem Part.HaltedAt.of_eq {p q : Part} {n : Socket} {e : Nat} (h : p.HaltedAt n e) (hl : q.link n = p.link n)
    (hs : q.session n = p.session n) : q.HaltedAt n e := by
  unfold Part.HaltedAt
  rw [hl, hs]
  exact h

theorem Part.HaltedAt.of_local {p q : Part} {n : Socket} {e : Nat} {S : Set Socket} (h : p.HaltedAt n e)
    (k : p.Local S q) (hn : n ∉ S) : q.HaltedAt n e := h.of_eq (k.links n hn) (k.sessions n hn)

theorem Part.HaltedAt.startRecovery {p : Part} {n : Socket} {e : Nat} (h : p.HaltedAt n e) :
    (p.startRecovery n).HaltedAt n e := by
  unfold Part.startRecovery
  split
  · unfold Part.HaltedAt
    rw [Part.setLink_link, if_pos rfl]
    exact h
  · exact h

theorem Part.halt_haltedAt (p : Part) (n : Socket) (h : (p.link n).tx = none) :
    (p.halt n).HaltedAt n (p.link n).errors := by
  unfold Part.halt Part.adviseLink
  generalize hq : p.setLink n { (p.link n).empty with state := .halted } = q
  have hlink : q.link n = { (p.link n).empty with state := .halted } := by
    rw [← hq, Part.setLink_link, if_pos rfl]
  have hend : (q.endSession n).HaltedAt n (p.link n).errors := by
    unfold Part.HaltedAt
    rw [q.endSession_link_idle n (by rw [hlink]; exact h) (by rw [hlink]; rfl), hlink]
    exact ⟨rfl, rfl, rfl, rfl, h, q.endSession_state n⟩
  have hlogged := hend.of_local (Part.log_local _ (haltEntry n)) (Set.notMem_empty n)
  exact (hlogged.of_local (Part.place_local _ .l0 _) (Set.notMem_empty n)).startRecovery

/-- An audit's progress finds nothing to challenge at a socket without a session. -/
theorem Part.auditTurn_haltedAt (n : Socket) (e : Nat) (p : Part) (h : p.HaltedAt n e) :
    (Part.auditTurn n p).HaltedAt n e := by
  have ⟨_, _, _, _, _, hs⟩ := h
  have hno : p.auditable n = false := by simp [Part.auditable, hs, SessState.trusted]
  unfold Part.auditTurn
  repeat' split
  · exact h
  · rw [Part.auditReach, hno, if_neg Bool.false_ne_true]
    exact h.of_local ((p.setAudit_local _).trans (Part.auditResult_local _ n _)) (Set.notMem_empty n)
  · exact h

theorem Part.auditProgress_haltedAt (n : Socket) (e : Nat) (p : Part) (h : p.HaltedAt n e) :
    p.auditProgress.HaltedAt n e := by
  obtain ⟨q, hq, hr⟩ := forSockets_at _ (fun m q S hm => q.auditTurn_local (S := S) m hm) p n
  have hn : n ∉ ({n}ᶜ : Set Socket) := by simp
  exact (((q.auditTurn_haltedAt n e (h.of_local hq hn)).of_local hr hn).of_local (Part.auditTest_local _)
    (Set.notMem_empty n))

/-! ## The end of a transaction (R23, R24, R31) -/

/-- The link with its transaction ended and its new error count. -/
def Part.counted (p : Part) (n : Socket) (e : Nat) : Part := p.setLink n { p.link n with tx := none, errors := e }

theorem Part.counted_link (p : Part) (n : Socket) (e : Nat) :
    (p.counted n e).link n = { p.link n with tx := none, errors := e } := by
  rw [Part.counted, Part.setLink_link, if_pos rfl]

theorem Part.endTransaction_below (p : Part) (n : Socket) (x : Transaction) (o : TxOutcome) (e : Nat)
    (he : errorsAfter o.isGood (p.link n).errors = e) (hne : e ≠ 255) :
    p.endTransaction n x o = ((((p.counted n e).compareThresholds n).reportOutcome n x o).tryStart n).auditProgress := by
  have herr : ((p.counted n e).link n).errors ≠ 255 := by rwa [Part.counted_link]
  subst he
  unfold Part.endTransaction
  dsimp only
  exact congrArg Part.auditProgress (if_neg herr)

theorem Part.endTransaction_halts (p : Part) (n : Socket) (x : Transaction) (o : TxOutcome)
    (he : errorsAfter o.isGood (p.link n).errors = 255) :
    p.endTransaction n x o = ((p.counted n 255).halt n).auditProgress := by
  have herr : ((p.counted n 255).link n).errors = 255 := by rw [Part.counted_link]
  unfold Part.endTransaction
  dsimp only
  rw [he]
  exact congrArg Part.auditProgress (if_pos herr)

/-- What follows the comparison of the thresholds changes no link's state or error count. -/
theorem Part.afterThresholds_local (p : Part) (n : Socket) (x : Transaction) (o : TxOutcome) :
    p.Local Set.univ ((p.reportOutcome n x o).tryStart n).auditProgress :=
  ((p.reportOutcome_local n x o).trans (Part.tryStart_local _ n (Set.mem_univ n))).trans (Part.auditProgress_local _)

end Sys2Proof.Machine

namespace Sys2Proof.Proofs
open Sys2Proof Sys2Proof.Machine Sys2Proof.Claims

/-! ## The end of a transaction, event by event -/

theorem replyExpected_iff (sent reply : BitVec 4) : replyExpected sent reply = true ↔
    if sent = 3 then reply = 4 else if sent = 5 then reply = 6 else if sent = 1 then reply = 2
    else if sent = 7 then reply = 7 else reply = 2 ∨ reply = 7 ∨ reply = 0 ∨ 12 ≤ reply.toNat := by
  revert sent reply
  decide

theorem recomputeRecheck_acts (p : Part) (n : Socket) :
    ((p.session n).state ≠ .admitted ∨ (p.session n).recheck = none → Part.recomputeRecheck n p = p) ∧
    (∀ (r : Recheck) (v d : Nat) (q : Part), (p.session n).state = .admitted → (p.session n).recheck = some r →
      v = (if p.mgmt.settings.recheckInterval = 0 then 60 else p.mgmt.settings.recheckInterval) →
      d = r.lastPass + (if (p.link n).state = .degraded then min v 5 else v) * 1000000 →
      q = p.setSession n { p.session n with recheck := some { r with due := d } } →
      (p.clock < d ∨ (p.session n).challenge ≠ none → Part.recomputeRecheck n p = q) ∧
      (d ≤ p.clock → (p.session n).challenge = none → Part.recomputeRecheck n p = q.issueChallenge n .recheck)) := by
  refine ⟨fun h => ?_, fun r v d q hs hr hv hd hq => ?_⟩
  · unfold Part.recomputeRecheck
    split
    · next hs hr => exact absurd h (by simp [hs, hr])
    · rfl
  · have hint : r.lastPass + p.recheckInterval n = d := by
      rw [hd, hv]
      unfold Part.recheckInterval Part.settings
      cases (p.link n).state <;> rfl
    have heq : Part.recomputeRecheck n p = if d ≤ p.clock then q.recheckNow n else q := by
      simp only [Part.recomputeRecheck, hs, hr, hint, hq]
    have hchal : (q.session n).challenge = (p.session n).challenge := by
      rw [hq, Part.setSession_session_self]
    rw [heq]
    refine ⟨fun h => ?_, fun hle hc => ?_⟩
    · split
      · next hle =>
        obtain ⟨c, hc⟩ := Option.ne_none_iff_exists'.mp (h.resolve_left (by omega))
        simp only [Part.recheckNow, hchal, hc]
      · rfl
    · rw [if_pos hle]
      simp only [Part.recheckNow, hchal, hc]

/-- Each of the three events that end a transaction ends it with its outcome (R22, R23). -/
theorem exec_endTransaction (s : State) (n : Socket) (x : Transaction) (c : Instr) (o : TxOutcome)
    (hon : s.part.power = .on) (hx : (s.part.link n).tx = some x)
    (h : (c = .replyWindowExpiry n ∧ (∃ d, x.phase = .waiting d) ∧ o = .expired) ∨
      (c = .receiverByteTimeout (.pack n) ∧ (∃ rx last, x.phase = .collecting rx last) ∧ o = .malformed) ∨
      (∃ bytes rx last, c = .packReplyCollected n bytes ∧ x.phase = .collecting rx last ∧ rx ≠ .hunting ∧
        (last + 2000 < s.part.clock ∧ o = .malformed ∨
          s.part.clock ≤ last + 2000 ∧
            ((rx.runFirst bytes).2 = some .malformed ∧ o = .malformed ∨
              ∃ f, (rx.runFirst bytes).2 = some (.wellFormed f) ∧
                o = if replyExpected x.frame.kind f.kind = true then .good f else .wrongKind)))) :
    exec c s = .next { s with part := s.part.endTransaction n x o } := by
  rcases h with ⟨rfl, ⟨d, hd⟩, rfl⟩ | ⟨rfl, ⟨rx, last, hd⟩, rfl⟩ | ⟨bytes, rx, last, rfl, hd, hrx, hout⟩
  · have heq : Part.windowExpiry n s.part = s.part.endTransaction n x .expired := by
      simp only [Part.windowExpiry, hx, hd]
    rw [← heq]
    exact onPart_on s _ hon
  · have heq : Part.packByteTimeout n s.part = s.part.endTransaction n x .malformed := by
      simp only [Part.packByteTimeout, hx, hd]
    rw [← heq]
    exact onPart_on s _ hon
  · have heq : Part.replyBytes n bytes s.part = s.part.endTransaction n x o := by
      simp only [Part.replyBytes, hx, hd]
      rcases hout with ⟨hlate, rfl⟩ | ⟨htime, hout⟩
      · rw [if_pos ((rx.overdue_iff last _).mpr ⟨hrx, hlate⟩)]
      · rw [if_neg (by rw [rx.not_overdue_of_inTime last _ htime]; exact Bool.false_ne_true)]
        generalize rx.runFirst bytes = res at hout
        obtain ⟨rx', r⟩ := res
        rcases hout with ⟨hr, rfl⟩ | ⟨f, hr, rfl⟩
        · obtain rfl : r = some .malformed := hr
          rfl
        · obtain rfl : r = some (.wellFormed f) := hr
          rfl
    rw [← heq]
    exact onPart_on s _ hon

theorem compareThresholds_acts (p : Part) (n : Socket) (l : Link) (hl : l = p.link n) :
    (l.state = .active → l.errors < 96 → p.compareThresholds n = p) ∧
    (l.state = .active → 96 ≤ l.errors → p.compareThresholds n = (Part.recomputeRecheck n
      (p.setLink n { l with state := .degraded })).place .l0 (linkAdvisory n .degraded l.errors)) ∧
    (l.state = .degraded → 64 ≤ l.errors → p.compareThresholds n = p) ∧
    (l.state = .degraded → l.errors < 64 → p.compareThresholds n = (Part.recomputeRecheck n
      (p.setLink n { l with state := .active })).place .l0 (linkAdvisory n .active l.errors)) := by
  subst hl
  refine ⟨fun hs he => ?_, fun hs he => ?_, fun hs he => ?_, fun hs he => ?_⟩
  · rw [p.compareThresholds_active n hs, if_neg (by omega)]
  · rw [p.compareThresholds_active n hs, if_pos he, p.regrade_eq]
  · rw [p.compareThresholds_degraded n hs, if_neg (by omega)]
  · rw [p.compareThresholds_degraded n hs, if_pos he, p.regrade_eq]

/-- The error count that the statement names is the one counted. -/
theorem errorsAfter_eq (o : TxOutcome) (errors e : Nat) (hgood : (∃ f, o = .good f) → e = errors - 1)
    (hbad : (∀ f, o ≠ .good f) → e = min 255 (errors + 8)) : errorsAfter o.isGood errors = e := by
  cases o with
  | good f => exact (hgood ⟨f, rfl⟩).symm
  | malformed => exact (hbad fun f => by simp).symm
  | wrongKind => exact (hbad fun f => by simp).symm
  | expired => exact (hbad fun f => by simp).symm

/-- Below 255 the count, and the state that the thresholds give, stand when the event is over (R31, R32). -/
theorem endTransaction_health (p : Part) (n : Socket) (x : Transaction) (o : TxOutcome) (e : Nat)
    (he : errorsAfter o.isGood (p.link n).errors = e) (hne : e ≠ 255)
    (h : (p.link n).state = .active ∨ (p.link n).state = .degraded) :
    ((p.endTransaction n x o).link n).errors = e ∧
    ((p.link n).state = .active →
      ((p.endTransaction n x o).link n).state = if 96 ≤ e then .degraded else .active) ∧
    ((p.link n).state = .degraded →
      ((p.endTransaction n x o).link n).state = if e < 64 then .active else .degraded) := by
  have hafter := ((p.counted n e).compareThresholds n).afterThresholds_local n x o
  obtain ⟨herr, hact, hdeg⟩ := (p.counted n e).compareThresholds_health n (by rwa [Part.counted_link])
  rw [Part.counted_link] at herr hact hdeg
  rw [p.endTransaction_below n x o e he hne, hafter.errors, hafter.state]
  exact ⟨herr, hact, hdeg⟩

/-- At 255 the link is HALTED when the event is over (R33). -/
theorem endTransaction_haltedAt (p : Part) (n : Socket) (x : Transaction) (o : TxOutcome)
    (he : errorsAfter o.isGood (p.link n).errors = 255) : (p.endTransaction n x o).HaltedAt n 255 := by
  have hhalt := (p.counted n 255).halt_haltedAt n (by rw [Part.counted_link])
  rw [Part.counted_link] at hhalt
  rw [p.endTransaction_halts n x o he]
  exact Part.auditProgress_haltedAt n 255 _ hhalt

/-- Settles O30: the events all end the transaction, whose count decides between the thresholds and HALTED. -/
theorem transactionEndsCountLineErrors : Obligations.TransactionEndsCountLineErrors := by
  refine ⟨replyExpected_iff, compareThresholds_acts, recomputeRecheck_acts, fun p n t => ⟨fun ht o => ?_, fun ht f => ?_⟩,
    fun s n x c o hon hx hstate hc => ⟨_, exec_endTransaction s n x c o hon hx hc, fun e hgood hbad => ?_, ?_, rfl⟩⟩
  · simp only [Part.reportOutcome, ht]
  · simp only [Part.reportOutcome, ht]
  · have he := errorsAfter_eq o _ e hgood hbad
    by_cases h255 : e = 255
    · subst h255
      obtain ⟨herr, hst, hslot, hqueue, htx, hsess⟩ := endTransaction_haltedAt s.part n x o he
      exact ⟨herr, fun h => absurd rfl h, fun _ => ⟨hst, hslot, hqueue, htx, hsess⟩, fun h => absurd rfl h,
        fun h => absurd rfl h⟩
    · obtain ⟨herr, hact, hdeg⟩ := endTransaction_health s.part n x o e he h255 hstate
      refine ⟨herr, fun _ q hq => ?_, fun h => absurd h h255, fun _ => hact, fun _ => hdeg⟩
      rw [hq]
      exact s.part.endTransaction_below n x o e he h255
  · exact (s.part.endTransaction_ordinary n x o (by rw [hx]; rfl)).trust

end Sys2Proof.Proofs

namespace Sys2Proof.Machine
open Sys2Proof.Claims

/-! ## The part while it is held or without power (log 18) -/

theorem Part.whileOn_held (p : Part) (f : Part → Part) (h : p.power ≠ .on) : p.whileOn f = p := by
  unfold Part.whileOn
  split
  · next hon => exact absurd hon h
  · rfl
  · rfl

theorem State.onPart_held (s : State) (f : Part → Part) (h : s.part.power ≠ .on) : s.onPart f = .next s := by
  rw [State.onPart, s.part.whileOn_held f h]

theorem State.endJob_held (s : State) (r : JobEnd) (own : Job → Option (Bool → Part → Part))
    (h : s.part.power ≠ .on) : s.endJob r own = .next s := by
  unfold State.endJob
  split
  · next hon _ => exact absurd hon h
  · rfl

/-- A contact's assertion while the contact is not watched: its level is tracked. -/
theorem exec_contactAsserts_unwatched (n : Socket) (s : State) (h : s.part.power ≠ .on ∨ s.part.ctl.loading = true) :
    exec (.contactAsserts n) s = .next { s with part := s.part.setContact n true } := by
  have hrose : (s.part.setContact n true).whileOn (Part.contactRose n) = s.part.setContact n true := by
    rcases h with h | h
    · exact Part.whileOn_held _ _ h
    · unfold Part.whileOn Part.contactRose
      rw [show (s.part.setContact n true).ctl.loading = true from h]
      split <;> rfl
  show Host.Outcome.next { s with part := if s.part.contacts.get n then s.part else _ } = _
  split
  · next hc => rw [Part.setContact, ← hc, PerSocket.set_get_self]
  · rw [hrose]

theorem exec_contactDeasserts_unwatched (n : Socket) (s : State)
    (h : s.part.power ≠ .on ∨ s.part.ctl.loading = true) :
    exec (.contactDeasserts n) s = .next { s with part := s.part.setContact n false } := by
  have hfell : (s.part.setContact n false).whileOn (Part.contactFell n) = s.part.setContact n false := by
    rcases h with h | h
    · exact Part.whileOn_held _ _ h
    · unfold Part.whileOn Part.contactFell
      rw [show (s.part.setContact n false).ctl.loading = true from h]
      split <;> rfl
  show Host.Outcome.next { s with part := if s.part.contacts.get n then _ else s.part } = _
  split
  · rw [hfell]
  · next hc => rw [Part.setContact, ← Bool.eq_false_iff.mpr hc, PerSocket.set_get_self]

theorem exec_lockChange_held (b : Bool) (s : State) (h : s.part.power ≠ .on) :
    exec (.lockChange b) s = .next { s with part := { s.part with lockPin := b } } := by
  show Host.Outcome.next { s with part := Part.whileOn { s.part with lockPin := b } (Part.reportLock b) } = _
  rw [Part.whileOn_held { s.part with lockPin := b } _ h]

/-- No command but a cold start, a cut and a change of a pin does anything while the part is held or without power. -/
theorem exec_held (c : Instr) (s : State) (h : s.part.power ≠ .on) (hcold : ∀ k, c ≠ .coldStart k)
    (hcut : ∀ k i, c ≠ .powerFailsOrResetnAsserted k i) (hrise : ∀ n, c ≠ .contactAsserts n)
    (hfall : ∀ n, c ≠ .contactDeasserts n) (hlock : ∀ b, c ≠ .lockChange b) : exec c s = .next s := by
  cases c with
  | coldStart k => exact absurd rfl (hcold k)
  | powerFailsOrResetnAsserted k i => exact absurd rfl (hcut k i)
  | contactAsserts n => exact absurd rfl (hrise n)
  | contactDeasserts n => exact absurd rfl (hfall n)
  | lockChange b => exact absurd rfl (hlock b)
  | logEntryJobComplete r | watermarkJobComplete r | keyWriteComplete r | keyRetireComplete r | keyEraseComplete r
  | classWriteComplete r | classEraseComplete r | withdrawAddComplete r | withdrawClearComplete r
  | auditWithdrawalComplete r | rulesApplyComplete r | settingWriteComplete r | mapWriteComplete r =>
    exact s.endJob_held r _ h
  | _ => exact s.onPart_held _ h

/-! ## The links' soundness along a step -/

theorem Part.cut_power (c : CutCause) (p : Part) : (Part.cut c p).power ≠ .on := by
  cases c with
  | powerFails => exact Power.noConfusion
  | resetAsserted => cases hp : p.power <;> simp [Part.cut, hp]

/-- A part that is held or without power is brought to operate by a cold start alone. -/
theorem exec_stays_held (c : Instr) (s t : State) (h : s.part.power ≠ .on) (hcold : ∀ k, c ≠ .coldStart k)
    (hexec : exec c s = .next t) : t.part.power ≠ .on := by
  cases c with
  | coldStart k => exact absurd rfl (hcold k)
  | powerFailsOrResetnAsserted k i =>
    cases hexec
    exact s.part.cut_power k
  | contactAsserts n =>
    cases (exec_contactAsserts_unwatched n s (.inl h)).symm.trans hexec
    exact h
  | contactDeasserts n =>
    cases (exec_contactDeasserts_unwatched n s (.inl h)).symm.trans hexec
    exact h
  | lockChange b =>
    cases (exec_lockChange_held b s h).symm.trans hexec
    exact h
  | _ =>
    rw [exec_held _ s h] at hexec
    · cases hexec
      exact h
    all_goals exact nofun

/-- A command leaves an operating part's links sound. -/
theorem exec_linksSound (c : Instr) (s t : State) (hs : s.part.power = .on → s.part.LinksSound)
    (hexec : exec c s = .next t) (hon : t.part.power = .on) : t.part.LinksSound := by
  by_cases hcold : ∃ k, c = .coldStart k
  · obtain ⟨k, rfl⟩ := hcold
    cases hexec
    obtain ⟨-, -, hlinks, -⟩ := s.part.coldStart_spec s.array k
    exact hlinks
  · push Not at hcold
    by_cases hp : s.part.power = .on
    · by_cases hcut : ∃ k i, c = .powerFailsOrResetnAsserted k i
      · obtain ⟨k, i, rfl⟩ := hcut
        cases hexec
        exact absurd hon (s.part.cut_power k)
      · push Not at hcut
        exact fun n => (exec_keeps c s t hp hexec hcold hcut).links n (hs hp n)
    · exact absurd hon (exec_stays_held c s t hp hcold hexec)

/-- While no command waits the links stand as they are. -/
theorem State.idle_linksSound (s : State) (hs : s.part.power = .on → s.part.LinksSound)
    (hon : s.idle.part.power = .on) : s.idle.part.LinksSound := by
  revert hon
  unfold State.idle
  split
  · exact hs
  · next hp => exact fun hon => absurd (hp.symm.trans hon) Power.noConfusion
  · next hp =>
    split
    · exact fun _ => hs hp
    · exact fun _ => hs hp

end Sys2Proof.Machine

namespace Sys2Proof.Proofs
open Sys2Proof Sys2Proof.Machine Sys2Proof.Claims

/-- Settles O25: what is tracked, and what does nothing, while the part does not operate. -/
theorem heldPartOnlyTracksItsPins : Obligations.HeldPartOnlyTracksItsPins := fun s =>
  ⟨fun n h => ⟨exec_contactAsserts_unwatched n s h, exec_contactDeasserts_unwatched n s h⟩,
   fun h => ⟨fun b => exec_lockChange_held b s h, fun c => exec_held c s h⟩⟩

/-- Settles O9: every command keeps the links of an operating part sound, a cold start makes them so, and the passing of
time leaves them alone. -/
theorem linksStaySound : Obligations.LinksStaySound := by
  intro s t hs hstep
  unfold step at hstep
  split at hstep
  · cases hstep
    exact s.idle_linksSound hs
  · next c rest _ => exact exec_linksSound c { s with pending := rest } t hs hstep

end Sys2Proof.Proofs

namespace Sys2Proof.Machine
open Sys2Proof.Claims

/-! ## Presence at a link (R16, R18, R34) -/

theorem exec_contactAsserts_loaded (n : Socket) (s : State) (hs : Loaded s) (hc : s.part.contacts.get n = false) :
    exec (.contactAsserts n) s = .next { s with part := Part.contactRose n (s.part.setContact n true) } := by
  obtain ⟨hon, -⟩ := hs
  show Host.Outcome.next { s with part := if s.part.contacts.get n then s.part else _ } = _
  rw [hc, if_neg Bool.false_ne_true, Part.whileOn, show (s.part.setContact n true).power = .on from hon]

theorem exec_contactDeasserts_loaded (n : Socket) (s : State) (hs : Loaded s) (hc : s.part.contacts.get n = true) :
    exec (.contactDeasserts n) s = .next { s with part := Part.contactFell n (s.part.setContact n false) } := by
  obtain ⟨hon, -⟩ := hs
  show Host.Outcome.next { s with part := if s.part.contacts.get n then _ else s.part } = _
  rw [hc, if_pos rfl, Part.whileOn, show (s.part.setContact n false).power = .on from hon]

/-- The LINK advisory of a link just replaced (R35). -/
theorem Part.setLink_adviseLink (p : Part) (n : Socket) (x : Link) :
    (p.setLink n x).adviseLink n = (p.setLink n x).place .l0 (linkAdvisory n x.state x.errors) := by
  rw [Part.adviseLink, Part.setLink_link_self]

/-- The entry into SETTLING with its LINK advisory (R16, R34, R35). -/
theorem Part.enterSettling_adviseLink (p : Part) (n : Socket) :
    (p.enterSettling n).adviseLink n = (p.setLink n { p.link n with
      state := .settling, settle := if p.mgmt.parked then none else some (p.clock + 250000),
      recovery := none, errors := 0 }).place .l0 (linkAdvisory n .settling 0) :=
  p.setLink_adviseLink n _

/-- A HALTED link whose pack is back starts a full 2 s of recovery where R34 lets its timer run. -/
theorem Part.clearDrop_startRecovery (p : Part) (n : Socket) (hh : (p.link n).state = .halted)
    (hc : p.contacts.get n = true) :
    (p.setLink n { p.link n with drop := none }).startRecovery n = p.setLink n { p.link n with
      drop := none,
      recovery := if p.settings.haltRecovery = 0 ∧ p.mgmt.parked = false then some (p.clock + 2000000)
        else (p.link n).recovery } := by
  have hruns : (p.setLink n { p.link n with drop := none }).recoveryRuns n = true ↔
      p.settings.haltRecovery = 0 ∧ p.mgmt.parked = false := by
    simp [Part.recoveryRuns, hh, hc]
  unfold Part.startRecovery
  by_cases h : p.settings.haltRecovery = 0 ∧ p.mgmt.parked = false
  · rw [if_pos (hruns.mpr h), if_pos h, Part.setLink_link_self, Part.setLink_setLink]
    rfl
  · rw [if_neg (mt hruns.mp h), if_neg h]

end Sys2Proof.Machine

namespace Sys2Proof.Proofs
open Sys2Proof Sys2Proof.Machine Sys2Proof.Claims

/-- Settles O23: one case of the link's state after another. -/
theorem contactAssertsByLinkState : Obligations.ContactAssertsByLinkState := by
  intro s n hs hc
  rw [exec_contactAsserts_loaded n s hs hc]
  obtain ⟨-, hl⟩ := hs
  obtain ⟨q, hq⟩ : ∃ q, q = s.part.setContact n true := ⟨_, rfl⟩
  have hload : q.ctl.loading = false := by rw [hq]; exact hl
  have hcont : q.contacts.get n = true := by rw [hq]; exact PerSocket.get_set_self ..
  refine ⟨q, hq, ?_⟩
  rw [← hq, Part.contactRose, hload, if_neg Bool.false_ne_true]
  refine ⟨fun hv => ?_, fun hv => ?_, ?_, fun hv => ?_⟩
  · simp only [hv, q.enterSettling_adviseLink]
  · simp only [hv]
  · rintro (hv | hv) <;> simp only [hv]
  · rw [q.clearDrop_startRecovery n hv hcont]
    simp only [hv]

/-- Settles O24: one case of the link's state after another. -/
theorem contactDeassertsByLinkState : Obligations.ContactDeassertsByLinkState := by
  intro s n hs hc
  rw [exec_contactDeasserts_loaded n s hs hc]
  obtain ⟨-, hl⟩ := hs
  obtain ⟨q, hq⟩ : ∃ q, q = s.part.setContact n false := ⟨_, rfl⟩
  have hload : q.ctl.loading = false := by rw [hq]; exact hl
  refine ⟨q, hq, ?_⟩
  rw [← hq, Part.contactFell, hload, if_neg Bool.false_ne_true]
  refine ⟨fun hv => ?_, fun hv => ?_, ?_, fun hv => ?_⟩
  · simp only [hv]
  · simp only [hv, Part.setLink_adviseLink]
  · rintro (hv | hv) <;> simp only [hv] <;> rfl
  · simp only [hv]
    rfl

end Sys2Proof.Proofs

namespace Sys2Proof.Machine
open Sys2Proof.Claims

/-! ## What has fallen due (log 1) -/

theorem Part.mem_dueAt (p : Part) (n : Socket) (e : Instr) : e ∈ p.dueAt n ↔
    (reached (p.link n).settle p.clock = true ∧ e = .settleTimerExpiry n) ∨
    (reached (p.link n).drop p.clock = true ∧ e = .dropTimerExpiry n) ∨
    (reached (p.link n).recovery p.clock = true ∧ e = .recoveryTimerExpiry n) ∨
    (reached (p.link n).closes p.clock = true ∧ e = .replyWindowExpiry n) ∨
    ((p.link n).byteOverdue p.clock = true ∧ e = .receiverByteTimeout (.pack n)) ∨
    (reached (p.session n).recheckAt p.clock = true ∧ e = .recheckDue n) ∨
    (p.holdElapsed n = true ∧ e = .holdTimerExpiry n) := by
  simp only [Part.dueAt, List.mem_append, mem_ite_one, or_assoc]

theorem Part.mem_due (p : Part) (h : p.ctl.loading = false) (e : Instr) : e ∈ p.due ↔
    (∃ n, e ∈ p.dueAt n) ∨
    (p.tlp.rx.overdue p.tlp.lastByte p.clock = true ∧ e = .receiverByteTimeout .tool) ∨
    (reached p.tlp.silence p.clock = true ∧ e = .silenceTimerExpiry) ∨
    (reached p.grants.overdraw p.clock = true ∧ e = .overdrawTimerExpiry) ∨
    (reached p.grants.aggregate p.clock = true ∧ e = .aggregateTimerExpiry) ∨
    (p.auditReady = true ∧ e = .auditComplete) ∨ (p.waited codePark = true ∧ e = .parkComplete) ∨
    (p.waited codeReset = true ∧ e = .inBandReset) := by
  simp only [Part.due, h, Bool.false_eq_true, if_false, Part.toolByteDue, List.mem_append, mem_ite_one, or_assoc,
    List.mem_flatMap, Socket.mem_all, true_and]

theorem Part.mem_due_loading (p : Part) (h : p.ctl.loading = true) (e : Instr) (he : e ∈ p.due) :
    e = .loadingFinished ∨ e = .receiverByteTimeout .tool := by
  simp only [Part.due, h, if_true, Part.toolByteDue, List.mem_append, mem_ite_one] at he
  exact he.imp And.right And.right

theorem Link.reached_closes (l : Link) (now : Nat) :
    reached l.closes now = true ↔ ∃ x d, l.tx = some x ∧ x.phase = .waiting d ∧ d ≤ now := by
  rw [reached_iff]
  unfold Link.closes
  cases l.tx with
  | none => simp
  | some x => cases hp : x.phase <;> simp [hp]

theorem Session.reached_recheckAt (x : Session) (now : Nat) :
    reached x.recheckAt now = true ↔
      x.state = .admitted ∧ x.challenge = none ∧ ∃ r, x.recheck = some r ∧ r.due ≤ now := by
  rw [reached_iff]
  unfold Session.recheckAt
  cases x.state <;> cases x.challenge <;> cases x.recheck <;> simp

theorem Part.holdElapsed_iff (p : Part) (n : Socket) : p.holdElapsed n = true ↔
    p.grants.stale.get n = false ∧ ∃ x, (p.session n).telemetry = some x ∧
      (if p.mgmt.settings.telemetryHold = 0 then 500 else p.mgmt.settings.telemetryHold * 100) ≤
        min 65535 ((p.clock - x.since) / 1000) := by
  unfold Part.holdElapsed Part.holdRunning
  cases (p.session n).telemetry with
  | none => simp
  | some x =>
    simp only [Option.isSome_some, Bool.true_and, Bool.and_eq_true, Bool.not_eq_true', decide_eq_true_eq,
      Option.some.injEq, exists_eq_left']
    rfl

end Sys2Proof.Machine

namespace Sys2Proof.Proofs
open Sys2Proof Sys2Proof.Machine Sys2Proof.Claims

/-! ## A step with no command waiting -/

theorem emptyQueue_step (s : State) (h : s.pending = []) :
    (s.part.power = .off → step s = .next s) ∧
    (s.part.power = .resetHeld → step s = .next { s with part := { s.part with clock := s.part.clock + 1 } }) ∧
    (s.part.power = .on → s.part.due = [] →
      step s = .next { s with part := { s.part with clock := s.part.clock + 1 } }) ∧
    (s.part.power = .on → s.part.due ≠ [] → step s = .next { s with pending := s.part.due }) := by
  have hstep : step s = .next s.idle := by simp only [step, h]
  rw [hstep]
  unfold State.idle
  refine ⟨fun hp => by rw [hp], fun hp => by rw [hp]; rfl, fun hp hd => by rw [hp, hd]; rfl, fun hp hd => ?_⟩
  obtain ⟨e, es, hes⟩ := List.exists_cons_of_ne_nil hd
  rw [hp, hes]

theorem socketEvents_due (p : Part) (h : p.ctl.loading = false) (n : Socket) :
    (.settleTimerExpiry n ∈ p.due ↔ ∃ d, (p.link n).settle = some d ∧ d ≤ p.clock) ∧
    (.dropTimerExpiry n ∈ p.due ↔ ∃ d, (p.link n).drop = some d ∧ d ≤ p.clock) ∧
    (.recoveryTimerExpiry n ∈ p.due ↔ ∃ d, (p.link n).recovery = some d ∧ d ≤ p.clock) ∧
    (.replyWindowExpiry n ∈ p.due ↔ ∃ x d, (p.link n).tx = some x ∧ x.phase = .waiting d ∧ d ≤ p.clock) ∧
    (.recheckDue n ∈ p.due ↔ (p.session n).state = .admitted ∧ (p.session n).challenge = none ∧
      ∃ x, (p.session n).recheck = some x ∧ x.due ≤ p.clock) ∧
    (.holdTimerExpiry n ∈ p.due ↔ p.grants.stale.get n = false ∧ ∃ x, (p.session n).telemetry = some x ∧
      (if p.mgmt.settings.telemetryHold = 0 then 500 else p.mgmt.settings.telemetryHold * 100) ≤
        min 65535 ((p.clock - x.since) / 1000)) := by
  rw [← reached_iff, ← reached_iff, ← reached_iff, ← Link.reached_closes, ← Session.reached_recheckAt,
    ← p.holdElapsed_iff]
  refine ⟨?_, ?_, ?_, ?_, ?_, ?_⟩
  all_goals simp [p.mem_due h, Part.mem_dueAt]

/-- Settles O2: the idle step, and the members of the list of due events. -/
theorem emptyQueueStepQueuesDueEventsOrTicks : Obligations.EmptyQueueStepQueuesDueEventsOrTicks := by
  refine ⟨emptyQueue_step, Part.mem_due_loading, fun p h => ⟨socketEvents_due p h, ?_⟩⟩
  rw [← reached_iff, ← reached_iff, ← reached_iff]
  refine ⟨?_, ?_, ?_⟩
  all_goals simp [p.mem_due h, Part.mem_dueAt]

end Sys2Proof.Proofs

namespace Sys2Proof.Machine
open Sys2Proof.Claims

/-! ## The start of a transaction (R21, R80, R104) -/

theorem LinkState.working_iff (st : LinkState) : st.working = true ↔ st = .active ∨ st = .degraded := by
  cases st <;> simp [LinkState.working]

theorem Part.canStart_iff (p : Part) (n : Socket) : p.canStart n = true ↔
    (p.link n).tx = none ∧ (p.link n).draining = none ∧ ((p.link n).state = .active ∨ (p.link n).state = .degraded) ∧
      p.contacts.get n = true ∧ (p.link n).drop = none ∧ p.mgmt.parked = false := by
  simp only [Part.canStart, Bool.and_eq_true, Option.isNone_iff_eq_none, LinkState.working_iff, Bool.not_eq_true',
    and_assoc]

theorem Part.tryStart_of_not_canStart (p : Part) (n : Socket) (h : ¬ p.canStart n = true) : p.tryStart n = p :=
  if_neg h

/-- Which frame a transaction takes: the engine slot's first, then the oldest of the poll queue. -/
theorem Part.tryStart_of_canStart (p : Part) (n : Socket) (h : p.canStart n = true) :
    ((p.link n).engineSlot = none → (p.link n).pollQueue = [] → p.tryStart n = p) ∧
    (∀ f q, (p.link n).engineSlot = none → (p.link n).pollQueue = f :: q → p.tryStart n = p.setLink n { p.link n with
      pollQueue := q, tx := some (.begin f .pollQueue) }) ∧
    ((p.link n).engineSlot = some .identify → p.tryStart n = p.setLink n { p.link n with
      engineSlot := none, tx := some (.begin (identifyFrame n) .engineSlot) }) ∧
    ((p.link n).engineSlot = some .challenge → p.tryStart n = p.startChallenge n) := by
  unfold Part.tryStart
  rw [if_pos h]
  refine ⟨fun he hq => ?_, fun f q he hq => ?_, fun he => ?_, fun he => ?_⟩
  · simp only [he, hq]
  · rw [he, hq]
  · rw [he]
  · simp only [he]

theorem extractLsb'_byte {m : Nat} (w : Word) (lo i : Nat) (hi : i + 8 ≤ m) :
    (w.extractLsb' lo m).extractLsb' i 8 = w.extractLsb' (lo + i) 8 := by
  refine BitVec.eq_of_getLsbD_eq fun k hk => ?_
  have hm : i + k < m := by omega
  simp [hk, hm, Nat.add_assoc]

theorem Word.bytes_halves (w : Word) : Half.bytes (Word.hi w) ++ Half.bytes (Word.lo w) = Word.bytes w := by
  simp [Half.bytes, Word.bytes, Word.hi, Word.lo, Word.byte, extractLsb'_byte]

/-- The CHALLENGE of a draw carries the counter value and the entropy value (Table 1.6). -/
theorem challengeFrame_nonce (n : Socket) (x : ProofUnit) : challengeFrame n x.nonce =
    { kind := 5, socket := n,
      payload := Word.bytes x.counter ++ Word.bytes (Config.entropy x.entropyDraws) ++ [byteOf n.val] } := by
  rw [← Word.bytes_halves x.counter, ← Word.bytes_halves (Config.entropy x.entropyDraws)]
  simp only [challengeFrame, ProofUnit.nonce, kindChallenge, List.append_assoc]

theorem Part.renewalTest_proof (p : Part) : ∃ m, p.renewalTest.proof = { p.proof with pendingMark := m } := by
  unfold Part.renewalTest
  repeat' split
  · refine ⟨nextWatermark p.proof.pendingMark, ?_⟩
    unfold Part.queueWatermark
    repeat' split
    · rfl
    · rfl
    · exact Part.queueJob_proof _ _
  · exact ⟨p.proof.pendingMark, p.queueJob_proof _⟩
  · exact ⟨p.proof.pendingMark, rfl⟩

/-- A draw changes the proof unit by itself and by the renewal of the watermark alone. -/
theorem Part.draw_proof (p : Part) : ∃ m, p.draw.proof = { p.proof.drawn with pendingMark := m } := by
  obtain ⟨m, hm⟩ := (p.setProof p.proof.drawn).renewalTest_proof
  exact ⟨m, (Part.reportCause_proof _ _ _).trans hm⟩

theorem Part.markSent_session (p : Part) (n : Socket) (x : Nonce) (c : Challenge)
    (hc : (p.session n).challenge = some c) : (p.markSent n x).session n = { p.session n with
      challenge := some { c with phase := .sent x (p.editCount (p.session n).keySlot) } } := by
  simp only [Part.markSent, hc, Part.setSession_session_self]

theorem Part.startChallenge_link (p : Part) (n : Socket) : (p.startChallenge n).link n = { p.link n with
    engineSlot := none, tx := some (.begin (challengeFrame n p.proof.nonce) .engineSlot) } := by
  have hl : (p.draw.markSent n p.proof.nonce).link n = p.link n := by
    rw [Part.markSent_link, Part.link, p.draw_links, ← Part.link]
  rw [Part.startChallenge, Part.setLink_link_self, hl]

theorem Part.startChallenge_proof (p : Part) (n : Socket) :
    (p.startChallenge n).proof = p.draw.proof := by
  rw [Part.startChallenge, Part.setLink_proof, Part.markSent_proof]

theorem Part.startChallenge_session (p : Part) (n : Socket) (c : Challenge)
    (hc : (p.session n).challenge = some c) : (p.startChallenge n).session n = { p.session n with
      challenge := some { c with phase := .sent p.proof.nonce (p.editCount (p.session n).keySlot) } } := by
  have hs : p.draw.session n = p.session n := by rw [Part.session, p.draw_engine, ← Part.session]
  have he : p.draw.editCount = p.editCount := by
    funext k
    simp only [Part.editCount, p.draw_ordinary.trust]
  rw [Part.startChallenge, Part.setLink_session, Part.markSent_session _ n _ c (hs ▸ hc), hs, he]

/-! ## The poll queue (R28, R29) -/

theorem pollAppend_room (q : List Frame) (f : Frame) (h : q.length < 4) : pollAppend q f = q ++ [f] := if_pos h

theorem pollAppend_full (g : Frame) (q : List Frame) (f : Frame) (h : q.length = 3) :
    pollAppend (g :: q) f = q ++ [f] := by
  rw [pollAppend, if_neg (by simp [h])]
  rfl

theorem Part.pollTake_of_working (p : Part) (n : Socket) (f : Frame)
    (hw : (p.link n).state = .active ∨ (p.link n).state = .degraded) (hp : p.mgmt.parked = false) :
    p.pollTake n f =
      (p.setLink n { p.link n with pollQueue := pollAppend (p.link n).pollQueue f }).tryStart n := by
  rw [Part.pollTake, (LinkState.working_iff _).mpr hw, hp]
  rfl

theorem Part.pollTake_of_idle (p : Part) (n : Socket) (f : Frame)
    (h : (p.link n).state = .vacant ∨ (p.link n).state = .settling ∨ (p.link n).state = .halted ∨
      p.mgmt.parked = true) : p.pollTake n f = p := by
  unfold Part.pollTake
  rcases h with h | h | h | h <;> simp [h, LinkState.working]

end Sys2Proof.Machine

namespace Sys2Proof.Proofs
open Sys2Proof Sys2Proof.Machine Sys2Proof.Claims

theorem challengeStart_draws (p : Part) (n : Socket) (h : p.canStart n = true)
    (he : (p.link n).engineSlot = some .challenge) :
    (p.tryStart n).link n = { p.link n with engineSlot := none, tx := some (.begin
      { kind := 5, socket := n, payload := Word.bytes p.proof.counter ++
          Word.bytes (Config.entropy p.proof.entropyDraws) ++ [byteOf n.val] } .engineSlot) } ∧
    (p.tryStart n).proof.counter = p.proof.counter + 1 ∧
    (p.tryStart n).proof.reserved = p.proof.reserved - 1 ∧
    (p.tryStart n).proof.drawMark = some p.proof.counter ∧
    (∀ c, (p.session n).challenge = some c → ((p.tryStart n).session n).challenge = some { c with
      phase := .sent p.proof.nonce (p.editCount (p.session n).keySlot) }) := by
  obtain ⟨-, -, -, hstart⟩ := p.tryStart_of_canStart n h
  obtain ⟨m, hm⟩ := p.draw_proof
  rw [hstart he, p.startChallenge_link, challengeFrame_nonce, p.startChallenge_proof, hm]
  exact ⟨rfl, rfl, rfl, rfl, fun c hc => by rw [p.startChallenge_session n c hc]⟩

/-- Settles O28: the conditions of R21, the choice among the frames, the draw, and the poll queue of four. -/
theorem transactionsStartFromSlotAndQueue : Obligations.TransactionsStartFromSlotAndQueue := by
  refine ⟨fun p n => ⟨fun h => ?_, fun htx hdr hst hc hd hp => ?_⟩,
    fun p n f => ⟨fun hw hp => ⟨fun hlen => ?_, fun g q hq hlen => ?_⟩, p.pollTake_of_idle n f⟩⟩
  · exact p.tryStart_of_not_canStart n (mt (p.canStart_iff n).mp h)
  · have hcan : p.canStart n = true := (p.canStart_iff n).mpr ⟨htx, hdr, hst, hc, hd, hp⟩
    obtain ⟨hnone, hpoll, hident, -⟩ := p.tryStart_of_canStart n hcan
    exact ⟨hnone, hpoll, hident, challengeStart_draws p n hcan⟩
  · rw [p.pollTake_of_working n f hw hp, pollAppend_room _ f hlen]
  · rw [p.pollTake_of_working n f hw hp, hq, pollAppend_full g q f hlen]

end Sys2Proof.Proofs

namespace Sys2Proof.Machine
open Sys2Proof.Claims

/-! ## Sending, the reply window, the reply's bytes (R4, R22, R27, R30) -/

theorem Part.frameSent_sending (n : Socket) (p : Part) (x : Transaction) (hx : (p.link n).tx = some x)
    (hp : x.phase = .sending) (hd : (p.link n).draining = none) :
    Part.frameSent n p = p.setLink n { p.link n with tx := some { x with
      phase := .waiting (p.clock + if x.frame.kind = kindChallenge then 40000 else 10000),
      sentAt := if x.frame.kind = kindChallenge then some (BitVec.ofNat 32 p.clock) else none } } := by
  simp only [Part.frameSent, hd, hx, hp]
  simp only [Part.setTx, hd, replyWindow, Part.microCounter]

theorem Part.frameSent_drained (n : Socket) (p : Part) (f : Frame) (hd : (p.link n).draining = some f) :
    Part.frameSent n p = (p.setLink n { p.link n with draining := none }).tryStart n := by
  simp only [Part.frameSent, hd]

theorem Part.replyBegins_waiting (n : Socket) (p : Part) (x : Transaction) (closes : Nat)
    (hx : (p.link n).tx = some x) (hp : x.phase = .waiting closes) :
    Part.replyBegins n p = p.setLink n { p.link n with tx := some { x with
      phase := .collecting .header p.clock,
      replyAt := if x.frame.kind = kindChallenge then some (BitVec.ofNat 32 p.clock) else none } } := by
  simp only [Part.replyBegins, hx, hp]
  rfl

/-- Bytes that come in time and do not finish the reply move the receiver. -/
theorem Part.replyBytes_moves (n : Socket) (bytes : List Byte) (p : Part) (x : Transaction) (rx rx' : Rx) (last : Nat)
    (hx : (p.link n).tx = some x) (hp : x.phase = .collecting rx last) (ht : p.clock ≤ last + 2000)
    (hb : bytes ≠ []) (hrun : rx.runFirst bytes = (rx', none)) (hc : rx' ≠ .hunting) :
    Part.replyBytes n bytes p =
      p.setLink n { p.link n with tx := some { x with phase := .collecting rx' p.clock } } := by
  simp only [Part.replyBytes, hx, hp, rx.not_overdue_of_inTime last _ ht, hrun, Bool.false_eq_true, if_false]
  rw [rx'.stamp_of_collecting bytes last _ hc hb]
  rfl

/-- Bytes that come late act as the receiver's timeout. -/
theorem Part.replyBytes_late (n : Socket) (bytes : List Byte) (p : Part) (x : Transaction) (rx : Rx) (last : Nat)
    (hx : (p.link n).tx = some x) (hp : x.phase = .collecting rx last) (hc : rx ≠ .hunting)
    (ht : last + 2000 < p.clock) : Part.replyBytes n bytes p = Part.packByteTimeout n p := by
  simp only [Part.replyBytes, Part.packByteTimeout, hx, hp, (rx.overdue_iff last _).mpr ⟨hc, ht⟩, if_true]

theorem Link.byteOverdue_collecting (l : Link) (now : Nat) (x : Transaction) (rx : Rx) (last : Nat)
    (hx : l.tx = some x) (hp : x.phase = .collecting rx last) : l.byteOverdue now = rx.overdue last now := by
  simp only [Link.byteOverdue, hx, hp]

/-! ## The decision on an UP frame, stamping and decimation (R58, R60 to R65) -/

theorem Part.classifyUp_of_rule (p : Part) (n : Socket) (f : Frame) (r : Rule)
    (h : p.decidingRule .up f.kind n = some r) :
    (r.action = .forward → p.classifyUp n f = p.forwardUp n f (Lane.ofByte r.lane) r.decimate) ∧
    (r.action = .discard → p.classifyUp n f = p) := by
  simp only [Part.classifyUp, h]
  exact ⟨fun ha => by rw [ha], fun ha => by rw [ha]⟩

theorem Part.fallbackUp_eq (p : Part) (n : Socket) (f : Frame) :
    (f.kind = kindStatus → p.fallbackUp n f = p.forwardUp n f .l1 true) ∧
    (f.kind = kindPackAux → (p.session n).state = .admitted → p.fallbackUp n f = p.forwardUp n f .l2 false) ∧
    (f.kind = kindPackAux → (p.session n).state ≠ .admitted → p.fallbackUp n f = p) ∧
    (f.kind ≠ kindStatus → f.kind ≠ kindPackAux → p.fallbackUp n f = p) := by
  have hne : kindPackAux ≠ kindStatus := by decide
  refine ⟨fun hk => if_pos hk, fun hk ha => ?_, fun hk ha => ?_, fun h1 h2 => ?_⟩
  · rw [Part.fallbackUp, if_neg (by rw [hk]; exact hne), if_pos ⟨hk, ha⟩]
  · rw [Part.fallbackUp, if_neg (by rw [hk]; exact hne), if_neg fun h => ha h.2]
  · rw [Part.fallbackUp, if_neg h1, if_neg fun h => h2 h.1]

theorem Part.forwardUp_other (p : Part) (n : Socket) (f : Frame) (k : Lane) (d : Bool) (h : f.kind ≠ kindStatus) :
    p.forwardUp n f k d = p.place k f := if_neg h

theorem Part.forwardUp_plain (p : Part) (n : Socket) (f : Frame) (k : Lane) (h : f.kind = kindStatus) :
    p.forwardUp n f k false = p.place k (p.stamp n f) := if_pos h

theorem Part.forwardUp_decimated (p : Part) (n : Socket) (f : Frame) (k : Lane) (h : f.kind = kindStatus) :
    p.forwardUp n f k true =
      if p.decimationPasses n then (p.advanceDecim n).place k (p.stamp n f) else p.advanceDecim n := if_pos h

theorem Part.advanceDecim_off (p : Part) (n : Socket) (h : p.mgmt.settings.decimation = 0) :
    p.decimationPasses n = false ∧ p.advanceDecim n = p :=
  ⟨by simp [Part.decimationPasses, Part.settings, h], if_pos h⟩

theorem Part.advanceDecim_on (p : Part) (n : Socket) (h : p.mgmt.settings.decimation ≠ 0) :
    p.decimationPasses n = decide (p.classifier.decim.get n = 0) ∧
    p.advanceDecim n = { p with classifier := { p.classifier with
      decim := p.classifier.decim.set n ((p.classifier.decim.get n + 1) % p.mgmt.settings.decimation) } } :=
  ⟨by simp [Part.decimationPasses, Part.settings, h, Bool.beq_eq_decide_eq], if_neg h⟩

theorem Part.stampedFlags_bits (p : Part) (n : Socket) (b : Byte) :
    (∀ i, i < 4 → (p.stampedFlags n b).getLsbD i = b.getLsbD i) ∧
    (p.stampedFlags n b).getLsbD 4 = p.unverified n ∧ (p.stampedFlags n b).getLsbD 5 = p.limited n ∧
    (p.stampedFlags n b).getLsbD 6 = p.grants.stale.get n ∧ (p.stampedFlags n b).getLsbD 7 = false := by
  have hbit (i : Nat) (hi : i < 8) : (p.stampedFlags n b).getLsbD i = (b.getLsbD i && decide (i < 4) ||
      [false, false, false, false, p.unverified n, p.limited n, p.grants.stale.get n, false].getD i false) := by
    have hmask : (0x0F : Byte).getLsbD i = decide (i < 4) := by
      revert i
      decide
    rw [Part.stampedFlags, BitVec.getLsbD_or, BitVec.getLsbD_and, getLsbD_flagByte _ i hi, hmask]
  refine ⟨fun i hi => ?_, ?_, ?_, ?_, ?_⟩
  · have hlow : [false, false, false, false, p.unverified n, p.limited n, p.grants.stale.get n, false].getD i false =
        false := by
      match i, hi with
      | 0, _ => rfl
      | 1, _ => rfl
      | 2, _ => rfl
      | 3, _ => rfl
    rw [hbit i (by omega), hlow]
    simp [hi]
  · rw [hbit 4 (by decide)]
    simp
  · rw [hbit 5 (by decide)]
    simp
  · rw [hbit 6 (by decide)]
    simp
  · rw [hbit 7 (by decide)]
    simp

theorem SessState.trusted_iff (st : SessState) : st.trusted = true ↔ st = .admitted ∨ st = .suspect := by
  cases st <;> simp [SessState.trusted]

theorem Part.unverified_iff (p : Part) (n : Socket) :
    p.unverified n = true ↔ (p.session n).state ≠ .admitted ∧ (p.session n).state ≠ .suspect := by
  rw [Part.unverified, Bool.not_eq_true', ← not_or, ← SessState.trusted_iff, Bool.not_eq_true]

theorem Part.limited_iff (p : Part) (n : Socket) : p.limited n = true ↔
    ((p.session n).state = .admitted ∨ (p.session n).state = .suspect) ∧
      (p.grants.trust.get n < 100 ∨ p.grants.derate.get n < 100) := by
  simp only [Part.limited, Bool.and_eq_true, SessState.trusted_iff, Bool.or_eq_true, decide_eq_true_eq]

end Sys2Proof.Machine

namespace Sys2Proof.Proofs
open Sys2Proof Sys2Proof.Machine Sys2Proof.Claims

/-! ## Sending, replies, and what comes up (R22, R25, R30) -/

theorem sending_acts (s : State) (n : Socket) (l : Link) (hon : s.part.power = .on) (hl : l = s.part.link n) :
    (∀ x, l.tx = some x → x.phase = .sending → l.draining = none →
      exec (.packFrameSent n) s = .next { s with part := s.part.setLink n { l with tx := some { x with
        phase := .waiting (s.part.clock + if x.frame.kind = kindChallenge then 40000 else 10000),
        sentAt := if x.frame.kind = kindChallenge then some (BitVec.ofNat 32 s.part.clock) else none } } }) ∧
    (∀ f, l.tx = none → l.draining = some f →
      exec (.packFrameSent n) s = .next { s with part := (s.part.setLink n { l with draining := none }).tryStart n }) ∧
    (∀ x closes, l.tx = some x → x.phase = .waiting closes →
      exec (.replyStart n) s = .next { s with part := s.part.setLink n { l with tx := some { x with
        phase := .collecting .header s.part.clock,
        replyAt := if x.frame.kind = kindChallenge then some (BitVec.ofNat 32 s.part.clock) else none } } }) := by
  subst hl
  refine ⟨fun x hx hp hd => ?_, fun f _ hd => ?_, fun x closes hx hp => ?_⟩
  · rw [← Part.frameSent_sending n s.part x hx hp hd]
    exact onPart_on s _ hon
  · rw [← Part.frameSent_drained n s.part f hd]
    exact onPart_on s _ hon
  · rw [← Part.replyBegins_waiting n s.part x closes hx hp]
    exact onPart_on s _ hon

theorem collecting_acts (s : State) (n : Socket) (l : Link) (hon : s.part.power = .on) (hl : l = s.part.link n)
    (x : Transaction) (rx : Rx) (last : Nat) (hx : l.tx = some x) (hp : x.phase = .collecting rx last)
    (hc : rx ≠ .hunting) :
    (∀ bytes rx', s.part.clock ≤ last + 2000 → bytes ≠ [] → rx.runFirst bytes = (rx', none) → rx' ≠ .hunting →
      exec (.packReplyCollected n bytes) s = .next { s with part := s.part.setLink n { l with
        tx := some { x with phase := .collecting rx' s.part.clock } } }) ∧
    (∀ bytes, last + 2000 < s.part.clock →
      exec (.packReplyCollected n bytes) s = exec (.receiverByteTimeout (.pack n)) s) ∧
    (s.part.ctl.loading = false → (.receiverByteTimeout (.pack n) ∈ s.part.due ↔ last + 2000 < s.part.clock)) := by
  subst hl
  refine ⟨fun bytes rx' ht hb hrun hrx' => ?_, fun bytes ht => ?_, fun hload => ?_⟩
  · rw [← Part.replyBytes_moves n bytes s.part x rx rx' last hx hp ht hb hrun hrx']
    exact onPart_on s _ hon
  · have hbytes : exec (.packReplyCollected n bytes) s = .next { s with part := Part.replyBytes n bytes s.part } :=
      onPart_on s _ hon
    rw [hbytes, Part.replyBytes_late n bytes s.part x rx last hx hp hc ht]
    exact (onPart_on s (Part.packByteTimeout n) hon).symm
  · rw [s.part.packTimeout_mem_due n hload, Link.byteOverdue_collecting _ _ x rx last hx hp, Rx.overdue_iff]
    exact and_iff_right hc

theorem relayedOutcome_acts (p : Part) (n : Socket) (t : Transaction) (f : Frame) (ht : t.source = .pollQueue)
    (hf : f.socket = n) :
    (f.kind = kindStatus → p.reportOutcome n t (.good f) = (p.showStatus n f.payload).classifyUp n f) ∧
    (f.kind ≠ kindStatus → p.reportOutcome n t (.good f) = p.classifyUp n f) ∧
    (∀ o, o = .malformed ∨ o = .wrongKind ∨ o = .expired → p.reportOutcome n t o = p) := by
  have hgood : p.reportOutcome n t (.good f) = p.relayReply n f := by
    subst hf
    simp only [Part.reportOutcome, ht]
  rw [hgood]
  refine ⟨fun hk => if_pos hk, fun hk => if_neg hk, fun o ho => ?_⟩
  rcases ho with rfl | rfl | rfl <;> simp only [Part.reportOutcome, ht]

theorem forwardUp_acts (p : Part) (n : Socket) (f : Frame) (k : Lane) :
    (∀ d, f.kind ≠ kindStatus → p.forwardUp n f k d = p.place k f) ∧
    (f.kind = kindStatus → p.forwardUp n f k false = p.place k (p.stamp n f)) ∧
    (f.kind = kindStatus → p.mgmt.settings.decimation = 0 → p.forwardUp n f k true = p) ∧
    (∀ (q : Part) (v : Nat), f.kind = kindStatus → p.mgmt.settings.decimation ≠ 0 →
      v = (p.classifier.decim.get n + 1) % p.mgmt.settings.decimation →
      q = { p with classifier := { p.classifier with decim := p.classifier.decim.set n v } } →
      (p.classifier.decim.get n = 0 → p.forwardUp n f k true = q.place k (p.stamp n f)) ∧
      (p.classifier.decim.get n ≠ 0 → p.forwardUp n f k true = q)) := by
  refine ⟨fun d => p.forwardUp_other n f k d, p.forwardUp_plain n f k, fun hk h0 => ?_, fun q v hk h0 hv hq => ?_⟩
  · obtain ⟨hpass, hadv⟩ := p.advanceDecim_off n h0
    rw [p.forwardUp_decimated n f k hk, hpass, hadv, if_neg Bool.false_ne_true]
  · obtain ⟨hpass, hadv⟩ := p.advanceDecim_on n h0
    rw [p.forwardUp_decimated n f k hk, hpass, hadv, ← hv, ← hq]
    exact ⟨fun hz => if_pos (decide_eq_true hz), fun hz => if_neg (by simp [hz])⟩

theorem stamp_acts (p : Part) (n : Socket) (f : Frame) (b0 b1 b2 b3 b4 b5 b6 b7 b8 b9 : Byte)
    (hf : f.payload = [b0, b1, b2, b3, b4, b5, b6, b7, b8, b9]) :
    ∃ fl : Byte, p.stamp n f = { f with payload :=
        [b0, b1, b2, b3, b4] ++ Half.bytes (halfOf (p.grants.published.get n)) ++ [b7, b8, fl] } ∧
      (∀ i, i < 4 → fl.getLsbD i = b9.getLsbD i) ∧
      (fl.getLsbD 4 = true ↔ (p.session n).state ≠ .admitted ∧ (p.session n).state ≠ .suspect) ∧
      (fl.getLsbD 5 = true ↔ ((p.session n).state = .admitted ∨ (p.session n).state = .suspect) ∧
        (p.grants.trust.get n < 100 ∨ p.grants.derate.get n < 100)) ∧
      fl.getLsbD 6 = p.grants.stale.get n ∧ fl.getLsbD 7 = false := by
  obtain ⟨hlow, h4, h5, h6, h7⟩ := p.stampedFlags_bits n b9
  refine ⟨p.stampedFlags n b9, ?_, hlow, ?_, ?_, h6, h7⟩
  · rw [Part.stamp, hf]
    rfl
  · rw [h4, p.unverified_iff]
  · rw [h5, p.limited_iff]

/-- Settles O29: the events of a transaction, its relayed reply, and what the classifier makes of it. -/
theorem sendingAndReplyAreStamped : Obligations.SendingAndReplyAreStamped := by
  refine ⟨fun s n l hon hl => ?_, fun s hon => ⟨?_, onPart_on s _ hon⟩, relayedOutcome_acts, fun p n f =>
    ⟨fun a b r hlive hr he hm ha => ?_, fun h => ?_, forwardUp_acts p n f, stamp_acts p n f⟩⟩
  · obtain ⟨hsent, hdrained, hbegins⟩ := sending_acts s n l hon hl
    exact ⟨hsent, hdrained, hbegins, fun x rx last => collecting_acts s n l hon hl x rx last⟩
  · rw [s.part.toolTimeout_mem_due, Rx.overdue_iff]
  · exact p.classifyUp_of_rule n f r (p.decidingRule_first .up f.kind n a b r hlive hr he hm ha)
  · have hup : p.classifyUp n f = p.fallbackUp n f := by
      rw [Part.classifyUp, p.decidingRule_none .up f.kind n h]
    rw [hup]
    exact p.fallbackUp_eq n f

end Sys2Proof.Proofs

namespace Sys2Proof.Machine
open Sys2Proof.Claims

/-! ## A session's start (R17, R73, R74) -/

/-- The record of a session that has just started. -/
def Session.opened : Session := { Session.initial with state := .identifying }

theorem sessionAdvisory_identifying (n : Socket) : sessionAdvisory n .identifying none =
    { kind := 10, socket := n, payload := [2, byteOf n.val, 1, 0, 0, 0] } := by
  rw [sessionAdvisory, advisory, Word.bytes_ofBytes]
  rfl

theorem linkAdvisory_active (n : Socket) : linkAdvisory n .active 0 =
    { kind := 10, socket := n, payload := [3, byteOf n.val, 2, 0, 0, 0] } := by
  rw [linkAdvisory, advisory, Word.bytes_ofBytes]
  rfl

/-- The part once a session has been opened and reported, its IDENTIFY standing in the engine slot. -/
def Part.identifyPlaced (p : Part) (n : Socket) : Part :=
  ((p.setSession n .opened).place .l0
    { kind := 10, socket := n, payload := [2, byteOf n.val, 1, 0, 0, 0] }).recompute.setLink n
      { p.link n with engineSlot := some .identify }

theorem Part.identifyPlaced_link (p : Part) (n : Socket) :
    (p.identifyPlaced n).link n = { p.link n with engineSlot := some .identify } := Part.setLink_link_self ..

theorem Part.identifyPlaced_session (p : Part) (n : Socket) : (p.identifyPlaced n).session n = .opened := by
  rw [Part.identifyPlaced, Part.setLink_session, Part.session, Part.recompute_engine, Part.place_engine, ← Part.session,
    Part.setSession_session_self]

theorem Part.identifyPlaced_proof (p : Part) (n : Socket) : (p.identifyPlaced n).proof = p.proof := by
  rw [Part.identifyPlaced, Part.setLink_proof, Part.recompute_proof, Part.place_proof, Part.setSession_proof]

theorem Part.identifyPlaced_local (p : Part) (n : Socket) : p.Local {n} (p.identifyPlaced n) := by
  have hreport : p.Local {n} ((p.setSession n .opened).place .l0
      { kind := 10, socket := n, payload := [2, byteOf n.val, 1, 0, 0, 0] }).recompute :=
    ((p.setSession_local n _ (Set.mem_singleton n)).trans (Part.place_local _ _ _)).trans (Part.recompute_local _)
  exact hreport.trans (Part.setLink_local _ n _ (Set.mem_singleton n) (hreport.state n).symm (hreport.errors n).symm)

theorem Part.startSession_eq (p : Part) (n : Socket) : p.startSession n = (p.identifyPlaced n).tryStart n := by
  have hreport : (p.setSession n .opened).reportSession n = ((p.setSession n .opened).place .l0
      { kind := 10, socket := n, payload := [2, byteOf n.val, 1, 0, 0, 0] }).recompute := by
    rw [Part.reportSession, Part.setSession_session_self, ← sessionAdvisory_identifying]
    rfl
  have hlink : (((p.setSession n .opened).place .l0
      { kind := 10, socket := n, payload := [2, byteOf n.val, 1, 0, 0, 0] }).recompute).link n = p.link n := by
    rw [Part.link, Part.recompute_links, Part.place_links, Part.setSession_links, ← Part.link]
  show ((p.setSession n .opened).reportSession n).placeIdentify n = _
  rw [hreport, Part.placeIdentify, hlink]
  rfl

theorem Part.tryStart_identify (p : Part) (n : Socket) (h : (p.link n).engineSlot = some .identify) :
    p.tryStart n = if p.canStart n then p.setLink n { p.link n with
      engineSlot := none, tx := some (.begin (identifyFrame n) .engineSlot) } else p := by
  split
  · next hcan =>
    obtain ⟨-, -, hident, -⟩ := p.tryStart_of_canStart n hcan
    exact hident h
  · next hcan => exact p.tryStart_of_not_canStart n hcan

/-- The link of an opened session: its IDENTIFY is on the line, or waits where R21 or the line does not let it start. -/
theorem Part.startSession_link (p : Part) (n : Socket) (hw : (p.link n).state = .active) (ht : (p.link n).tx = none) :
    (p.startSession n).link n = { p.link n with
      engineSlot := none, tx := some (.begin (identifyFrame n) .engineSlot) } ∨
    (p.startSession n).link n = { p.link n with engineSlot := some .identify } ∧
      ((p.link n).draining ≠ none ∨ p.contacts.get n = false ∨ (p.link n).drop ≠ none ∨ p.mgmt.parked = true) := by
  obtain ⟨-, -, hcont, -, -, -, hparked, -⟩ := (p.identifyPlaced_local n).frame
  have hlink := p.identifyPlaced_link n
  rw [p.startSession_eq n, Part.tryStart_identify _ n (by rw [hlink])]
  split
  · left
    rw [Part.setLink_link_self, hlink]
  · next hcan =>
    right
    refine ⟨hlink, ?_⟩
    rw [Part.canStart_iff, hlink, hcont, hparked] at hcan
    by_contra hno
    push Not at hno
    obtain ⟨hdr, hc, hd, hp⟩ := hno
    exact hcan ⟨ht, hdr, .inl hw, by simpa using hc, hd, by simpa using hp⟩

theorem Part.startSession_local (p : Part) (n : Socket) : p.Local {n} (p.startSession n) := by
  rw [p.startSession_eq n]
  exact (p.identifyPlaced_local n).trans (Part.tryStart_local _ n (Set.mem_singleton n))

theorem Part.startSession_session (p : Part) (n : Socket) : (p.startSession n).session n = .opened := by
  rw [p.startSession_eq n, Part.tryStart_identify _ n (by rw [p.identifyPlaced_link n]), ← p.identifyPlaced_session n]
  split <;> rfl

theorem Part.startSession_proof (p : Part) (n : Socket) : (p.startSession n).proof = p.proof := by
  rw [p.startSession_eq n, Part.tryStart_identify _ n (by rw [p.identifyPlaced_link n]), ← p.identifyPlaced_proof n]
  split <;> rfl

/-! ## A session's end (R93) -/

theorem Part.logPeak_local {S : Set Socket} (p : Part) (n : Socket) : p.Local S (p.logPeak n) := by
  unfold Part.logPeak
  split
  · exact .refl p
  · exact p.log_local _

theorem Part.closeSession_local {S : Set Socket} (p : Part) (n : Socket) (hn : n ∈ S) : p.Local S (p.closeSession n) :=
  (((((p.discardChallenge_local n hn).trans (Part.logPeak_local _ n)).trans (Part.auditResult_local _ n _)).trans
    (Part.setSession_local _ n _ hn)).trans (Part.setStale_local _ n _)).trans (Part.setDecim_local _ n _)

theorem Part.endSession_local {S : Set Socket} (p : Part) (n : Socket) (hn : n ∈ S) : p.Local S (p.endSession n) := by
  unfold Part.endSession
  split
  · exact .refl p
  · exact (p.closeSession_local n hn).trans (Part.reportSession_local _ n)

theorem Part.endSession_session (p : Part) (n : Socket) (h : (p.session n).state ≠ .none) :
    (p.endSession n).session n = Session.initial := by
  rw [p.endSession_of_ne n h, (Part.reportSession_local _ n).session_eq]
  exact Part.setSession_session_self _ n Session.initial

theorem Part.endSession_audit_none (p : Part) (n : Socket) (h : p.engine.audit = none) :
    (p.endSession n).engine.audit = none := by
  have hpeak (q : Part) : (q.logPeak n).engine = q.engine := by
    unfold Part.logPeak
    split
    · rfl
    · exact q.log_engine _
  have hresult (q : Part) (hq : q.engine.audit = none) : (q.auditResult n .removed).engine.audit = none := by
    simp only [Part.auditResult, hq]
  unfold Part.endSession
  split
  · exact h
  · rw [Part.reportSession_engine]
    exact hresult _ (by rw [hpeak, p.discardChallenge_audit n, h])

/-! ## Removal (R19) -/

theorem Link.removed_eq (l : Link) : l.removed = { l with
    state := .vacant, errors := 0, drop := none, recovery := none, engineSlot := none, pollQueue := [], tx := none,
    draining := l.abandon.draining } := by
  unfold Link.removed Link.abandon
  split
  · next h => cases l; simp_all [Link.empty]
  · rfl

theorem Link.abandon_draining (l : Link) (x : Transaction) (hx : l.tx = some x) (hp : x.phase = .sending) :
    l.abandon.draining = some x.frame := by
  simp only [Link.abandon, hx, hp]

/-- The part once a pack has been removed (R19), without what an audit does about it. -/
def Part.packRemoved (p : Part) (n : Socket) : Part := ((p.setLink n (p.link n).removed).endSession n).adviseLink n

theorem Part.dropExpiry_eq (n : Socket) (p : Part) (d : Nat) (hd : (p.link n).drop = some d)
    (ha : p.engine.audit = none) : Part.dropExpiry n p = p.packRemoved n := by
  have hremoved : (p.packRemoved n).engine.audit = none := by
    rw [Part.packRemoved, Part.adviseLink, Part.place_engine]
    exact Part.endSession_audit_none _ n ha
  rw [← Part.auditProgress_none _ hremoved]
  simp only [Part.dropExpiry, hd]
  rfl

theorem Part.packRemoved_link (p : Part) (n : Socket) : (p.packRemoved n).link n = (p.link n).removed := by
  have hr : (p.setLink n (p.link n).removed).link n = (p.link n).removed := Part.setLink_link_self ..
  rw [Part.packRemoved, Part.adviseLink, Part.place_link, Part.endSession_link_idle _ n (by rw [hr, Link.removed_eq])
    (by rw [hr, Link.removed_eq]), hr]

theorem Part.packRemoved_session (p : Part) (n : Socket) (h : (p.session n).state ≠ .none) :
    (p.packRemoved n).session n = Session.initial := by
  rw [Part.packRemoved, Part.adviseLink, Part.place_session]
  exact Part.endSession_session _ n h

theorem Part.packRemoved_local (p : Part) (n : Socket) :
    (p.setLink n (p.link n).removed).Local {n} (p.packRemoved n) :=
  (Part.endSession_local _ n (Set.mem_singleton n)).trans (Part.place_local _ _ _)

end Sys2Proof.Machine

namespace Sys2Proof.Proofs
open Sys2Proof Sys2Proof.Machine Sys2Proof.Claims

/-! ## The settle, drop and recovery timers -/

/-- Settles O26: what the session's start makes of the link that has become ACTIVE. -/
theorem settleTimerOpensASession : Obligations.SettleTimerOpensASession := by
  intro s n d hon hst hd htx
  obtain ⟨l, hl⟩ : ∃ l : Link, l = { s.part.link n with state := .active, settle := none, errors := 0 } := ⟨_, rfl⟩
  obtain ⟨q, hq⟩ : ∃ q, q = s.part.setLink n l := ⟨_, rfl⟩
  have hlink : q.link n = l := by rw [hq, Part.setLink_link_self]
  have hlocal : q.Local {n} ((q.startSession n).adviseLink n) := (q.startSession_local n).trans (Part.place_local _ _ _)
  have hadvise : (q.startSession n).adviseLink n = (q.startSession n).place .l0
      { kind := 10, socket := n, payload := [3, byteOf n.val, 2, 0, 0, 0] } := by
    rw [Part.adviseLink, (q.startSession_local n).state, (q.startSession_local n).errors, hlink, hl,
      linkAdvisory_active]
  have hexec : exec (.settleTimerExpiry n) s = .next { s with part := (q.startSession n).adviseLink n } := by
    have heq : Part.settleExpiry n s.part = (q.startSession n).adviseLink n := by
      rw [hq, hl, Part.settleExpiry, hst, hd]
    rw [← heq]
    exact onPart_on s _ hon
  have hnow := q.startSession_link n (by rw [hlink, hl]) (by rw [hlink, hl]; exact htx)
  refine ⟨_, hexec, ?_, ?_, ?_, ?_, fun l' q' hl' hq' => ?_, ?_, fun m hm => ?_, ?_, ?_, rfl⟩
  · rw [hlocal.state, hlink, hl]
  · rw [hadvise, Part.place_link]
    rcases hnow with h | ⟨h, -⟩ <;> rw [h, hlink, hl]
  · rw [hlocal.errors, hlink, hl]
  · rw [hadvise, Part.place_session]
    exact q.startSession_session n
  · rw [← hl] at hl'
    subst hl' hq'
    rw [hadvise, q.startSession_eq n, Part.identifyPlaced, hlink, hq]
    rfl
  · rw [hadvise, Part.place_link]
    rcases hnow with h | ⟨h, hwhy⟩
    · left
      rw [h]
      exact ⟨rfl, rfl⟩
    · right
      rw [h, hlink, hl]
      rw [hlink, hl, hq] at hwhy
      exact ⟨rfl, htx, hwhy⟩
  · rw [hlocal.links m hm, hlocal.sessions m hm, hq]
    exact ⟨by rw [Part.setLink_link, if_neg hm], rfl⟩
  · rw [hlocal.trust, hq]
    rfl
  · rw [hadvise, Part.place_proof, q.startSession_proof n, hq]
    rfl

theorem dropTimer_acts (s : State) (n : Socket) (d : Nat) (hon : s.part.power = .on)
    (hd : (s.part.link n).drop = some d) (ha : s.part.engine.audit = none) :
    ∃ t, exec (.dropTimerExpiry n) s = .next t ∧
      (t.part.link n).state = .vacant ∧ (t.part.link n).errors = 0 ∧ (t.part.link n).drop = none ∧
      (t.part.link n).recovery = none ∧ (t.part.link n).engineSlot = none ∧ (t.part.link n).pollQueue = [] ∧
      (t.part.link n).tx = none ∧
      (∀ x, (s.part.link n).tx = some x → x.phase = .sending → (t.part.link n).draining = some x.frame) ∧
      ((s.part.session n).state ≠ .none → t.part.session n = Session.initial) ∧
      (∀ m, m ≠ n → t.part.link m = s.part.link m ∧ t.part.session m = s.part.session m) ∧
      t.part.trust = s.part.trust ∧ t.array = s.array := by
  have hexec : exec (.dropTimerExpiry n) s = .next { s with part := s.part.packRemoved n } := by
    rw [← Part.dropExpiry_eq n s.part d hd ha]
    exact onPart_on s _ hon
  have hlocal := s.part.packRemoved_local n
  refine ⟨_, hexec, ?_⟩
  rw [s.part.packRemoved_link n, Link.removed_eq]
  refine ⟨rfl, rfl, rfl, rfl, rfl, rfl, rfl, (s.part.link n).abandon_draining, s.part.packRemoved_session n,
    fun m hm => ⟨?_, hlocal.sessions m hm⟩, hlocal.trust, rfl⟩
  rw [hlocal.links m hm, Part.setLink_link, if_neg hm]

/-- Settles O27: removal, and the way back from HALTED. -/
theorem dropAndRecoveryTimersAct : Obligations.DropAndRecoveryTimersAct := by
  refine ⟨dropTimer_acts, fun s n d hon hd => ?_⟩
  have heq : Part.recoveryExpiry n s.part = (s.part.enterSettling n).adviseLink n := by
    simp only [Part.recoveryExpiry, hd]
  rw [← s.part.enterSettling_adviseLink n, ← heq]
  exact onPart_on s _ hon

end Sys2Proof.Proofs

namespace Sys2Proof.Machine
open Sys2Proof.Claims

/-! ## What the end of a session leaves alone beside what `Part.Local` says -/

/-- The recent refusals, the overdraw timer, the rules, the challenge counter and, unless a response that the transmitter
takes ends its flight, the request in flight are as before. -/
structure Part.Quiet (p q : Part) : Prop where
  recent : q.engine.recent = p.engine.recent
  overdraw : q.grants.overdraw = p.grants.overdraw
  rules : q.classifier.rules = p.classifier.rules
  counter : q.proof.counter = p.proof.counter
  mgmt : endFlight p.mgmt.request = p.mgmt.request → q.mgmt = p.mgmt

theorem Part.Quiet.refl (p : Part) : p.Quiet p := ⟨rfl, rfl, rfl, rfl, fun _ => rfl⟩

theorem Part.Quiet.trans {p q r : Part} (h : p.Quiet q) (k : q.Quiet r) : p.Quiet r :=
  ⟨k.recent.trans h.recent, k.overdraw.trans h.overdraw, k.rules.trans h.rules, k.counter.trans h.counter,
   fun hf => (k.mgmt (by rwa [h.mgmt hf])).trans (h.mgmt hf)⟩

theorem Part.SameUnits.quiet {p q : Part} (h : p.SameUnits q)
    (hm : endFlight p.mgmt.request = p.mgmt.request → q.mgmt = p.mgmt) : p.Quiet q :=
  ⟨by rw [h.engine], by rw [h.grants], by rw [h.classifier], by rw [h.proof], hm⟩

theorem Part.setLink_quiet (p : Part) (n : Socket) (x : Link) : p.Quiet (p.setLink n x) :=
  ⟨rfl, rfl, rfl, rfl, fun _ => rfl⟩

theorem Part.setSession_quiet (p : Part) (n : Socket) (x : Session) : p.Quiet (p.setSession n x) :=
  ⟨rfl, rfl, rfl, rfl, fun _ => rfl⟩

theorem Part.setAudit_quiet (p : Part) (x : Option Audit) : p.Quiet (p.setAudit x) := ⟨rfl, rfl, rfl, rfl, fun _ => rfl⟩

theorem Part.setFault_quiet (p : Part) (x : FaultUnit) : p.Quiet (p.setFault x) := ⟨rfl, rfl, rfl, rfl, fun _ => rfl⟩

theorem Part.release_quiet (p : Part) : p.Quiet p.release := ⟨rfl, rfl, rfl, rfl, fun _ => rfl⟩

theorem Part.setStale_quiet (p : Part) (n : Socket) (b : Bool) : p.Quiet (p.setStale n b) :=
  ⟨rfl, rfl, rfl, rfl, fun _ => rfl⟩

theorem Part.setDecim_quiet (p : Part) (n : Socket) (v : Nat) : p.Quiet (p.setDecim n v) :=
  ⟨rfl, rfl, rfl, rfl, fun _ => rfl⟩

/-- The transmitter's choice leaves a running request in flight (R48, R162). -/
theorem Part.transmit_mgmt_of_firm (p : Part) (h : endFlight p.mgmt.request = p.mgmt.request) :
    p.transmit.mgmt = p.mgmt := by
  unfold Part.transmit
  repeat' split
  · rfl
  · rw [Part.setMgmt_mgmt, h]
  all_goals rfl

theorem Part.place_mgmt_of_firm (p : Part) (k : Lane) (f : Frame) (h : endFlight p.mgmt.request = p.mgmt.request) :
    (p.place k f).mgmt = p.mgmt := Part.transmit_mgmt_of_firm _ h

theorem Part.place_quiet (p : Part) (k : Lane) (f : Frame) : p.Quiet (p.place k f) :=
  (p.place_units k f).quiet (p.place_mgmt_of_firm k f)

theorem Part.log_quiet (p : Part) (e : LogEntry) : p.Quiet (p.log e) := (p.log_units e).quiet fun _ => p.log_mgmt e

theorem Part.changeCond_quiet (p : Part) (c : Cond) (st : CondState) : p.Quiet (p.changeCond c st) := by
  unfold Part.changeCond Part.adviseCond
  have hset : p.Quiet (p.setCond c st) := (p.setFault_quiet _).trans (Part.setFault_quiet _ _)
  split
  · exact hset.trans (Part.place_quiet _ _ _)
  · exact hset

theorem Part.clearCond_quiet (p : Part) (c : Cond) : p.Quiet (p.clearCond c) := by
  unfold Part.clearCond
  split
  · exact p.changeCond_quiet c _
  · exact .refl p
  · exact .refl p

theorem Part.reportCause_quiet (p : Part) (c : Cond) (k : Causes) : p.Quiet (p.reportCause c k) := by
  have hrecord : p.Quiet (p.recordCauses k) := p.setFault_quiet _
  unfold Part.reportCause
  repeat' split
  · exact hrecord
  · exact (hrecord.trans (Part.changeCond_quiet _ c _)).trans (Part.log_quiet _ _)
  · exact hrecord.trans (Part.clearCond_quiet _ c)
  · exact hrecord
  · exact hrecord

theorem Part.recompute_quiet (p : Part) : p.Quiet p.recompute := by
  have hgrants : p.Quiet (p.setGrants p.computeGrants) := ⟨rfl, rfl, rfl, rfl, fun _ => rfl⟩
  have hnote (q : Part) : q.Quiet q.noteDecrease := by
    have hkeep (r : Part) : r.Quiet (r.setGrants r.grants.keepPrevious) := ⟨rfl, rfl, rfl, rfl, fun _ => rfl⟩
    have htlp (x : Tlp) : q.Quiet (q.setTlp x) := ⟨rfl, rfl, rfl, rfl, fun _ => rfl⟩
    have hsend : q.Quiet q.sendAggregate := (htlp _).trans (Part.place_quiet _ .l0 q.aggregateFrame)
    unfold Part.noteDecrease
    dsimp only
    split
    · exact hsend.trans (hkeep _)
    · exact hkeep q
  exact ((hgrants.trans (Part.reportCause_quiet _ _ _)).trans (Part.setFault_quiet _ _)).trans (hnote _)

theorem Part.reportSession_quiet (p : Part) (n : Socket) : p.Quiet (p.reportSession n) :=
  (p.place_quiet _ _).trans (Part.recompute_quiet _)

theorem Part.discardChallenge_quiet (p : Part) (n : Socket) : p.Quiet (p.discardChallenge n) := by
  unfold Part.discardChallenge
  split
  · exact .refl p
  · dsimp only
    split
    · exact ((p.setSession_quiet n _).trans (Part.setLink_quiet _ n _)).trans (Part.release_quiet _)
    · exact (p.setSession_quiet n _).trans (Part.setLink_quiet _ n _)

theorem Part.auditResult_quiet (p : Part) (n : Socket) (o : AuditOutcome) : p.Quiet (p.auditResult n o) := by
  unfold Part.auditResult
  repeat' split
  · exact .refl p
  · exact p.setAudit_quiet _
  · exact .refl p

theorem Part.logPeak_quiet (p : Part) (n : Socket) : p.Quiet (p.logPeak n) := by
  unfold Part.logPeak
  split
  · exact .refl p
  · exact p.log_quiet _

theorem Part.endSession_quiet (p : Part) (n : Socket) : p.Quiet (p.endSession n) := by
  have hclose : p.Quiet (p.closeSession n) :=
    (((((p.discardChallenge_quiet n).trans (Part.logPeak_quiet _ n)).trans (Part.auditResult_quiet _ n _)).trans
      (Part.setSession_quiet _ n _)).trans (Part.setStale_quiet _ n _)).trans (Part.setDecim_quiet _ n _)
  unfold Part.endSession
  split
  · exact .refl p
  · exact hclose.trans (Part.reportSession_quiet _ n)

theorem forSockets_quiet (f : Socket → Part → Part) (hf : ∀ n p, Part.Quiet p (f n p)) (p : Part) :
    p.Quiet (forSockets f p) :=
  (((hf 0 p).trans (hf 1 _)).trans (hf 2 _)).trans (hf 3 _)

/-! ## A request taken by a part that is ready for it -/

/-- A request of a valid shape acts at once. -/
theorem exec_request_ready (c : Instr) (code : Byte) (least most : Nat) (whileParked : Bool) (ws : List Word)
    (f : Part → Part) (s : State) (hs : Ready s)
    (hexec : exec c s = s.onPart (Part.request code least most whileParked ws f))
    (hlen : ¬(ws.length < least ∨ most < ws.length)) :
    exec c s = .next { s with part := f (taken code ws s.part) } := by
  obtain ⟨⟨hloaded, hfree⟩, hparked⟩ := hs
  rw [hexec, s.onPart_of_loaded hloaded, Part.request_of_free _ _ _ _ _ _ _ hloaded.2 hfree, if_neg hlen, hparked]
  rfl

theorem Part.refuseWith_eq_answered (p : Part) (code : Byte) (o : ReqOutcome) :
    p.refuseWith code o = answered p (response code o []) := p.respond_eq_answered code o []

/-! ## SOCKET-RESTART (R36) -/

theorem socketOf_byteOf (n : Socket) : socketOf (byteOf n.val) = some n := by
  revert n
  decide

theorem socketOf_of_ge (b : Byte) (h : 4 ≤ b.toNat) : socketOf b = none := dif_neg (by omega)

/-- The link before its contact is sampled: cleared, its session ended. -/
def Part.clearedSocket (p : Part) (n : Socket) : Part := (p.setLink n (p.link n).cleared).endSession n

theorem Part.clearedSocket_local (p : Part) (n : Socket) :
    (p.setLink n (p.link n).cleared).Local {n} (p.clearedSocket n) :=
  Part.endSession_local _ n (Set.mem_singleton n)

theorem Part.clearedSocket_link (p : Part) (n : Socket) : (p.clearedSocket n).link n = (p.link n).cleared := by
  have hc : (p.setLink n (p.link n).cleared).link n = (p.link n).cleared := Part.setLink_link_self ..
  rw [Part.clearedSocket, Part.endSession_link_idle _ n (by rw [hc, Link.cleared_eq]) (by rw [hc, Link.cleared_eq]), hc]

/-- What SOCKET-RESTART makes of its link, whose contact is then sampled. -/
def Part.restartedLink (p : Part) (n : Socket) : Link := { (p.link n).cleared with
  state := if p.contacts.get n then .settling else .vacant,
  settle := if p.contacts.get n then some (p.clock + 250000) else none }

theorem Part.restartedLink_asserted (p : Part) (n : Socket) (h : p.contacts.get n = true) :
    (p.restartedLink n).state = .settling ∧ (p.restartedLink n).settle = some (p.clock + 250000) := by
  simp [Part.restartedLink, h]

theorem Part.restartedLink_deasserted (p : Part) (n : Socket) (h : p.contacts.get n = false) :
    (p.restartedLink n).state = .vacant ∧ (p.restartedLink n).settle = none := by
  simp [Part.restartedLink, h]

theorem Part.sampleContact_eq (n : Socket) (p : Part) : Part.sampleContact n p = p.setLink n { p.link n with
    state := if p.contacts.get n then .settling else .vacant,
    settle := if p.contacts.get n then some (p.clock + 250000) else (p.link n).settle } := by
  unfold Part.sampleContact
  split
  · rfl
  · rfl

theorem Part.restartSocket_eq (n : Socket) (p : Part) : Part.restartSocket n p =
    ((p.clearedSocket n).setLink n (p.restartedLink n)).adviseLink n := by
  obtain ⟨-, hclock, hcont, -⟩ := (p.clearedSocket_local n).frame
  have hsample : Part.sampleContact n (p.clearedSocket n) = (p.clearedSocket n).setLink n (p.restartedLink n) := by
    rw [Part.sampleContact_eq, hclock, hcont, p.clearedSocket_link n]
    rfl
  rw [← hsample]
  rfl

theorem Part.restartSocket_link (n : Socket) (p : Part) : (Part.restartSocket n p).link n = p.restartedLink n := by
  rw [Part.restartSocket_eq, Part.adviseLink, Part.place_link, Part.setLink_link_self]

theorem Part.restartSocket_session (n m : Socket) (p : Part) :
    (Part.restartSocket n p).session m = (p.clearedSocket n).session m := by
  rw [Part.restartSocket_eq, Part.adviseLink, Part.place_session, Part.setLink_session]

theorem Part.restartSocket_other (n m : Socket) (p : Part) (h : m ≠ n) :
    (Part.restartSocket n p).link m = p.link m ∧ (Part.restartSocket n p).session m = p.session m := by
  have hlocal := p.clearedSocket_local n
  rw [p.restartSocket_session n m, hlocal.sessions m h, Part.restartSocket_eq, Part.adviseLink, Part.place_link,
    Part.setLink_link, if_neg h, hlocal.links m h, Part.setLink_link, if_neg h]
  exact ⟨rfl, rfl⟩

theorem Part.restartSocket_trust (n : Socket) (p : Part) : (Part.restartSocket n p).trust = p.trust := by
  rw [Part.restartSocket_eq, Part.adviseLink, Part.place_trust, Part.setLink_trust, (p.clearedSocket_local n).trust,
    Part.setLink_trust]

theorem Part.restartSocket_quiet (n : Socket) (p : Part) : p.Quiet (Part.restartSocket n p) := by
  rw [Part.restartSocket_eq]
  exact (((p.setLink_quiet n _).trans (Part.endSession_quiet _ n)).trans (Part.setLink_quiet _ n _)).trans
    (Part.place_quiet _ _ _)

end Sys2Proof.Machine

namespace Sys2Proof.Proofs
open Sys2Proof Sys2Proof.Machine Sys2Proof.Claims

/-! ## SOCKET-RESTART as it is taken -/

theorem socketRestart_invalid (s : State) (w : Word) (hs : Ready s) (h : 4 ≤ (Word.byte w 0).toNat) :
    Answers (.socketRestart [w]) 0x30 [w] .invalid [] s := by
  have hact : Part.socketRestart w (taken 0x30 [w] s.part) =
      answered (taken 0x30 [w] s.part) (response 0x30 .invalid []) := by
    rw [Part.socketRestart, socketOf_of_ge _ h]
    exact Part.refuseWith_eq_answered _ _ _
  rw [Answers, exec_request_ready _ 0x30 1 1 false [w] (Part.socketRestart w) s hs rfl (by simp), hact]

theorem socketRestart_taken (s : State) (w : Word) (hs : Ready s) (n : Socket) (hn : Word.byte w 0 = byteOf n.val) :
    Gives (.socketRestart [w]) s (fun t =>
      (t.part.link n).tx = none ∧ (t.part.link n).engineSlot = none ∧ (t.part.link n).pollQueue = [] ∧
      (t.part.link n).errors = 0 ∧ (t.part.link n).drop = none ∧ (t.part.link n).recovery = none ∧
      (s.part.contacts.get n = true → (t.part.link n).state = .settling ∧
        (t.part.link n).settle = some (s.part.clock + 250000) ∧ Carries t.part (response 0x30 .done [0x01000000])) ∧
      (s.part.contacts.get n = false → (t.part.link n).state = .vacant ∧ (t.part.link n).settle = none ∧
        Carries t.part (response 0x30 .done [0])) ∧
      (t.part.session n).state = .none ∧ ((s.part.session n).state ≠ .none → t.part.session n = Session.initial) ∧
      (∀ m, m ≠ n → t.part.link m = s.part.link m ∧ t.part.session m = s.part.session m) ∧
      t.part.trust = s.part.trust ∧ t.part.engine.recent = s.part.engine.recent ∧ t.array = s.array) := by
  obtain ⟨p, hp⟩ : ∃ p, p = taken 0x30 [w] s.part := ⟨_, rfl⟩
  have hact : Part.socketRestart w p = (Part.restartSocket n p).respond 0x30 .done
      [byteWord (byteOf (p.restartedLink n).state.code)] := by
    simp only [Part.socketRestart, hn, socketOf_byteOf, p.restartSocket_link n]
    rfl
  have hcont : p.contacts = s.part.contacts := by rw [hp, taken_contacts]
  have hclock : p.clock = s.part.clock := by rw [hp, taken_clock]
  have hsess (m : Socket) : p.session m = s.part.session m := by rw [hp, taken_session]
  refine ⟨_, exec_request_ready _ 0x30 1 1 false [w] (Part.socketRestart w) s hs rfl (by simp), ?_⟩
  rw [← hp, hact]
  simp only [Part.respond_link, Part.respond_session, Part.respond_trust, Part.respond_engine, p.restartSocket_link n]
  refine ⟨?_, ?_, ?_, ?_, ?_, ?_, fun hc => ?_, fun hc => ?_, ?_, fun hne => ?_, fun m hm => ?_, ?_, ?_, trivial⟩
  · rw [Part.restartedLink, Link.cleared_eq]
  · rfl
  · rfl
  · rfl
  · rfl
  · rfl
  · obtain ⟨hst, hset⟩ := p.restartedLink_asserted n (hcont ▸ hc)
    have hcode : byteWord (byteOf LinkState.settling.code) = 0x01000000 := by decide
    rw [hst, hset, hclock, hcode]
    exact ⟨rfl, rfl, Part.respond_carries _ _ _ _⟩
  · obtain ⟨hst, hset⟩ := p.restartedLink_deasserted n (hcont ▸ hc)
    have hcode : byteWord (byteOf LinkState.vacant.code) = 0 := by decide
    rw [hst, hset, hcode]
    exact ⟨rfl, rfl, Part.respond_carries _ _ _ _⟩
  · rw [p.restartSocket_session n n]
    exact Part.endSession_state _ n
  · rw [p.restartSocket_session n n]
    exact Part.endSession_session _ n (by rw [Part.setLink_session, hsess]; exact hne)
  · obtain ⟨hl, hx⟩ := p.restartSocket_other n m hm
    rw [hl, hx, hsess, hp, taken_link]
    exact ⟨rfl, rfl⟩
  · rw [p.restartSocket_trust n, hp, taken_trust]
  · rw [(p.restartSocket_quiet n).recent, hp, taken_engine]

end Sys2Proof.Proofs

namespace Sys2Proof.Machine
open Sys2Proof.Claims

/-! ## PARKED entered in every block (R38, R102, R172) -/

/-- A link as PARK leaves it. -/
def Link.parked (l : Link) : Link := { l.abandon.empty with settle := none, recovery := none }

theorem Link.parked_fields (l : Link) : l.parked.tx = none ∧ l.parked.engineSlot = none ∧ l.parked.pollQueue = [] ∧
    l.parked.settle = none ∧ l.parked.recovery = none ∧ l.parked.state = l.state ∧ l.parked.errors = l.errors ∧
    l.parked.drop = l.drop := by
  obtain ⟨htx, hst, herr, -, hdrop, -⟩ := l.abandon_fields
  exact ⟨htx, rfl, rfl, rfl, rfl, hst, herr, hdrop⟩

theorem Part.parkLink_local {S : Set Socket} (n : Socket) (p : Part) (hn : n ∈ S) : p.Local S (Part.parkLink n p) :=
  p.setLink_local n (p.link n).parked hn (p.link n).parked_fields.2.2.2.2.2.1 (p.link n).parked_fields.2.2.2.2.2.2.1

theorem notMem_singleton_compl (n : Socket) : n ∉ ({n}ᶜ : Set Socket) := by simp

/-- The links parked, before the sessions end. -/
def Part.linksParked (p : Part) : Part :=
  (forSockets Part.parkLink (p.setMgmt { p.mgmt with parked := true })).setOverdraw none

theorem Part.linksParked_local (p : Part) :
    (p.setMgmt { p.mgmt with parked := true }).Local Set.univ p.linksParked :=
  (forSockets_local _ (fun n q => q.parkLink_local n (Set.mem_univ n)) _).trans (Part.setGrants_local _ _ fun _ _ => id)

theorem Part.linksParked_session (p : Part) (n : Socket) : p.linksParked.session n = p.session n := by
  have hpark (m : Socket) (q : Part) : (Part.parkLink m q).session n = q.session n := rfl
  show (forSockets Part.parkLink (p.setMgmt { p.mgmt with parked := true })).session n = _
  simp only [forSockets, hpark, Part.setMgmt_session]

theorem Part.linksParked_link (p : Part) (n : Socket) : p.linksParked.link n = (p.link n).parked := by
  obtain ⟨q, hq, hr⟩ := forSockets_at _ (fun m q S hm => q.parkLink_local (S := S) m hm)
    (p.setMgmt { p.mgmt with parked := true }) n
  have hlink : q.link n = p.link n := hq.links n (notMem_singleton_compl n)
  show (forSockets Part.parkLink (p.setMgmt { p.mgmt with parked := true })).link n = _
  rw [hr.links n (notMem_singleton_compl n), Part.parkLink, Part.setLink_link_self, hlink]
  rfl

theorem Part.enterParked_eq (p : Part) :
    p.enterParked = (forSockets (fun n q => q.endSession n) p.linksParked).evalPermits := rfl

theorem Part.enterParked_local (p : Part) : (p.setMgmt { p.mgmt with parked := true }).Local Set.univ p.enterParked :=
  (p.linksParked_local.trans (forSockets_local _ (fun n q => q.endSession_local n (Set.mem_univ n)) _)).trans
    (Part.evalPermits_local _)

/-- Every session has ended when the part is PARKED, and its link carries nothing. -/
theorem Part.enterParked_socket (p : Part) (n : Socket) :
    p.enterParked.link n = (p.link n).parked ∧ (p.enterParked.session n).state = .none ∧
      ((p.session n).state ≠ .none → p.enterParked.session n = Session.initial) := by
  obtain ⟨q, hq, hr⟩ := forSockets_at _ (fun m q S hm => q.endSession_local (S := S) m hm) p.linksParked n
  have hlink : q.link n = (p.link n).parked := (hq.links n (notMem_singleton_compl n)).trans (p.linksParked_link n)
  have hsess : q.session n = p.session n := (hq.sessions n (notMem_singleton_compl n)).trans (p.linksParked_session n)
  have hends := hr.sessions n (notMem_singleton_compl n)
  obtain ⟨htx, hslot, -⟩ := (p.link n).parked_fields
  have hidle : (q.endSession n).link n = q.link n :=
    q.endSession_link_idle n (by rw [hlink, htx]) (by rw [hlink, hslot])
  refine ⟨(hr.links n (notMem_singleton_compl n)).trans (hidle.trans hlink), ?_, fun hne => ?_⟩
  · exact (congrArg Session.state hends).trans (q.endSession_state n)
  · exact hends.trans (q.endSession_session n (by rwa [hsess]))

/-- What PARK leaves alone, the overdraw timer stopped. -/
theorem Part.enterParked_quiet (p : Part) :
    (p.setMgmt { p.mgmt with parked := true }).setOverdraw none |>.Quiet p.enterParked := by
  have hpark := forSockets_quiet Part.parkLink (fun n q => q.setLink_quiet n _) (p.setMgmt { p.mgmt with parked := true })
  have hover : ((p.setMgmt { p.mgmt with parked := true }).setOverdraw none).Quiet p.linksParked :=
    ⟨hpark.recent, rfl, hpark.rules, hpark.counter, hpark.mgmt⟩
  exact (hover.trans (forSockets_quiet _ (fun n q => q.endSession_quiet n) _)).trans (Part.setFault_quiet _ _)

theorem Part.enterParked_permits (p : Part) (n : Socket) : p.enterParked.fault.permits.get n = false := by
  have hparked : p.enterParked.mgmt.parked = true := by
    obtain ⟨-, -, -, -, -, -, hparked, -⟩ := p.enterParked_local.frame
    exact hparked
  have hright : p.enterParked.PermitsRight := Part.evalPermits_right _
  rw [hright n, Part.permitDue, hparked]
  simp

/-- PARK's answer, or its wait for the jobs. -/
def Part.parkAnswer (p : Part) : Part :=
  if p.ctl.jobs.length = 0 then p.respond codePark .done [] else p.setWait p.ctl.jobs.length

theorem Part.park_eq (p : Part) : p.park = p.enterParked.parkAnswer := rfl

theorem Part.parkAnswer_units (p : Part) : p.SameUnits p.parkAnswer ∧ p.parkAnswer.ctl = p.ctl ∧
    p.parkAnswer.fault = p.fault := by
  unfold Part.parkAnswer
  split
  · exact ⟨⟨Part.respond_links .., Part.respond_classifier .., Part.respond_engine .., Part.respond_proof ..,
      Part.respond_trust .., Part.respond_grants ..⟩, Part.respond_ctl .., Part.respond_fault ..⟩
  · exact ⟨⟨rfl, rfl, rfl, rfl, rfl, rfl⟩, rfl, rfl⟩

theorem Part.parkAnswer_ordinary (p : Part) : p.Ordinary p.parkAnswer := by
  unfold Part.parkAnswer
  split
  · exact p.respond_ordinary _ _ _
  · exact p.setMgmt_ordinary _ rfl rfl

theorem Part.parkAnswer_carries (p : Part) (h : p.ctl.jobs = []) : Carries p.parkAnswer (response 0x3E .done []) := by
  rw [Part.parkAnswer, h]
  exact p.respond_carries _ _ _

theorem Part.parkAnswer_waits (p : Part) (r : Request) (h : p.ctl.jobs ≠ []) (hr : p.mgmt.request = some r) :
    p.parkAnswer.mgmt.request = some { r with wait := p.ctl.jobs.length } := by
  rw [Part.parkAnswer, if_neg (by simpa using h), Part.setWait, Part.setMgmt_mgmt, hr]

/-! ## RESET (R173, R174) -/

/-- A transmitter that is idle with no response waiting changes no request. -/
theorem Part.transmit_mgmt_of_noResponse (p : Part) (h : p.tlp.sending = none → p.tlp.response = none) :
    p.transmit.mgmt = p.mgmt := by
  unfold Part.transmit
  split
  · rfl
  · next hs =>
    rw [h hs]
    dsimp only
    split <;> rfl

theorem Part.changeCond_mgmt_of_noResponse (p : Part) (c : Cond) (st : CondState)
    (h : p.tlp.sending = none → p.tlp.response = none) : (p.changeCond c st).mgmt = p.mgmt := by
  unfold Part.changeCond Part.adviseCond
  split
  · exact Part.transmit_mgmt_of_noResponse _ h
  · rfl

theorem Part.clearCond_mgmt_of_noResponse (p : Part) (c : Cond) (h : p.tlp.sending = none → p.tlp.response = none) :
    (p.clearCond c).mgmt = p.mgmt := by
  unfold Part.clearCond
  split
  · exact p.changeCond_mgmt_of_noResponse c _ h
  · rfl
  · rfl

theorem Part.restartSilence_mgmt_of_noResponse (p : Part) (h : p.tlp.sending = none → p.tlp.response = none) :
    p.restartSilence.mgmt = p.mgmt := by
  unfold Part.restartSilence Part.reportCause
  repeat' split
  · rfl
  · next hpresent => simp [Causes.present] at hpresent
  · exact Part.clearCond_mgmt_of_noResponse _ _ h
  · rfl
  · rfl

theorem Part.takeReset_ctl (p : Part) :
    p.takeReset.ctl = { p.ctl with queue := p.ctl.queue.filter fun j => !j.isTable } := rfl

theorem Part.takeReset_mgmt (p : Part) : p.takeReset.mgmt = { p.mgmt with
    request := some { Request.new codeReset [] with wait := waitedJobs p.takeReset.ctl.jobs },
    superseded := p.mgmt.superseded || p.mgmt.request.isSome } := rfl

theorem Part.takeReset_units (p : Part) : p.SameUnits p.takeReset := ⟨rfl, rfl, rfl, rfl, rfl, rfl⟩

/-- The jobs that RESET waits for: all but the watermark jobs behind the last that is not one. -/
theorem waitedJobs_split (js : List Job) : ∃ a b, js = a ++ b ∧ (∀ j ∈ b, j.isWatermark = true) ∧
    (∀ j, a.getLast? = some j → j.isWatermark = false) ∧ waitedJobs js = a.length := by
  induction js with
  | nil => exact ⟨[], [], rfl, by simp, by simp, rfl⟩
  | cons j js ih =>
    obtain ⟨a, b, rfl, hb, ha, hlen⟩ := ih
    cases a with
    | cons k a =>
      refine ⟨j :: k :: a, b, rfl, hb, fun i hi => ha i (by rwa [List.getLast?_cons_cons] at hi), ?_⟩
      simp only [waitedJobs, hlen, List.length_cons]
    | nil =>
      cases hj : j.isWatermark with
      | true => exact ⟨[], j :: b, rfl, by simpa [hj] using hb, by simp, by simp_all [waitedJobs]⟩
      | false => exact ⟨[j], b, rfl, hb, by simp [hj], by simp_all [waitedJobs]⟩

end Sys2Proof.Machine

namespace Sys2Proof.Proofs
open Sys2Proof Sys2Proof.Machine Sys2Proof.Claims

/-! ## PARK and RESET as they are taken -/

theorem park_taken (s : State) (hs : Ready s) : Gives (.park []) s (fun t =>
    t.part.mgmt.parked = true ∧ (∀ n, t.part.fault.permits.get n = false) ∧ t.part.grants.overdraw = none ∧
    (∀ n, (t.part.session n).state = .none ∧
      ((s.part.session n).state ≠ .none → t.part.session n = Session.initial) ∧
      (t.part.link n).tx = none ∧ (t.part.link n).engineSlot = none ∧ (t.part.link n).pollQueue = [] ∧
      (t.part.link n).settle = none ∧ (t.part.link n).recovery = none ∧
      (t.part.link n).state = (s.part.link n).state ∧ (t.part.link n).errors = (s.part.link n).errors ∧
      (t.part.link n).drop = (s.part.link n).drop) ∧
    (t.part.ctl.jobs = [] → Carries t.part (response 0x3E .done [])) ∧
    (t.part.ctl.jobs ≠ [] → t.part.mgmt.request = some
      { code := 0x3E, words := [], phase := .running, wait := t.part.ctl.jobs.length, waitFailed := false }) ∧
    t.part.trust = s.part.trust ∧ t.part.engine.recent = s.part.engine.recent ∧
    t.part.fault.map = s.part.fault.map ∧ t.part.mgmt.settings = s.part.mgmt.settings ∧
    t.part.classifier.rules = s.part.classifier.rules ∧ t.part.proof.counter = s.part.proof.counter ∧
    t.array = s.array) := by
  obtain ⟨p, hp⟩ : ∃ p, p = taken 0x3E [] s.part := ⟨_, rfl⟩
  have hmgmt : p.mgmt = { s.part.mgmt with request := some (Claims.request 0x3E []) } := by
    obtain ⟨⟨-, hfree⟩, -⟩ := hs
    rw [hp, taken_mgmt _ _ _ hfree]
  have hfirm : endFlight p.mgmt.request = p.mgmt.request := by rw [hmgmt]; rfl
  obtain ⟨-, -, -, -, hsettings, hmap, hparked, -⟩ := p.enterParked_local.frame
  have hquiet := p.enterParked_quiet
  have hrequest : p.enterParked.mgmt.request = some (Claims.request 0x3E []) := by
    rw [hquiet.mgmt hfirm]
    exact congrArg Mgmt.request hmgmt
  obtain ⟨hunits, hctl, hfault⟩ := p.enterParked.parkAnswer_units
  have hplain := p.enterParked.parkAnswer_ordinary.toPlain
  refine ⟨_, exec_request_ready _ 0x3E 0 0 false [] Part.park s hs rfl (by simp), ?_⟩
  rw [← hp, p.park_eq]
  dsimp only
  rw [hplain.parked, hfault, hunits.grants, hctl, hplain.trust, hunits.engine, hplain.settings,
    hunits.classifier, hunits.proof]
  refine ⟨hparked, p.enterParked_permits, hquiet.overdraw, fun n => ?_, p.enterParked.parkAnswer_carries,
    fun hj => p.enterParked.parkAnswer_waits _ hj hrequest, ?_, ?_, ?_, ?_, ?_, ?_, rfl⟩
  · obtain ⟨hlink, hnone, hinit⟩ := p.enterParked_socket n
    have hl : p.enterParked.parkAnswer.link n = (s.part.link n).parked := by
      rw [Part.link, hunits.links, ← Part.link, hlink, hp, taken_link]
    rw [hunits.session, hl]
    exact ⟨hnone, fun hne => hinit (by rwa [hp, taken_session]), (s.part.link n).parked_fields⟩
  · rw [p.enterParked_local.trust, Part.setMgmt_trust, hp, taken_trust]
  · rw [hquiet.recent, hp]
    exact congrArg Engine.recent (taken_engine 0x3E [] s.part)
  · rw [hmap, Part.setMgmt_fault, hp, taken_map]
  · rw [hsettings, Part.setMgmt_mgmt, hmgmt]
  · rw [hquiet.rules, hp]
    exact congrArg Classifier.rules (taken_classifier 0x3E [] s.part)
  · rw [hquiet.counter, hp]
    exact congrArg ProofUnit.counter (Part.reportCause_proof _ _ _)

theorem reset_taken (s : State) (hs : Loaded s) (hfit : s.part.LanesFit) : Gives (.reset []) s (fun t =>
    t.part.ctl.job = s.part.ctl.job ∧ t.part.ctl.queue = s.part.ctl.queue.filter (fun j => !j.isTable) ∧
    (∃ a b : List Job, t.part.ctl.jobs = a ++ b ∧ (∀ j ∈ b, j.isWatermark = true) ∧
      (∀ j, a.getLast? = some j → j.isWatermark = false) ∧
      t.part.mgmt.request = some
        { code := 0x3F, words := [], phase := .running, wait := a.length, waitFailed := false }) ∧
    t.part.mgmt.superseded = (s.part.mgmt.superseded || s.part.mgmt.request.isSome) ∧
    t.part.links = s.part.links ∧ t.part.engine = s.part.engine ∧ t.part.trust = s.part.trust ∧
    t.part.proof = s.part.proof ∧ t.part.grants = s.part.grants ∧ t.part.classifier = s.part.classifier ∧
    t.part.mgmt.parked = s.part.mgmt.parked ∧ t.array = s.array) := by
  have hexec : exec (.reset []) s = .next { s with part := s.part.restartSilence.takeReset } := by
    have heq : Part.onReset [] s.part = s.part.restartSilence.takeReset := by rw [Part.onReset, hs.2]; rfl
    rw [← heq]
    exact onPart_on s _ hs.1
  obtain ⟨-, -, -, hidle⟩ := hfit
  have hmgmt := s.part.restartSilence_mgmt_of_noResponse fun h => (hidle h).1
  obtain ⟨hctl, hlinks, hengine, hgrants, hclassifier⟩ := s.part.restartSilence_frame
  have hproof : s.part.restartSilence.proof = s.part.proof := Part.reportCause_proof _ _ _
  have htrust := s.part.restartSilence_plain.trust
  obtain ⟨r, hr⟩ : ∃ r, r = s.part.restartSilence := ⟨_, rfl⟩
  rw [← hr] at hexec hmgmt hctl hlinks hengine hgrants hclassifier hproof htrust
  obtain ⟨a, b, hjobs, hb, ha, hlen⟩ := waitedJobs_split r.takeReset.ctl.jobs
  have hunits := r.takeReset_units
  refine ⟨_, hexec, ?_⟩
  dsimp only
  rw [hunits.links, hunits.engine, hunits.trust, hunits.proof, hunits.grants, hunits.classifier, r.takeReset_mgmt, hlen]
  dsimp only
  rw [hmgmt]
  refine ⟨?_, ?_, ⟨a, b, hjobs, hb, ha, rfl⟩, rfl, hlinks, hengine, htrust, hproof, hgrants, hclassifier, rfl, rfl⟩
  · rw [r.takeReset_ctl, hctl]
  · rw [r.takeReset_ctl, hctl]

end Sys2Proof.Proofs

namespace Sys2Proof.Machine
open Sys2Proof.Claims

/-! ## When an audit reaches a socket (R95, R97) -/

theorem Audit.turn_iff (a : Audit) (n : Socket) :
    a.turn n = true ↔ ∀ m, m < n → a.mask.getLsbD m.val = true → a.results.get m ≠ none := by
  have hone (m : Socket) : (!(decide (m < n) && a.mask.getLsbD m.val) || (a.results.get m).isSome) = true ↔
      (m < n → a.mask.getLsbD m.val = true → a.results.get m ≠ none) := by
    simp only [Bool.or_eq_true, Bool.not_eq_true', ← Bool.not_eq_true, Bool.and_eq_true, decide_eq_true_eq,
      Option.isSome_iff_ne_none, ← imp_iff_not_or, and_imp]
  simp only [Audit.turn, List.all_eq_true, hone, Socket.mem_all, true_imp_iff]

/-- A socket is due: in the mask, not reached, and with ONE_AT_A_TIME only after those below it. -/
theorem Audit.due_iff (a : Audit) (n : Socket) : a.due n = true ↔
    a.mask.getLsbD n.val = true ∧ a.reached.get n = false ∧
      (a.oneAtATime = false ∨ ∀ m, m < n → a.mask.getLsbD m.val = true → a.results.get m ≠ none) := by
  simp only [Audit.due, Bool.and_eq_true, Bool.or_eq_true, Bool.not_eq_true', Audit.turn_iff, and_assoc]

theorem Audit.due_eq_false (a : Audit) (n : Socket) (h : a.mask.getLsbD n.val = false ∨ a.reached.get n = true ∨
    (a.oneAtATime = true ∧ ∃ m, m < n ∧ a.mask.getLsbD m.val = true ∧ a.results.get m = none)) : a.due n = false := by
  rw [← Bool.not_eq_true, Audit.due_iff]
  rintro ⟨hmask, hreached, hturn⟩
  rcases h with h | h | ⟨hone, m, hlt, hm, hnone⟩
  · exact absurd (hmask.symm.trans h) nofun
  · exact absurd hreached (by simp [h])
  · rcases hturn with hall | hbelow
    · exact absurd hall (by simp [hone])
    · exact hbelow m hlt hm hnone

theorem Part.auditTurn_undue (n : Socket) (p : Part) (a : Audit) (ha : p.engine.audit = some a) (h : a.due n = false) :
    Part.auditTurn n p = p := by
  simp [Part.auditTurn, ha, h]

theorem Part.auditTurn_due (n : Socket) (p : Part) (a : Audit) (ha : p.engine.audit = some a) (h : a.due n = true)
    (hlive : p.auditLive = true) : Part.auditTurn n p = p.auditReach n a := by
  simp [Part.auditTurn, ha, h, hlive]

theorem Part.auditable_iff (p : Part) (n : Socket) : p.auditable n = true ↔
    (p.session n).state.trusted = true ∧ ((p.link n).state = .active ∨ (p.link n).state = .degraded) := by
  rw [Part.auditable, Bool.and_eq_true, LinkState.working_iff]

theorem Part.auditable_eq_false (p : Part) (n : Socket) (h : (p.session n).state.trusted = false ∨
    (p.link n).state ≠ .active ∧ (p.link n).state ≠ .degraded) : p.auditable n = false := by
  rw [← Bool.not_eq_true, Part.auditable_iff]
  rintro ⟨htrusted, hwork⟩
  rcases h with h | ⟨hactive, hdegraded⟩
  · exact absurd htrusted (by simp [h])
  · exact hwork.elim hactive hdegraded

theorem Part.auditReach_skipped (p : Part) (n : Socket) (a : Audit) (h : p.auditable n = false) :
    p.auditReach n a = (p.setAudit (some (a.reach n))).auditResult n .skipped := by
  simp [Part.auditReach, h]

theorem Part.auditReach_adopted (p : Part) (n : Socket) (a : Audit) (h : p.auditable n = true) (c : Challenge)
    (hc : (p.session n).challenge = some c) : p.auditReach n a = p.setAudit (some (a.reach n)) := by
  simp [Part.auditReach, h, hc]

theorem Part.auditReach_challenged (p : Part) (n : Socket) (a : Audit) (h : p.auditable n = true)
    (hc : (p.session n).challenge = none) :
    p.auditReach n a = (p.setAudit (some (a.reach n))).issueChallenge n .audit := by
  simp [Part.auditReach, h, hc]

/-! ## The checked AUDIT (R95) -/

theorem yesNo_of_lt (b : Byte) (h : b.toNat < 2) : yesNo b = some (decide (b = 1)) := by
  have hb : b = 0 ∨ b = 1 := by
    rcases Nat.lt_succ_iff_lt_or_eq.mp h with h0 | h1
    · exact .inl (BitVec.eq_of_toNat_eq (by simpa using h0))
    · exact .inr (BitVec.eq_of_toNat_eq (by simpa using h1))
  rcases hb with rfl | rfl <;> rfl

theorem yesNo_of_ge (b : Byte) (h : 2 ≤ b.toNat) : yesNo b = none := by
  have h0 : b ≠ 0 := by rintro rfl; simp at h
  have h1 : b ≠ 1 := by rintro rfl; simp at h
  rw [yesNo, if_neg h0, if_neg h1]

/-- The audit that the parameter word of AUDIT describes. -/
def Audit.ofWord (w : Word) : Audit :=
  .new ((Word.byte w 0).setWidth 4) (decide (Word.byte w 1 = 1)) (decide (Word.byte w 2 = 1))

theorem Audit.ofWord_mask (w : Word) (n : Socket) :
    (Audit.ofWord w).mask.getLsbD n.val = (Word.byte w 0).getLsbD n.val := by
  simp [Audit.ofWord, Audit.new, n.isLt]

theorem Audit.ofWord_results (w : Word) (n : Socket) :
    (Audit.ofWord w).results.get n = if (Word.byte w 0).getLsbD n.val then none else some .skipped := by
  rw [← Audit.ofWord_mask]
  exact PerSocket.get_ofFn _ n

theorem Audit.ofWord_reached (w : Word) (n : Socket) : (Audit.ofWord w).reached.get n = false := PerSocket.get_all _ n

theorem Part.audit_valid (w : Word) (p : Part) (h0 : (Word.byte w 0).toNat < 16) (h1 : (Word.byte w 1).toNat < 2)
    (h2 : (Word.byte w 2).toNat < 2) :
    Part.audit w p = (p.setAudit (some (.ofWord w))).auditProgress.auditFinish := by
  simp only [Part.audit, yesNo_of_lt _ h1, yesNo_of_lt _ h2]
  exact if_neg (by omega)

theorem Part.audit_invalid (w : Word) (p : Part)
    (h : 16 ≤ (Word.byte w 0).toNat ∨ 2 ≤ (Word.byte w 1).toNat ∨ 2 ≤ (Word.byte w 2).toNat) :
    Part.audit w p = p.refuseWith codeAudit .invalid := by
  unfold Part.audit
  split
  · next one wd h1 h2 =>
    have hlt1 : ¬ 2 ≤ (Word.byte w 1).toNat := fun hge => by simp [yesNo_of_ge _ hge] at h1
    have hlt2 : ¬ 2 ≤ (Word.byte w 2).toNat := fun hge => by simp [yesNo_of_ge _ hge] at h2
    exact if_pos (by omega)
  · rfl

end Sys2Proof.Machine

namespace Sys2Proof.Proofs
open Sys2Proof Sys2Proof.Machine Sys2Proof.Claims

/-! ## AUDIT as it is taken, and its turns -/

theorem exec_audit_ready (s : State) (w : Word) (hs : Ready s) :
    exec (.audit [w]) s = .next { s with part := Part.audit w (taken 0x31 [w] s.part) } :=
  exec_request_ready _ 0x31 1 1 false [w] (Part.audit w) s hs rfl (by simp)

theorem audit_refused (s : State) (w : Word) (hs : Ready s)
    (h : 16 ≤ (Word.byte w 0).toNat ∨ 2 ≤ (Word.byte w 1).toNat ∨ 2 ≤ (Word.byte w 2).toNat) :
    Answers (.audit [w]) 0x31 [w] .invalid [] s := by
  rw [Answers, exec_audit_ready s w hs, Part.audit_invalid w _ h, Part.refuseWith_eq_answered]
  rfl

theorem audit_becomes (s : State) (w : Word) (a : Audit) (q : Part) (hs : Ready s) (h0 : (Word.byte w 0).toNat < 16)
    (h1 : (Word.byte w 1).toNat < 2) (h2 : (Word.byte w 2).toNat < 2)
    (ha : a = { mask := (Word.byte w 0).setWidth 4, oneAtATime := decide (Word.byte w 1 = 1),
                withdraw := decide (Word.byte w 2 = 1),
                results := .ofFn fun n => if (Word.byte w 0).getLsbD n.val then none else some .skipped,
                reached := .all false, serials := .all none, phase := .collecting, withdrawnCount := 0, mass := false,
                full := false, failed := false })
    (hq : q = { taken 0x31 [w] s.part with engine := { s.part.engine with audit := some a } }) :
    Becomes (.audit [w]) s q.auditProgress.auditFinish := by
  have haudit : a = .ofWord w := by
    have hresults : a.results = (Audit.ofWord w).results :=
      PerSocket.ext_get fun n => by rw [ha, PerSocket.get_ofFn, Audit.ofWord_results]
    rw [ha] at hresults ⊢
    simp only at hresults
    rw [hresults]
    rfl
  have hpart : q = (taken 0x31 [w] s.part).setAudit (some (.ofWord w)) := by
    rw [hq, haudit, Part.setAudit, taken_engine]
  rw [Becomes, exec_audit_ready s w hs, Part.audit_valid w _ h0 h1 h2, hpart]

theorem auditTurn_acts (n : Socket) (p : Part) : (p.engine.audit = none → Part.auditTurn n p = p) ∧
    (∀ a : Audit, p.engine.audit = some a →
      (a.mask.getLsbD n.val = false ∨ a.reached.get n = true ∨
          (a.oneAtATime = true ∧ ∃ m, m < n ∧ a.mask.getLsbD m.val = true ∧ a.results.get m = none) →
        Part.auditTurn n p = p) ∧
      (∀ q : Part, a.mask.getLsbD n.val = true → a.reached.get n = false → Running p 0x31 →
        a.oneAtATime = false ∨ (∀ m, m < n → a.mask.getLsbD m.val = true → a.results.get m ≠ none) →
        q = { p with engine := { p.engine with audit := some { a with reached := a.reached.set n true } } } →
        ((p.session n).state.trusted = false ∨ (p.link n).state ≠ .active ∧ (p.link n).state ≠ .degraded →
          Part.auditTurn n p = q.auditResult n .skipped) ∧
        ((p.session n).state.trusted = true → (p.link n).state = .active ∨ (p.link n).state = .degraded →
          ((p.session n).challenge ≠ none → Part.auditTurn n p = q) ∧
          ((p.session n).challenge = none → Part.auditTurn n p = q.issueChallenge n .audit)))) := by
  refine ⟨fun hnone => by simp only [Part.auditTurn, hnone], fun a ha => ⟨fun h => ?_, ?_⟩⟩
  · exact p.auditTurn_undue n a ha (a.due_eq_false n h)
  intro q hmask hreached hrun hturn hq
  have hreach : Part.auditTurn n p = p.auditReach n a :=
    p.auditTurn_due n a ha ((a.due_iff n).mpr ⟨hmask, hreached, hturn⟩) ((p.running_iff _).mpr hrun)
  have hset : q = p.setAudit (some (a.reach n)) := hq
  rw [hreach, hset]
  refine ⟨fun h => p.auditReach_skipped n a (p.auditable_eq_false n h), fun ht hw => ⟨fun hc => ?_, fun hc => ?_⟩⟩
  · obtain ⟨c, hc⟩ := Option.ne_none_iff_exists'.mp hc
    exact p.auditReach_adopted n a ((p.auditable_iff n).mpr ⟨ht, hw⟩) c hc
  · exact p.auditReach_challenged n a ((p.auditable_iff n).mpr ⟨ht, hw⟩) hc

end Sys2Proof.Proofs

namespace Sys2Proof.Machine
open Sys2Proof.Claims

/-! ## An audit that challenges no socket completes at once (R95, R100) -/

/-- An audit of which sockets have been reached and given results. -/
def Audit.withResults (a : Audit) (results : PerSocket (Option AuditOutcome)) (reached : PerSocket Bool)
    (serials : PerSocket (Option Word)) : Audit := { a with results := results, reached := reached, serials := serials }

/-- The audit of a parameter word whose sockets below k are SKIPPED, and which has not come to the others. -/
def Audit.SkippedBelow (w : Word) (k : Nat) (a : Audit) : Prop :=
  (∃ r e se, a = (Audit.ofWord w).withResults r e se) ∧ ∀ m : Socket,
    (m.val < k → a.results.get m = some .skipped) ∧
    (k ≤ m.val → a.results.get m = (Audit.ofWord w).results.get m ∧ a.reached.get m = false)

theorem Audit.ofWord_skippedBelow (w : Word) : (Audit.ofWord w).SkippedBelow w 0 :=
  ⟨⟨_, _, _, rfl⟩, fun m => ⟨fun h => absurd h (Nat.not_lt_zero _), fun _ => ⟨rfl, Audit.ofWord_reached w m⟩⟩⟩

/-- An audit with socket n skipped. -/
def Audit.skip (a : Audit) (n : Socket) (x : Option Word) : Audit := (a.reach n).setResult n .skipped x

theorem Audit.SkippedBelow.skip {w : Word} {n : Socket} {a : Audit} (h : a.SkippedBelow w n.val) (x : Option Word) :
    (a.skip n x).SkippedBelow w (n.val + 1) := by
  obtain ⟨⟨r, e, se, rfl⟩, hsockets⟩ := h
  refine ⟨⟨_, _, _, rfl⟩, fun m => ⟨fun hm => ?_, fun hm => ?_⟩⟩
  · show ((_ : PerSocket _).set n (some AuditOutcome.skipped)).get m = _
    rw [PerSocket.get_set]
    split
    · rfl
    · next hne => exact (hsockets m).1 (by have := Fin.val_ne_of_ne hne; omega)
  · have hne : m ≠ n := by rintro rfl; omega
    show ((_ : PerSocket _).set n (some AuditOutcome.skipped)).get m = _ ∧ ((_ : PerSocket _).set n true).get m = _
    rw [PerSocket.get_set_ne _ _ hne, PerSocket.get_set_ne _ _ hne]
    exact (hsockets m).2 (by omega)

theorem Audit.SkippedBelow.unmasked {w : Word} {n : Socket} {a : Audit} (h : a.SkippedBelow w n.val)
    (hn : (Word.byte w 0).getLsbD n.val = false) : a.SkippedBelow w (n.val + 1) := by
  refine ⟨h.1, fun m => ⟨fun hm => ?_, fun hm => (h.2 m).2 (by omega)⟩⟩
  rcases Nat.lt_succ_iff_lt_or_eq.mp hm with hlt | heq
  · exact (h.2 m).1 hlt
  · obtain rfl := Fin.ext heq
    rw [((h.2 m).2 le_rfl).1, Audit.ofWord_results, hn]
    rfl

theorem Audit.SkippedBelow.due {w : Word} {n : Socket} {a : Audit} (h : a.SkippedBelow w n.val)
    (hn : (Word.byte w 0).getLsbD n.val = true) : a.due n = true := by
  obtain ⟨⟨r, e, se, heq⟩, hsockets⟩ := h
  have hmask : a.mask = (Audit.ofWord w).mask := by rw [heq]; rfl
  refine (a.due_iff n).mpr ⟨by rw [hmask, Audit.ofWord_mask, hn], ((hsockets n).2 le_rfl).2, .inr fun m hm _ => ?_⟩
  rw [(hsockets m).1 hm]
  nofun

theorem Part.auditResult_waiting (p : Part) (n : Socket) (o : AuditOutcome) (a : Audit) (ha : p.engine.audit = some a)
    (hreached : a.reached.get n = true) (hnone : a.results.get n = none) :
    p.auditResult n o = p.setAudit (some (a.setResult n o (p.session n).serial)) := by
  simp [Part.auditResult, ha, hreached, hnone]

/-- The turn of a socket that cannot be challenged changes nothing but the audit. -/
theorem Part.auditTurn_skips (w : Word) (n : Socket) (p : Part) (a : Audit) (h : a.SkippedBelow w n.val)
    (hlive : p.auditLive = true) (hno : (Word.byte w 0).getLsbD n.val = true → p.auditable n = false) :
    ∃ b, Part.auditTurn n (p.setAudit (some a)) = p.setAudit (some b) ∧ b.SkippedBelow w (n.val + 1) := by
  cases hn : (Word.byte w 0).getLsbD n.val with
  | false =>
    obtain ⟨r, e, se, heq⟩ := h.1
    have hmask : a.mask.getLsbD n.val = false := by rw [heq, ← hn]; exact Audit.ofWord_mask w n
    exact ⟨a, Part.auditTurn_undue n _ a rfl (a.due_eq_false n (.inl hmask)), h.unmasked hn⟩
  | true =>
    refine ⟨a.skip n (p.session n).serial, ?_, h.skip _⟩
    have hnone : (a.reach n).results.get n = none := by
      refine ((h.2 n).2 le_rfl).1.trans ?_
      rw [Audit.ofWord_results, hn]
      rfl
    rw [Part.auditTurn_due n (p.setAudit (some a)) a rfl (h.due hn) hlive, Part.auditReach_skipped (p.setAudit (some a)) n a (hno hn),
      Part.auditResult_waiting _ n _ (a.reach n) rfl (PerSocket.get_set_self _ n true) hnone]
    rfl

theorem Part.auditTurns_skip (w : Word) (p : Part) (hlive : p.auditLive = true)
    (hno : ∀ n : Socket, (Word.byte w 0).getLsbD n.val = true → p.auditable n = false) :
    ∃ a, forSockets Part.auditTurn (p.setAudit (some (.ofWord w))) = p.setAudit (some a) ∧ a.SkippedBelow w 4 := by
  obtain ⟨a0, h0, hs0⟩ := p.auditTurn_skips w 0 _ (Audit.ofWord_skippedBelow w) hlive (hno 0)
  obtain ⟨a1, h1, hs1⟩ := p.auditTurn_skips w 1 a0 hs0 hlive (hno 1)
  obtain ⟨a2, h2, hs2⟩ := p.auditTurn_skips w 2 a1 hs1 hlive (hno 2)
  obtain ⟨a3, h3, hs3⟩ := p.auditTurn_skips w 3 a2 hs2 hlive (hno 3)
  exact ⟨a3, by rw [forSockets, h0, h1, h2, h3], hs3⟩

/-- Every socket SKIPPED: no MISMATCH, outcome DONE and result words of 0. -/
theorem Audit.SkippedBelow.completed {w : Word} {a : Audit} (h : a.SkippedBelow w 4) :
    a.phase = .collecting ∧ (∀ n, a.results.get n ≠ none) ∧ a.mismatches = 0 ∧ a.outcome = .done ∧ a.words = [0, 0] := by
  obtain ⟨⟨r, e, se, rfl⟩, hsockets⟩ := h
  have hskipped (m : Socket) : r.get m = some .skipped := (hsockets m).1 m.isLt
  have hall : r = .all (some .skipped) := PerSocket.ext_get fun m => by rw [hskipped, PerSocket.get_all]
  subst hall
  refine ⟨rfl, fun n => ?_, ?_, rfl, ?_⟩
  · exact ne_of_eq_of_ne (hskipped n) nofun
  · rw [Audit.mismatches_eq]
    rfl
  · show [Word.ofBytes 0 0 0 0, Word.ofBytes (byteOf 0) (byteOf (flagSet [false, false])) 0 0] = [0, 0]
    decide

theorem Part.massTest_passed (p : Part) (a : Audit) (h : a.mismatches = 0) :
    p.massTest a = p.setAudit (some { a with phase := .ready }) := by
  simp [Part.massTest, h]

theorem Part.auditFinish_ready (p : Part) (a : Audit) (ha : p.engine.audit = some a) (hready : a.phase = .ready)
    (hlive : p.auditLive = true) :
    p.auditFinish = ((p.respond codeAudit a.outcome a.words).log a.entry).setAudit none := by
  simp [Part.auditFinish, ha, hready, hlive]

theorem Part.auditFinish_collecting (p : Part) (a : Audit) (ha : p.engine.audit = some a) (h : a.phase = .collecting) :
    p.auditFinish = p := by
  simp [Part.auditFinish, ha, h]

/-- An audit none of whose sockets can be challenged is over when it has been taken. -/
theorem Part.audit_skipsAll (w : Word) (p : Part) (hlive : p.auditLive = true)
    (hno : ∀ n : Socket, (Word.byte w 0).getLsbD n.val = true → p.auditable n = false) :
    (p.setAudit (some (.ofWord w))).auditProgress.auditFinish.engine = { p.engine with audit := none } ∧
      Carries (p.setAudit (some (.ofWord w))).auditProgress.auditFinish (response 0x31 .done [0, 0]) := by
  obtain ⟨a, hturns, hskipped⟩ := p.auditTurns_skip w hlive hno
  obtain ⟨hphase, hall, hzero, houtcome, hwords⟩ := hskipped.completed
  have hready : (p.setAudit (some (.ofWord w))).auditProgress = p.setAudit (some { a with phase := .ready }) := by
    rw [Part.auditProgress, hturns, Part.auditTest_complete _ a rfl hphase hall, Part.massTest_passed _ a hzero]
    rfl
  have hfinish := Part.auditFinish_ready (p.setAudit (some { a with phase := .ready })) _ rfl rfl hlive
  have houtcome : ({ a with phase := .ready } : Audit).outcome = .done := houtcome
  have hwords : ({ a with phase := .ready } : Audit).words = [0, 0] := hwords
  rw [hready, hfinish, houtcome, hwords]
  refine ⟨?_, ?_⟩
  · rw [Part.setAudit_engine, Part.log_engine, Part.respond_engine]
    rfl
  · refine (Part.setAudit_local (S := ∅) _ none).carries _ ((Part.log_local (S := ∅) _ _).carries _ ?_)
    exact Part.respond_carries _ _ _ _

/-! ## What a turn changes of the audit -/

/-- Between the two parts the audit has changed in no results but those of the sockets in `S`, and in what it has reached and
the serials it keeps. -/
def Part.AuditLocal (S : Set Socket) (p q : Part) : Prop :=
  ∀ a, p.engine.audit = some a → ∃ r e se, q.engine.audit = some (a.withResults r e se) ∧
    ∀ m, m ∉ S → r.get m = a.results.get m

theorem Part.AuditLocal.of_eq {S : Set Socket} {p q : Part} (h : q.engine.audit = p.engine.audit) : p.AuditLocal S q :=
  fun a ha => ⟨a.results, a.reached, a.serials, h.trans ha, fun _ _ => rfl⟩

theorem Part.AuditLocal.trans {S : Set Socket} {p q r : Part} (h : p.AuditLocal S q) (k : q.AuditLocal S r) :
    p.AuditLocal S r := by
  intro a ha
  obtain ⟨r1, e1, se1, hq, hr1⟩ := h a ha
  obtain ⟨r2, e2, se2, hr, hr2⟩ := k _ hq
  exact ⟨r2, e2, se2, hr, fun m hm => (hr2 m hm).trans (hr1 m hm)⟩

section
variable {S : Set Socket}

theorem Part.setAudit_reach_auditLocal (p : Part) (n : Socket) (a : Audit) (ha : p.engine.audit = some a) :
    p.AuditLocal S (p.setAudit (some (a.reach n))) := by
  rintro b hb
  obtain rfl : a = b := Option.some.inj (ha.symm.trans hb)
  exact ⟨_, _, _, rfl, fun _ _ => rfl⟩

theorem Part.auditResult_auditLocal (p : Part) (n : Socket) (o : AuditOutcome) (hn : n ∈ S) :
    p.AuditLocal S (p.auditResult n o) := by
  intro a ha
  unfold Part.auditResult
  simp only [ha]
  split
  · exact ⟨_, _, _, rfl, fun m hm => PerSocket.get_set_ne _ _ (ne_of_mem_of_not_mem hn hm).symm⟩
  · exact ⟨_, _, _, ha, fun _ _ => rfl⟩

theorem Part.refuse_auditLocal (p : Part) (n : Socket) (r : Reason) (hn : n ∈ S) : p.AuditLocal S (p.refuse n r) := by
  have hcount (q : Part) (x : Option Word) : (q.countReason r x).engine.audit = q.engine.audit := by
    unfold Part.countReason
    split <;> rfl
  have hbefore (x : Session) : p.AuditLocal S ((p.discardChallenge n).setSession n x) := .of_eq (p.discardChallenge_audit n)
  have hafter (q : Part) (e : LogEntry) (x : Option Word) : q.AuditLocal S (((q.log e).countReason r x).reportSession n) :=
    .of_eq (by rw [Part.reportSession_engine, hcount, Part.log_engine])
  exact ((hbefore _).trans (Part.auditResult_auditLocal _ n .removed hn)).trans (hafter _ _ _)

theorem Part.issueChallenge_auditLocal (p : Part) (n : Socket) (why : Purpose) (hn : n ∈ S) :
    p.AuditLocal S (p.issueChallenge n why) := by
  unfold Part.issueChallenge Part.reserveAndPlace
  repeat' split
  · exact .of_eq rfl
  · exact p.refuse_auditLocal n _ hn
  · refine .of_eq ?_
    rw [Part.placeChallenge, Part.tryStart_audit]
    exact p.bindKey_audit n _
  · exact (Part.AuditLocal.of_eq (p.bindKey_audit n _)).trans (Part.refuse_auditLocal _ n _ hn)

theorem Part.auditTurn_auditLocal (n : Socket) (p : Part) (hn : n ∈ S) : p.AuditLocal S (Part.auditTurn n p) := by
  unfold Part.auditTurn
  split
  · exact .of_eq rfl
  · next a ha =>
    have hreach := p.setAudit_reach_auditLocal (S := S) n a ha
    split
    · unfold Part.auditReach
      dsimp only
      repeat' split
      · exact hreach
      · exact hreach.trans (Part.issueChallenge_auditLocal _ n _ hn)
      · exact hreach.trans (Part.auditResult_auditLocal _ n _ hn)
    · exact .of_eq rfl

end

/-- The turn of a socket outside the mask changes nothing. -/
theorem Part.auditTurn_unmasked (n : Socket) (p : Part) (a : Audit) (ha : p.engine.audit = some a)
    (h : a.mask.getLsbD n.val = false) : Part.auditTurn n p = p :=
  Part.auditTurn_undue n p a ha (a.due_eq_false n (.inl h))

/-- The turns of sockets in `S`, and of sockets outside the mask. -/
theorem onSockets_auditTurn (S : Set Socket) (l : List Socket) (p : Part) (a : Audit) (ha : p.engine.audit = some a)
    (hS : ∀ m ∈ l, a.mask.getLsbD m.val = true → m ∈ S) :
    p.Local S (onSockets Part.auditTurn l p) ∧ p.AuditLocal S (onSockets Part.auditTurn l p) := by
  induction l generalizing p a with
  | nil => exact ⟨.refl p, .of_eq rfl⟩
  | cons m l ih =>
    have hrest (k : Socket) (hk : k ∈ l) := hS k (List.mem_cons_of_mem _ hk)
    cases hm : a.mask.getLsbD m.val with
    | false =>
      have hturn : onSockets Part.auditTurn (m :: l) p = onSockets Part.auditTurn l p :=
        congrArg (onSockets Part.auditTurn l) (p.auditTurn_unmasked m a ha hm)
      rw [hturn]
      exact ih p a ha hrest
    | true =>
      have hmem := hS m (List.mem_cons_self ..) hm
      have haudit := p.auditTurn_auditLocal m hmem
      obtain ⟨r, e, se, ha', -⟩ := haudit a ha
      obtain ⟨hlocal', haudit'⟩ := ih (Part.auditTurn m p) _ ha' hrest
      exact ⟨(p.auditTurn_local m hmem).trans hlocal', haudit.trans haudit'⟩

/-! ## The first socket of the mask (R95) -/

/-- When nothing happens in the turns of the sockets below it, socket n acts first. -/
theorem forSockets_from (f : Socket → Part → Part) (p : Part) (n : Socket) (h : ∀ m, m < n → f m p = p) :
    ∃ after, n ∉ after ∧ forSockets f p = onSockets f after (f n p) := by
  match n with
  | 0 => exact ⟨[1, 2, 3], by decide, rfl⟩
  | 1 => exact ⟨[2, 3], by decide, by rw [forSockets, h 0 (by decide)]; rfl⟩
  | 2 => exact ⟨[3], by decide, by rw [forSockets, h 0 (by decide), h 1 (by decide)]; rfl⟩
  | 3 => exact ⟨[], by decide, by rw [forSockets, h 0 (by decide), h 1 (by decide), h 2 (by decide)]; rfl⟩

/-- The turns of a new audit begin with the first socket of its mask. -/
theorem Part.auditTurns_from (w : Word) (n : Socket) (p : Part) (hlive : p.auditLive = true)
    (hn : (Word.byte w 0).getLsbD n.val = true) (hfirst : ∀ m : Socket, m < n → (Word.byte w 0).getLsbD m.val = false) :
    ∃ after, n ∉ after ∧ forSockets Part.auditTurn (p.setAudit (some (.ofWord w))) =
      onSockets Part.auditTurn after ((p.setAudit (some (.ofWord w))).auditReach n (.ofWord w)) := by
  have hbelow (m : Socket) (hm : m < n) : (Audit.ofWord w).mask.getLsbD m.val = false := by
    rw [Audit.ofWord_mask, hfirst m hm]
  have hdue : (Audit.ofWord w).due n = true :=
    (Audit.due_iff _ n).mpr ⟨by rw [Audit.ofWord_mask, hn], Audit.ofWord_reached w n,
      .inr fun m hm hmask => absurd (hmask.symm.trans (hbelow m hm)) nofun⟩
  rw [← Part.auditTurn_due n (p.setAudit (some (.ofWord w))) _ rfl hdue hlive]
  exact forSockets_from _ _ n fun m hm => Part.auditTurn_unmasked m _ _ rfl (hbelow m hm)

/-- A new audit whose first socket has a challenge outstanding waits for it. -/
theorem Part.audit_adopts (w : Word) (n : Socket) (c : Challenge) (p : Part) (hlive : p.auditLive = true)
    (hn : (Word.byte w 0).getLsbD n.val = true) (hfirst : ∀ m : Socket, m < n → (Word.byte w 0).getLsbD m.val = false)
    (hable : p.auditable n = true) (hc : (p.session n).challenge = some c) :
    let t := (p.setAudit (some (.ofWord w))).auditProgress.auditFinish
    t.session n = p.session n ∧ ∃ r e se, t.engine.audit = some ((Audit.ofWord w).withResults r e se) ∧
      r.get n = none ∧ ∀ m : Socket, (Word.byte w 0).getLsbD m.val = false →
        r.get m = some .skipped ∧ t.session m = p.session m := by
  obtain ⟨after, hafter, hturns⟩ := p.auditTurns_from w n hlive hn hfirst
  have hreach : (p.setAudit (some (.ofWord w))).auditReach n (.ofWord w) = p.setAudit (some ((Audit.ofWord w).reach n)) :=
    Part.auditReach_adopted (p.setAudit _) n _ hable c hc
  obtain ⟨q, hq⟩ : ∃ q, q = onSockets Part.auditTurn after (p.setAudit (some ((Audit.ofWord w).reach n))) := ⟨_, rfl⟩
  obtain ⟨hlocal, haudit⟩ := onSockets_auditTurn {m | m ≠ n ∧ (Word.byte w 0).getLsbD m.val = true} after
    (p.setAudit (some ((Audit.ofWord w).reach n))) _ rfl
    fun m hm hmask => ⟨ne_of_mem_of_not_mem hm hafter, (Audit.ofWord_mask w m).symm.trans hmask⟩
  rw [← hq] at hlocal haudit
  obtain ⟨r, e, se, hqa, hr⟩ := haudit _ rfl
  have hnone : r.get n = none := by
    refine (hr n fun h => h.1 rfl).trans ((Audit.ofWord_results w n).trans ?_)
    rw [hn]
    rfl
  have hdone : (p.setAudit (some (.ofWord w))).auditProgress.auditFinish = q := by
    rw [Part.auditProgress, hturns, hreach, ← hq, q.auditTest_idle _ hqa (.inr ⟨n, hnone⟩),
      q.auditFinish_collecting _ hqa rfl]
  dsimp only
  rw [hdone]
  refine ⟨hlocal.sessions n fun h => h.1 rfl, r, e, se, hqa, hnone, fun m hm => ?_⟩
  have hout : m ∉ {m : Socket | m ≠ n ∧ (Word.byte w 0).getLsbD m.val = true} := fun h =>
    absurd (h.2.symm.trans hm) nofun
  refine ⟨(hr m hout).trans ((Audit.ofWord_results w m).trans ?_), hlocal.sessions m hout⟩
  rw [hm]
  rfl

theorem Part.auditFinish_session (p : Part) (n : Socket) : p.auditFinish.session n = p.session n := by
  unfold Part.auditFinish
  repeat' split
  · rfl
  · rw [Part.setAudit_session, Part.log_session, Part.respond_session]
  all_goals rfl

/-- A new audit challenges the first of its sockets when the proof unit can. -/
theorem Part.audit_challenges (w : Word) (n : Socket) (p : Part) (hlive : p.auditLive = true)
    (hn : (Word.byte w 0).getLsbD n.val = true) (hfirst : ∀ m : Socket, m < n → (Word.byte w 0).getLsbD m.val = false)
    (hable : p.auditable n = true) (hc : (p.session n).challenge = none) (hcan : CanChallenge p n) :
    let t := (p.setAudit (some (.ofWord w))).auditProgress.auditFinish
    (t.session n).state = (p.session n).state ∧ ∃ ph, (t.session n).challenge = some ⟨.audit, ph⟩ := by
  obtain ⟨after, hafter, hturns⟩ := p.auditTurns_from w n hlive hn hfirst
  obtain ⟨⟨i, k, hi, hk⟩, hleft⟩ := hcan
  have hreach : (p.setAudit (some (.ofWord w))).auditReach n (.ofWord w) =
      (p.setAudit (some ((Audit.ofWord w).reach n))).issueChallenge n .audit :=
    Part.auditReach_challenged (p.setAudit _) n _ hable hc
  obtain ⟨ph, hph⟩ := Part.issueChallenge_session (p.setAudit (some ((Audit.ofWord w).reach n))) n .audit i k hi hk
    (Nat.sub_pos_of_lt hleft)
  have hrest (q : Part) : (onSockets Part.auditTurn after q).session n = q.session n :=
    (onSockets_local (S := {n}ᶜ) _ after q fun m hm r => r.auditTurn_local m (ne_of_mem_of_not_mem hm hafter)).sessions n
      (notMem_singleton_compl n)
  have hdone : (p.setAudit (some (.ofWord w))).auditProgress.auditFinish.session n =
      ((p.setAudit (some ((Audit.ofWord w).reach n))).issueChallenge n .audit).session n := by
    rw [Part.auditFinish_session, Part.auditProgress,
      (Part.auditTest_local (S := ∅) _).sessions n (Set.notMem_empty n), hturns, hreach, hrest]
  dsimp only
  rw [hdone, hph]
  exact ⟨rfl, ph, rfl⟩

end Sys2Proof.Machine

namespace Sys2Proof.Proofs
open Sys2Proof Sys2Proof.Machine Sys2Proof.Claims

theorem audit_taken (s : State) (w : Word) (hs : Ready s) (h0 : (Word.byte w 0).toNat < 16)
    (h1 : (Word.byte w 1).toNat < 2) (h2 : (Word.byte w 2).toNat < 2) : Gives (.audit [w]) s (fun t =>
      ((∀ n : Socket, (Word.byte w 0).getLsbD n.val = true → (s.part.session n).state.trusted = false ∨
          (s.part.link n).state ≠ .active ∧ (s.part.link n).state ≠ .degraded) →
        t.part.engine = { s.part.engine with audit := none } ∧ Carries t.part (response 0x31 .done [0, 0])) ∧
      (∀ (n : Socket) (c : Challenge), (Word.byte w 0).getLsbD n.val = true →
        (∀ m : Socket, m < n → (Word.byte w 0).getLsbD m.val = false) → (s.part.session n).state.trusted = true →
        (s.part.link n).state = .active ∨ (s.part.link n).state = .degraded →
        (s.part.session n).challenge = some c →
        t.part.session n = s.part.session n ∧
        ∃ a, t.part.engine.audit = some a ∧ a.phase = .collecting ∧ a.results.get n = none ∧
          a.mask = (Word.byte w 0).setWidth 4 ∧ a.oneAtATime = decide (Word.byte w 1 = 1) ∧
          a.withdraw = decide (Word.byte w 2 = 1) ∧
          (∀ m : Socket, (Word.byte w 0).getLsbD m.val = false →
            a.results.get m = some .skipped ∧ t.part.session m = s.part.session m)) ∧
      (∀ n : Socket, (Word.byte w 0).getLsbD n.val = true →
        (∀ m : Socket, m < n → (Word.byte w 0).getLsbD m.val = false) → (s.part.session n).state.trusted = true →
        (s.part.link n).state = .active ∨ (s.part.link n).state = .degraded →
        (s.part.session n).challenge = none → CanChallenge s.part n →
        (t.part.session n).state = (s.part.session n).state ∧
        ∃ ph, (t.part.session n).challenge = some ⟨.audit, ph⟩)) := by
  obtain ⟨p, hp⟩ : ∃ p, p = taken 0x31 [w] s.part := ⟨_, rfl⟩
  have hlive : p.auditLive = true := by rw [hp]; rfl
  have hengine : p.engine = s.part.engine := by rw [hp, taken_engine]
  have hsession (n : Socket) : p.session n = s.part.session n := by rw [hp, taken_session]
  have hlink (n : Socket) : p.link n = s.part.link n := by rw [hp, taken_link]
  have hcan (n : Socket) : CanChallenge p n ↔ CanChallenge s.part n := by
    have hproof : p.proof = s.part.proof := by rw [hp]; exact Part.reportCause_proof _ _ _
    rw [CanChallenge, CanChallenge, hsession, hproof, hp, taken_trust]
  simp only [← hengine, ← hsession, ← hlink, ← hcan]
  refine ⟨_, exec_audit_ready s w hs, ?_⟩
  rw [← hp, Part.audit_valid w p h0 h1 h2]
  refine ⟨fun hno => p.audit_skipsAll w hlive fun n hn => p.auditable_eq_false n (hno n hn), ?_, ?_⟩
  · intro n c hn hfirst ht hw hc
    obtain ⟨hkept, r, e, se, ha, hnone, hunmasked⟩ :=
      p.audit_adopts w n c hlive hn hfirst ((p.auditable_iff n).mpr ⟨ht, hw⟩) hc
    exact ⟨hkept, _, ha, rfl, hnone, rfl, rfl, rfl, hunmasked⟩
  · intro n hn hfirst ht hw hc hcan
    exact p.audit_challenges w n hlive hn hfirst ((p.auditable_iff n).mpr ⟨ht, hw⟩) hc hcan

/-- Settles O60: the management requests by what each does to the part as it is taken, the audit by its sockets' turns and,
for a new audit, by the first socket of its mask. -/
theorem restartAuditParkAndResetAreTaken : Obligations.RestartAuditParkAndResetAreTaken := by
  unfold Obligations.RestartAuditParkAndResetAreTaken
  refine ⟨audit_becomes, fun s hon => onPart_on s _ hon, fun _ => rfl, auditTurn_acts, fun s w hs => ⟨?_, ?_, ?_, ?_⟩,
    park_taken, reset_taken⟩
  · exact socketRestart_invalid s w hs
  · exact socketRestart_taken s w hs
  · exact audit_refused s w hs
  · exact audit_taken s w hs

end Sys2Proof.Proofs

namespace Sys2Proof.Machine
open Sys2Proof.Claims

/-! ## The tool link port along a step -/

theorem Part.lanesFit_congr {p q : Part} (h : q.tlp = p.tlp) (hp : p.LanesFit) : q.LanesFit := by
  unfold Part.LanesFit
  rw [h]
  exact hp

/-- The port of a part that is held or without power is changed by a cold start alone (log 18). -/
theorem exec_held_tlp (c : Instr) (s t : State) (h : s.part.power ≠ .on) (hcold : ∀ k, c ≠ .coldStart k)
    (hexec : exec c s = .next t) : t.part.tlp = s.part.tlp := by
  cases c with
  | coldStart k => exact absurd rfl (hcold k)
  | powerFailsOrResetnAsserted k i =>
    cases hexec
    cases k <;> rfl
  | contactAsserts n =>
    cases (exec_contactAsserts_unwatched n s (.inl h)).symm.trans hexec
    rfl
  | contactDeasserts n =>
    cases (exec_contactDeasserts_unwatched n s (.inl h)).symm.trans hexec
    rfl
  | lockChange b =>
    cases (exec_lockChange_held b s h).symm.trans hexec
    rfl
  | _ =>
    rw [exec_held _ s h] at hexec
    · cases hexec
      rfl
    all_goals exact nofun

/-- A command leaves the lanes within their capacities: a cold start empties them, a cut leaves the port alone. -/
theorem exec_lanesFit (c : Instr) (s t : State) (hs : s.part.LanesFit) (hexec : exec c s = .next t) :
    t.part.LanesFit := by
  by_cases hcold : ∃ k, c = .coldStart k
  · obtain ⟨k, rfl⟩ := hcold
    cases hexec
    obtain ⟨-, hlanes, -⟩ := s.part.coldStart_spec s.array k
    exact hlanes
  push Not at hcold
  by_cases hon : s.part.power = .on
  · by_cases hcut : ∃ k i, c = .powerFailsOrResetnAsserted k i
    · obtain ⟨k, i, rfl⟩ := hcut
      cases hexec
      obtain ⟨hlanes, -⟩ := s.part.cut_keeps k
      exact hlanes hs
    · push Not at hcut
      exact (exec_keeps c s t hon hexec hcold hcut).lanes hs
  · exact Part.lanesFit_congr (exec_held_tlp c s t hon hcold hexec) hs

/-- While no command waits the port stands as it is. -/
theorem State.idle_tlp (s : State) : s.idle.part.tlp = s.part.tlp := by
  unfold State.idle
  repeat' split
  all_goals rfl

end Sys2Proof.Machine

namespace Sys2Proof.Proofs
open Sys2Proof Sys2Proof.Machine Sys2Proof.Claims

/-- Settles O10: every command keeps the lanes within their capacities, and the passing of time leaves them alone. -/
theorem lanesStayWithinCapacity : Obligations.LanesStayWithinCapacity := by
  intro s t hs hstep
  unfold step at hstep
  split at hstep
  · cases hstep
    exact Part.lanesFit_congr s.idle_tlp hs
  · next c rest _ => exact exec_lanesFit c { s with pending := rest } t hs hstep

end Sys2Proof.Proofs

namespace Sys2Proof.Machine
open Sys2Proof.Claims

/-! ## A frame placed into a lane (R45, R46) -/

theorem sameKindSocket_iff (f g : Frame) : sameKindSocket f g = true ↔ g.kind = f.kind ∧ g.socket = f.socket := by
  rw [sameKindSocket, Bool.and_eq_true, beq_iff_eq, beq_iff_eq, eq_comm, @eq_comm _ f.socket]

theorem laneInsert_of_room (cap : Nat) (f : Frame) (l : List Frame) (h : l.length < cap) :
    laneInsert cap f l = l ++ [f] := if_pos h

/-- A full lane gives up its oldest frame of the new frame's kind and socket. -/
theorem laneInsert_of_full_same (cap : Nat) (f g : Frame) (a b : List Frame) (h : cap ≤ (a ++ g :: b).length)
    (hg : sameKindSocket f g = true) (ha : ∀ x ∈ a, ¬ sameKindSocket f x = true) :
    laneInsert cap f (a ++ g :: b) = a ++ b ++ [f] := by
  have hany : (a ++ g :: b).any (sameKindSocket f) = true :=
    List.any_eq_true.mpr ⟨g, List.mem_append_right _ (List.mem_cons_self ..), hg⟩
  rw [laneInsert, if_neg h.not_gt, if_pos hany, List.eraseP_append_right _ ha, List.eraseP_cons_of_pos hg]

theorem laneInsert_of_full_other (cap : Nat) (f : Frame) (l : List Frame) (h : cap ≤ l.length)
    (hl : ∀ x ∈ l, ¬ sameKindSocket f x = true) : laneInsert cap f l = l := by
  have hany : ¬ l.any (sameKindSocket f) = true := fun hs => by
    obtain ⟨x, hx, hxf⟩ := List.any_eq_true.mp hs
    exact hl x hx hxf
  rw [laneInsert, if_neg h.not_gt, if_neg hany]

/-! ## The transmitter's choice, case by case (R49) -/

theorem Part.transmit_busy (p : Part) (g : Frame) (hs : p.tlp.sending = some g) : p.transmit = p := by
  simp only [Part.transmit, hs]

theorem Part.transmit_response (p : Part) (f : Frame) (hs : p.tlp.sending = none) (hr : p.tlp.response = some f) :
    p.transmit = { p with
      tlp := { p.tlp with sending := some f, response := none },
      mgmt := { p.mgmt with request := endFlight p.mgmt.request } } := by
  simp only [Part.transmit, hs, hr]
  rfl

theorem Part.transmit_lane0 (p : Part) (f : Frame) (r : List Frame) (hs : p.tlp.sending = none)
    (hr : p.tlp.response = none) (h0 : p.tlp.lane0 = f :: r) :
    p.transmit = { p with tlp := { p.tlp with sending := some f, lane0 := r } } := by
  simp only [Part.transmit, hs, hr, h0]
  rfl

theorem Part.transmit_lane1 (p : Part) (f : Frame) (r : List Frame) (hs : p.tlp.sending = none)
    (hr : p.tlp.response = none) (h0 : p.tlp.lane0 = []) (h1 : p.tlp.lane1 = f :: r) :
    p.transmit = { p with tlp := { p.tlp with sending := some f, lane1 := r } } := by
  simp only [Part.transmit, hs, hr, h0, h1]
  rfl

theorem Part.transmit_lane2 (p : Part) (f : Frame) (r : List Frame) (hs : p.tlp.sending = none)
    (hr : p.tlp.response = none) (h0 : p.tlp.lane0 = []) (h1 : p.tlp.lane1 = []) (h2 : p.tlp.lane2 = f :: r) :
    p.transmit = { p with tlp := { p.tlp with sending := some f, lane2 := r } } := by
  simp only [Part.transmit, hs, hr, h0, h1, h2]
  rfl

theorem Part.transmit_nothing (p : Part) (hs : p.tlp.sending = none) (hr : p.tlp.response = none)
    (h0 : p.tlp.lane0 = []) (h1 : p.tlp.lane1 = []) (h2 : p.tlp.lane2 = []) : p.transmit = p := by
  simp only [Part.transmit, hs, hr, h0, h1, h2]

/-- Whatever the transmitter takes, lane 0 gives up its oldest frame at most. -/
theorem Part.transmit_lane0_sublist (p : Part) : p.transmit.tlp.lane0.Sublist p.tlp.lane0 := by
  unfold Part.transmit
  split
  · exact .refl _
  split
  · exact .refl _
  split
  · next h => rw [h]; exact List.sublist_cons_self _ _
  · exact .refl _
  · exact .refl _
  · exact .refl _

/-! ## A frame placed, and a new AGGREGATE (R45 to R47, R49) -/

/-- While a frame is being sent, placing another changes its lane alone. -/
theorem Part.place_busy (p : Part) (k : Lane) (f g : Frame) (hs : p.tlp.sending = some g) :
    p.place k f = { p with tlp := p.tlp.setLane k (laneInsert k.capacity f (p.tlp.lane k)) } :=
  Part.transmit_busy _ g (by cases k <;> exact hs)

/-- A frame placed while nothing waits at an idle transmitter is sent at once. -/
theorem Part.place_idle (p : Part) (k : Lane) (f : Frame) (hs : p.tlp.sending = none) (hr : p.tlp.response = none)
    (h0 : p.tlp.lane0 = []) (h1 : p.tlp.lane1 = []) (h2 : p.tlp.lane2 = []) :
    p.place k f = { p with tlp := { p.tlp with sending := some f } } := by
  have hlane : p.tlp.lane k = [] := by cases k <;> assumption
  have hroom : laneInsert k.capacity f (p.tlp.lane k) = [f] := by
    rw [hlane, laneInsert_of_room _ _ _ (by cases k <;> decide), List.nil_append]
  unfold Part.place
  rw [hroom]
  cases k with
  | l0 =>
    rw [Part.transmit_lane0 (p.setTlp (p.tlp.setLane .l0 [f])) f [] hs hr rfl, ← h0]
    rfl
  | l1 =>
    rw [Part.transmit_lane1 (p.setTlp (p.tlp.setLane .l1 [f])) f [] hs hr h0 rfl, ← h1]
    rfl
  | l2 =>
    rw [Part.transmit_lane2 (p.setTlp (p.tlp.setLane .l2 [f])) f [] hs hr h0 h1 rfl, ← h2]
    rfl

theorem Part.placeAggregate_of_none (p : Part) (f : Frame) (h : p.tlp.lane0 = []) :
    p.placeAggregate f = p.place .l0 f := by
  rw [Part.placeAggregate, h, List.filter_nil, ← h]
  rfl

/-- Once every AGGREGATE is out of lane 0 none stands there to be replaced by the new one. -/
theorem laneInsert_aggregate (cap : Nat) (f : Frame) (l : List Frame) (hf : f.kind = kindAggregate)
    (hl : ∀ x ∈ l, x.kind ≠ kindAggregate) : laneInsert cap f l = if l.length < cap then l ++ [f] else l := by
  split
  · next h => exact laneInsert_of_room cap f l h
  · next h =>
    refine laneInsert_of_full_other cap f l (by omega) fun x hx hs => hl x hx ?_
    exact ((sameKindSocket_iff f x).mp hs).1.trans hf

theorem kind_ne_aggregate_of_mem_filter (l : List Frame) : ∀ x ∈ l.filter (fun g => g.kind != kindAggregate),
    x.kind ≠ kindAggregate := fun _ hx => bne_iff_ne.mp (List.mem_filter.mp hx).2

theorem Part.placeAggregate_busy (p : Part) (f g : Frame) (hs : p.tlp.sending = some g) (hf : f.kind = kindAggregate)
    (l : List Frame) (hl : l = p.tlp.lane0.filter fun x => x.kind != kindAggregate) :
    p.placeAggregate f = { p with tlp := { p.tlp with lane0 := if l.length < 8 then l ++ [f] else l } } := by
  subst hl
  rw [← laneInsert_aggregate 8 f _ hf (kind_ne_aggregate_of_mem_filter p.tlp.lane0)]
  exact Part.place_busy _ .l0 f g hs

/-- The new AGGREGATE is the only one that lane 0 can hold. -/
theorem Part.placeAggregate_count (p : Part) (f : Frame) (hf : f.kind = kindAggregate) :
    (p.placeAggregate f).tlp.lane0.countP (fun g => g.kind == kindAggregate) ≤ 1 := by
  have hnone := kind_ne_aggregate_of_mem_filter p.tlp.lane0
  generalize hl : p.tlp.lane0.filter (fun g => g.kind != kindAggregate) = l at hnone
  have hsub : (p.placeAggregate f).tlp.lane0.Sublist (laneInsert 8 f l) := by
    rw [← hl]
    exact Part.transmit_lane0_sublist _
  have hzero : l.countP (fun g => g.kind == kindAggregate) = 0 :=
    List.countP_eq_zero.mpr fun x hx => by simpa using hnone x hx
  refine hsub.countP_le.trans ?_
  rw [laneInsert_aggregate 8 f l hf hnone]
  split
  · rw [List.countP_append, hzero, Nat.zero_add]
    exact List.countP_le_length
  · omega

end Sys2Proof.Machine

namespace Sys2Proof.Proofs
open Sys2Proof Sys2Proof.Machine Sys2Proof.Claims

/-- Settles O18: a full lane's search for a frame of the same kind and socket decides, and finds none for an AGGREGATE once
the others are out of lane 0. -/
theorem laneAppendsReplacesOrDiscards : Obligations.LaneAppendsReplacesOrDiscards := by
  refine ⟨laneInsert_of_room, fun cap f g a b h hk hn ha => ?_, fun cap f l h hl => ?_,
    fun p f hs hr h0 h1 h2 => ⟨fun k => p.place_idle k f hs hr h0 h1 h2, ?_⟩,
    fun p f g hs => ⟨p.place_busy .l0 f g hs, p.place_busy .l1 f g hs, p.place_busy .l2 f g hs,
      p.placeAggregate_busy f g hs⟩,
    Part.placeAggregate_count⟩
  · simp only [← sameKindSocket_iff] at ha
    exact laneInsert_of_full_same cap f g a b h ((sameKindSocket_iff f g).mpr ⟨hk, hn⟩) ha
  · simp only [← sameKindSocket_iff] at hl
    exact laneInsert_of_full_other cap f l h hl
  · rw [p.placeAggregate_of_none f h0]
    exact p.place_idle .l0 f hs hr h0 h1 h2

/-- Settles O19: the transmitter, idle at the end of a transmission, chooses again. -/
theorem transmitterTakesTheNextFrame : Obligations.TransmitterTakesTheNextFrame := by
  refine ⟨fun m q h => ?_, fun m h => ?_, rfl, fun q => ⟨fun h => ?_, fun h => ?_⟩, fun s hon => ?_⟩
  · rw [Mgmt.toWaiting, h]
  · simp only [Mgmt.toWaiting, h]
    rw [← h]
  · rw [endFlight, h]
  · rw [endFlight, h]
  · have hnext (p : Part) (h : (s.part.setTlp { s.part.tlp with sending := none }).transmit = p) :
        exec .toolTxEnd s = .next { s with part := p } := by
      rw [← h]
      exact onPart_on s _ hon
    exact ⟨fun f hr => hnext _ (Part.transmit_response _ f rfl hr),
      fun f r hr h0 => hnext _ (Part.transmit_lane0 _ f r rfl hr h0),
      fun f r hr h0 h1 => hnext _ (Part.transmit_lane1 _ f r rfl hr h0 h1),
      fun f r hr h0 h1 h2 => hnext _ (Part.transmit_lane2 _ f r rfl hr h0 h1 h2),
      fun hr h0 h1 h2 => hnext _ (Part.transmit_nothing _ rfl hr h0 h1 h2)⟩

end Sys2Proof.Proofs

namespace Sys2Proof.Machine
open Sys2Proof.Claims

/-! ## What a report of a cause leaves of the silence timer and the job in progress -/

theorem StoreCtl.start_job_of_busy (c : StoreCtl) (j : Job) (h : c.job = some j) : c.start.job = some j := by
  simp only [StoreCtl.start, h]

/-- A job in progress is not disturbed by an entry handed to the controller (R176). -/
theorem Part.log_job (p : Part) (e : LogEntry) (j : Job) (h : p.ctl.job = some j) : (p.log e).ctl.job = some j := by
  unfold Part.log
  split
  · exact StoreCtl.start_job_of_busy { p.ctl with queue := p.ctl.queue ++ [.log e] } j h
  · exact h

theorem Part.raiseCond_silence (p : Part) (c : Cond) : (p.raiseCond c).tlp.silence = p.tlp.silence := by
  simp [Part.raiseCond, Part.changeCond, Part.setCond, Part.evalPermits]

theorem Part.raiseCond_job (p : Part) (c : Cond) (j : Job) (h : p.ctl.job = some j) :
    (p.raiseCond c).ctl.job = some j :=
  Part.log_job _ _ j (by rw [Part.changeCond_ctl]; exact h)

/-- A report that makes a cause present leaves the silence timer and the job in progress alone. -/
theorem Part.reportCause_present_keeps (p : Part) (c : Cond) (k : Causes) (hk : k.present c = true) :
    (p.reportCause c k).tlp.silence = p.tlp.silence ∧
      ∀ j, p.ctl.job = some j → (p.reportCause c k).ctl.job = some j := by
  cases hl : p.ctl.loading with
  | true => rw [p.reportCause_loading c k hl]; exact ⟨rfl, fun _ => id⟩
  | false =>
    cases h0 : p.fault.causes.present c with
    | true => rw [p.reportCause_same c k (hk.trans h0.symm)]; exact ⟨rfl, fun _ => id⟩
    | false =>
      rw [p.reportCause_appears c k hl h0 hk]
      exact ⟨Part.raiseCond_silence _ c, fun j h => Part.raiseCond_job _ c j h⟩

end Sys2Proof.Machine

namespace Sys2Proof.Proofs
open Sys2Proof Sys2Proof.Machine Sys2Proof.Claims

/-- Settles O22: the expiry stops the timer and reports the silence cause present. -/
theorem silenceTimerRaisesToolSilent : Obligations.SilenceTimerRaisesToolSilent := by
  intro s d hon hd
  have hexpiry : s.part.silenceExpiry = (s.part.setTlp { s.part.tlp with silence := none }).reportCause .toolSilent
      { s.part.fault.causes with silent := true } := by simp only [Part.silenceExpiry, hd]
  have hexec : exec .silenceTimerExpiry s = .next { s with part := s.part.silenceExpiry } := onPart_on s _ hon
  rw [hexpiry] at hexec
  generalize hp : s.part.setTlp { s.part.tlp with silence := none } = p at hexec
  have hunits := p.reportCause_units .toolSilent { s.part.fault.causes with silent := true }
  obtain ⟨hsilence, hjob⟩ := p.reportCause_present_keeps .toolSilent { s.part.fault.causes with silent := true } rfl
  subst hp
  exact ⟨_, hexec, hsilence, congrArg Causes.silent (Part.reportCause_causes _ _ _),
    fun hl hs => Part.reportCause_appears_conds _ .toolSilent _ hl hs rfl, hunits.links, hunits.engine, hunits.trust,
    hunits.grants, hunits.proof, hunits.classifier, (Part.reportCause_plain _ _ _).map, hjob, rfl⟩

end Sys2Proof.Proofs

namespace Sys2Proof.Machine
open Sys2Proof.Claims

/-! ## The refusal table and the job queue along a step -/

/-- The recent-refusal table and the job queue are within their bounds (R94, R176). -/
def Part.BoundsFit (p : Part) : Prop := p.RecentFit ∧ p.JobsFit

/-- A cut keeps the refusal table and empties the job queue (R183). -/
theorem Part.cut_boundsFit (c : CutCause) (p : Part) (h : p.BoundsFit) : (Part.cut c p).BoundsFit := by
  obtain ⟨-, -, hrecent, -, hjobs⟩ := p.cut_keeps c
  exact ⟨hrecent h.1, hjobs⟩

/-- The part that is held or without power keeps its bounds (log 18). -/
theorem exec_held_boundsFit (c : Instr) (s t : State) (h : s.part.power ≠ .on) (hs : s.part.BoundsFit)
    (hcold : ∀ k, c ≠ .coldStart k) (hexec : exec c s = .next t) : t.part.BoundsFit := by
  cases c with
  | coldStart k => exact absurd rfl (hcold k)
  | powerFailsOrResetnAsserted k i =>
    cases hexec
    exact s.part.cut_boundsFit k hs
  | contactAsserts n =>
    cases (exec_contactAsserts_unwatched n s (.inl h)).symm.trans hexec
    exact hs
  | contactDeasserts n =>
    cases (exec_contactDeasserts_unwatched n s (.inl h)).symm.trans hexec
    exact hs
  | lockChange b =>
    cases (exec_lockChange_held b s h).symm.trans hexec
    exact hs
  | _ =>
    rw [exec_held _ s h] at hexec
    · cases hexec
      exact hs
    all_goals exact nofun

/-- A command leaves both within their bounds: a cold start begins them anew, every other keeps them. -/
theorem exec_boundsFit (c : Instr) (s t : State) (hs : s.part.BoundsFit) (hexec : exec c s = .next t) :
    t.part.BoundsFit := by
  by_cases hcold : ∃ k, c = .coldStart k
  · obtain ⟨k, rfl⟩ := hcold
    cases hexec
    obtain ⟨-, -, -, -, hrecent, -, hjobs, -⟩ := s.part.coldStart_spec s.array k
    exact ⟨hrecent, hjobs⟩
  push Not at hcold
  by_cases hon : s.part.power = .on
  · by_cases hcut : ∃ k i, c = .powerFailsOrResetnAsserted k i
    · obtain ⟨k, i, rfl⟩ := hcut
      cases hexec
      exact s.part.cut_boundsFit k hs
    · push Not at hcut
      have hkeeps := exec_keeps c s t hon hexec hcold hcut
      exact ⟨hkeeps.recent hs.1, hkeeps.jobs hs.2⟩
  · exact exec_held_boundsFit c s t hon hs hcold hexec

theorem State.idle_boundsFit (s : State) (h : s.part.BoundsFit) : s.idle.part.BoundsFit := by
  unfold State.idle
  repeat' split
  all_goals exact h

end Sys2Proof.Machine

namespace Sys2Proof.Proofs
open Sys2Proof Sys2Proof.Machine Sys2Proof.Claims

/-- Settles O12: every command keeps the refusal table and the job queue within their bounds, and the passing of time leaves
them alone. -/
theorem refusalTableAndJobQueueStayBounded : Obligations.RefusalTableAndJobQueueStayBounded := by
  intro s t hrecent hjobs hstep
  unfold step at hstep
  split at hstep
  · cases hstep
    exact s.idle_boundsFit ⟨hrecent, hjobs⟩
  · next c rest _ => exact exec_boundsFit c { s with pending := rest } t ⟨hrecent, hjobs⟩ hstep

end Sys2Proof.Proofs

namespace Sys2Proof.Machine
open Sys2Proof.Claims

/-! ## The ends of the waits of AUDIT, PARK and RESET (R100, R172, R174) -/

/-- An audit does not complete before it is ready and while its request does not run (R100, R173; log 3). -/
theorem Part.auditFinish_waiting (p : Part)
    (h : p.engine.audit = none ∨ ¬Running p 0x31 ∨ ∃ a, p.engine.audit = some a ∧ a.phase ≠ .ready) :
    p.auditFinish = p := by
  unfold Part.auditFinish
  split
  · rfl
  next a ha =>
  split
  · next hready =>
    split
    · next hlive =>
      rcases h with hnone | hrun | ⟨b, hb, hphase⟩
      · exact absurd (hnone.symm.trans ha) nofun
      · exact absurd ((p.running_iff codeAudit).mp hlive) hrun
      · exact absurd hready (Option.some.inj (hb.symm.trans ha) ▸ hphase)
    · rfl
  · rfl
  · rfl

theorem Part.waited_iff (p : Part) (code : Byte) : p.waited code = true ↔
    ∃ q, p.mgmt.request = some q ∧ q.code = code ∧ q.phase = .running ∧ q.wait = 0 := by
  unfold Part.waited
  split
  · next h => simp [h]
  · next q hq => simp [p.running_iff code, Running, hq, and_assoc]

/-- A request that still waits for a job has not waited to its end. -/
theorem Part.waited_eq_false (p : Part) (code : Byte)
    (h : ∀ q, p.mgmt.request = some q → q.code = code → q.phase = .running → q.wait ≠ 0) : p.waited code = false := by
  refine Bool.eq_false_iff.mpr fun hw => ?_
  obtain ⟨q, hq, hcode, hphase, hwait⟩ := (p.waited_iff code).mp hw
  exact h q hq hcode hphase hwait

/-- PARK answered once its waits have ended (R172). -/
theorem Part.parkDone_waited (p : Part) (q : Request) (hq : p.mgmt.request = some q) (hcode : q.code = 0x3E)
    (hphase : q.phase = .running) (hwait : q.wait = 0) :
    p.parkDone = answered p (response 0x3E (if q.waitFailed then .storeFault else .done) []) := by
  have hfailed : p.waitFailed = q.waitFailed := by simp only [Part.waitFailed, hq]
  have hwaited : p.waited codePark = true := (p.waited_iff _).mpr ⟨q, hq, hcode, hphase, hwait⟩
  rw [Part.parkDone, if_pos hwaited, hfailed, Part.respond_eq_answered]
  rfl

end Sys2Proof.Machine

namespace Sys2Proof.Proofs
open Sys2Proof Sys2Proof.Machine Sys2Proof.Claims

/-- An audit that is ready is answered, logged, and ceases to exist; nothing else in the part changes (R100). -/
theorem auditComplete_ready (s : State) (a : Audit) (hon : s.part.power = .on) (ha : s.part.engine.audit = some a)
    (hready : a.phase = .ready) (hrun : Running s.part 0x31) : Gives .auditComplete s (fun t =>
      t.part.engine = { s.part.engine with audit := none } ∧ Carries t.part (response 0x31 a.outcome a.words) ∧
      (LogRoom s.part → Logged t.part a.entry) ∧ t.part.links = s.part.links ∧ t.part.trust = s.part.trust ∧
      t.part.proof = s.part.proof ∧ t.part.grants = s.part.grants ∧ t.part.fault = s.part.fault ∧
      t.part.classifier = s.part.classifier ∧ t.array = s.array) := by
  have hfinish := s.part.auditFinish_ready a ha hready ((s.part.running_iff codeAudit).mpr hrun)
  refine ⟨_, onPart_on s Part.auditFinish hon, ?_⟩
  dsimp only
  rw [hfinish]
  refine ⟨by simp, ?_, fun hroom => ?_, by simp, by simp, by simp, by simp, by simp, by simp, rfl⟩
  · exact (((Part.log_local (S := ∅) _ _).trans (Part.setAudit_local _ _)).carries _
      (s.part.respond_carries codeAudit a.outcome a.words))
  · refine (Part.setAudit_local (S := ∅) _ none).logged (Part.log_logged _ _ ?_)
    unfold LogRoom
    rw [Part.respond_ctl]
    exact hroom

/-- Settles O47: each of the three events acts when its wait has ended, and leaves the part as it is before. -/
theorem auditAndParkCompleteWhenTheirWaitsEnd : Obligations.AuditAndParkCompleteWhenTheirWaitsEnd := by
  intro s hon
  refine ⟨fun a ha hready hrun => auditComplete_ready s a hon ha hready hrun, fun h => ?_,
    fun q hq hcode hphase hwait => ?_, fun h => ?_, fun h => ?_⟩
  · exact (onPart_on s Part.auditFinish hon).trans (by rw [s.part.auditFinish_waiting h])
  · exact (onPart_on s Part.parkDone hon).trans (by rw [s.part.parkDone_waited q hq hcode hphase hwait])
  · have hpark : s.part.parkDone = s.part := by
      rw [Part.parkDone, s.part.waited_eq_false codePark h, if_neg Bool.false_ne_true]
    exact (onPart_on s Part.parkDone hon).trans (by rw [hpark])
  · have hreset : Part.inBandReset s.array s.part = s.part := by
      rw [Part.inBandReset, s.part.waited_eq_false codeReset h, if_neg Bool.false_ne_true]
    exact (onPart_on s (Part.inBandReset s.array) hon).trans (by rw [hreset])

end Sys2Proof.Proofs

namespace Sys2Proof.Machine
open Sys2Proof.Claims

/-! ## The recent-refusal table (R85 step 6, R94) -/

/-- A serial refused for the first time is the most recent of at most 16. -/
theorem countRefusal_new (x : Word) (t : List (Word × Nat)) (h : ∀ e ∈ t, e.1 ≠ x) :
    countRefusal x t = (x, 1) :: t.take 15 := by
  have hnone : t.find? (fun e => e.1 == x) = none :=
    List.find?_eq_none.mpr fun e he heq => h e he (eq_of_beq heq)
  simp only [countRefusal, hnone]

/-- A serial that stands in the table moves to the front with its count raised, to 15 at most. -/
theorem countRefusal_again (x : Word) (k : Nat) (a b : List (Word × Nat)) (h : ∀ e ∈ a ++ b, e.1 ≠ x) :
    countRefusal x (a ++ (x, k) :: b) = (x, min 15 (k + 1)) :: (a ++ b) := by
  have hfound : (a ++ (x, k) :: b).find? (fun e => e.1 == x) = some (x, k) :=
    find?_eq_of_first _ a b (x, k) (beq_self_eq_true x) fun e he => beq_false_of_ne (h e (List.mem_append_left b he))
  have hrest : (a ++ (x, k) :: b).filter (fun e => e.1 != x) = a ++ b := by
    rw [List.filter_append, List.filter_cons_of_neg (by simp), ← List.filter_append]
    exact List.filter_eq_self.mpr fun e he => bne_iff_ne.mpr (h e he)
  simp only [countRefusal, hfound, hrest]

theorem Part.discardChallenge_recent (p : Part) (n : Socket) :
    (p.discardChallenge n).engine.recent = p.engine.recent := by
  unfold Part.discardChallenge
  split
  · rfl
  · dsimp only
    split <;> rfl

theorem Part.auditResult_recent (p : Part) (n : Socket) (o : AuditOutcome) :
    (p.auditResult n o).engine.recent = p.engine.recent := by
  unfold Part.auditResult
  repeat' split
  all_goals rfl

theorem Part.refuse_recent (p : Part) (n : Socket) (r : Reason) :
    (p.refuse n r).engine.recent = (p.countReason r (p.session n).serial).engine.recent := by
  have hcongr (q : Part) (x : Option Word) (h : q.engine.recent = p.engine.recent) :
      (q.countReason r x).engine.recent = (p.countReason r x).engine.recent := by
    unfold Part.countReason
    split
    · exact congrArg (countRefusal _) h
    · exact h
    · exact h
  unfold Part.refuse
  dsimp only
  rw [Part.reportSession_engine]
  refine hcongr _ _ ?_
  rw [Part.log_engine, Part.auditResult_recent]
  exact p.discardChallenge_recent n

/-- A refusal for a reason that is not counted leaves the table alone. -/
theorem Part.refuse_recent_uncounted (p : Part) (n : Socket) (r : Reason) (h : r.counted = false) :
    (p.refuse n r).engine.recent = p.engine.recent := by
  simp only [p.refuse_recent n r, Part.countReason, h]

theorem Part.refuse_recent_unnamed (p : Part) (n : Socket) (r : Reason) (h : (p.session n).identity = none) :
    (p.refuse n r).engine.recent = p.engine.recent := by
  cases hc : r.counted with
  | false => exact p.refuse_recent_uncounted n r hc
  | true => simp only [p.refuse_recent n r, Session.serial, h, Option.map_none, Part.countReason, hc]

theorem Part.refuse_recent_counted (p : Part) (n : Socket) (r : Reason) (i : Identity) (h : r.counted = true)
    (hi : (p.session n).identity = some i) :
    (p.refuse n r).engine.recent = countRefusal i.serial p.engine.recent := by
  simp only [p.refuse_recent n r, Session.serial, hi, Option.map_some, Part.countReason, h, Part.setRecent_engine]

theorem Part.tryStart_recent (p : Part) (n : Socket) : (p.tryStart n).engine.recent = p.engine.recent := by
  have hsent (q : Part) (x : Nonce) : (q.markSent n x).engine.recent = q.engine.recent := by
    unfold Part.markSent
    split <;> rfl
  unfold Part.tryStart
  repeat' split
  · rfl
  · rw [Part.startChallenge, Part.setLink_engine, hsent, Part.draw_engine]
  · rfl
  · rfl
  · rfl

theorem Part.bindKey_recent (p : Part) (n : Socket) (k : Fin 16) : (p.bindKey n k).engine.recent = p.engine.recent := by
  unfold Part.bindKey Part.setMarks
  split
  · rfl
  · rw [Part.recompute_engine]
    rfl

/-- The issuing of a challenge refuses only for reasons that are not counted. -/
theorem Part.issueChallenge_recent (p : Part) (n : Socket) (why : Purpose) :
    (p.issueChallenge n why).engine.recent = p.engine.recent := by
  unfold Part.issueChallenge Part.reserveAndPlace
  repeat' split
  · rfl
  · exact p.refuse_recent_uncounted n _ rfl
  · rw [Part.placeChallenge, Part.tryStart_recent]
    exact p.bindKey_recent n _
  · exact (Part.refuse_recent_uncounted _ n _ rfl).trans (p.bindKey_recent n _)

/-! ## The report of an engine transaction (R75, R81, R98) -/

/-- An action on socket n keeps every other session. -/
theorem Part.Local.othersKept {n : Socket} {p q : Part} (h : p.Local {n} q) : OthersKept n p q := fun m hm => h.sessions m hm

theorem Part.engineReport_passedOver (p : Part) (n : Socket) (t : Transaction) (o : TxOutcome)
    (h : t.passedOver = true) : p.engineReport n t o = p := if_pos h

theorem Part.engineReport_identify (p : Part) (n : Socket) (t : Transaction) (o : TxOutcome)
    (hk : t.frame.kind = kindIdentify) (h : t.passedOver = false) : p.engineReport n t o = p.identifyOutcome n o := by
  rw [Part.engineReport, h, if_neg Bool.false_ne_true, if_pos hk]

theorem Part.engineReport_challenge (p : Part) (n : Socket) (t : Transaction) (o : TxOutcome)
    (hk : t.frame.kind = kindChallenge) (h : t.passedOver = false) : p.engineReport n t o = p.judge n t o := by
  rw [Part.engineReport, h, if_neg Bool.false_ne_true, if_neg (by rw [hk]; decide)]

theorem Part.identifyOutcome_idle (p : Part) (n : Socket) (o : TxOutcome) (h : (p.session n).state ≠ .identifying) :
    p.identifyOutcome n o = p := by
  unfold Part.identifyOutcome
  split
  · next hs => exact absurd hs h
  · rfl

/-- In IDENTIFYING a good reply is accepted, any other outcome is a miss. -/
theorem Part.identifyOutcome_identifying (p : Part) (n : Socket) (o : TxOutcome)
    (h : (p.session n).state = .identifying) :
    (∀ f, o = .good f → p.identifyOutcome n o = p.acceptIdentity n f.payload) ∧
    (o = .malformed ∨ o = .wrongKind ∨ o = .expired → p.identifyOutcome n o = p.identifyMiss n) := by
  refine ⟨fun f ho => ?_, fun ho => ?_⟩
  · simp only [Part.identifyOutcome, h, ho]
  · rcases ho with ho | ho | ho
    all_goals simp only [Part.identifyOutcome, h, ho]

/-- The first and the second miss place another IDENTIFY (R75). -/
theorem Part.identifyMiss_again (p : Part) (n : Socket) (h : (p.session n).attempts < 2) :
    p.identifyMiss n = ((p.setSession n { p.session n with attempts := (p.session n).attempts + 1 }).setLink n
      { p.link n with engineSlot := some .identify }).tryStart n := if_pos (Nat.succ_lt_succ h)

/-- The third refuses the session. -/
theorem Part.identifyMiss_last (p : Part) (n : Socket) (h : 2 ≤ (p.session n).attempts) :
    p.identifyMiss n = (p.setSession n { p.session n with attempts := (p.session n).attempts + 1 }).refuse n .noIdentity :=
  if_neg (Nat.not_lt.mpr (Nat.succ_le_succ h))

/-- A result is taken by an audit that waits for the socket, and by no other (R98). -/
theorem Part.auditResult_deaf (p : Part) (n : Socket) (o : AuditOutcome) (a : Audit) (ha : p.engine.audit = some a)
    (h : a.reached.get n = false ∨ a.results.get n ≠ none) : p.auditResult n o = p := by
  have hcond : (a.reached.get n && (a.results.get n).isNone) = false := by
    rcases h with h | h
    · rw [h, Bool.false_and]
    · rw [Option.isNone_eq_false_iff.mpr (Option.isSome_iff_ne_none.mpr h), Bool.and_false]
  simp only [Part.auditResult, ha, hcond, Bool.false_eq_true, if_false]

theorem Transaction.latency_stamped (t : Transaction) (sent came : Word) (hsent : t.sentAt = some sent)
    (hcame : t.replyAt = some came) : t.latency = some (came - sent).toNat := by
  simp only [Transaction.latency, hsent, hcame]

/-- The verdicts on a PROOF exclude each other, in the order of R81 steps 3 to 5. -/
theorem Part.verdict_cases (p : Part) (n : Socket) (x : Nonce) (latency : Nat) (proof : Word) :
    (p.mgmt.settings.proofWindow * 1000 < latency → p.verdict n x latency proof = .late) ∧
    (latency ≤ p.mgmt.settings.proofWindow * 1000 →
      (p.expected n x = some proof.toNat → p.verdict n x latency proof = .pass) ∧
      (p.expected n x ≠ some proof.toNat → p.verdict n x latency proof = .mismatch)) := by
  refine ⟨fun h => if_pos h, fun h => ?_⟩
  have hearly : p.verdict n x latency proof = if p.expected n x = some proof.toNat then .pass else .mismatch :=
    if_neg (Nat.not_lt.mpr h)
  exact ⟨fun he => hearly.trans (if_pos he), fun he => hearly.trans (if_neg he)⟩

/-- What is judged of the report of a SENT challenge (R81). -/
theorem Part.judge_sent (p : Part) (n : Socket) (t : Transaction) (o : TxOutcome) (why : Purpose) (x : Nonce) (snap : Byte)
    (hc : (p.session n).challenge = some ⟨why, .sent x snap⟩) (q : Part)
    (hq : q = p.setSession n { p.session n with challenge := none }) :
    (o = .malformed ∨ o = .wrongKind ∨ o = .expired → p.judge n t o = q.judged n .noAnswer) ∧
    (∀ f, o = .good f →
      (p.editCount (p.session n).keySlot ≠ snap → p.judge n t o = q.issueChallenge n why) ∧
      (p.editCount (p.session n).keySlot = snap →
        p.judge n t o = q.judged n (p.verdict n x (t.latency.getD 0) (wordAt f.payload 0)))) := by
  subst hq
  refine ⟨fun ho => ?_, fun f ho => ⟨fun hne => ?_, fun heq => ?_⟩⟩
  · rcases ho with ho | ho | ho
    all_goals simp only [Part.judge, hc, ho]
  · simp only [Part.judge, hc, ho, ne_eq, hne, not_false_eq_true, if_true]
  · simp only [Part.judge, hc, ho, ne_eq, heq, not_true_eq_false, if_false]

end Sys2Proof.Machine

namespace Sys2Proof.Proofs
open Sys2Proof Sys2Proof.Machine Sys2Proof.Claims

/-- The report of an IDENTIFY (R75). -/
theorem identifyReport_acts (p : Part) (n : Socket) (t : Transaction) (o : TxOutcome) (hk : t.frame.kind = kindIdentify) :
    (t.passedOver = true ∨ (p.session n).state ≠ .identifying → p.engineReport n t o = p) ∧
    (t.passedOver = false → (p.session n).state = .identifying →
      (∀ f, o = .good f → p.engineReport n t o = p.acceptIdentity n f.payload) ∧
      (o = .malformed ∨ o = .wrongKind ∨ o = .expired →
        ((p.session n).attempts < 2 → p.engineReport n t o =
          ((p.setSession n { p.session n with attempts := (p.session n).attempts + 1 }).setLink n
            { p.link n with engineSlot := some .identify }).tryStart n) ∧
        (2 ≤ (p.session n).attempts →
          ((p.engineReport n t o).session n).state = .refused ∧
          ((p.engineReport n t o).session n).reason = some .noIdentity ∧
          ((p.engineReport n t o).session n).attempts = (p.session n).attempts + 1 ∧
          (p.engineReport n t o).engine.recent = p.engine.recent ∧ OthersKept n p (p.engineReport n t o)))) := by
  refine ⟨fun h => ?_, fun hpass hs => ?_⟩
  · cases hpass : t.passedOver with
    | true => exact p.engineReport_passedOver n t o hpass
    | false =>
      rw [p.engineReport_identify n t o hk hpass]
      exact p.identifyOutcome_idle n o (h.resolve_left (by simp [hpass]))
  · obtain ⟨hgood, hmiss⟩ := p.identifyOutcome_identifying n o hs
    rw [p.engineReport_identify n t o hk hpass]
    refine ⟨hgood, fun ho => ?_⟩
    rw [hmiss ho]
    refine ⟨p.identifyMiss_again n, fun hlast => ?_⟩
    have hkept := (p.identifyMiss_local n (Set.mem_singleton n)).othersKept
    rw [p.identifyMiss_last n hlast] at hkept ⊢
    rw [Part.refuse_session, Part.setSession_session_self]
    exact ⟨rfl, rfl, rfl, Part.refuse_recent_uncounted _ n _ rfl, hkept⟩

/-- A result recorded by the audit (R98, log 17). -/
theorem auditResult_acts (p : Part) (n : Socket) (o : AuditOutcome) :
    (p.engine.audit = none → p.auditResult n o = p) ∧
    (∀ a, p.engine.audit = some a →
      (a.reached.get n = false ∨ a.results.get n ≠ none → p.auditResult n o = p) ∧
      (a.reached.get n = true → a.results.get n = none →
        p.auditResult n o = { p with engine := { p.engine with audit := some { a with
          results := a.results.set n (some o),
          serials := a.serials.set n
            (if o = .mismatch then (p.session n).identity.map Identity.serial else none) } } })) := by
  refine ⟨fun ha => by simp only [Part.auditResult, ha], fun a ha => ⟨p.auditResult_deaf n o a ha, fun hr hn => ?_⟩⟩
  rw [p.auditResult_waiting n o a ha hr hn]
  rfl

/-- The report of a challenge's transaction (R81, R87). -/
theorem challengeReport_acts (p : Part) (n : Socket) (t : Transaction) (o : TxOutcome) (hk : t.frame.kind = kindChallenge) :
    (t.passedOver = true → p.engineReport n t o = p) ∧
    (∀ (why : Purpose) (x : Nonce) (snap : Byte) (q : Part), t.passedOver = false →
      (p.session n).challenge = some ⟨why, .sent x snap⟩ →
      q = p.setSession n { p.session n with challenge := none } →
      (o = .malformed ∨ o = .wrongKind ∨ o = .expired → p.engineReport n t o = q.judged n .noAnswer) ∧
      (∀ f, o = .good f →
        (p.editCount (p.session n).keySlot ≠ snap → p.engineReport n t o = q.issueChallenge n why) ∧
        (∀ sent came l : Word, p.editCount (p.session n).keySlot = snap → t.sentAt = some sent → t.replyAt = some came →
          l = came - sent →
          (p.mgmt.settings.proofWindow * 1000 < l.toNat → p.engineReport n t o = q.judged n .late) ∧
          (l.toNat ≤ p.mgmt.settings.proofWindow * 1000 →
            (p.expected n x = some (wordAt f.payload 0).toNat → p.engineReport n t o = q.judged n .pass) ∧
            (p.expected n x ≠ some (wordAt f.payload 0).toNat → p.engineReport n t o = q.judged n .mismatch))))) := by
  refine ⟨p.engineReport_passedOver n t o, fun why x snap q hpass hc hq => ?_⟩
  obtain ⟨hbad, hgood⟩ := p.judge_sent n t o why x snap hc q hq
  rw [p.engineReport_challenge n t o hk hpass]
  refine ⟨hbad, fun f ho => ?_⟩
  obtain ⟨hmoved, hsame⟩ := hgood f ho
  refine ⟨hmoved, fun sent came l hedits hsent hcame hl => ?_⟩
  obtain ⟨hlate, hearly⟩ := p.verdict_cases n x l.toNat (wordAt f.payload 0)
  rw [hsame hedits, t.latency_stamped sent came hsent hcame, Option.getD_some, ← hl]
  refine ⟨fun h => by rw [hlate h], fun h => ?_⟩
  obtain ⟨hpassed, hmismatch⟩ := hearly h
  exact ⟨fun he => by rw [hpassed he], fun he => by rw [hmismatch he]⟩

/-- Settles O37: the report of an IDENTIFY, the audit's result, and the report of a challenge. -/
theorem verdictsComeInOrder : Obligations.VerdictsComeInOrder :=
  ⟨identifyReport_acts, auditResult_acts, fun _ _ => ⟨rfl, rfl, rfl, rfl⟩, challengeReport_acts⟩

end Sys2Proof.Proofs

namespace Sys2Proof.Machine
open Sys2Proof.Claims

/-! ## What the issuing of a challenge makes of a session (R79) -/

theorem PerSocket.set_set {α : Type} (v : PerSocket α) (n : Socket) (x y : α) : (v.set n x).set n y = v.set n y := by
  apply PerSocket.ext_get
  intro m
  simp only [PerSocket.get_set]
  split <;> rfl

theorem Part.setSession_setSession (p : Part) (n : Socket) (x y : Session) :
    (p.setSession n x).setSession n y = p.setSession n y := by
  unfold Part.setSession
  dsimp only
  rw [PerSocket.set_set]

theorem Part.reportSession_session (p : Part) (n m : Socket) : (p.reportSession n).session m = p.session m :=
  (p.reportSession_local (S := ∅) n).session_eq m

/-- A session can still be challenged when its identity and the trust tables stand and no fewer counter values are left. -/
theorem canChallenge_of_slack {p q : Part} {n : Socket} (h : CanChallenge p n)
    (hi : (q.session n).identity = (p.session n).identity) (ht : q.trust = p.trust)
    (hp : p.proof.slack ≤ q.proof.slack) : CanChallenge q n := by
  obtain ⟨hkey, hleft⟩ := h
  refine ⟨by rw [hi, ht]; exact hkey, ?_⟩
  unfold ProofUnit.slack ProofUnit.left at hp
  omega

/-- A challenge issued to a session that can be challenged. -/
theorem Part.issueChallenge_of_can (p : Part) (n : Socket) (why : Purpose) (h : CanChallenge p n) :
    ∃ k ph, (p.issueChallenge n why).session n = { p.session n with
      keySlot := some k, marks := { (p.session n).marks with keyRetired := p.trust.slotRetired k },
      challenge := some ⟨why, ph⟩ } := by
  obtain ⟨⟨i, k, hi, hk⟩, hleft⟩ := h
  exact ⟨k, p.issueChallenge_session n why i k hi hk (Nat.sub_pos_of_lt hleft)⟩

/-- What the issuing of a challenge leaves alone in the session's record, whether the session is challenged or refused. -/
structure Session.Asked (s x : Session) : Prop where
  identity : x.identity = s.identity
  attempts : x.attempts = s.attempts
  breaks : x.breaks = s.breaks
  baseline : x.baseline = s.baseline
  peak : x.peak = s.peak
  state : x.state = s.state ∨ x.state = .refused

theorem Session.Asked.refl (s : Session) : s.Asked s := ⟨rfl, rfl, rfl, rfl, rfl, .inl rfl⟩

theorem Session.Asked.trans {s x y : Session} (h : s.Asked x) (k : x.Asked y) : s.Asked y :=
  ⟨k.identity.trans h.identity, k.attempts.trans h.attempts, k.breaks.trans h.breaks, k.baseline.trans h.baseline,
   k.peak.trans h.peak, k.state.elim (fun hx => hx ▸ h.state) .inr⟩

theorem Part.refuse_asked (p : Part) (n : Socket) (r : Reason) : (p.session n).Asked ((p.refuse n r).session n) := by
  rw [p.refuse_session n r]
  exact ⟨rfl, rfl, rfl, rfl, rfl, .inr rfl⟩

theorem Part.issueChallenge_asked (p : Part) (n : Socket) (why : Purpose) :
    (p.session n).Asked ((p.issueChallenge n why).session n) := by
  have hbind (k : Fin 16) : (p.session n).Asked ((p.bindKey n k).session n) := by
    rw [p.bindKey_session n k]
    exact ⟨rfl, rfl, rfl, rfl, rfl, .inl rfl⟩
  unfold Part.issueChallenge Part.reserveAndPlace
  repeat' split
  · exact .refl _
  · exact p.refuse_asked n _
  · obtain ⟨ph, hph⟩ := Part.placeChallenge_session (p.bindKey n _).reserve n why
    rw [hph]
    exact (hbind _).trans ⟨rfl, rfl, rfl, rfl, rfl, .inl rfl⟩
  · exact (hbind _).trans (Part.refuse_asked _ n _)

theorem Part.recheckNow_outstanding (p : Part) (n : Socket) (c : Challenge) (h : (p.session n).challenge = some c) :
    p.recheckNow n = p := by simp only [Part.recheckNow, h]

theorem Part.recheckNow_free (p : Part) (n : Socket) (h : (p.session n).challenge = none) :
    p.recheckNow n = p.issueChallenge n .recheck := by simp only [Part.recheckNow, h]

theorem Part.recheckNow_asked (p : Part) (n : Socket) : (p.session n).Asked ((p.recheckNow n).session n) := by
  unfold Part.recheckNow
  split
  · exact p.issueChallenge_asked n _
  · exact .refl _

/-- A recheck of a session that can be challenged (R77, R88, R90). -/
theorem Part.recheckNow_of_can (p : Part) (n : Socket) (hc : (p.session n).challenge = none) (h : CanChallenge p n) :
    ((p.recheckNow n).session n).state = (p.session n).state ∧
      ∃ ph, ((p.recheckNow n).session n).challenge = some ⟨.recheck, ph⟩ := by
  obtain ⟨k, ph, hs⟩ := p.issueChallenge_of_can n .recheck h
  rw [p.recheckNow_free n hc, hs]
  exact ⟨rfl, ph, rfl⟩

/-! ## A session's report (R73) -/

theorem reasonCode_of_getElem (r : Option Reason) (k : Nat)
    (h : [none, some Reason.noIdentity, some .badIdentity, some .withdrawn, some .repeated, some .duplicate, some .noClass,
      some .noKey, some .mismatch, some .late, some .noAnswer, some .exhausted][k]? = some r) : reasonCode r = k := by
  obtain ⟨hk, -⟩ := List.getElem?_eq_some_iff.mp h
  simp only [List.length_cons, List.length_nil] at hk
  interval_cases k <;> cases h <;> rfl

/-- The SESSION advisory's bytes (Table 1.18). -/
theorem sessionAdvisory_eq (n : Socket) (st : SessState) (r : Option Reason) : sessionAdvisory n st r =
    { kind := 10, socket := n, payload := [2, byteOf n.val, byteOf st.code, byteOf (reasonCode r), 0, 0] } := by
  rw [sessionAdvisory, advisory, Word.bytes_ofBytes]
  rfl

/-! ## Verdicts by the session's state (R82 to R84) -/

/-- The next recheck due after a pass (R88). -/
theorem Part.passRecheck_eq (p : Part) (n : Socket) : p.passRecheck n = some
    { due := p.clock + (if (p.link n).state = .degraded then
        min (if p.mgmt.settings.recheckInterval = 0 then 60 else p.mgmt.settings.recheckInterval) 5
        else if p.mgmt.settings.recheckInterval = 0 then 60 else p.mgmt.settings.recheckInterval) * 1000000,
      lastPass := p.clock } := by
  unfold Part.passRecheck Part.recheckInterval Part.settings
  cases (p.link n).state <;> rfl

theorem SessState.live_iff (st : SessState) : st.live = true ↔ st = .verifying ∨ st = .admitted ∨ st = .suspect := by
  cases st <;> simp [SessState.live]

theorem Part.applyVerdict_idle (p : Part) (n : Socket) (v : Verdict) (h : (p.session n).state.live = false) :
    p.applyVerdict n v = p := by
  cases hs : (p.session n).state with
  | verifying | admitted | suspect =>
    rw [hs] at h
    cases h
  | none | identifying | refused | withdrawn => simp only [Part.applyVerdict, hs]

theorem Part.applyVerdict_mismatch (p : Part) (n : Socket) (h : (p.session n).state.live = true) :
    p.applyVerdict n .mismatch = p.refuse n .mismatch := by
  rcases (SessState.live_iff _).mp h with hs | hs | hs
  all_goals simp only [Part.applyVerdict, hs]

theorem Part.applyVerdict_opens (p : Part) (n : Socket)
    (h : (p.session n).state = .verifying ∨ (p.session n).state = .suspect) :
    p.applyVerdict n .pass = p.openAdmission n := by
  rcases h with hs | hs
  all_goals simp only [Part.applyVerdict, hs]

theorem Part.applyVerdict_passAgain (p : Part) (n : Socket) (h : (p.session n).state = .admitted) :
    p.applyVerdict n .pass = p.setSession n { p.session n with recheck := p.passRecheck n } := by
  simp only [Part.applyVerdict, h]

theorem Part.applyVerdict_suspects (p : Part) (n : Socket) (v : Verdict) (h : (p.session n).state = .admitted)
    (hv : v = .late ∨ v = .noAnswer) : p.applyVerdict n v = p.suspectNow n := by
  rcases hv with hv | hv
  all_goals simp only [Part.applyVerdict, h, hv]

/-- The refusal reason of a verdict that is a failure but no mismatch. -/
def Verdict.FailsWith (v : Verdict) (r : Reason) : Prop := v = .late ∧ r = .late ∨ v = .noAnswer ∧ r = .noAnswer

theorem Part.applyVerdict_fails (p : Part) (n : Socket) (v : Verdict) (r : Reason) (hv : v.FailsWith r)
    (h : (p.session n).state = .verifying ∨ (p.session n).state = .suspect) :
    p.applyVerdict n v = p.failAttempt n r (if (p.session n).state = .verifying then .admission else .recheck) := by
  obtain ⟨rfl, rfl⟩ | ⟨rfl, rfl⟩ := hv
  all_goals
    rcases h with hs | hs
    all_goals simp [Part.applyVerdict, hs]

theorem Part.openAdmission_session (p : Part) (n : Socket) : (p.openAdmission n).session n = { p.session n with
    state := .admitted, attempts := 0, marks := { (p.session n).marks with suspect := false },
    recheck := p.passRecheck n } := by
  rw [Part.openAdmission, Part.reportSession_session, Part.setSession_session_self]

/-- The part in which an ADMITTED session has just become SUSPECT (R83). -/
def Part.suspected (p : Part) (n : Socket) : Part := p.setSession n { p.session n with
  state := .suspect, attempts := 1, marks := { (p.session n).marks with suspect := true }, recheck := none }

theorem Part.suspectNow_eq (p : Part) (n : Socket) :
    p.suspectNow n = ((p.suspected n).reportSession n).issueChallenge n .recheck := rfl

theorem Part.suspected_session (p : Part) (n : Socket) : (p.suspected n).session n = { p.session n with
    state := .suspect, attempts := 1, marks := { (p.session n).marks with suspect := true }, recheck := none } :=
  Part.setSession_session_self p n _

theorem Part.suspected_canChallenge (p : Part) (n : Socket) (h : CanChallenge p n) :
    CanChallenge ((p.suspected n).reportSession n) n := by
  refine canChallenge_of_slack h ?_ ?_ ?_
  · rw [Part.reportSession_session, Part.suspected_session]
  · exact ((p.suspected n).reportSession_local (S := ∅) n).trust
  · rw [Part.reportSession_proof]
    exact le_rfl

/-- The part in which one more failure of a session has been counted. -/
def Part.failed (p : Part) (n : Socket) : Part :=
  p.setSession n { p.session n with attempts := (p.session n).attempts + 1 }

theorem Part.failed_session (p : Part) (n : Socket) :
    (p.failed n).session n = { p.session n with attempts := (p.session n).attempts + 1 } :=
  Part.setSession_session_self p n _

theorem Part.failAttempt_last (p : Part) (n : Socket) (r : Reason) (why : Purpose) (h : 2 ≤ (p.session n).attempts) :
    p.failAttempt n r why = (p.failed n).refuse n r := if_neg (Nat.not_lt.mpr (Nat.succ_le_succ h))

theorem Part.failAttempt_again (p : Part) (n : Socket) (r : Reason) (why : Purpose) (h : (p.session n).attempts < 2) :
    p.failAttempt n r why = (p.failed n).issueChallenge n why := if_pos (Nat.succ_lt_succ h)

end Sys2Proof.Machine

namespace Sys2Proof.Proofs
open Sys2Proof Sys2Proof.Machine Sys2Proof.Claims

/-! ## Verdicts -/

/-- Every change of a session's state is reported (R73). -/
theorem stateChanges_reported (p : Part) (n : Socket) :
    (∀ r, ∃ q : Part, p.refuse n r = q.reportSession n ∧ (q.session n).state = .refused ∧
      (q.session n).reason = some r) ∧
    (∃ q : Part, p.withdraw n = q.reportSession n ∧ (q.session n).state = .withdrawn ∧
      (q.session n).reason = some .withdrawn) ∧
    ((p.session n).state = .none → p.endSession n = p) ∧
    ((p.session n).state ≠ .none → ∃ q : Part, p.endSession n = q.reportSession n ∧ q.session n = Session.initial) ∧
    ((p.session n).state = .verifying ∨ (p.session n).state = .suspect →
      ∃ q : Part, p.applyVerdict n .pass = q.reportSession n ∧ (q.session n).state = .admitted) ∧
    ((p.session n).state = .admitted → ∀ v, v = .late ∨ v = .noAnswer →
      ∃ q : Part, p.applyVerdict n v = (q.reportSession n).issueChallenge n .recheck ∧ (q.session n).state = .suspect) := by
  refine ⟨fun r => ⟨_, rfl, ?_⟩, ⟨_, rfl, ?_⟩, fun h => ?_, fun h => ⟨_, p.endSession_of_ne n h, ?_⟩,
    fun h => ⟨_, p.applyVerdict_opens n h, ?_⟩, fun h v hv => ⟨p.suspected n, p.applyVerdict_suspects n v h hv, ?_⟩⟩
  · rw [← Part.reportSession_session]
    have hs := p.refuse_session n r
    exact ⟨congrArg Session.state hs, congrArg Session.reason hs⟩
  · rw [← Part.reportSession_session]
    have hs := p.withdraw_session n
    exact ⟨congrArg Session.state hs, congrArg Session.reason hs⟩
  · simp only [Part.endSession, h]
  · rw [← Part.reportSession_session, ← p.endSession_of_ne n h]
    exact p.endSession_session n h
  · rw [Part.setSession_session_self]
  · rw [p.suspected_session n]

/-- A pass (R82 to R84). -/
theorem pass_acts (p : Part) (n : Socket) (s x : Session) (hs : s = p.session n) (hx : x = (p.applyVerdict n .pass).session n)
    (hl : s.state.live = true) : x.state = .admitted ∧ x.recheck = p.passRecheck n ∧
      (s.state ≠ .admitted → x.attempts = 0 ∧ x.marks = { s.marks with suspect := false }) ∧
      (s.state = .admitted → x = { s with recheck := x.recheck }) := by
  subst hs hx
  by_cases hadm : (p.session n).state = .admitted
  · rw [p.applyVerdict_passAgain n hadm, Part.setSession_session_self]
    exact ⟨hadm, rfl, fun hne => absurd hadm hne, fun _ => rfl⟩
  · have hopen : (p.session n).state = .verifying ∨ (p.session n).state = .suspect :=
      ((SessState.live_iff _).mp hl).imp_right fun h => h.resolve_left hadm
    rw [p.applyVerdict_opens n hopen, p.openAdmission_session n]
    exact ⟨rfl, rfl, fun _ => ⟨rfl, rfl⟩, fun h => absurd h hadm⟩

/-- What a counted refusal makes of the recent-refusal table (R85 step 6, R94). -/
theorem refusal_counted (p : Part) (n : Socket) (r : Reason) (h : r.counted = true) :
    ((p.session n).identity = none → (p.refuse n r).engine.recent = p.engine.recent) ∧
    (∀ i, (p.session n).identity = some i →
      ((∀ e ∈ p.engine.recent, e.1 ≠ i.serial) →
        (p.refuse n r).engine.recent = (i.serial, 1) :: p.engine.recent.take 15) ∧
      (∀ a b k, p.engine.recent = a ++ (i.serial, k) :: b → (∀ e ∈ a ++ b, e.1 ≠ i.serial) →
        (p.refuse n r).engine.recent = (i.serial, min 15 (k + 1)) :: (a ++ b))) := by
  refine ⟨p.refuse_recent_unnamed n r, fun i hi => ?_⟩
  rw [p.refuse_recent_counted n r i h hi]
  exact ⟨countRefusal_new i.serial _, fun a b k hab hne => by rw [hab, countRefusal_again i.serial k a b hne]⟩

/-- A failure that is no mismatch (R82 to R84). -/
theorem failure_acts (p : Part) (n : Socket) (v : Verdict) (s x : Session) (r : Reason) (hv : v.FailsWith r)
    (hs : s = p.session n) (hx : x = (p.applyVerdict n v).session n) :
    (s.state = .admitted → CanChallenge p n →
      x.state = .suspect ∧ x.attempts = 1 ∧ x.marks.suspect = true ∧ x.recheck = none ∧
      ∃ ph, x.challenge = some ⟨.recheck, ph⟩) ∧
    (s.state = .verifying ∨ s.state = .suspect → 2 ≤ s.attempts →
      x.state = .refused ∧ x.reason = some r ∧ x.challenge = none ∧ x.recheck = none) ∧
    (s.state = .verifying ∨ s.state = .suspect → s.attempts < 2 → CanChallenge p n →
      x.state = s.state ∧ x.attempts = s.attempts + 1 ∧
      ∃ ph, x.challenge = some ⟨if s.state = .verifying then .admission else .recheck, ph⟩) := by
  subst hs hx
  refine ⟨fun hadm hcan => ?_, fun hst hlast => ?_, fun hst hagain hcan => ?_⟩
  · obtain ⟨k, ph, hk⟩ := Part.issueChallenge_of_can _ n .recheck (p.suspected_canChallenge n hcan)
    rw [p.applyVerdict_suspects n v hadm (hv.imp And.left And.left), p.suspectNow_eq n, hk, Part.reportSession_session,
      p.suspected_session n]
    exact ⟨rfl, rfl, rfl, rfl, ph, rfl⟩
  · rw [p.applyVerdict_fails n v r hv hst, p.failAttempt_last n r _ hlast, Part.refuse_session]
    exact ⟨rfl, rfl, rfl, rfl⟩
  · have hcan' : CanChallenge (p.failed n) n :=
      canChallenge_of_slack hcan (by rw [p.failed_session n]) rfl le_rfl
    obtain ⟨k, ph, hk⟩ := (p.failed n).issueChallenge_of_can n
      (if (p.session n).state = .verifying then .admission else .recheck) hcan'
    rw [p.applyVerdict_fails n v r hv hst, p.failAttempt_again n r _ hagain, hk, p.failed_session n]
    exact ⟨rfl, rfl, ph, rfl⟩

/-- Settles O38: the report of a session's state, the changes of state that are reported, and each verdict by the state that
it finds. -/
theorem verdictsActByState : Obligations.VerdictsActByState := by
  refine ⟨fun p n st k hst hk => ?_, stateChanges_reported, fun p n v s x hs hx => ?_⟩
  · rw [Part.reportSession, sessionAdvisory_eq, SessState.code_of_getElem _ _ hst, reasonCode_of_getElem _ _ hk]
  · have hlocal := p.applyVerdict_local n v (Set.mem_singleton n)
    refine ⟨hlocal.othersKept, hlocal.trust, fun hv hl => ?_, fun hv hl => ?_, ?_, fun r hr => ?_, fun hl => ?_⟩
    · subst hv
      rw [← p.passRecheck_eq n]
      exact pass_acts p n s x hs hx hl
    · subst hv hs hx
      rw [p.applyVerdict_mismatch n hl, Part.refuse_session]
      exact ⟨rfl, rfl, rfl, rfl⟩
    · subst hs
      rintro (⟨rfl, hl⟩ | ⟨hv, hst, hlast⟩)
      · rw [p.applyVerdict_mismatch n hl]
        exact refusal_counted p n _ rfl
      · obtain ⟨r, hr, hcounted⟩ : ∃ r, v.FailsWith r ∧ r.counted = true :=
          hv.elim (fun h => ⟨.late, .inl ⟨h, rfl⟩, rfl⟩) (fun h => ⟨.noAnswer, .inr ⟨h, rfl⟩, rfl⟩)
        have hrefused := refusal_counted (p.failed n) n r hcounted
        rw [p.failed_session n] at hrefused
        rw [p.applyVerdict_fails n v r hr hst, p.failAttempt_last n r _ hlast]
        exact hrefused
    · exact failure_acts p n v s x r hr hs hx
    · exact p.applyVerdict_idle n v (hs ▸ hl)

end Sys2Proof.Proofs

namespace Sys2Proof.Machine
open Sys2Proof.Claims

/-! ## A relayed STATUS (R90, R91) -/

theorem Part.checkSequence_first (p : Part) (n : Socket) (v : Byte) (h : (p.session n).baseline = none) :
    p.checkSequence n v = p.setSession n { p.session n with baseline := some v } := by
  simp only [Part.checkSequence, h]

theorem Part.checkSequence_next (p : Part) (n : Socket) (b : Byte) (h : (p.session n).baseline = some b) :
    p.checkSequence n (b + 1) = p.setSession n { p.session n with baseline := some (b + 1) } := by
  simp only [Part.checkSequence, h, if_true]

/-- The part in which a break of socket n's sequence has been counted (R90). -/
def Part.broken (p : Part) (n : Socket) (v : Byte) : Part :=
  p.setSession n { p.session n with baseline := some v, breaks := min 255 ((p.session n).breaks + 1) }

theorem Part.broken_session (p : Part) (n : Socket) (v : Byte) : (p.broken n v).session n =
    { p.session n with baseline := some v, breaks := min 255 ((p.session n).breaks + 1) } :=
  Part.setSession_session_self p n _

theorem Part.checkSequence_break (p : Part) (n : Socket) (v b : Byte) (h : (p.session n).baseline = some b)
    (hv : v ≠ b + 1) : p.checkSequence n v = (p.broken n v).recheckNow n := by
  simp only [Part.checkSequence, h, hv, if_false, Part.setSession_setSession, Part.setSession_session_self, Part.broken]

/-- The part once a STATUS has met the sequence check of a trusted session (R90). -/
def Part.sequenceChecked (p : Part) (n : Socket) (v : Byte) : Part :=
  if (p.session n).state.trusted then p.checkSequence n v else p

theorem Part.sequenceChecked_untrusted (p : Part) (n : Socket) (v : Byte) (h : (p.session n).state.trusted = false) :
    p.sequenceChecked n v = p := by
  rw [Part.sequenceChecked, h, if_neg Bool.false_ne_true]

theorem Part.sequenceChecked_trusted (p : Part) (n : Socket) (v : Byte) (h : (p.session n).state.trusted = true) :
    p.sequenceChecked n v = p.checkSequence n v := if_pos h

/-- The check keeps the peak temperature, and leaves the state or has the session refused. -/
theorem Part.checkSequence_kept (p : Part) (n : Socket) (v : Byte) :
    ((p.checkSequence n v).session n).peak = (p.session n).peak ∧
      (((p.checkSequence n v).session n).state = (p.session n).state ∨
        ((p.checkSequence n v).session n).state = .refused) := by
  cases hb : (p.session n).baseline with
  | none =>
    rw [p.checkSequence_first n v hb, Part.setSession_session_self]
    exact ⟨rfl, .inl rfl⟩
  | some b =>
    by_cases hv : v = b + 1
    · rw [hv, p.checkSequence_next n b hb, Part.setSession_session_self]
      exact ⟨rfl, .inl rfl⟩
    · have hasked := (p.broken n v).recheckNow_asked n
      rw [p.broken_session n v] at hasked
      rw [p.checkSequence_break n v b hb hv]
      exact ⟨hasked.peak, hasked.state⟩

theorem Part.sequenceChecked_kept (p : Part) (n : Socket) (v : Byte) :
    ((p.sequenceChecked n v).session n).peak = (p.session n).peak ∧ (p.sequenceChecked n v).clock = p.clock ∧
      ((p.session n).state ≠ .none → ((p.sequenceChecked n v).session n).state ≠ .none) := by
  cases ht : (p.session n).state.trusted with
  | false => rw [p.sequenceChecked_untrusted n v ht]; exact ⟨rfl, rfl, id⟩
  | true =>
    obtain ⟨hpeak, hstate⟩ := p.checkSequence_kept n v
    rw [p.sequenceChecked_trusted n v ht]
    refine ⟨hpeak, (p.checkSequence_ordinary n v).clock, fun hne hnone => ?_⟩
    exact hstate.elim (fun h => hne (h.symm.trans hnone)) (fun h => absurd (h.symm.trans hnone) nofun)

theorem Part.engineStatus_eq (p : Part) (n : Socket) (b : List Byte) (h : (p.session n).state ≠ .none) :
    p.engineStatus n b = (p.sequenceChecked n (byteAt b 0)).setSession n
      (((p.sequenceChecked n (byteAt b 0)).session n).refresh b p.clock) := by
  obtain ⟨-, hclock, hstate⟩ := p.sequenceChecked_kept n (byteAt b 0)
  rw [← hclock]
  exact if_neg (hstate h)

/-- A session at NONE takes no telemetry. -/
theorem Part.engineStatus_none (p : Part) (n : Socket) (b : List Byte) (h : (p.session n).state = .none) :
    p.engineStatus n b = p := by
  have hcheck : p.sequenceChecked n (byteAt b 0) = p := p.sequenceChecked_untrusted n _ (by rw [h]; rfl)
  show (if ((p.sequenceChecked n (byteAt b 0)).session n).state = .none then p.sequenceChecked n (byteAt b 0) else _) = p
  rw [hcheck, if_pos h]

theorem Part.showStatus_session (p : Part) (n m : Socket) (b : List Byte) :
    (p.showStatus n b).session m = (p.engineStatus n b).session m :=
  ((Part.setStale_local (S := ∅) _ n false).trans (Part.recompute_local _)).session_eq m

theorem Part.showStatus_stale (p : Part) (n : Socket) (b : List Byte) : (p.showStatus n b).grants.stale.get n = false := by
  rw [Part.showStatus, Part.recompute_stale]
  exact PerSocket.get_set_self _ n false

theorem Part.showStatus_local (p : Part) (n : Socket) (b : List Byte) : p.Local {n} (p.showStatus n b) :=
  ((p.engineStatus_local n b (Set.mem_singleton n)).trans (Part.setStale_local _ n _)).trans (Part.recompute_local _)

end Sys2Proof.Machine

namespace Sys2Proof.Proofs
open Sys2Proof Sys2Proof.Machine Sys2Proof.Claims

/-- The sequence check of a trusted session (R90). -/
theorem checkSequence_acts (p : Part) (n : Socket) (v : Byte) (s x : Session) (hs : s = p.session n)
    (hx : x = (p.checkSequence n v).session n) :
    x.baseline = some v ∧
    (s.baseline = none → x.breaks = s.breaks ∧ x.challenge = s.challenge ∧ x.state = s.state) ∧
    (∀ b, s.baseline = some b →
      (v = b + 1 → x.breaks = s.breaks ∧ x.challenge = s.challenge ∧ x.state = s.state) ∧
      (v ≠ b + 1 → x.breaks = min 255 (s.breaks + 1) ∧
        (∀ c, s.challenge = some c → x.challenge = some c ∧ x.state = s.state) ∧
        (s.challenge = none → CanChallenge p n → x.state = s.state ∧ ∃ ph, x.challenge = some ⟨.recheck, ph⟩))) := by
  subst hs
  cases hb : (p.session n).baseline with
  | none =>
    rw [p.checkSequence_first n v hb, Part.setSession_session_self] at hx
    subst hx
    exact ⟨rfl, fun _ => ⟨rfl, rfl, rfl⟩, nofun⟩
  | some b =>
    by_cases hv : v = b + 1
    · rw [hv, p.checkSequence_next n b hb, Part.setSession_session_self] at hx
      subst hx hv
      refine ⟨rfl, nofun, fun b' hb' => ⟨fun _ => ⟨rfl, rfl, rfl⟩, fun hne => ?_⟩⟩
      exact absurd (congrArg (· + 1) (Option.some.inj hb')) hne
    · rw [p.checkSequence_break n v b hb hv] at hx
      have hasked := (p.broken n v).recheckNow_asked n
      rw [← hx, p.broken_session n v] at hasked
      refine ⟨hasked.baseline, nofun, fun b' hb' =>
        ⟨fun heq => ?_, fun _ => ⟨hasked.breaks, fun c hc => ?_, fun hc hcan => ?_⟩⟩⟩
      · exact absurd (heq.trans (congrArg (· + 1) (Option.some.inj hb').symm)) hv
      · rw [Part.recheckNow_outstanding _ n c (by rw [p.broken_session n v]; exact hc), p.broken_session n v] at hx
        subst hx
        exact ⟨hc, rfl⟩
      · have hcan' : CanChallenge (p.broken n v) n :=
          canChallenge_of_slack hcan (by rw [p.broken_session n v]) rfl le_rfl
        obtain ⟨hstate, hph⟩ := (p.broken n v).recheckNow_of_can n (by rw [p.broken_session n v]; exact hc) hcan'
        rw [← hx, p.broken_session n v] at hstate
        exact ⟨hstate, hx ▸ hph⟩

/-- Settles O39: the sequence check of a trusted session, then its telemetry; the other sessions stand. -/
theorem statusRefreshesTheSession : Obligations.StatusRefreshesTheSession := by
  intro p n b s x hs hx
  rw [p.showStatus_session n n b] at hx
  refine ⟨(p.showStatus_local n b).othersKept, p.showStatus_stale n b, fun hne => ?_, fun ht => ?_, fun hadm hsus => ?_⟩
  · obtain ⟨hpeak, -, -⟩ := p.sequenceChecked_kept n (byteAt b 0)
    rw [p.engineStatus_eq n b (hs ▸ hne), Part.setSession_session_self] at hx
    subst hs hx
    rw [← hpeak]
    exact ⟨rfl, rfl⟩
  · have htrusted : (p.session n).state.trusted = true := (SessState.trusted_iff _).mpr (hs ▸ ht)
    have hne : (p.session n).state ≠ .none := fun hn => by rw [hn] at htrusted; cases htrusted
    rw [p.engineStatus_eq n b hne, Part.setSession_session_self, p.sequenceChecked_trusted n _ htrusted] at hx
    subst hx
    have hchecked := checkSequence_acts p n (byteAt b 0) s _ hs rfl
    exact hchecked
  · have huntrusted : (p.session n).state.trusted = false :=
      Bool.eq_false_iff.mpr fun ht => ((SessState.trusted_iff _).mp ht).elim (hs ▸ hadm) (hs ▸ hsus)
    by_cases hnone : (p.session n).state = .none
    · rw [p.engineStatus_none n b hnone] at hx
      rw [hx, hs]
      exact ⟨rfl, rfl, rfl, rfl⟩
    · rw [p.engineStatus_eq n b hnone, Part.setSession_session_self, p.sequenceChecked_untrusted n _ huntrusted] at hx
      rw [hx, hs]
      exact ⟨rfl, rfl, rfl, rfl⟩

end Sys2Proof.Proofs

namespace Sys2Proof.Machine
open Sys2Proof.Claims

/-! ## The first checks of an identity, and its holder (R76 checks 1 to 4) -/

/-- The part in which an accepted IDENTITY has been stored (R76). -/
def Part.identified (p : Part) (n : Socket) (i : Identity) : Part :=
  p.setSession n { p.session n with identity := some i }

theorem Part.acceptIdentity_eq (p : Part) (n : Socket) (b : List Byte) :
    p.acceptIdentity n b = (p.identified n (identityOf b)).checkIdentity n (identityOf b) := rfl

theorem Part.identified_session (p : Part) (n : Socket) (i : Identity) :
    (p.identified n i).session n = { p.session n with identity := some i } := Part.setSession_session_self p n _

theorem Part.identified_other (p : Part) (n m : Socket) (i : Identity) (h : m ≠ n) :
    (p.identified n i).session m = p.session m := by rw [Part.identified, Part.setSession_session, if_neg h]

/-- An identity passes checks 1 to 3: its serial is valid, not withdrawn and not refused too often. -/
structure Part.Clears (p : Part) (i : Identity) : Prop where
  valid : i.serial ≠ 0 ∧ i.serial ≠ 0xFFFFFFFF
  listed : i.serial ∉ p.trust.withdrawn
  recent : ∀ e ∈ p.engine.recent, e.1 = i.serial → e.2 < p.mgmt.settings.repeatLimit

theorem validSerial_iff (w : Word) : validSerial w = true ↔ w ≠ 0 ∧ w ≠ 0xFFFFFFFF := by
  unfold validSerial
  rw [Bool.and_eq_true, bne_iff_ne, bne_iff_ne]

theorem repeated_iff (x : Word) (limit : Nat) (t : List (Word × Nat)) :
    repeated x limit t = true ↔ ∃ e ∈ t, e.1 = x ∧ limit ≤ e.2 := by
  simp only [repeated, List.any_eq_true, Bool.and_eq_true, beq_iff_eq, decide_eq_true_eq]

theorem Part.checkIdentity_invalid (p : Part) (n : Socket) (i : Identity) (h : i.serial = 0 ∨ i.serial = 0xFFFFFFFF) :
    p.checkIdentity n i = p.refuse n .badIdentity := by
  have hbad : validSerial i.serial = false := by rcases h with h | h <;> rw [h] <;> rfl
  exact if_pos (by rw [hbad]; rfl)

theorem Part.checkIdentity_withdrawn (p : Part) (n : Socket) (i : Identity) (hv : validSerial i.serial = true)
    (h : i.serial ∈ p.trust.withdrawn) : p.checkIdentity n i = p.withdraw n := by
  have hlisted : p.trust.withdrawn.contains i.serial = true := List.contains_iff_mem.mpr h
  simp only [Part.checkIdentity, hv, hlisted, Bool.not_true, Bool.false_eq_true, if_false, if_true]

theorem Part.checkIdentity_repeated (p : Part) (n : Socket) (i : Identity) (hv : validSerial i.serial = true)
    (hw : i.serial ∉ p.trust.withdrawn)
    (h : ∃ e ∈ p.engine.recent, e.1 = i.serial ∧ p.mgmt.settings.repeatLimit ≤ e.2) :
    p.checkIdentity n i = p.refuse n .repeated := by
  have hlisted : p.trust.withdrawn.contains i.serial = false :=
    Bool.eq_false_iff.mpr fun hc => hw (List.contains_iff_mem.mp hc)
  have hrep : repeated i.serial p.settings.repeatLimit p.engine.recent = true := (repeated_iff _ _ _).mpr h
  simp only [Part.checkIdentity, hv, hlisted, hrep, Bool.not_true, Bool.false_eq_true, if_false, if_true]

/-- Checks 4 to 6 follow the first three. -/
theorem Part.checkIdentity_clear (p : Part) (n : Socket) (i : Identity) (h : p.Clears i) :
    (∀ m, p.holder n i.serial = some m → p.checkIdentity n i = p.duplicate n m) ∧
    (p.holder n i.serial = none →
      (p.trust.findClass i.classCode = none → p.checkIdentity n i = p.refuse n .noClass) ∧
      (∀ c, p.trust.findClass i.classCode = some c →
        (p.trust.findKey i.family i.generation = none → p.checkIdentity n i = p.refuse n .noKey) ∧
        (∀ k, p.trust.findKey i.family i.generation = some k →
          p.checkIdentity n i = (p.bindSession n i k c).issueChallenge n .admission))) := by
  have hv : validSerial i.serial = true := (validSerial_iff _).mpr h.valid
  have hw : p.trust.withdrawn.contains i.serial = false :=
    Bool.eq_false_iff.mpr fun hc => h.listed (List.contains_iff_mem.mp hc)
  have hr : repeated i.serial p.settings.repeatLimit p.engine.recent = false := by
    refine Bool.eq_false_iff.mpr fun hc => ?_
    obtain ⟨e, he, hx, hle⟩ := (repeated_iff _ _ _).mp hc
    exact absurd (h.recent e he hx) (Nat.not_lt.mpr hle)
  refine ⟨fun m hm => ?_, fun hn => ⟨fun hc => ?_, fun c hc => ⟨fun hk => ?_, fun k hk => ?_⟩⟩⟩
  · simp only [Part.checkIdentity, hv, hw, hr, hm, Bool.not_true, Bool.false_eq_true, if_false]
  · simp only [Part.checkIdentity, hv, hw, hr, hn, hc, Bool.not_true, Bool.false_eq_true, if_false]
  · simp only [Part.checkIdentity, hv, hw, hr, hn, hc, hk, Bool.not_true, Bool.false_eq_true, if_false]
  · simp only [Part.checkIdentity, hv, hw, hr, hn, hc, hk, Bool.not_true, Bool.false_eq_true, if_false]

theorem Part.holds_iff (p : Part) (x : Word) (m : Socket) : p.holds x m = true ↔
    (p.session m).state.live = true ∧ ∃ j, (p.session m).identity = some j ∧ j.serial = x := by
  simp only [Part.holds, Session.serial, Bool.and_eq_true, beq_iff_eq, Option.map_eq_some_iff]

theorem Part.holder_spec (p : Part) (n m : Socket) (x : Word) (h : p.holder n x = some m) :
    m ≠ n ∧ p.holds x m = true := by
  have hm := List.find?_some h
  rwa [Bool.and_eq_true, bne_iff_ne] at hm

theorem Part.holder_of_holds (p : Part) (n m : Socket) (x : Word) (hm : m ≠ n) (h : p.holds x m = true) :
    ∃ l, p.holder n x = some l := by
  refine Option.isSome_iff_exists.mp (List.find?_isSome.mpr ⟨m, Socket.mem_all m, ?_⟩)
  rw [h, Bool.and_true, bne_iff_ne]
  exact hm

theorem Part.holder_eq_none (p : Part) (n : Socket) (x : Word) (h : ∀ m, m ≠ n → ¬p.holds x m = true) :
    p.holder n x = none :=
  List.find?_eq_none.mpr fun m _ hm => by
    rw [Bool.and_eq_true, bne_iff_ne] at hm
    exact h m hm.1 hm.2

/-! ## Lookups by class code (R119) -/

theorem mem_allIndices (c : Fin 32) : c ∈ allIndices := by
  revert c
  decide

theorem Trust.holdsCode_iff (t : Trust) (code : Byte) (c : Fin 32) :
    t.holdsCode code c = true ↔ ∃ e, t.classes[c] = some e ∧ e.code = code := by
  unfold Trust.holdsCode
  cases t.classes[c] <;> simp

theorem Trust.findClass_eq_none (t : Trust) (code : Byte)
    (h : ∀ (c : Fin 32) e, t.classes[c] = some e → e.code ≠ code) : t.findClass code = none := by
  refine List.find?_eq_none.mpr fun c _ hc => ?_
  obtain ⟨e, he, hcode⟩ := (t.holdsCode_iff code c).mp hc
  exact h c e he hcode

/-- The only entry that holds a code is found. -/
theorem Trust.findClass_of_unique (t : Trust) (code : Byte) (c : Fin 32) (hc : t.holdsCode code c = true)
    (hu : ∀ d, t.holdsCode code d = true → d = c) : t.findClass code = some c := by
  cases h : t.findClass code with
  | none => exact absurd hc (List.find?_eq_none.mp h c (mem_allIndices c))
  | some d => rw [hu d (List.find?_some h)]

/-! ## A duplicate (R77) -/

/-- A momentary cause leaves its condition as the latch field says (R155). -/
theorem Part.momentary_conds (p : Part) (c : Cond) :
    (p.momentary c).fault.conds.get c = if (p.fault.map.get c).latch then .held else .inactive := by
  by_cases h : (p.fault.map.get c).latch = false ∨ p.fault.conds.get c ≠ .held
  · rw [(p.momentary_changes c _ rfl h).1, PerCond.get_set_self]
  · push Not at h
    obtain ⟨hlatch, hheld⟩ := h
    rw [ne_eq, Bool.not_eq_false] at hlatch
    rw [p.momentary_held c hlatch hheld, Part.log_fault, hlatch, if_pos rfl]
    exact hheld

/-- The part once the newcomer has been refused and the holder sent to its recheck. -/
def Part.challengedHolder (p : Part) (n m : Socket) : Part := (p.refuse n .duplicate).recheckNow m

theorem Part.duplicate_eq (p : Part) (n m : Socket) : p.duplicate n m = (p.challengedHolder n m).momentary .clone := rfl

theorem Part.duplicate_sessions (p : Part) (n m l : Socket) :
    (p.duplicate n m).session l = (p.challengedHolder n m).session l :=
  (Part.momentary_units _ .clone).session l

theorem Part.challengedHolder_other (p : Part) (n m l : Socket) (h : l ≠ m) :
    (p.challengedHolder n m).session l = (p.refuse n .duplicate).session l :=
  (Part.recheckNow_local _ m (Set.mem_singleton m)).sessions l h

theorem Part.duplicate_newcomer (p : Part) (n m : Socket) (h : m ≠ n) :
    (p.duplicate n m).session n =
      { p.session n with state := .refused, reason := some .duplicate, challenge := none, recheck := none } := by
  rw [p.duplicate_sessions n m n, p.challengedHolder_other n m n h.symm, p.refuse_session n]

theorem Part.refuse_other (p : Part) (n l : Socket) (r : Reason) (h : l ≠ n) : (p.refuse n r).session l = p.session l :=
  (p.refuse_local n r (Set.mem_singleton n)).sessions l h

theorem Part.duplicate_bystander (p : Part) (n m l : Socket) (hn : l ≠ n) (hm : l ≠ m) :
    (p.duplicate n m).session l = p.session l := by
  rw [p.duplicate_sessions n m l, p.challengedHolder_other n m l hm, p.refuse_other n l _ hn]

/-- A holder whose challenge is outstanding stays as it is. -/
theorem Part.duplicate_holder_asked (p : Part) (n m : Socket) (h : m ≠ n) (hc : (p.session m).challenge ≠ none) :
    (p.duplicate n m).session m = p.session m := by
  have hs := p.refuse_other n m .duplicate h
  obtain ⟨c, hc⟩ := Option.ne_none_iff_exists'.mp hc
  rw [p.duplicate_sessions n m m, Part.challengedHolder, Part.recheckNow_outstanding _ m c (by rw [hs]; exact hc), hs]

theorem Part.duplicate_holder_free (p : Part) (n m : Socket) (h : m ≠ n) (hc : (p.session m).challenge = none)
    (hcan : CanChallenge p m) : ((p.duplicate n m).session m).state = (p.session m).state ∧
      ∃ ph, ((p.duplicate n m).session m).challenge = some ⟨.recheck, ph⟩ := by
  have hs := p.refuse_other n m .duplicate h
  have hcan' : CanChallenge (p.refuse n .duplicate) m :=
    canChallenge_of_slack hcan (by rw [hs]) (p.refuse_ordinary n .duplicate).trust (p.refuse_slack n _)
  obtain ⟨hstate, hph⟩ := (p.refuse n .duplicate).recheckNow_of_can m (by rw [hs]; exact hc) hcan'
  rw [p.duplicate_sessions n m m, ← hs]
  exact ⟨hstate, hph⟩

theorem Part.duplicate_recent (p : Part) (n m : Socket) (i : Identity) (hi : (p.session n).identity = some i) :
    (p.duplicate n m).engine.recent = countRefusal i.serial p.engine.recent := by
  have hrecheck (q : Part) : (q.recheckNow m).engine.recent = q.engine.recent := by
    unfold Part.recheckNow
    split
    · exact q.issueChallenge_recent m _
    · rfl
  rw [p.duplicate_eq n m, (Part.momentary_units _ .clone).engine, Part.challengedHolder, hrecheck,
    p.refuse_recent_counted n _ i rfl hi]

theorem Part.duplicate_clone (p : Part) (n m : Socket) :
    (p.duplicate n m).fault.conds.clone = if p.fault.map.clone.latch then .held else .inactive := by
  have hmap : (p.challengedHolder n m).fault.map = p.fault.map :=
    ((p.refuse_ordinary n _).trans (Part.recheckNow_ordinary _ m)).map
  have hconds := (p.challengedHolder n m).momentary_conds .clone
  rw [hmap] at hconds
  exact hconds

/-! ## The binding of a session (R78, R79) -/

theorem Part.bindSession_session (p : Part) (n : Socket) (i : Identity) (k : Fin 16) (c : Fin 32) :
    (p.bindSession n i k c).session n = { p.session n with
      state := .verifying, attempts := 0, keySlot := some k, classIndex := some c,
      marks := { (p.session n).marks with
        keyRetired := (p.session n).marks.keyRetired || p.trust.slotRetired k,
        worn := (p.session n).marks.worn || p.trust.wornUnder c i.cycles } } := by
  rw [Part.bindSession, Part.reportSession_session, Part.setSession_session_self]

theorem Part.bindSession_proof (p : Part) (n : Socket) (i : Identity) (k : Fin 16) (c : Fin 32) :
    (p.bindSession n i k c).proof = p.proof := by rw [Part.bindSession, Part.reportSession_proof, Part.setSession_proof]

theorem Part.bindSession_trust (p : Part) (n : Socket) (i : Identity) (k : Fin 16) (c : Fin 32) :
    (p.bindSession n i k c).trust = p.trust := (p.bindSession_ordinary n i k c).trust

/-- Without a counter value left the session is refused once its key has been found (R79 step 2, R103). -/
theorem Part.issueChallenge_exhausted (p : Part) (n : Socket) (why : Purpose) (i : Identity) (k : Fin 16)
    (hi : (p.session n).identity = some i) (hk : p.trust.findKey i.family i.generation = some k)
    (hr : p.proof.slack = 0) : p.issueChallenge n why = (p.bindKey n k).refuse n .exhausted := by
  have hres : (p.bindKey n k).proof.canReserve = false := by
    rw [Part.bindKey_proof]
    exact Bool.eq_false_iff.mpr fun h => ((p.proof.canReserve_iff).mp h).ne' hr
  simp only [Part.issueChallenge, hi, hk, Part.reserveAndPlace, hres, Bool.false_eq_true, if_false]

/-- A session bound and challenged, or refused when no counter value is left. -/
theorem Part.bindSession_challenged (p : Part) (n : Socket) (i : Identity) (k : Fin 16) (c : Fin 32)
    (hi : (p.session n).identity = some i) (hk : p.trust.findKey i.family i.generation = some k) :
    (0 < p.proof.slack → ∃ ph, ((p.bindSession n i k c).issueChallenge n .admission).session n =
      { (p.bindSession n i k c).session n with
        keySlot := some k, marks := { ((p.bindSession n i k c).session n).marks with keyRetired := p.trust.slotRetired k },
        challenge := some ⟨.admission, ph⟩ }) ∧
    (p.proof.slack = 0 → ((p.bindSession n i k c).issueChallenge n .admission).session n =
      { (p.bindSession n i k c).session n with
        keySlot := some k, marks := { ((p.bindSession n i k c).session n).marks with keyRetired := p.trust.slotRetired k },
        state := .refused, reason := some .exhausted, challenge := none, recheck := none }) := by
  have hi' : ((p.bindSession n i k c).session n).identity = some i := by rw [p.bindSession_session n i k c]; exact hi
  have hk' : (p.bindSession n i k c).trust.findKey i.family i.generation = some k := by
    rw [p.bindSession_trust n i k c]; exact hk
  rw [← p.bindSession_proof n i k c, ← p.bindSession_trust n i k c]
  refine ⟨fun h => Part.issueChallenge_session _ n .admission i k hi' hk' h, fun h => ?_⟩
  rw [Part.issueChallenge_exhausted _ n .admission i k hi' hk' h, Part.refuse_session, Part.bindKey_session]

/-! ## What every outcome of the checks keeps -/

theorem Part.checkIdentity_identity (p : Part) (n : Socket) (i : Identity) :
    ((p.checkIdentity n i).session n).identity = (p.session n).identity := by
  have hrefuse (r : Reason) : ((p.refuse n r).session n).identity = (p.session n).identity := (p.refuse_asked n r).identity
  unfold Part.checkIdentity
  repeat' split
  · exact hrefuse _
  · rw [p.withdraw_session n]
  · exact hrefuse _
  · next m hm => rw [p.duplicate_newcomer n m (p.holder_spec n m _ hm).1]
  · exact hrefuse _
  · exact hrefuse _
  · rw [(Part.issueChallenge_asked _ n .admission).identity, p.bindSession_session n]

end Sys2Proof.Machine

namespace Sys2Proof.Proofs
open Sys2Proof Sys2Proof.Machine Sys2Proof.Claims

/-! ## An accepted IDENTITY, check by check (Table 5.3) -/

/-- Check 4: a serial that another session holds (R77). -/
theorem identity_duplicate (p : Part) (n : Socket) (i : Identity) (h : p.Clears i) (hi : (p.session n).identity = some i)
    (hdup : ∃ m, m ≠ n ∧ p.holds i.serial m = true) :
    ((p.checkIdentity n i).session n).state = .refused ∧ ((p.checkIdentity n i).session n).reason = some .duplicate ∧
    ((∀ e ∈ p.engine.recent, e.1 ≠ i.serial) →
      (p.checkIdentity n i).engine.recent = (i.serial, 1) :: p.engine.recent.take 15) ∧
    (∀ l1 l2 k, p.engine.recent = l1 ++ (i.serial, k) :: l2 → (∀ e ∈ l1 ++ l2, e.1 ≠ i.serial) →
      (p.checkIdentity n i).engine.recent = (i.serial, min 15 (k + 1)) :: (l1 ++ l2)) ∧
    (p.checkIdentity n i).fault.conds.clone = (if p.fault.map.clone.latch then .held else .inactive) ∧
    (LogRoom (p.checkIdentity n i) → Logged (p.checkIdentity n i) { type := 6, socket := 7, detail := 6, data := [] }) := by
  obtain ⟨m, hm, hholds⟩ := hdup
  obtain ⟨l, hl⟩ := p.holder_of_holds n m _ hm hholds
  obtain ⟨hln, -⟩ := p.holder_spec n l _ hl
  obtain ⟨hduplicate, -⟩ := p.checkIdentity_clear n i h
  rw [hduplicate l hl, p.duplicate_newcomer n l hln, p.duplicate_recent n l i hi]
  refine ⟨rfl, rfl, countRefusal_new i.serial _, fun l1 l2 k hab hne => ?_, p.duplicate_clone n l, fun hroom => ?_⟩
  · rw [hab, countRefusal_again i.serial k l1 l2 hne]
  · exact Part.momentary_logged _ .clone hroom

/-- The session that alone holds the serial is rechecked, and the others stand (R77). -/
theorem identity_holder (p : Part) (n m : Socket) (i : Identity) (h : p.Clears i) (hm : m ≠ n)
    (hholds : p.holds i.serial m = true) (honly : ∀ l, l ≠ n → p.holds i.serial l = true → l = m) :
    (∀ l, l ≠ n → l ≠ m → (p.checkIdentity n i).session l = p.session l) ∧
    ((p.session m).challenge ≠ none → (p.checkIdentity n i).session m = p.session m) ∧
    ((p.session m).challenge = none → CanChallenge p m →
      ((p.checkIdentity n i).session m).state = (p.session m).state ∧
      ∃ ph, ((p.checkIdentity n i).session m).challenge = some ⟨.recheck, ph⟩) := by
  obtain ⟨l, hl⟩ := p.holder_of_holds n m _ hm hholds
  obtain ⟨hln, hlholds⟩ := p.holder_spec n l _ hl
  rw [honly l hln hlholds] at hl
  obtain ⟨hduplicate, -⟩ := p.checkIdentity_clear n i h
  rw [hduplicate m hl]
  exact ⟨p.duplicate_bystander n m, p.duplicate_holder_asked n m hm, p.duplicate_holder_free n m hm⟩

/-- The binding of a session whose class entry and key slot are found, and its ADMISSION challenge (R78, R79, R103). -/
theorem identity_bound (p : Part) (n : Socket) (i : Identity) (c : Fin 32) (e : ClassEntry) (k : Fin 16) (y : KeyEntry)
    (hi : (p.session n).identity = some i) (he : p.trust.classes[c] = some e) (hy : p.trust.keys[k] = some y)
    (hk : p.trust.findKey i.family i.generation = some k) (x : Session)
    (hx : x = ((p.bindSession n i k c).issueChallenge n .admission).session n) :
    x.keySlot = some k ∧ x.classIndex = some c ∧ x.attempts = 0 ∧ x.marks.keyRetired = y.retired ∧
    x.marks.worn = ((p.session n).marks.worn || decide (e.wearLimit ≠ 0 ∧ e.wearLimit.toNat ≤ i.cycles.toNat)) ∧
    (p.proof.reserved < 0xFFFFFFFF - p.proof.counter.toNat →
      x.state = .verifying ∧ ∃ ph, x.challenge = some ⟨.admission, ph⟩) ∧
    (∃ q : Part, (p.bindSession n i k c).issueChallenge n .admission = (q.reportSession n).issueChallenge n .admission ∧
      (q.session n).state = .verifying) ∧
    (0xFFFFFFFF - p.proof.counter.toNat ≤ p.proof.reserved → x.state = .refused ∧ x.reason = some .exhausted) := by
  have hreported : ∃ q : Part, (p.bindSession n i k c).issueChallenge n .admission =
      (q.reportSession n).issueChallenge n .admission ∧ (q.session n).state = .verifying :=
    ⟨_, rfl, by rw [Part.setSession_session_self]⟩
  obtain ⟨hleft, hnone⟩ := p.bindSession_challenged n i k c hi hk
  rw [p.bindSession_session n i k c, p.trust.slotRetired_of k y hy, p.trust.wornUnder_of c e i.cycles he] at hleft hnone
  by_cases hslack : 0 < p.proof.slack
  · obtain ⟨ph, hph⟩ := hleft hslack
    rw [hx, hph]
    exact ⟨rfl, rfl, rfl, rfl, rfl, fun _ => ⟨rfl, ph, rfl⟩, hreported,
      fun hout => absurd hslack (Nat.not_lt.mpr (Nat.sub_eq_zero_of_le hout).le)⟩
  · rw [hx, hnone (Nat.eq_zero_of_not_pos hslack)]
    exact ⟨rfl, rfl, rfl, rfl, rfl, fun hfew => absurd (Nat.sub_pos_of_lt hfew) hslack, hreported, fun _ => ⟨rfl, rfl⟩⟩

/-- Checks 5 and 6, and the binding, of a serial that no other session holds (R76, R78). -/
theorem identity_unheld (p : Part) (n : Socket) (i : Identity) (h : p.Clears i) (hi : (p.session n).identity = some i)
    (hholder : p.holder n i.serial = none) (x : Session) (hx : x = (p.checkIdentity n i).session n) :
    ((∀ (c : Fin 32) e, p.trust.classes[c] = some e → e.code ≠ i.classCode) →
      x.state = .refused ∧ x.reason = some .noClass) ∧
    (∀ (c : Fin 32) e, p.trust.classes[c] = some e → e.code = i.classCode →
      (∀ (d : Fin 32) e', p.trust.classes[d] = some e' → e'.code = i.classCode → d = c) →
      ((∀ (k : Fin 16) y, p.trust.keys[k] = some y → ¬(y.family = i.family ∧ y.generation = i.generation)) →
        x.state = .refused ∧ x.reason = some .noKey) ∧
      (∀ (k : Fin 16) y, p.trust.keys[k] = some y → y.family = i.family → y.generation = i.generation →
        (∀ (l : Fin 16) y', p.trust.keys[l] = some y' → y'.family = i.family → y'.generation = i.generation → l = k) →
        x.keySlot = some k ∧ x.classIndex = some c ∧ x.attempts = 0 ∧ x.marks.keyRetired = y.retired ∧
        x.marks.worn = ((p.session n).marks.worn || decide (e.wearLimit ≠ 0 ∧ e.wearLimit.toNat ≤ i.cycles.toNat)) ∧
        (p.proof.reserved < 0xFFFFFFFF - p.proof.counter.toNat →
          x.state = .verifying ∧ ∃ ph, x.challenge = some ⟨.admission, ph⟩) ∧
        (∃ q : Part, p.checkIdentity n i = (q.reportSession n).issueChallenge n .admission ∧
          (q.session n).state = .verifying) ∧
        (0xFFFFFFFF - p.proof.counter.toNat ≤ p.proof.reserved → x.state = .refused ∧ x.reason = some .exhausted))) := by
  obtain ⟨-, hnoHolder⟩ := p.checkIdentity_clear n i h
  obtain ⟨hnoClass, hclass⟩ := hnoHolder hholder
  subst hx
  refine ⟨fun hall => ?_, fun c e he hcode honly => ?_⟩
  · rw [hnoClass (p.trust.findClass_eq_none _ hall), p.refuse_session n]
    exact ⟨rfl, rfl⟩
  have hfound : p.trust.findClass i.classCode = some c :=
    p.trust.findClass_of_unique _ c ((p.trust.holdsCode_iff _ c).mpr ⟨e, he, hcode⟩) fun d hd => by
      obtain ⟨e', he', hcode'⟩ := (p.trust.holdsCode_iff _ d).mp hd
      exact honly d e' he' hcode'
  obtain ⟨hnoKey, hbound⟩ := hclass c hfound
  refine ⟨fun hall => ?_, fun k y hy hfamily hgeneration hsole => ?_⟩
  · rw [hnoKey (p.trust.findKey_eq_none _ _ hall), p.refuse_session n]
    exact ⟨rfl, rfl⟩
  have hkey : p.trust.findKey i.family i.generation = some k :=
    p.trust.findKey_of_unique _ _ k ((p.trust.holdsPair_iff _ _ k).mpr ⟨y, hy, hfamily, hgeneration⟩) fun l hl => by
      obtain ⟨y', hy', hfamily', hgeneration'⟩ := (p.trust.holdsPair_iff _ _ l).mp hl
      exact hsole l y' hy' hfamily' hgeneration'
  rw [hbound k hkey]
  exact identity_bound p n i c e k y hi he hy hkey _ rfl

/-- Settles O35: the checks of Table 5.3 in their order, on the part in which the IDENTITY has been stored. -/
theorem identityChecksInOrder : Obligations.IdentityChecksInOrder := by
  intro p n b i x hib hx
  obtain rfl : i = identityOf b := hib
  rw [p.acceptIdentity_eq n b] at hx ⊢
  generalize identityOf b = i at hx ⊢
  obtain ⟨q, hq⟩ : ∃ q, q = p.identified n i := ⟨_, rfl⟩
  have hi : (q.session n).identity = some i := by rw [hq, p.identified_session n i]
  have hmarks : (q.session n).marks = (p.session n).marks := by rw [hq, p.identified_session n i]
  have hother (m : Socket) (hm : m ≠ n) : q.session m = p.session m := by rw [hq, p.identified_other n m i hm]
  have htrust : q.trust = p.trust := by rw [hq]; rfl
  have hrecent : q.engine.recent = p.engine.recent := by rw [hq]; rfl
  have hproof : q.proof = p.proof := by rw [hq]; rfl
  have hfault : q.fault = p.fault := by rw [hq]; rfl
  have hmgmt : q.mgmt = p.mgmt := by rw [hq]; rfl
  rw [← hq] at hx ⊢
  have hholds (m : Socket) (hm : m ≠ n) : q.holds i.serial m = true ↔
      (p.session m).state.live = true ∧ ∃ j, (p.session m).identity = some j ∧ j.serial = i.serial := by
    rw [q.holds_iff, hother m hm]
  rw [← htrust, ← hrecent, ← hproof, ← hfault, ← hmgmt, ← hmarks]
  subst hx
  refine ⟨(q.checkIdentity_identity n i).trans hi, (q.checkIdentity_ordinary n i).trust, fun hbad => ?_,
    fun h0 h1 => ?_⟩
  · rw [q.checkIdentity_invalid n i hbad, q.refuse_session n]
    exact ⟨rfl, rfl⟩
  have hvalid : validSerial i.serial = true := (validSerial_iff _).mpr ⟨h0, h1⟩
  refine ⟨fun hw => ?_, fun hw => ⟨fun hrep => ?_, fun hfew => ?_⟩⟩
  · rw [q.checkIdentity_withdrawn n i hvalid hw, q.withdraw_session n]
    exact ⟨rfl, rfl⟩
  · rw [q.checkIdentity_repeated n i hvalid hw hrep, q.refuse_session n]
    exact ⟨rfl, rfl⟩
  have hclear : q.Clears i := ⟨⟨h0, h1⟩, hw, hfew⟩
  refine ⟨?_, ?_, fun hnone => ?_⟩
  · rintro ⟨m, j, hm, hl, hj, hjs⟩
    exact identity_duplicate q n i hclear hi ⟨m, hm, (hholds m hm).mpr ⟨hl, j, hj, hjs⟩⟩
  · intro m j hm hl hj hjs honly
    have hheld := identity_holder q n m i hclear hm ((hholds m hm).mpr ⟨hl, j, hj, hjs⟩) fun l hln hlh => by
      obtain ⟨hlive, y, hy, hys⟩ := (hholds l hln).mp hlh
      exact honly l y hln hlive hy hys
    rw [hother m hm] at hheld
    obtain ⟨hrest, hasked, hfree⟩ := hheld
    refine ⟨fun l hln hlm => (hrest l hln hlm).trans (hother l hln), hasked, fun hc hcan => hfree hc ?_⟩
    exact canChallenge_of_slack hcan (by rw [hother m hm]) htrust (by rw [hproof])
  · refine identity_unheld q n i hclear hi (q.holder_eq_none n _ fun m hm hh => ?_) _ rfl
    obtain ⟨hl, j, hj, hjs⟩ := (hholds m hm).mp hh
    exact hnone m j hm hl hj hjs

end Sys2Proof.Proofs

namespace Sys2Proof.Machine

/-! ## The expected proof as a polynomial (R105, R106) -/

@[simp] theorem Word.hi_toNat (w : Word) : (Word.hi w).toNat = w.toNat / 65536 := by
  have hw : w.toNat < 4294967296 := w.isLt
  rw [Word.hi, BitVec.extractLsb'_toNat, Nat.shiftRight_eq_div_pow]
  omega

@[simp] theorem Word.lo_toNat (w : Word) : (Word.lo w).toNat = w.toNat % 65536 := by
  rw [Word.lo, BitVec.extractLsb'_toNat, Nat.shiftRight_zero]

theorem accumulate_concat (ka : Nat) (ws : List Nat) (w : Nat) :
    accumulate ka (ws ++ [w]) = (accumulate ka ws + w) * ka % proofModulus := by
  rw [accumulate, List.foldl_concat, ← accumulate]

/-- The accumulator is Horner's rule: the words are the digits to base ka, the last word the lowest, and the multiplication
after every word raises each power by one. -/
theorem accumulate_modEq (ka : Nat) (ws : List Nat) :
    accumulate ka ws ≡ Nat.ofDigits ka ws.reverse * ka [MOD proofModulus] := by
  induction ws using List.reverseRecOn with
  | nil => rw [List.reverse_nil, Nat.ofDigits_nil, zero_mul]; rfl
  | append_singleton ws w ih =>
    rw [accumulate_concat, List.reverse_concat, Nat.ofDigits_cons]
    calc (accumulate ka ws + w) * ka % proofModulus
      _ ≡ (accumulate ka ws + w) * ka [MOD proofModulus] := Nat.mod_modEq _ _
      _ ≡ (Nat.ofDigits ka ws.reverse * ka + w) * ka [MOD proofModulus] := (ih.add_right w).mul_right ka
      _ = (w + ka * Nat.ofDigits ka ws.reverse) * ka := by ring

theorem expectedProof_eq (ka kb : Nat) (ws : List Nat) :
    expectedProof ka kb ws = (Nat.ofDigits ka ws.reverse * ka + kb) % proofModulus :=
  (accumulate_modEq ka ws).add_right kb

theorem Part.expected_of_key (p : Part) (n : Socket) (x : Nonce) {i : Identity} {k : Fin 16} {e : KeyEntry}
    (hi : (p.session n).identity = some i) (hk : (p.session n).keySlot = some k) (he : p.trust.keys[k] = some e) :
    p.expected n x = some (expectedProof e.ka.toNat e.kb.toNat (message x i n)) := by
  simp only [Part.expected, hi, hk, he]

/-- The digits of a message, written out in the order of Table 6.2. -/
theorem ofDigits_message (ka : Nat) (x : Nonce) (i : Identity) (n : Socket) :
    Nat.ofDigits ka (message x i n).reverse * ka =
      x.n0.toNat * ka ^ 8 + x.n1.toNat * ka ^ 7 + x.n2.toNat * ka ^ 6 + x.n3.toNat * ka ^ 5 +
        i.serial.toNat / 65536 * ka ^ 4 + i.serial.toNat % 65536 * ka ^ 3 + n.val * ka ^ 2 +
        (i.family.toNat * 256 + i.generation.toNat) * ka := by
  simp only [message, Word.hi_toNat, Word.lo_toNat, List.reverse_cons, List.reverse_nil, List.nil_append, List.cons_append,
    Nat.ofDigits_cons, Nat.ofDigits_nil]
  ring

end Sys2Proof.Machine

namespace Sys2Proof.Proofs
open Sys2Proof Sys2Proof.Machine Sys2Proof.Claims

/-- Settles O36: Horner's rule over the eight words of the message (R106 step 2), then kb. -/
theorem expectedProofIsThePolynomial : Obligations.ExpectedProofIsThePolynomial := by
  intro p n x i k e hi hk he
  rw [p.expected_of_key n x hi hk he, expectedProof_eq, ofDigits_message, proofModulus]

end Sys2Proof.Proofs

namespace Sys2Proof.Machine

/-! ## The words of a key slot read back (R130, log 9) -/

theorem Word.byte_ofBytes (a b c d : Byte) :
    Word.byte (Word.ofBytes a b c d) 0 = a ∧ Word.byte (Word.ofBytes a b c d) 1 = b ∧
      Word.byte (Word.ofBytes a b c d) 2 = c ∧ Word.byte (Word.ofBytes a b c d) 3 = d := by
  simpa only [Word.bytes, List.cons.injEq, and_true] using Word.bytes_ofBytes a b c d

theorem keyWords_length (e : Option KeyEntry) : (keyWords e).length = 3 := by cases e <;> rfl

/-- The three words of a slot give the slot back. -/
theorem keyOfWords_keyWords (e : Option KeyEntry) :
    ∃ w0 w1 w2, keyWords e = [w0, w1, w2] ∧ keyOfWords w0 w1 w2 = e := by
  cases e with
  | none => exact ⟨0, 0, 0, rfl, rfl⟩
  | some k =>
    refine ⟨_, _, _, rfl, ?_⟩
    obtain ⟨hstate, hfamily, hgeneration, -⟩ :=
      Word.byte_ofBytes (if k.retired then 2 else 1) k.family k.generation 0
    rw [keyOfWords, hstate, hfamily, hgeneration]
    obtain ⟨retired, family, generation, ka, kb⟩ := k
    cases retired <;> rfl

/-- The words that entry `i` of a table of `n`-word entries has in the table's content. -/
theorem getElem?_flatMap_of_length {α β : Type} (f : α → List β) (n : Nat) (hf : ∀ x, (f x).length = n) (l : List α)
    (i j : Nat) (hj : j < n) (x : α) (hx : l[i]? = some x) : (l.flatMap f)[n * i + j]? = (f x)[j]? := by
  induction l generalizing i with
  | nil => cases hx
  | cons y l ih =>
    rw [List.flatMap_cons]
    cases i with
    | zero =>
      obtain rfl : y = x := Option.some.inj hx
      rw [List.getElem?_append_left (by rw [hf]; omega), Nat.mul_zero, Nat.zero_add]
    | succ i =>
      rw [List.getElem?_append_right (by rw [hf, Nat.mul_succ]; omega), hf,
        show n * (i + 1) + j - n = n * i + j by rw [Nat.mul_succ]; omega]
      exact ih i hx

/-- The content of the key table's region holds the words of slot `i` at three times `i`. -/
theorem keyTable_getElem? (keys : Vector (Option KeyEntry) 16) (i : Fin 16) (j : Nat) (hj : j < 3) :
    (keys.toList.flatMap keyWords)[3 * i.val + j]? = (keyWords keys[i])[j]? :=
  getElem?_flatMap_of_length keyWords 3 keyWords_length keys.toList i.val j hj keys[i] (by simp)

theorem keyTable_length (keys : Vector (Option KeyEntry) 16) : (keys.toList.flatMap keyWords).length ≤ 127 := by
  simp [List.length_flatMap, keyWords_length]

/-- A region that has been rewritten reads its content. -/
theorem readWord_rewriteRegion (a : StoreArray) (r : Region) (ws : List Word) (i : Nat) (w : Word) (ha : a.wf = true)
    (hw : ws.length ≤ 127) (hi : ws[i]? = some w) :
    readWord (applySteps a (rewriteRegion r ws)) (r.base + i) = w := by
  obtain ⟨hlt, -⟩ := List.getElem?_eq_some_iff.mp hi
  have hread := congrArg (·[i]?) (readWords_rewriteRegion a r ws ha hw)
  simpa [readWords, padSector, List.getElem?_append_left hlt, hi, show i < 127 by omega] using hread

/-- A key table that has been written is the key table that is loaded. -/
theorem loadKeys_rewriteRegion (a : StoreArray) (keys : Vector (Option KeyEntry) 16) (ha : a.wf = true) :
    loadKeys (applySteps a (rewriteRegion .keys (keys.toList.flatMap keyWords))) = keys := by
  have hlen := keyTable_length keys
  rw [loadKeys, judgeRegion_rewriteRegion a .keys _ ha hlen (.inr (.inl rfl))]
  refine Vector.ext fun i hi => ?_
  obtain ⟨w0, w1, w2, hwords, hslot⟩ := keyOfWords_keyWords keys[i]
  have hread (j : Nat) (w : Word) (hj : j < 3) (h : (keyWords keys[i])[j]? = some w) :
      readWord (applySteps a (rewriteRegion .keys (keys.toList.flatMap keyWords))) (Region.keys.base + (3 * i + j)) = w :=
    readWord_rewriteRegion a .keys _ _ w ha hlen ((keyTable_getElem? keys ⟨i, hi⟩ j hj).trans h)
  have h0 := hread 0 w0 (by decide) (by rw [hwords]; rfl)
  have h1 := hread 1 w1 (by decide) (by rw [hwords]; rfl)
  have h2 := hread 2 w2 (by decide) (by rw [hwords]; rfl)
  rw [← hslot, ← h0, ← h1, ← h2, Vector.getElem_ofFn]
  rfl

/-! ## A job that stops (R176, R177, R183) -/

theorem Job.leastTaken_of_rewrites_none (j : Job) (h : j.rewrites = none) : j.leastTaken = 0 := by
  simp [Job.leastTaken, h]

theorem Job.leastTaken_of_rewrites (j : Job) (r : Region) (h : j.rewrites = some r) : j.leastTaken = 1 := by
  simp [Job.leastTaken, h]

theorem Job.leastTaken_le_one (j : Job) : j.leastTaken ≤ 1 := by
  unfold Job.leastTaken
  split <;> decide

/-- A job that rewrites no single-sector region, or has programmed a word, has done its first steps and nothing else. -/
theorem Job.stopped_eq_take (j : Job) (ps : List Prim) (k : Nat)
    (h : j.rewrites = none ∨ (ps.take k).any Prim.writes = true) : j.stopped ps k = ps.take k :=
  h.elim (j.stopped_of_rewrites_none ps k) (j.stopped_of_writes ps k)

/-- The steps before a failed one are those that were taken, where the job need not have taken more. -/
theorem Job.taken_failedAt (j : Job) (ps : List Prim) (k : Nat) (hk : k < ps.length) (hl : j.leastTaken ≤ k) :
    j.taken ps (.failedAt k) = j.stopped ps k := by
  rw [Job.taken, show max j.leastTaken (min k (ps.length - 1)) = k by omega]

/-- A failed rewriting of a region has stopped between its first step and its last. -/
theorem Job.taken_failedAt_between (j : Job) (r : Region) (ps : List Prim) (i : Nat) (hr : j.rewrites = some r)
    (hp : 1 < ps.length) : ∃ k, 0 < k ∧ k < ps.length ∧ j.taken ps (.failedAt i) = j.stopped ps k :=
  ⟨max j.leastTaken (min i (ps.length - 1)), by rw [j.leastTaken_of_rewrites r hr]; omega,
    by rw [j.leastTaken_of_rewrites r hr]; omega, rfl⟩

/-- A single-sector region whose last word is no check word fails its check. -/
theorem judgeRegion_damaged (a : StoreArray) (r : Region)
    (hr : r = .settings ∨ r = .keys ∨ r = .classes ∨ r = .rules) (hb : regionBlank a r = false)
    (hw : ∀ ws, checkWord ws ≠ readWord a (r.base + 127)) : judgeRegion a r = .damaged := by
  have hc : checkHolds a r = false := beq_false_of_ne (hw _).symm
  have hv : regionValid a r = false := by
    rcases hr with rfl | rfl | rfl | rfl <;> exact hc
  simp [judgeRegion, hb, hv]

/-- A region whose rewriting stopped between its first step and its last is damaged. -/
theorem judgeRegion_stopped (a : StoreArray) (p : Part) (j : Job) (r : Region) (k : Nat) (ha : a.wf = true)
    (hr : j.rewrites = some r) (h0 : 0 < k) (hk : k < (j.steps p a).length) :
    judgeRegion (applySteps a (j.stopped (j.steps p a) k)) r = .damaged := by
  obtain ⟨ws, hlen, hsteps, hsingle⟩ := Job.steps_of_rewrites a p j r hr
  rw [hsteps] at hk ⊢
  obtain ⟨hlast, hblank⟩ := read_stopped a j r ws k ha hr hlen h0 hk
  refine judgeRegion_damaged _ r hsingle hblank fun vs => ?_
  rw [hlast]
  split
  · exact checkWord_ne_erased vs
  · exact checkWord_ne_spoiled vs

/-- So is one whose rewriting failed, at whatever step. -/
theorem judgeRegion_failed (a : StoreArray) (p : Part) (j : Job) (r : Region) (i : Nat) (ha : a.wf = true)
    (hr : j.rewrites = some r) : judgeRegion (applySteps a (j.taken (j.steps p a) (.failedAt i))) r = .damaged := by
  obtain ⟨ws, -, hsteps, -⟩ := Job.steps_of_rewrites a p j r hr
  obtain ⟨k, h0, hk, htaken⟩ := j.taken_failedAt_between r (j.steps p a) i hr
    (by rw [hsteps, rewriteRegion_length]; omega)
  rw [htaken]
  exact judgeRegion_stopped a p j r k ha hr h0 hk

end Sys2Proof.Machine

namespace Sys2Proof.Proofs
open Sys2Proof Sys2Proof.Machine Sys2Proof.Claims

/-- Settles O32: the region's words are its content, three to a slot; a stopped rewriting leaves no check word. -/
theorem storedKeyTableLoadsBack : Obligations.StoredKeyTableLoadsBack := by
  refine ⟨fun j ps k h => ?_, loadKeys_rewriteRegion, fun a p j r k ha hr =>
    ⟨judgeRegion_stopped a p j r k ha hr, fun i => judgeRegion_failed a p j r i ha hr⟩⟩
  have hwritten : j.rewrites = none ∨ (ps.take k).any Prim.writes = true :=
    h.imp_right fun ⟨_, x, hmem, hx⟩ => List.any_eq_true.mpr ⟨_, hmem, bne_iff_ne.mpr hx⟩
  have hstopped := j.stopped_eq_take ps k hwritten
  refine ⟨hstopped, fun hk => (j.taken_failedAt ps k hk ?_).trans hstopped⟩
  rcases hwritten with hnone | hany
  · rw [j.leastTaken_of_rewrites_none hnone]
    exact Nat.zero_le k
  · have hpos : k ≠ 0 := by
      rintro rfl
      exact absurd hany (by simp)
    exact j.leastTaken_le_one.trans (Nat.one_le_iff_ne_zero.mpr hpos)

end Sys2Proof.Proofs

namespace Sys2Proof.Machine
open Sys2Proof.Claims

/-! ## Slots and indices in a request -/

theorem slotOf_byteOf (k : Fin 16) : slotOf (byteOf k.val) = some k := by
  revert k
  decide

theorem slotOf_of_ge (b : Byte) (h : 16 ≤ b.toNat) : slotOf b = none := dif_neg (by omega)

theorem indexOf_byteOf (i : Fin 32) : indexOf (byteOf i.val) = some i := by
  revert i
  decide

theorem indexOf_of_ge (b : Byte) (h : 32 ≤ b.toNat) : indexOf b = none := dif_neg (by omega)

/-! ## KEY-WRITE (R114) -/

theorem Trust.pairElsewhere_iff (t : Trust) (k : Fin 16) (family generation : Byte) :
    t.pairElsewhere k family generation = true ↔
      ∃ (l : Fin 16) (y : KeyEntry), l ≠ k ∧ t.keys[l] = some y ∧ y.family = family ∧ y.generation = generation := by
  simp only [Trust.pairElsewhere, List.any_eq_true, mem_allSlots, true_and, Bool.and_eq_true, bne_iff_ne,
    Trust.holdsPair_iff, exists_and_left]

/-- Whether a field of a KEY-WRITE other than its slot is outside its range. -/
def KeyFieldsWrong (w1 w2 w3 : Word) : Prop :=
  Word.byte w1 1 = 0 ∨ Word.byte w1 1 = 255 ∨ w2.toNat < 2 ∨ 2147483646 < w2.toNat ∨ 2147483646 < w3.toNat

theorem keyEntryOf_wrong (w1 w2 w3 : Word) (h : KeyFieldsWrong w1 w2 w3) : keyEntryOf w1 w2 w3 = none := if_pos h

/-- The entry that a KEY-WRITE whose fields are in range describes. -/
theorem keyEntryOf_right (w1 w2 w3 : Word) (h : ¬KeyFieldsWrong w1 w2 w3) : keyEntryOf w1 w2 w3 =
    some { retired := false, family := Word.byte w1 1, generation := Word.byte w1 2, ka := w2, kb := w3 } := if_neg h

theorem Part.keyWrite_wrong (w1 w2 w3 : Word) (p : Part)
    (h : 16 ≤ (Word.byte w1 0).toNat ∨ KeyFieldsWrong w1 w2 w3) :
    Part.keyWrite w1 w2 w3 p = p.refuseWith codeKeyWrite .invalid := by
  unfold Part.keyWrite
  rcases h with hslot | hfields
  · rw [slotOf_of_ge _ hslot]
  · rw [keyEntryOf_wrong w1 w2 w3 hfields]
    cases slotOf (Word.byte w1 0) <;> rfl

theorem Part.keyWrite_right (w1 w2 w3 : Word) (p : Part) (k : Fin 16) (e : KeyEntry) (hk : Word.byte w1 0 = byteOf k.val)
    (he : keyEntryOf w1 w2 w3 = some e) : Part.keyWrite w1 w2 w3 p =
      if p.trust.pairElsewhere k e.family e.generation then p.refuseWith codeKeyWrite .invalid
      else p.tableJob (.keyWrite k e) := by
  rw [Part.keyWrite, hk, slotOf_byteOf, he]

/-! ## KEY-RETIRE and KEY-ERASE (R116, R117) -/

theorem Part.keyRetire_wrong (w : Word) (p : Part) (h : 16 ≤ (Word.byte w 0).toNat) :
    Part.keyRetire w p = p.refuseWith codeKeyRetire .invalid := by
  rw [Part.keyRetire, slotOf_of_ge _ h]

theorem Part.keyRetire_empty (w : Word) (p : Part) (k : Fin 16) (hk : Word.byte w 0 = byteOf k.val)
    (h : p.trust.keys[k] = none) : Part.keyRetire w p = p.refuseWith codeKeyRetire .absent := by
  simp only [Part.keyRetire, hk, slotOf_byteOf, h]

theorem Part.keyRetire_held (w : Word) (p : Part) (k : Fin 16) (e : KeyEntry) (hk : Word.byte w 0 = byteOf k.val)
    (h : p.trust.keys[k] = some e) : Part.keyRetire w p =
      if e.retired then p.respond codeKeyRetire .done [] else p.tableJob (.keyRetire k) := by
  simp only [Part.keyRetire, hk, slotOf_byteOf, h]

theorem Part.keyErase_wrong (w : Word) (p : Part) (h : 16 ≤ (Word.byte w 0).toNat) :
    Part.keyErase w p = p.refuseWith codeKeyErase .invalid := by
  rw [Part.keyErase, slotOf_of_ge _ h]

theorem Part.keyErase_empty (w : Word) (p : Part) (k : Fin 16) (hk : Word.byte w 0 = byteOf k.val)
    (h : p.trust.keys[k] = none) : Part.keyErase w p = p.refuseWith codeKeyErase .absent := by
  simp only [Part.keyErase, hk, slotOf_byteOf, h]

theorem Part.keyErase_held (w : Word) (p : Part) (k : Fin 16) (e : KeyEntry) (hk : Word.byte w 0 = byteOf k.val)
    (h : p.trust.keys[k] = some e) : Part.keyErase w p = p.tableJob (.keyErase k) := by
  simp only [Part.keyErase, hk, slotOf_byteOf, h]

end Sys2Proof.Machine

namespace Sys2Proof.Proofs
open Sys2Proof Sys2Proof.Machine Sys2Proof.Claims

/-! ## A request that only answers or only hands over a job -/

theorem answers_of_respond {c : Instr} {code : Byte} {ws results : List Word} {o : ReqOutcome} {s : State} {q : Part}
    (hexec : exec c s = .next { s with part := q }) (hq : q = (taken code ws s.part).respond code o results) :
    Answers c code ws o results s := by
  rw [Answers, hexec, hq, Part.respond_eq_answered]

theorem queues_of_tableJob {c : Instr} {code : Byte} {ws : List Word} {j : TableJob} {s : State} {q : Part}
    (hexec : exec c s = .next { s with part := q }) (hq : q = (taken code ws s.part).tableJob j) :
    Queues c code ws j s := by
  rw [Queues, hexec, hq, Part.tableJob, Part.queueJob_eq_withJob]

/-! ## The key requests as they are taken -/

theorem exec_keyWrite_ready (s : State) (w1 w2 w3 : Word) (hs : Ready s) : exec (.keyWrite [w1, w2, w3]) s =
    .next { s with part := Part.keyWrite w1 w2 w3 (taken 0x10 [w1, w2, w3] s.part) } :=
  exec_request_ready _ 0x10 3 3 false [w1, w2, w3] (Part.keyWrite w1 w2 w3) s hs rfl (by simp)

theorem exec_keyRetire_ready (s : State) (w : Word) (hs : Ready s) :
    exec (.keyRetire [w]) s = .next { s with part := Part.keyRetire w (taken 0x11 [w] s.part) } :=
  exec_request_ready _ 0x11 1 1 false [w] (Part.keyRetire w) s hs rfl (by simp)

theorem exec_keyErase_ready (s : State) (w : Word) (hs : Ready s) :
    exec (.keyErase [w]) s = .next { s with part := Part.keyErase w (taken 0x12 [w] s.part) } :=
  exec_request_ready _ 0x12 1 1 false [w] (Part.keyErase w) s hs rfl (by simp)

theorem keyWrite_invalid (s : State) (w1 w2 w3 : Word) (hs : Ready s)
    (h : 16 ≤ (Word.byte w1 0).toNat ∨ KeyFieldsWrong w1 w2 w3) :
    Answers (.keyWrite [w1, w2, w3]) 0x10 [w1, w2, w3] .invalid [] s :=
  answers_of_respond (exec_keyWrite_ready s w1 w2 w3 hs) (Part.keyWrite_wrong w1 w2 w3 _ h)

/-- A KEY-WRITE in range becomes a job, unless another slot holds its pair. -/
theorem keyWrite_acts (s : State) (w1 w2 w3 : Word) (k : Fin 16) (e : KeyEntry) (hs : Ready s)
    (hk : Word.byte w1 0 = byteOf k.val) (he : keyEntryOf w1 w2 w3 = some e) :
    ((∀ (l : Fin 16) y, l ≠ k → s.part.trust.keys[l] = some y → ¬(y.family = e.family ∧ y.generation = e.generation)) →
      Queues (.keyWrite [w1, w2, w3]) 0x10 [w1, w2, w3] (.keyWrite k e) s) ∧
    ((∃ (l : Fin 16) (y : KeyEntry), l ≠ k ∧ s.part.trust.keys[l] = some y ∧ y.family = e.family ∧
        y.generation = e.generation) →
      Answers (.keyWrite [w1, w2, w3]) 0x10 [w1, w2, w3] .invalid [] s) := by
  have hexec := exec_keyWrite_ready s w1 w2 w3 hs
  rw [← taken_trust 0x10 [w1, w2, w3] s.part]
  have hact := Part.keyWrite_right w1 w2 w3 (taken 0x10 [w1, w2, w3] s.part) k e hk he
  constructor
  · intro hunique
    refine queues_of_tableJob hexec (hact.trans (if_neg fun helsewhere => ?_))
    obtain ⟨l, y, hl, hy, hpair⟩ := (Trust.pairElsewhere_iff _ _ _ _).mp helsewhere
    exact hunique l y hl hy hpair
  · exact fun helsewhere =>
      answers_of_respond hexec (hact.trans (if_pos ((Trust.pairElsewhere_iff _ _ _ _).mpr helsewhere)))

theorem keyRetire_acts (s : State) (w : Word) (k : Fin 16) (hs : Ready s) (hk : Word.byte w 0 = byteOf k.val) :
    (s.part.trust.keys[k] = none → Answers (.keyRetire [w]) 0x11 [w] .absent [] s) ∧
    (∀ e, s.part.trust.keys[k] = some e →
      (e.retired = true → Answers (.keyRetire [w]) 0x11 [w] .done [] s) ∧
      (e.retired = false → Queues (.keyRetire [w]) 0x11 [w] (.keyRetire k) s)) := by
  have hexec := exec_keyRetire_ready s w hs
  rw [← taken_trust 0x11 [w] s.part]
  refine ⟨fun hempty => answers_of_respond hexec (Part.keyRetire_empty w _ k hk hempty), fun e he => ?_⟩
  have hact := Part.keyRetire_held w _ k e hk he
  exact ⟨fun hretired => answers_of_respond hexec (hact.trans (if_pos hretired)),
    fun hactive => queues_of_tableJob hexec (hact.trans (if_neg (by simp [hactive])))⟩

theorem keyErase_acts (s : State) (w : Word) (k : Fin 16) (hs : Ready s) (hk : Word.byte w 0 = byteOf k.val) :
    (s.part.trust.keys[k] = none → Answers (.keyErase [w]) 0x12 [w] .absent [] s) ∧
    (∀ e, s.part.trust.keys[k] = some e → Queues (.keyErase [w]) 0x12 [w] (.keyErase k) s) := by
  have hexec := exec_keyErase_ready s w hs
  rw [← taken_trust 0x12 [w] s.part]
  exact ⟨fun hempty => answers_of_respond hexec (Part.keyErase_empty w _ k hk hempty),
    fun e he => queues_of_tableJob hexec (Part.keyErase_held w _ k e hk he)⟩

/-- Settles O54: the checks of each request on the state as the request is taken, whose tables are as before. -/
theorem keyRequestsBecomeStoreJobs : Obligations.KeyRequestsBecomeStoreJobs := by
  intro s w1 w2 w3 hs
  refine ⟨fun k e hk hretired hfamily hgeneration hka hkb hf0 hf255 h2 hmax2 hmax3 => ?_,
    keyWrite_invalid s w1 w2 w3 hs, fun hslot => ?_, fun k hk => ?_⟩
  · have hright : ¬KeyFieldsWrong w1 w2 w3 := by
      rw [KeyFieldsWrong, ← hfamily]
      simp only [hf0, hf255, false_or]
      omega
    have he : keyEntryOf w1 w2 w3 = some e := by
      rw [keyEntryOf_right w1 w2 w3 hright, ← hretired, ← hfamily, ← hgeneration, ← hka, ← hkb]
    exact keyWrite_acts s w1 w2 w3 k e hs hk he
  · exact ⟨answers_of_respond (exec_keyRetire_ready s w1 hs) (Part.keyRetire_wrong w1 _ hslot),
      answers_of_respond (exec_keyErase_ready s w1 hs) (Part.keyErase_wrong w1 _ hslot)⟩
  · obtain ⟨hretireEmpty, hretire⟩ := keyRetire_acts s w1 k hs hk
    obtain ⟨heraseEmpty, herase⟩ := keyErase_acts s w1 k hs hk
    exact ⟨fun hempty => ⟨hretireEmpty hempty, heraseEmpty hempty⟩,
      fun e he => ⟨(hretire e he).1, (hretire e he).2, herase e he⟩⟩

end Sys2Proof.Proofs

namespace Sys2Proof.Machine
open Sys2Proof.Claims

/-! ## CLASS-WRITE and CLASS-ERASE (R120, R122) -/

theorem Trust.codeElsewhere_eq_false (t : Trust) (i : Fin 32) (code : Byte) :
    t.codeElsewhere i code = false ↔ ∀ (j : Fin 32) y, j ≠ i → t.classes[j] = some y → y.code ≠ code := by
  rw [← Bool.not_eq_true]
  simp only [Trust.codeElsewhere, List.any_eq_true, mem_allIndices, true_and, Bool.and_eq_true, bne_iff_ne,
    Trust.holdsCode_iff, not_exists, not_and]
  exact ⟨fun h j y hj hy => h j hj y hy, fun h j hj y hy => h j y hj hy⟩

/-- Whether an entry may be written at an index: its fields are in the ranges of Table 1.13, its code is nowhere else. -/
def Trust.classFits (t : Trust) (i : Fin 32) (e : ClassEntry) : Bool := e.inRange && !t.codeElsewhere i e.code

theorem Trust.classFits_iff (t : Trust) (i : Fin 32) (e : ClassEntry) : t.classFits i e = true ↔
    e.code ≠ 0 ∧ e.code ≠ 255 ∧ 1 ≤ e.ic.toNat ∧ e.ic.toNat ≤ 2000 ∧ -40 ≤ e.tk ∧ e.tk ≤ 124 ∧ e.tk < e.tc ∧
      e.tc ≤ 125 ∧ 2000 ≤ e.cellFloor.toNat ∧ e.cellFloor.toNat ≤ 4000 ∧
      ∀ (j : Fin 32) y, j ≠ i → t.classes[j] = some y → y.code ≠ e.code := by
  rw [Trust.classFits, ClassEntry.inRange, Bool.and_eq_true, decide_eq_true_eq, Bool.not_eq_true',
    t.codeElsewhere_eq_false]
  simp only [and_assoc]

theorem Part.classWrite_wrong (w1 w2 w3 : Word) (p : Part) (h : 32 ≤ (Word.byte w1 0).toNat) :
    Part.classWrite w1 w2 w3 p = p.refuseWith codeClassWrite .invalid := by
  rw [Part.classWrite, indexOf_of_ge _ h]

theorem Part.classWrite_right (w1 w2 w3 : Word) (p : Part) (i : Fin 32) (h : Word.byte w1 0 = byteOf i.val) :
    Part.classWrite w1 w2 w3 p =
      if p.trust.classFits i (.ofWords w1 w2 w3) then p.tableJob (.classWrite i (.ofWords w1 w2 w3))
      else p.refuseWith codeClassWrite .invalid := by
  rw [Part.classWrite, h, indexOf_byteOf, Trust.classFits]

theorem Part.classErase_wrong (w : Word) (p : Part) (h : 32 ≤ (Word.byte w 0).toNat) :
    Part.classErase w p = p.refuseWith codeClassErase .invalid := by
  rw [Part.classErase, indexOf_of_ge _ h]

theorem Part.classErase_unused (w : Word) (p : Part) (i : Fin 32) (hi : Word.byte w 0 = byteOf i.val)
    (h : p.trust.classes[i] = none) : Part.classErase w p = p.refuseWith codeClassErase .absent := by
  simp only [Part.classErase, hi, indexOf_byteOf, h]

theorem Part.classErase_used (w : Word) (p : Part) (i : Fin 32) (e : ClassEntry) (hi : Word.byte w 0 = byteOf i.val)
    (h : p.trust.classes[i] = some e) : Part.classErase w p = p.tableJob (.classErase i) := by
  simp only [Part.classErase, hi, indexOf_byteOf, h]

end Sys2Proof.Machine

namespace Sys2Proof.Proofs
open Sys2Proof Sys2Proof.Machine Sys2Proof.Claims

/-! ## The class requests as they are taken -/

theorem exec_classWrite_ready (s : State) (w1 w2 w3 : Word) (hs : Ready s) : exec (.classWrite [w1, w2, w3]) s =
    .next { s with part := Part.classWrite w1 w2 w3 (taken 0x14 [w1, w2, w3] s.part) } :=
  exec_request_ready _ 0x14 3 3 false [w1, w2, w3] (Part.classWrite w1 w2 w3) s hs rfl (by simp)

theorem exec_classErase_ready (s : State) (w : Word) (hs : Ready s) :
    exec (.classErase [w]) s = .next { s with part := Part.classErase w (taken 0x15 [w] s.part) } :=
  exec_request_ready _ 0x15 1 1 false [w] (Part.classErase w) s hs rfl (by simp)

/-- A CLASS-WRITE becomes a job exactly when its entry fits its index. -/
theorem classWrite_acts (s : State) (w1 w2 w3 : Word) (i : Fin 32) (hs : Ready s)
    (hi : Word.byte w1 0 = byteOf i.val) :
    (s.part.trust.classFits i (.ofWords w1 w2 w3) = true →
      Queues (.classWrite [w1, w2, w3]) 0x14 [w1, w2, w3] (.classWrite i (.ofWords w1 w2 w3)) s) ∧
    (¬s.part.trust.classFits i (.ofWords w1 w2 w3) = true →
      Answers (.classWrite [w1, w2, w3]) 0x14 [w1, w2, w3] .invalid [] s) := by
  have hexec := exec_classWrite_ready s w1 w2 w3 hs
  rw [← taken_trust 0x14 [w1, w2, w3] s.part]
  have hact := Part.classWrite_right w1 w2 w3 (taken 0x14 [w1, w2, w3] s.part) i hi
  exact ⟨fun hfits => queues_of_tableJob hexec (hact.trans (if_pos hfits)),
    fun hwrong => answers_of_respond hexec (hact.trans (if_neg hwrong))⟩

theorem classErase_acts (s : State) (w : Word) (i : Fin 32) (hs : Ready s) (hi : Word.byte w 0 = byteOf i.val) :
    (s.part.trust.classes[i] = none → Answers (.classErase [w]) 0x15 [w] .absent [] s) ∧
    (∀ e, s.part.trust.classes[i] = some e → Queues (.classErase [w]) 0x15 [w] (.classErase i) s) := by
  have hexec := exec_classErase_ready s w hs
  rw [← taken_trust 0x15 [w] s.part]
  exact ⟨fun hunused => answers_of_respond hexec (Part.classErase_unused w _ i hi hunused),
    fun e he => queues_of_tableJob hexec (Part.classErase_used w _ i e hi he)⟩

/-- Settles O55: the ranges and the uniqueness of the code are the one test that CLASS-WRITE makes of its entry. -/
theorem classRequestsBecomeStoreJobs : Obligations.ClassRequestsBecomeStoreJobs := by
  intro s w1 w2 w3 hs
  refine ⟨fun i e hi he fits hfits => ?_, fun h => ?_, fun i hi => classErase_acts s w1 i hs hi⟩
  · obtain rfl : e = .ofWords w1 w2 w3 := he
    rw [hfits, ← Trust.classFits_iff]
    exact classWrite_acts s w1 w2 w3 i hs hi
  · exact ⟨answers_of_respond (exec_classWrite_ready s w1 w2 w3 hs) (Part.classWrite_wrong w1 w2 w3 _ h),
      answers_of_respond (exec_classErase_ready s w1 hs) (Part.classErase_wrong w1 _ h)⟩

end Sys2Proof.Proofs

namespace Sys2Proof.Machine
open Sys2Proof.Claims

/-! ## The new serials of a WITHDRAW-ADD (R124) -/

theorem mem_newSerials (list ws : List Word) (w : Word) : w ∈ newSerials list ws ↔ w ∈ ws ∧ w ∉ list := by
  induction ws generalizing list with
  | nil => simp [newSerials]
  | cons x ws ih =>
    rw [newSerials]
    split
    · next hx =>
      have hlisted : x ∈ list := List.contains_iff_mem.mp hx
      rw [ih, List.mem_cons]
      grind
    · next hx =>
      have hunlisted : x ∉ list := fun h => hx (List.contains_iff_mem.mpr h)
      rw [List.mem_cons, ih, List.mem_cons, List.mem_cons]
      grind

theorem newSerials_nodup (list ws : List Word) : (newSerials list ws).Nodup := by
  induction ws generalizing list with
  | nil => exact List.nodup_nil
  | cons x ws ih =>
    rw [newSerials]
    split
    · exact ih list
    · refine List.nodup_cons.mpr ⟨fun hx => ?_, ih (x :: list)⟩
      exact ((mem_newSerials _ _ _).mp hx).2 List.mem_cons_self

theorem newSerials_sublist (list ws : List Word) : (newSerials list ws).Sublist ws := by
  induction ws generalizing list with
  | nil => exact .slnil
  | cons x ws ih =>
    rw [newSerials]
    split
    · exact (ih list).cons x
    · exact (ih (x :: list)).cons_cons x

/-! ## WITHDRAW-ADD (R124) -/

theorem Part.withdrawAdd_wrong (ws : List Word) (p : Part) (h : ∃ w ∈ ws, w = 0 ∨ w = 0xFFFFFFFF) :
    Part.withdrawAdd ws p = p.refuseWith codeWithdrawAdd .invalid := by
  obtain ⟨w, hw, hbad⟩ := h
  refine if_neg fun hall => ?_
  obtain ⟨h0, hmax⟩ := (validSerial_iff w).mp (List.all_eq_true.mp hall w hw)
  exact hbad.elim h0 hmax

theorem Part.withdrawAdd_right (ws : List Word) (p : Part) (h : ∀ w ∈ ws, w ≠ 0 ∧ w ≠ 0xFFFFFFFF) :
    Part.withdrawAdd ws p =
      if newSerials p.trust.withdrawn ws = [] then
        (p.respond codeWithdrawAdd .done [p.listWord 0]).log (tableChange 3 4 0)
      else if 256 < p.trust.withdrawn.length + (newSerials p.trust.withdrawn ws).length then
        p.refuseWith codeWithdrawAdd .full
      else p.tableJob (.withdrawAdd (newSerials p.trust.withdrawn ws)) := by
  have hall : ws.all validSerial = true := List.all_eq_true.mpr fun w hw => (validSerial_iff w).mpr (h w hw)
  rw [Part.withdrawAdd, if_pos hall]
  cases newSerials p.trust.withdrawn ws <;> rfl

/-! ## The codes of a rule's fields (Table 1.16) -/

theorem yesNo_of_code (b : Byte) (x : Bool) (h : b.toNat = if x then 1 else 0) : yesNo b = some x := by
  obtain rfl : b = if x then 1 else 0 := BitVec.eq_of_toNat_eq (by rw [h]; cases x <;> rfl)
  cases x <;> rfl

theorem Direction.ofCode_of_code (b : Byte) (d : Direction) (h : b.toNat = if d = .up then 0 else 1) :
    Direction.ofCode b = some d := by
  obtain rfl : b = d.code := BitVec.eq_of_toNat_eq (by rw [h]; cases d <;> rfl)
  cases d <;> rfl

theorem Direction.ofCode_of_ge (b : Byte) (h : 2 ≤ b.toNat) : Direction.ofCode b = none := by
  have h0 : b ≠ 0 := by rintro rfl; exact absurd h (by decide)
  have h1 : b ≠ 1 := by rintro rfl; exact absurd h (by decide)
  rw [Direction.ofCode, if_neg h0, if_neg h1]

theorem Action.ofCode_of_code (b : Byte) (x : Action)
    (h : b.toNat = if x = .forward then 0 else if x = .answer then 1 else 2) : Action.ofCode b = some x := by
  obtain rfl : b = x.code := BitVec.eq_of_toNat_eq (by rw [h]; cases x <;> rfl)
  cases x <;> rfl

theorem Action.ofCode_of_ge (b : Byte) (h : 3 ≤ b.toNat) : Action.ofCode b = none := by
  have h0 : b ≠ 0 := by rintro rfl; exact absurd h (by decide)
  have h1 : b ≠ 1 := by rintro rfl; exact absurd h (by decide)
  have h2 : b ≠ 2 := by rintro rfl; exact absurd h (by decide)
  rw [Action.ofCode, if_neg h0, if_neg h1, if_neg h2]

theorem kindOfCode_kindCode (k : Option (BitVec 4)) : kindOfCode (kindCode k) = some k := by
  cases k with
  | none => rfl
  | some k =>
    revert k
    decide

theorem kindOfCode_of_ge (b : Byte) (h : 16 ≤ b.toNat) (hany : b ≠ 0xFF) : kindOfCode b = none := by
  rw [kindOfCode, if_neg hany, if_neg (by omega)]

/-! ## The rule of a RULE-WRITE (R67) -/

/-- Three words that spell a rule, field by field (4.7.2). -/
structure Rule.Spelt (r : Rule) (w1 w2 w3 : Word) : Prop where
  enabled : (Word.byte w1 1).toNat = if r.enabled then 1 else 0
  direction : (Word.byte w1 2).toNat = if r.direction = .up then 0 else 1
  kind : r.kind = none ∧ Word.byte w1 3 = 0xFF ∨ ∃ k, r.kind = some k ∧ Word.byte w1 3 = k.setWidth 8
  sockets : Word.byte w2 0 = r.socketMask.setWidth 8
  states : Word.byte w2 1 = r.stateMask.setWidth 8
  action : (Word.byte w2 2).toNat = if r.action = .forward then 0 else if r.action = .answer then 1 else 2
  lane : Word.byte w2 3 = r.lane
  decimate : (Word.byte w3 0).toNat = if r.decimate then 1 else 0

theorem Rule.ofWords_of_spelt (r : Rule) (w1 w2 w3 : Word) (h : r.Spelt w1 w2 w3) : Rule.ofWords w1 w2 w3 = some r := by
  have hcode : Word.byte w1 3 = kindCode r.kind := by
    rcases h.kind with ⟨hk, hb⟩ | ⟨k, hk, hb⟩ <;> rw [hk, hb] <;> rfl
  have hkind : kindOfCode (Word.byte w1 3) = some r.kind := by rw [hcode, kindOfCode_kindCode]
  have hmasks : (Word.byte w2 0).toNat ≤ 15 ∧ (Word.byte w2 1).toNat ≤ 127 := by
    rw [h.sockets, h.states, BitVec.toNat_setWidth_of_le (by decide), BitVec.toNat_setWidth_of_le (by decide)]
    omega
  simp only [Rule.ofWords, yesNo_of_code _ _ h.enabled, Direction.ofCode_of_code _ _ h.direction, hkind,
    Action.ofCode_of_code _ _ h.action, yesNo_of_code _ _ h.decimate, if_pos hmasks, h.lane]
  rw [h.sockets, h.states]
  simp

/-- Whether a field of a RULE-WRITE other than its index has no meaning or is outside its range. -/
def RuleFieldsWrong (w1 w2 w3 : Word) : Prop :=
  2 ≤ (Word.byte w1 1).toNat ∨ 2 ≤ (Word.byte w1 2).toNat ∨ 16 ≤ (Word.byte w1 3).toNat ∧ Word.byte w1 3 ≠ 0xFF ∨
    16 ≤ (Word.byte w2 0).toNat ∨ 128 ≤ (Word.byte w2 1).toNat ∨ 3 ≤ (Word.byte w2 2).toNat ∨
    2 ≤ (Word.byte w3 0).toNat

theorem Rule.ofWords_wrong (w1 w2 w3 : Word) (h : RuleFieldsWrong w1 w2 w3) : Rule.ofWords w1 w2 w3 = none := by
  unfold Rule.ofWords
  split
  · next henabled hdirection hkind haction hdecimate =>
    rcases h with h | h | ⟨h, hany⟩ | h | h | h | h
    · rw [yesNo_of_ge _ h] at henabled; cases henabled
    · rw [Direction.ofCode_of_ge _ h] at hdirection; cases hdirection
    · rw [kindOfCode_of_ge _ h hany] at hkind; cases hkind
    · exact if_neg (by omega)
    · exact if_neg (by omega)
    · rw [Action.ofCode_of_ge _ h] at haction; cases haction
    · rw [yesNo_of_ge _ h] at hdecimate; cases hdecimate
  · rfl

theorem Part.ruleWrite_wrong (w1 w2 w3 : Word) (p : Part)
    (h : 32 ≤ (Word.byte w1 0).toNat ∨ RuleFieldsWrong w1 w2 w3) :
    Part.ruleWrite w1 w2 w3 p = p.refuseWith codeRuleWrite .invalid := by
  unfold Part.ruleWrite
  rcases h with hindex | hfields
  · rw [indexOf_of_ge _ hindex]
  · rw [Rule.ofWords_wrong w1 w2 w3 hfields]
    cases indexOf (Word.byte w1 0) <;> rfl

theorem Part.ruleWrite_right (w1 w2 w3 : Word) (p : Part) (i : Fin 32) (r : Rule) (hi : Word.byte w1 0 = byteOf i.val)
    (hr : Rule.ofWords w1 w2 w3 = some r) : Part.ruleWrite w1 w2 w3 p =
      if p.classifier.editing then
        (p.setClassifier { p.classifier with rules := p.classifier.rules.set i r }).respond codeRuleWrite .done []
      else p.refuseWith codeRuleWrite .wrongState := by
  rw [Part.ruleWrite, hi, indexOf_byteOf, hr]

/-! ## RULES-APPLY (R68) -/

theorem Rule.invalid_iff (r : Rule) : r.invalid = true ↔ r.enabled = true ∧ (2 < r.lane.toNat ∨
    r.action = .answer ∧ (r.direction = .up ∨ r.kind ≠ some 1) ∨
    ∃ k : BitVec 4, r.kind = some k ∧ k ∈ [(3 : BitVec 4), 4, 5, 6, 8, 9, 10, 11]) := by
  have hnever (k : BitVec 4) : neverRelayed k = true ↔ k ∈ [(3 : BitVec 4), 4, 5, 6, 8, 9, 10, 11] := by
    rw [← Bool.not_eq_false, neverRelayed_eq_false_iff, not_not]
  have hdirection : r.direction ≠ .down ↔ r.direction = .up := by cases r.direction <;> decide
  rw [Rule.invalid, Bool.and_eq_true, Bool.or_eq_true, Bool.or_eq_true, Bool.and_eq_true, Bool.or_eq_true, decide_eq_true_eq,
    beq_iff_eq, bne_iff_ne, bne_iff_ne, hdirection, kindPoll, or_assoc]
  cases r.kind with
  | none => simp
  | some k => simp only [hnever, Option.some.injEq, exists_eq_left']

theorem allIndices_eq_finRange : allIndices = List.finRange 32 := by decide

/-- The first invalid rule is the one below which no other is. -/
theorem Classifier.firstInvalid_eq_some (x : Classifier) (i : Fin 32) (hi : x.rules[i].invalid = true)
    (hlt : ∀ j : Fin 32, j < i → ¬x.rules[j].invalid = true) : x.firstInvalid = some i := by
  rw [Classifier.firstInvalid, allIndices_eq_finRange, List.find?_eq_some_iff_getElem]
  refine ⟨hi, i.val, by simp, by simp, fun j hj => ?_⟩
  simpa using hlt ⟨j, hj.trans i.isLt⟩ hj

theorem Classifier.firstInvalid_eq_none (x : Classifier) (h : ∀ i : Fin 32, ¬x.rules[i].invalid = true) :
    x.firstInvalid = none := List.find?_eq_none.mpr fun i _ => h i

theorem Part.rulesApply_live (p : Part) (h : p.classifier.editing = false) :
    p.rulesApply = p.refuseWith codeRulesApply .wrongState := if_neg (by simp [h])

theorem Part.rulesApply_invalid (p : Part) (i : Fin 32) (h : p.classifier.editing = true)
    (hi : p.classifier.firstInvalid = some i) :
    p.rulesApply = p.respond codeRulesApply .invalid [BitVec.ofNat 32 i.val] := by
  rw [Part.rulesApply, if_pos h, hi]

theorem Part.rulesApply_valid (p : Part) (h : p.classifier.editing = true) (hi : p.classifier.firstInvalid = none) :
    p.rulesApply = p.tableJob (.rulesApply p.classifier.rules) := by
  rw [Part.rulesApply, if_pos h, hi]

end Sys2Proof.Machine

namespace Sys2Proof.Proofs
open Sys2Proof Sys2Proof.Machine Sys2Proof.Claims

/-! ## The withdrawal list requests as they are taken -/

theorem exec_withdrawAdd_ready (s : State) (ws : List Word) (hs : Ready s) (h1 : 1 ≤ ws.length) (h3 : ws.length ≤ 3) :
    exec (.withdrawAdd ws) s = .next { s with part := Part.withdrawAdd ws (taken 0x18 ws s.part) } :=
  exec_request_ready _ 0x18 1 3 false ws (Part.withdrawAdd ws) s hs rfl (by omega)

/-- A WITHDRAW-ADD of valid serials, by the number of those that the list does not hold. -/
theorem withdrawAdd_acts (s : State) (ws new : List Word) (hs : Ready s) (h1 : 1 ≤ ws.length) (h3 : ws.length ≤ 3)
    (hvalid : ∀ w ∈ ws, w ≠ 0 ∧ w ≠ 0xFFFFFFFF) (hnew : new = newSerials s.part.trust.withdrawn ws) :
    (new = [] → Becomes (.withdrawAdd ws) s
      ((answered (taken 0x18 ws s.part) (response 0x18 .done
          [Word.ofBytesHalf 0 0 (halfOf s.part.trust.withdrawn.length)])).log
        { type := 7, socket := 7, detail := 0x3400, data := [] })) ∧
    (new ≠ [] → 256 < s.part.trust.withdrawn.length + new.length → Answers (.withdrawAdd ws) 0x18 ws .full [] s) ∧
    (new ≠ [] → s.part.trust.withdrawn.length + new.length ≤ 256 →
      Queues (.withdrawAdd ws) 0x18 ws (.withdrawAdd new) s) := by
  subst hnew
  have hexec := exec_withdrawAdd_ready s ws hs h1 h3
  rw [← taken_trust 0x18 ws s.part]
  have hact := Part.withdrawAdd_right ws (taken 0x18 ws s.part) hvalid
  refine ⟨fun hnone => ?_, fun hsome hfull => ?_, fun hsome hroom => ?_⟩
  · rw [Becomes, hexec, hact, if_pos hnone, Part.respond_eq_answered]
    rfl
  · exact answers_of_respond hexec (hact.trans ((if_neg hsome).trans (if_pos hfull)))
  · exact queues_of_tableJob hexec (hact.trans ((if_neg hsome).trans (if_neg (by omega))))

theorem withdrawClear_queues (s : State) (hs : Ready s) : Queues (.withdrawClear []) 0x19 [] .withdrawClear s :=
  queues_of_tableJob
    (exec_request_ready _ 0x19 0 0 false [] (fun p => p.tableJob .withdrawClear) s hs rfl (by simp)) rfl

/-! ## The rule table requests as they are taken -/

theorem rulesEdit_becomes (s : State) (hs : Ready s) : Becomes (.rulesEdit []) s
    (answered { taken 0x20 [] s.part with classifier := { s.part.classifier with editing := true } }
      (response 0x20 .done [0x01000000])) := by
  rw [Becomes, exec_request_ready _ 0x20 0 0 false [] Part.rulesEdit s hs rfl (by simp), Part.rulesEdit,
    Part.respond_eq_answered, taken_classifier]
  rfl

theorem exec_ruleWrite_ready (s : State) (w1 w2 w3 : Word) (hs : Ready s) : exec (.ruleWrite [w1, w2, w3]) s =
    .next { s with part := Part.ruleWrite w1 w2 w3 (taken 0x21 [w1, w2, w3] s.part) } :=
  exec_request_ready _ 0x21 3 3 false [w1, w2, w3] (Part.ruleWrite w1 w2 w3) s hs rfl (by simp)

theorem ruleWrite_invalid (s : State) (w1 w2 w3 : Word) (hs : Ready s)
    (h : 32 ≤ (Word.byte w1 0).toNat ∨ RuleFieldsWrong w1 w2 w3) :
    Answers (.ruleWrite [w1, w2, w3]) 0x21 [w1, w2, w3] .invalid [] s :=
  answers_of_respond (exec_ruleWrite_ready s w1 w2 w3 hs) (Part.ruleWrite_wrong w1 w2 w3 _ h)

/-- A RULE-WRITE in range, by the rule table's state. -/
theorem ruleWrite_acts (s : State) (w1 w2 w3 : Word) (i : Fin 32) (r : Rule) (hs : Ready s)
    (hi : Word.byte w1 0 = byteOf i.val) (hr : r.Spelt w1 w2 w3) :
    (s.part.classifier.editing = true → Becomes (.ruleWrite [w1, w2, w3]) s
      (answered { taken 0x21 [w1, w2, w3] s.part with
          classifier := { s.part.classifier with rules := s.part.classifier.rules.set i r } }
        (response 0x21 .done []))) ∧
    (s.part.classifier.editing = false →
      Answers (.ruleWrite [w1, w2, w3]) 0x21 [w1, w2, w3] .wrongState [] s) := by
  have hexec := exec_ruleWrite_ready s w1 w2 w3 hs
  have hact := Part.ruleWrite_right w1 w2 w3 (taken 0x21 [w1, w2, w3] s.part) i r hi (r.ofWords_of_spelt w1 w2 w3 hr)
  rw [taken_classifier] at hact
  refine ⟨fun hedit => ?_, fun hlive => ?_⟩
  · rw [Becomes, hexec, hact, if_pos hedit, Part.respond_eq_answered]
    rfl
  · exact answers_of_respond hexec (hact.trans (if_neg (by simp [hlive])))

theorem exec_rulesApply_ready (s : State) (hs : Ready s) :
    exec (.rulesApply []) s = .next { s with part := (taken 0x22 [] s.part).rulesApply } :=
  exec_request_ready _ 0x22 0 0 false [] Part.rulesApply s hs rfl (by simp)

theorem rulesApply_live (s : State) (hs : Ready s) (h : s.part.classifier.editing = false) :
    Answers (.rulesApply []) 0x22 [] .wrongState [] s :=
  answers_of_respond (exec_rulesApply_ready s hs) (Part.rulesApply_live _ (by rwa [taken_classifier]))

/-- RULES-APPLY while the table is EDITING, by the first rule that cannot stand in a LIVE table. -/
theorem rulesApply_acts (s : State) (hs : Ready s) (h : s.part.classifier.editing = true) :
    (∀ i : Fin 32, s.part.classifier.rules[i].invalid = true →
      (∀ j : Fin 32, j < i → ¬s.part.classifier.rules[j].invalid = true) →
      Answers (.rulesApply []) 0x22 [] .invalid [BitVec.ofNat 32 i.val] s) ∧
    ((∀ i : Fin 32, ¬s.part.classifier.rules[i].invalid = true) →
      Queues (.rulesApply []) 0x22 [] (.rulesApply s.part.classifier.rules) s) := by
  have hexec := exec_rulesApply_ready s hs
  rw [← taken_classifier 0x22 [] s.part] at h ⊢
  exact ⟨fun i hi hlt => answers_of_respond hexec
      (Part.rulesApply_invalid _ i h (Classifier.firstInvalid_eq_some _ i hi hlt)),
    fun hall => queues_of_tableJob hexec (Part.rulesApply_valid _ h (Classifier.firstInvalid_eq_none _ hall))⟩

/-- Settles O56, request by request. -/
theorem listAndRuleRequestsAct : Obligations.ListAndRuleRequestsAct := by
  intro s hs
  refine ⟨fun ws h1 h3 => ⟨fun hwrong => ?_, fun hvalid => ?_⟩, withdrawClear_queues s hs, rulesEdit_becomes s hs,
    fun w1 w2 w3 i r hi he hd hk hsm hst ha hl hdec =>
      ruleWrite_acts s w1 w2 w3 i r hs hi ⟨he, hd, hk, hsm, hst, ha, hl, hdec⟩,
    fun w1 w2 w3 => ruleWrite_invalid s w1 w2 w3 hs, rulesApply_live s hs, fun bad hbad hedit => ?_⟩
  · exact answers_of_respond (exec_withdrawAdd_ready s ws hs h1 h3) (Part.withdrawAdd_wrong ws _ hwrong)
  · exact ⟨newSerials s.part.trust.withdrawn ws, mem_newSerials _ _, newSerials_nodup _ _, newSerials_sublist _ _,
      withdrawAdd_acts s ws _ hs h1 h3 hvalid rfl⟩
  · simp only [hbad, ← Rule.invalid_iff]
    exact rulesApply_acts s hs hedit

end Sys2Proof.Proofs

namespace Sys2Proof.Machine
open Sys2Proof.Claims

/-! ## A property of the part along a step -/

/-- What makes a property of the part an invariant of the machine: a cold start brings it about, a cut, the pins and the
passing of time leave it, and so does, while the part operates, every action that keeps what `Part.Keeps` names. -/
structure StepInvariant (I : Part → Prop) : Prop where
  coldStart : ∀ (a : StoreArray) (k : ColdStartCause) (p : Part), I (Part.coldStart a k p)
  cut : ∀ (k : CutCause) (p : Part), I p → I (Part.cut k p)
  pins : ∀ (p : Part) (contacts : PerSocket Bool) (lock : Bool), I p → I { p with contacts := contacts, lockPin := lock }
  tick : ∀ p : Part, I p → I p.tick
  keeps : ∀ p q : Part, p.power = .on → p.Keeps q → I p → I q

/-- A command that meets a part held or without power, a cold start apart (log 18). -/
theorem StepInvariant.exec_held {I : Part → Prop} (hI : StepInvariant I) (c : Instr) (s t : State)
    (hoff : s.part.power ≠ .on) (hcold : ∀ k, c ≠ .coldStart k) (hs : I s.part) (hexec : exec c s = .next t) :
    I t.part := by
  cases c with
  | coldStart k => exact absurd rfl (hcold k)
  | powerFailsOrResetnAsserted k i =>
    cases hexec
    exact hI.cut k s.part hs
  | contactAsserts n =>
    cases (exec_contactAsserts_unwatched n s (.inl hoff)).symm.trans hexec
    exact hI.pins s.part _ s.part.lockPin hs
  | contactDeasserts n =>
    cases (exec_contactDeasserts_unwatched n s (.inl hoff)).symm.trans hexec
    exact hI.pins s.part _ s.part.lockPin hs
  | lockChange b =>
    cases (exec_lockChange_held b s hoff).symm.trans hexec
    exact hI.pins s.part s.part.contacts b hs
  | _ =>
    rw [Machine.exec_held _ s hoff] at hexec
    · cases hexec
      exact hs
    all_goals exact nofun

/-- A command, by what it finds: a cold start anew, a cut, any other command of an operating part, a part that is held. -/
theorem StepInvariant.exec {I : Part → Prop} (hI : StepInvariant I) (c : Instr) (s t : State) (hs : I s.part)
    (hexec : Machine.exec c s = .next t) : I t.part := by
  by_cases hcold : ∃ k, c = .coldStart k
  · obtain ⟨k, rfl⟩ := hcold
    cases hexec
    exact hI.coldStart s.array k s.part
  push Not at hcold
  by_cases hon : s.part.power = .on
  · by_cases hcut : ∃ k i, c = .powerFailsOrResetnAsserted k i
    · obtain ⟨k, i, rfl⟩ := hcut
      cases hexec
      exact hI.cut k s.part hs
    · push Not at hcut
      exact hI.keeps s.part t.part hon (exec_keeps c s t hon hexec hcold hcut) hs
  · exact hI.exec_held c s t hon hcold hs hexec

theorem StepInvariant.idle {I : Part → Prop} (hI : StepInvariant I) (s : State) (hs : I s.part) : I s.idle.part := by
  unfold State.idle
  split
  · exact hs
  · exact hI.tick s.part hs
  · split
    · exact hI.tick s.part hs
    · exact hs

theorem StepInvariant.step {I : Part → Prop} (hI : StepInvariant I) (s t : State) (hs : I s.part)
    (hstep : Machine.step s = .next t) : I t.part := by
  unfold Machine.step at hstep
  split at hstep
  · cases hstep
    exact hI.idle s hs
  · next c rest _ => exact hI.exec c { s with pending := rest } t hs hstep

/-- The permit lines of an operating part are right (R142). A cut deasserts them whatever their terms say (R183), but leaves
the part not operating. -/
theorem permitsRight_stepInvariant : StepInvariant fun p => p.power = .on → p.PermitsRight where
  coldStart a k p _ := (p.coldStart_spec a k).1
  cut k p _ hon := absurd hon (p.cut_power k)
  pins _ _ _ hp := hp
  tick _ hp := hp
  keeps _ _ hon hkeeps hp _ := hkeeps.permits (hp hon)

/-- The grants are sound (R138 to R140), whether the part operates or not. -/
theorem grantsSound_stepInvariant : StepInvariant Part.GrantsSound where
  coldStart a k p := by
    obtain ⟨-, -, -, hgrants, -⟩ := p.coldStart_spec a k
    exact hgrants
  cut k p hp := by
    obtain ⟨-, hgrants, -⟩ := p.cut_keeps k
    exact hgrants hp
  pins _ _ _ hp := hp
  tick _ hp := hp
  keeps _ _ _ hkeeps hp := hkeeps.grants hp

end Sys2Proof.Machine

namespace Sys2Proof.Proofs
open Sys2Proof Sys2Proof.Machine Sys2Proof.Claims

/-- Settles O6: whatever changes a term of R142 ends with the permit lines evaluated again. -/
theorem permitLinesStayRight : Obligations.PermitLinesStayRight := fun s t =>
  permitsRight_stepInvariant.step s t

/-- Settles O11: the grants change at a recomputation, at a cold start and at the in-band reset, and each leaves them sound. -/
theorem sharesAlwaysSumToTheToolGrant : Obligations.SharesAlwaysSumToTheToolGrant := fun s t =>
  grantsSound_stepInvariant.step s t

end Sys2Proof.Proofs

namespace Sys2Proof.Machine
open Sys2Proof.Claims

/-! ## Derating and trust percent (R132, R133) -/

theorem deratePercent_at_knee (t tk tc : Int) (h : t ≤ tk) : deratePercent t tk tc = 100 := if_pos h

theorem deratePercent_at_cutoff (t tk tc : Int) (hk : tk < t) (h : tc ≤ t) : deratePercent t tk tc = 0 := by
  rw [deratePercent, if_neg (by omega), if_pos h]

/-- Between knee and cutoff the derating is the truncated quotient, and falls short of 100. -/
theorem deratePercent_between (t tk tc : Int) (hk : tk < t) (hc : t < tc) :
    (deratePercent t tk tc : Int) = 100 * (tc - t) / (tc - tk) ∧ deratePercent t tk tc < 100 := by
  have hquotient : (deratePercent t tk tc : Int) = 100 * (tc - t) / (tc - tk) := by
    rw [deratePercent, if_neg (by omega), if_neg (by omega)]
    exact Int.toNat_of_nonneg (Int.ediv_nonneg (by omega) (by omega))
  have hless : 100 * (tc - t) / (tc - tk) < 100 := Int.ediv_lt_of_lt_mul (by omega) (by omega)
  exact ⟨hquotient, by omega⟩

theorem deratePercent_le (t tk tc : Int) : deratePercent t tk tc ≤ 100 := by
  by_cases hk : t ≤ tk
  · rw [deratePercent_at_knee t tk tc hk]
  by_cases hc : tc ≤ t
  · rw [deratePercent_at_cutoff t tk tc (by omega) hc]
    omega
  · exact (deratePercent_between t tk tc (by omega) (by omega)).2.le

theorem Part.derateOf_le (p : Part) (n : Socket) : p.derateOf n ≤ 100 := by
  unfold Part.derateOf
  split
  · exact deratePercent_le _ _ _
  · exact le_rfl

theorem trustPercent_le (m : Marks) (r l : Nat) : trustPercent m r l ≤ 100 := by
  refine (Nat.min_le_left _ _).trans ?_
  split
  · exact Nat.min_le_left _ _
  · exact le_rfl

theorem Part.trustOf_le (p : Part) (n : Socket) : p.trustOf n ≤ 100 := by
  unfold Part.trustOf
  split
  · exact trustPercent_le _ _ _
  · exact le_rfl

/-! ## A grant stays within its class rating (R134) -/

/-- Two percentages reduce a rating. -/
theorem grantLimit_le_rating (allowance ic d tr : Nat) (hd : d ≤ 100) (htr : tr ≤ 100) :
    grantLimit allowance ic d tr ≤ ic := by
  have hreduced : ic * d * tr ≤ 10000 * ic := calc
    ic * d * tr ≤ ic * 100 * 100 := Nat.mul_le_mul (Nat.mul_le_mul_left ic hd) htr
    _ = 10000 * ic := by omega
  exact (Nat.min_le_right _ _).trans (Nat.div_le_of_le_mul hreduced)

theorem Part.classOf_of_index (p : Part) (n : Socket) (i : Fin 32) (h : (p.session n).classIndex = some i) :
    p.classOf n = p.trust.classes[i] := by
  simp only [Part.classOf, h]

/-- A socket's class entry stands in the class table (R119). -/
theorem Part.mem_of_classOf (p : Part) (n : Socket) (e : ClassEntry) (h : p.classOf n = some e) :
    ∃ i : Fin 32, p.trust.classes[i] = some e := by
  unfold Part.classOf at h
  split at h
  · next i _ => exact ⟨i, h⟩
  · cases h

theorem Part.grantOf_le (p : Part) (n : Socket) (b : Nat)
    (h : ∀ (i : Fin 32) e, p.trust.classes[i] = some e → e.ic.toNat ≤ b) : p.grantOf n ≤ b := by
  unfold Part.grantOf
  split
  · next t e _ he =>
    split
    · obtain ⟨i, hi⟩ := p.mem_of_classOf n e he
      exact (grantLimit_le_rating _ _ _ _ (p.derateOf_le n) (p.trustOf_le n)).trans (h i e hi)
    · exact Nat.zero_le b
  · exact Nat.zero_le b

/-! ## The sum of the string grants (R137, R138) -/

theorem stringGrants_sum_le (paired : Bool) (g : PerSocket Nat) (b : Nat) (h : ∀ n, g.get n ≤ b) :
    (stringGrants paired g).sum ≤ 4 * b := by
  have h0 : g.s0 ≤ b := h 0
  have h1 : g.s1 ≤ b := h 1
  have h2 : g.s2 ≤ b := h 2
  have h3 : g.s3 ≤ b := h 3
  cases paired <;> simp only [stringGrants, if_true, Bool.false_eq_true, if_false, List.sum_cons, List.sum_nil] <;> omega

theorem Part.computeGrants_strings_sum (p : Part) :
    p.computeGrants.strings.s0 + p.computeGrants.strings.s1 + p.computeGrants.strings.s2 + p.computeGrants.strings.s3 =
      (stringGrants p.paired p.computeGrants.grant).sum :=
  perString_sum _ (stringGrants_length _ _)

theorem Part.computeGrants_toolGrant (p : Part) : p.computeGrants.toolGrant =
    min p.mgmt.settings.toolCeiling (stringGrants p.paired p.computeGrants.grant).sum := rfl

end Sys2Proof.Machine

namespace Sys2Proof.Proofs
open Sys2Proof Sys2Proof.Machine Sys2Proof.Claims

/-- Settles O40: no grant exceeds its class rating, so the sum of at most four string grants is at most 4 × 2000. -/
theorem toolGrantIsTheSmallerOfCeilingAndSum : Obligations.ToolGrantIsTheSmallerOfCeilingAndSum := by
  rintro p g c sum rfl rfl rfl
  rw [p.computeGrants_strings_sum, p.computeGrants_toolGrant]
  refine ⟨rfl, Nat.min_le_left _ _, fun hsum => by omega, fun hc => by omega, fun hrated => ?_, fun hc => by omega⟩
  refine stringGrants_sum_le _ _ 2000 fun n => ?_
  rw [p.computeGrants_grant]
  exact p.grantOf_le n 2000 hrated

end Sys2Proof.Proofs

namespace Sys2Proof.Machine
open Sys2Proof.Claims

/-! ## Apportionment under a ceiling that does not suffice (R139) -/

/-- The number of strings with a grant above 0. -/
def grantedCount (ss : List Nat) : Nat := ss.countP fun x => decide (0 < x)

@[simp] theorem grantedCount_nil : grantedCount [] = 0 := rfl

@[simp] theorem grantedCount_cons (s : Nat) (ss : List Nat) :
    grantedCount (s :: ss) = grantedCount ss + if 0 < s then 1 else 0 := by
  simp [grantedCount, List.countP_cons]

theorem grantedCount_pos (ss : List Nat) (h : 0 < ss.sum) : 0 < grantedCount ss := by
  induction ss with
  | nil => exact absurd h (by simp)
  | cons s ss ih =>
    rw [List.sum_cons] at h
    rw [grantedCount_cons]
    split
    · omega
    · exact Nat.add_pos_left (ih (by omega)) 0

/-- The truncated part of a grant under a ceiling below the sum leaves room exactly where there is a grant. -/
theorem firstShare_lt_iff (c sum s : Nat) (h : c < sum) : firstShare c sum s < s ↔ 0 < s := by
  refine ⟨fun hlt => by omega, fun hs => ?_⟩
  exact (Nat.div_lt_iff_lt_mul (by omega)).mpr (Nat.mul_lt_mul_of_pos_left h hs)

/-- Each truncation loses less than one step, and loses nothing of a grant of 0. -/
theorem firstShares_cover (c sum : Nat) (hsum : 0 < sum) (ss : List Nat) :
    ss.sum * c + grantedCount ss ≤ ((ss.map (firstShare c sum)).sum + grantedCount ss) * sum := by
  induction ss with
  | nil => simp
  | cons s ss ih =>
    have hshare : s * c < (firstShare c sum s + 1) * sum := Nat.lt_mul_of_div_lt (Nat.lt_succ_self _) hsum
    simp only [List.sum_cons, List.map_cons, grantedCount_cons]
    split
    · calc (s + ss.sum) * c + (grantedCount ss + 1)
          = (s * c + 1) + (ss.sum * c + grantedCount ss) := by ring
        _ ≤ (firstShare c sum s + 1) * sum + ((ss.map (firstShare c sum)).sum + grantedCount ss) * sum :=
          Nat.add_le_add hshare ih
        _ = (firstShare c sum s + (ss.map (firstShare c sum)).sum + (grantedCount ss + 1)) * sum := by ring
    · next hs =>
      obtain rfl : s = 0 := by omega
      simpa [firstShare] using ih

/-- What the first shares leave of the ceiling. -/
def remainder (c : Nat) (ss : List Nat) : Nat := c - (ss.map (firstShare c ss.sum)).sum

/-- Less than one step for each string with a grant is left over (R139). -/
theorem remainder_lt_grantedCount (c : Nat) (ss : List Nat) (h : c < ss.sum) : remainder c ss < grantedCount ss := by
  have hpos := grantedCount_pos ss (by omega)
  have hcover := firstShares_cover c ss.sum (by omega) ss
  rw [Nat.mul_comm ss.sum c] at hcover
  have hlt : c < (ss.map (firstShare c ss.sum)).sum + grantedCount ss :=
    lt_of_mul_lt_mul_right (show c * ss.sum < _ * ss.sum by omega) (Nat.zero_le _)
  unfold remainder
  omega

/-- A string's step in the first pass: one while the strings with a grant before it have not taken the remainder. -/
def firstStep (rem : Nat) (ss : List Nat) (k s : Nat) : Nat :=
  if 0 < s ∧ grantedCount (ss.take k) < rem then 1 else 0

/-- One pass from first shares that leave room exactly where there is a grant: the remainder shrinks by a step for each
string with a grant, and the steps go to the first of them. -/
theorem handOutPass_first (f : Nat → Nat) (hf : ∀ s, f s < s ↔ 0 < s) (ss : List Nat) (rem : Nat) :
    (handOutPass rem (ss.zip (ss.map f))).1 = rem - grantedCount ss ∧
    ∀ k : Nat, ((handOutPass rem (ss.zip (ss.map f))).2.map Prod.snd)[k]? =
      ss[k]?.map fun s => f s + firstStep rem ss k s := by
  induction ss generalizing rem with
  | nil => exact ⟨rfl, fun k => rfl⟩
  | cons s ss ih =>
    simp only [List.map_cons, List.zip_cons_cons, handOutPass, hf, Bool.and_eq_true, decide_eq_true_eq]
    split
    · next hstep =>
      obtain ⟨hrem, hshares⟩ := ih (rem - 1)
      refine ⟨by simp only [hrem, grantedCount_cons, hstep, if_true]; omega, fun k => ?_⟩
      cases k with
      | zero => simp [firstStep, hstep]
      | succ k =>
        simp only [List.map_cons, List.getElem?_cons_succ, hshares k, firstStep, List.take_succ_cons, grantedCount_cons,
          hstep, if_true, Nat.lt_sub_iff_add_lt]
    · next hstep =>
      obtain ⟨hrem, hshares⟩ := ih rem
      refine ⟨?_, fun k => ?_⟩
      · rw [hrem, grantedCount_cons]
        split <;> omega
      cases k with
      | zero =>
        have hnone : firstStep rem (s :: ss) 0 s = 0 := if_neg fun hs => hstep ⟨hs.2, hs.1⟩
        simp [hnone]
      | succ k =>
        simp only [List.map_cons, List.getElem?_cons_succ, hshares k, firstStep, List.take_succ_cons, grantedCount_cons]
        by_cases hs : 0 < s
        · obtain rfl : rem = 0 := by omega
          simp
        · simp [hs]

/-- No pass is made without a remainder. -/
theorem handOut_done (fuel : Nat) (xs : List (Nat × Nat)) : handOut fuel 0 xs = xs := by
  cases fuel with
  | zero => rfl
  | succ fuel => exact if_pos rfl

/-- A pass without a remainder hands out nothing. -/
theorem handOutPass_zero (xs : List (Nat × Nat)) : handOutPass 0 xs = (0, xs) := by
  induction xs with
  | nil => rfl
  | cons x xs ih => simp [handOutPass, ih]

/-- One pass is enough when it uses up the remainder. -/
theorem handOut_one_pass (rem : Nat) (xs : List (Nat × Nat)) (h : (handOutPass rem xs).1 = 0) :
    handOut rem rem xs = (handOutPass rem xs).2 := by
  cases rem with
  | zero => rw [handOut_done, handOutPass_zero]
  | succ rem => rw [handOut, if_neg (by omega), h, handOut_done]

/-- The shares under a ceiling below the sum: the truncated parts, and the steps left over to the first strings with a
grant. -/
theorem apportion_getElem? (c : Nat) (ss : List Nat) (h : c < ss.sum) (k : Nat) : (apportion c ss)[k]? =
    ss[k]?.map fun s => firstShare c ss.sum s + firstStep (remainder c ss) ss k s := by
  obtain ⟨hrem, hshares⟩ := handOutPass_first (firstShare c ss.sum) (fun s => firstShare_lt_iff c ss.sum s h) ss
    (remainder c ss)
  have hleft := remainder_lt_grantedCount c ss h
  have hpass : apportion c ss = (handOut (remainder c ss) (remainder c ss)
      (ss.zip (ss.map (firstShare c ss.sum)))).map Prod.snd := if_neg (by omega)
  rw [hpass, handOut_one_pass _ _ (by omega)]
  exact hshares k

end Sys2Proof.Machine

namespace Sys2Proof.Proofs
open Sys2Proof Sys2Proof.Machine Sys2Proof.Claims

/-- R139 for any number of strings. -/
theorem apportion_follows (c : Nat) (ss : List Nat) : (ss.sum ≤ c → apportion c ss = ss) ∧
    (c < ss.sum → (apportion c ss).length = ss.length ∧ (apportion c ss).sum = c ∧
      ∀ k : Nat, ∀ s ∈ ss[k]?, ∀ h ∈ (apportion c ss)[k]?,
        s * c / ss.sum ≤ h ∧ h ≤ s * c / ss.sum + 1 ∧ h ≤ s ∧
        h = s * c / ss.sum + (if 0 < s ∧ (ss.take k).countP (fun x => decide (0 < x)) <
          c - (ss.map fun x => x * c / ss.sum).sum then 1 else 0)) := by
  refine ⟨fun hle => if_pos hle, fun hlt => ⟨apportion_length c ss, ?_, fun k s hs h hh => ?_⟩⟩
  · rw [apportion_sum, Nat.min_eq_left hlt.le]
  rw [Option.mem_def] at hs hh
  have hformula : h = s * c / ss.sum + firstStep (remainder c ss) ss k s := by
    rw [apportion_getElem? c ss hlt k, hs] at hh
    exact (Option.some.inj hh).symm
  have hstep : firstStep (remainder c ss) ss k s ≤ 1 := by
    unfold firstStep
    split <;> omega
  have hgrant : h ≤ s := by simpa [List.getD_eq_getElem?_getD, hs, hh] using apportion_le c ss k
  exact ⟨by omega, by omega, hgrant, hformula⟩

end Sys2Proof.Proofs

namespace Sys2Proof.Machine
open Sys2Proof.Claims

/-! ## Derating, trust, grant and overheat of a socket, case by case (R132 to R134, R141) -/

theorem SessState.trusted_eq_false_iff (st : SessState) : st.trusted = false ↔ st ≠ .admitted ∧ st ≠ .suspect := by
  rw [← not_or, ← SessState.trusted_iff, Bool.not_eq_true]

theorem Part.derateOf_untrusted (p : Part) (n : Socket) (h : (p.session n).state.trusted = false) :
    p.derateOf n = 100 := by
  simp only [Part.derateOf, h]

theorem Part.derateOf_unmeasured (p : Part) (n : Socket) (h : (p.session n).telemetry = none) : p.derateOf n = 100 := by
  unfold Part.derateOf
  split
  · next ht _ => exact absurd (h.symm.trans ht) nofun
  · rfl

theorem Part.trustOf_untrusted (p : Part) (n : Socket) (h : (p.session n).state.trusted = false) :
    p.trustOf n = 100 := by
  simp [Part.trustOf, h]

theorem Part.trustOf_trusted (p : Part) (n : Socket) (h : (p.session n).state.trusted = true) :
    p.trustOf n = trustPercent (p.session n).marks p.mgmt.settings.retiredCap p.mgmt.settings.limpCap := if_pos h

theorem Part.grantOf_without_baseline (p : Part) (n : Socket) (h : (p.session n).baseline = none) :
    p.grantOf n = 0 := by
  unfold Part.grantOf
  split <;> simp [h]

theorem Part.grantOf_stale (p : Part) (n : Socket) (h : p.grants.stale.get n = true) : p.grantOf n = 0 := by
  unfold Part.grantOf
  split <;> simp [h]

theorem Part.hot_untrusted (p : Part) (n : Socket) (h : (p.session n).state.trusted = false) : p.hot n = false := by
  unfold Part.hot
  split <;> simp [h]

theorem Part.hot_unmeasured (p : Part) (n : Socket) (h : (p.session n).telemetry = none) : p.hot n = false := by
  simp only [Part.hot, h]

section
variable (p : Part) (n : Socket) (t : Telemetry) (i : Fin 32) (e : ClassEntry)
  (hmeasured : (p.session n).telemetry = some t) (hindex : (p.session n).classIndex = some i)
  (hentry : p.trust.classes[i] = some e)
include hmeasured hindex hentry

theorem Part.derateOf_measured (h : (p.session n).state.trusted = true) :
    p.derateOf n = deratePercent t.temperature e.tk e.tc := by
  simp only [Part.derateOf, h, hmeasured, p.classOf_of_index n i hindex, hentry]

/-- Below the cell floor nothing is granted. -/
theorem Part.grantOf_below_floor (h : t.cellMin.toNat < e.cellFloor.toNat) : p.grantOf n = 0 := by
  simp [Part.grantOf, hmeasured, p.classOf_of_index n i hindex, hentry, h]

/-- The grant of a trusted session with fresh telemetry at or above the cell floor. -/
theorem Part.grantOf_trusted (htrusted : (p.session n).state.trusted = true)
    (hbaseline : (p.session n).baseline.isSome = true) (hfresh : p.grants.stale.get n = false)
    (hfloor : e.cellFloor.toNat ≤ t.cellMin.toNat) :
    p.grantOf n = grantLimit t.allowance.toNat e.ic.toNat (p.derateOf n) (p.trustOf n) := by
  simp [Part.grantOf, hmeasured, p.classOf_of_index n i hindex, hentry, htrusted, hbaseline, hfresh, hfloor]

theorem Part.hot_iff (h : (p.session n).state.trusted = true) : p.hot n = true ↔ e.tc ≤ t.temperature := by
  simp [Part.hot, hmeasured, p.classOf_of_index n i hindex, hentry, h]

end

/-! ## Values by string and by socket (R137, R139, R140) -/

/-- With four strings every value has a string. -/
theorem perString_of_four (xs : List Nat) (h : xs.length = 4) :
    [(perString xs).s0, (perString xs).s1, (perString xs).s2, (perString xs).s3] = xs := by
  match xs, h with
  | [_, _, _, _], _ => rfl

/-- With two strings the values of the other two are 0. -/
theorem perString_of_two (xs : List Nat) (h : xs.length = 2) :
    [(perString xs).s0, (perString xs).s1] = xs ∧ (perString xs).s2 = 0 ∧ (perString xs).s3 = 0 := by
  match xs, h with
  | [_, _], _ => exact ⟨rfl, rfl, rfl⟩

theorem Part.computeGrants_published (p : Part) (n : Socket) :
    p.computeGrants.published.get n = p.computeGrants.shares.get (stringOf p.paired n) := PerSocket.get_ofFn _ n

theorem Part.computeGrants_derate (p : Part) (n : Socket) : p.computeGrants.derate.get n = p.derateOf n :=
  PerSocket.get_ofFn _ n

theorem Part.computeGrants_trust (p : Part) (n : Socket) : p.computeGrants.trust.get n = p.trustOf n :=
  PerSocket.get_ofFn _ n

/-- The shares of the strings, by string. -/
theorem Part.computeGrants_shares (p : Part) : p.computeGrants.shares =
    perString (apportion p.mgmt.settings.toolCeiling (stringGrants p.paired p.computeGrants.grant)) := rfl

theorem Part.computeGrants_strings (p : Part) :
    p.computeGrants.strings = perString (stringGrants p.paired p.computeGrants.grant) := rfl

/-- PARALLEL: each socket is a string of its own. -/
theorem Part.computeGrants_parallel (p : Part) (h : p.paired = false) :
    p.computeGrants.published = p.computeGrants.shares := by
  refine PerSocket.ext_get fun n => ?_
  rw [p.computeGrants_published, h]
  rfl

/-- PAIRED: the two sockets of a string publish its share. -/
theorem Part.computeGrants_paired (p : Part) (h : p.paired = true) : p.computeGrants.published =
    ⟨p.computeGrants.shares.s0, p.computeGrants.shares.s0, p.computeGrants.shares.s1, p.computeGrants.shares.s1⟩ := by
  refine PerSocket.ext_get fun n => ?_
  rw [p.computeGrants_published, h]
  match n with
  | 0 => rfl
  | 1 => rfl
  | 2 => rfl
  | 3 => rfl

/-! ## The parts of a recomputation (R131) -/

/-- An action that leaves the other units and everything that `Part.Plain` names changes the fault unit, the tool link, the
management unit and the store controller alone. -/
theorem Part.SameUnits.eq_update {p q : Part} (hunits : p.SameUnits q) (hplain : p.Plain q) :
    q = { p with fault := q.fault, tlp := q.tlp, mgmt := q.mgmt, ctl := q.ctl } := by
  obtain ⟨hlinks, hclassifier, hengine, hproof, htrust, hgrants⟩ := hunits
  have hclock := hplain.clock
  have hpower := hplain.power
  have hcontacts := hplain.contacts
  have hlock := hplain.lockPin
  cases q
  simp_all only

theorem Part.reportCause_unchanged (p : Part) (c : Cond) (k : Causes)
    (h : p.ctl.loading = true ∨ k.present c = p.fault.causes.present c) : p.reportCause c k = p.recordCauses k :=
  h.elim (p.reportCause_loading c k) (p.reportCause_same c k)

/-- The FAULT entry of a cause that appears is queued when there is room left after it. -/
theorem Part.reportCause_appears_queued (p : Part) (c : Cond) (k : Causes) (hl : p.ctl.loading = false)
    (h0 : p.fault.causes.present c = false) (h1 : k.present c = true) (hroom : LogRoom (p.reportCause c k)) :
    Logged (p.reportCause c k) (faultEntry c) := by
  rw [p.reportCause_appears c k hl h0 h1] at hroom ⊢
  exact Part.log_logged_of_room _ _ hroom

theorem Part.evalOverheat_eq (p : Part) (hot : Bool) (h : hot = true ↔ ∃ n, p.hot n = true) :
    p.evalOverheat = p.reportCause .overheat { p.fault.causes with overheat := hot } := by
  have hany : allSockets.any p.hot = hot := by
    rw [Bool.eq_iff_iff, List.any_eq_true, h]
    exact ⟨fun ⟨n, _, hn⟩ => ⟨n, hn⟩, fun ⟨n, hn⟩ => ⟨n, Socket.mem_all n, hn⟩⟩
  rw [Part.evalOverheat, hany]

theorem Grants.decreased_iff (g : Grants) :
    g.decreased = true ↔ g.toolGrant < g.prevTool ∨ ∃ n, g.published.get n < g.prevPublished.get n := by
  simp only [Grants.decreased, Bool.or_eq_true, decide_eq_true_eq, List.any_eq_true]
  exact or_congr_right ⟨fun ⟨n, _, hn⟩ => ⟨n, hn⟩, fun ⟨n, hn⟩ => ⟨n, Socket.mem_all n, hn⟩⟩

/-- A fall of the tool grant or of a published allowance places an AGGREGATE (R148). -/
theorem Part.noteDecrease_fell (p : Part) (h : p.grants.decreased = true) :
    p.noteDecrease = { p.placeAggregate p.aggregateFrame with grants := p.grants.keepPrevious } := by
  have hgrants : (p.placeAggregate p.aggregateFrame).grants = p.grants := by simp [Part.placeAggregate]
  simp only [Part.noteDecrease, h, if_true, Part.sendAggregate, hgrants]
  rfl

theorem Part.noteDecrease_rose (p : Part) (h : p.grants.decreased = false) :
    p.noteDecrease = { p with grants := p.grants.keepPrevious } := by
  simp only [Part.noteDecrease, h, Bool.false_eq_true, if_false]
  rfl

/-- The part at the comparison of the grants with their previous values: steps 1 to 4 of R131 are done. -/
def Part.regranted (p : Part) : Part := (p.setGrants p.computeGrants).evalOverheat.evalPermits

theorem Part.recompute_eq (p : Part) : p.recompute = p.regranted.noteDecrease := rfl

theorem Part.regranted_eq (p : Part) (hot : Bool) (h : hot = true ↔ ∃ n, p.hot n = true) : p.regranted =
    ((p.setGrants p.computeGrants).reportCause .overheat { p.fault.causes with overheat := hot }).evalPermits :=
  congrArg Part.evalPermits ((p.setGrants p.computeGrants).evalOverheat_eq hot h)

/-- The report of the overheat cause and the evaluation of the permit lines leave the grants as computed. -/
theorem Part.regranted_grants (p : Part) : p.regranted.grants = p.computeGrants :=
  (Part.reportCause_units (p.setGrants p.computeGrants) _ _).grants

theorem Part.regranted_frame (p : Part) : p.regranted = { p with
    grants := p.computeGrants, fault := p.regranted.fault, tlp := p.regranted.tlp, mgmt := p.regranted.mgmt,
    ctl := p.regranted.ctl } := by
  have hunits : (p.setGrants p.computeGrants).SameUnits p.regranted :=
    (Part.reportCause_units _ _ _).trans ⟨rfl, rfl, rfl, rfl, rfl, rfl⟩
  have hplain : (p.setGrants p.computeGrants).Plain p.regranted :=
    (Part.evalOverheat_ordinary _).toPlain.trans (Part.evalPermits_ordinary _).toPlain
  exact hunits.eq_update hplain

end Sys2Proof.Machine

namespace Sys2Proof.Proofs
open Sys2Proof Sys2Proof.Machine Sys2Proof.Claims

/-! ## The formulas of chapter 8 and the recomputation -/

/-- Every value that a recomputation computes (R132, R133, R137 to R140). -/
theorem computeGrants_follows (p : Part) (g : Grants) (paired : Bool) (ss sh : List Nat) (hg : g = p.computeGrants)
    (hpaired : paired = true ↔ p.mgmt.settings.topology = 1) (hss : ss = stringGrants paired g.grant)
    (hsh : sh = apportion p.mgmt.settings.toolCeiling ss) :
    g = { p.grants with derate := g.derate, trust := g.trust, grant := g.grant, strings := g.strings,
                        toolGrant := g.toolGrant, shares := g.shares, published := g.published } ∧
    (∀ n, g.grant.get n = p.grantOf n ∧
      ((p.session n).state ≠ .admitted ∧ (p.session n).state ≠ .suspect →
        g.derate.get n = 100 ∧ g.trust.get n = 100) ∧
      ((p.session n).telemetry = none → g.derate.get n = 100) ∧
      ((p.session n).state = .admitted ∨ (p.session n).state = .suspect →
        g.trust.get n = trustPercent (p.session n).marks p.mgmt.settings.retiredCap p.mgmt.settings.limpCap ∧
        ∀ (t : Telemetry) (i : Fin 32) (e : ClassEntry), (p.session n).telemetry = some t →
          (p.session n).classIndex = some i → p.trust.classes[i] = some e →
          g.derate.get n = deratePercent t.temperature e.tk e.tc)) ∧
    (paired = false → [g.strings.s0, g.strings.s1, g.strings.s2, g.strings.s3] = ss ∧
      [g.shares.s0, g.shares.s1, g.shares.s2, g.shares.s3] = sh ∧ g.published = g.shares) ∧
    (paired = true → [g.strings.s0, g.strings.s1] = ss ∧ g.strings.s2 = 0 ∧ g.strings.s3 = 0 ∧
      [g.shares.s0, g.shares.s1] = sh ∧ g.shares.s2 = 0 ∧ g.shares.s3 = 0 ∧
      g.published = ⟨g.shares.s0, g.shares.s0, g.shares.s1, g.shares.s1⟩) := by
  obtain rfl : paired = p.paired := by
    rw [Bool.eq_iff_iff, hpaired]
    exact beq_iff_eq.symm
  subst hg hss hsh
  refine ⟨rfl, fun n => ⟨p.computeGrants_grant n, fun hst => ?_, fun ht => ?_, fun hst => ⟨?_, fun t i e ht hi he => ?_⟩⟩,
    fun hpar => ?_, fun hpair => ?_⟩
  · have hun := (SessState.trusted_eq_false_iff _).mpr hst
    exact ⟨(p.computeGrants_derate n).trans (p.derateOf_untrusted n hun),
      (p.computeGrants_trust n).trans (p.trustOf_untrusted n hun)⟩
  · exact (p.computeGrants_derate n).trans (p.derateOf_unmeasured n ht)
  · exact (p.computeGrants_trust n).trans (p.trustOf_trusted n ((SessState.trusted_iff _).mpr hst))
  · exact (p.computeGrants_derate n).trans (p.derateOf_measured n t i e ht hi he ((SessState.trusted_iff _).mpr hst))
  · have hlen : (stringGrants p.paired p.computeGrants.grant).length = 4 := by simp [stringGrants, hpar]
    rw [p.computeGrants_strings, p.computeGrants_shares]
    exact ⟨perString_of_four _ hlen, perString_of_four _ ((apportion_length _ _).trans hlen),
      p.computeGrants_parallel hpar⟩
  · have hlen : (stringGrants p.paired p.computeGrants.grant).length = 2 := by simp [stringGrants, hpair]
    obtain ⟨hs, hs2, hs3⟩ := perString_of_two _ hlen
    obtain ⟨hh, hh2, hh3⟩ := perString_of_two (apportion p.mgmt.settings.toolCeiling _) ((apportion_length _ _).trans hlen)
    rw [p.computeGrants_strings, p.computeGrants_shares]
    exact ⟨hs, hs2, hs3, hh, hh2, hh3, p.computeGrants_paired hpair⟩

/-- The overheat test of a socket (R141). -/
theorem hot_follows (p : Part) (n : Socket) :
    ((p.session n).state ≠ .admitted ∧ (p.session n).state ≠ .suspect ∨ (p.session n).telemetry = none →
      p.hot n = false) ∧
    (∀ (t : Telemetry) (i : Fin 32) (e : ClassEntry), (p.session n).state = .admitted ∨ (p.session n).state = .suspect →
      (p.session n).telemetry = some t → (p.session n).classIndex = some i → p.trust.classes[i] = some e →
      (p.hot n = true ↔ e.tc ≤ t.temperature)) := by
  refine ⟨fun h => ?_, fun t i e hst ht hi he => p.hot_iff n t i e ht hi he ((SessState.trusted_iff _).mpr hst)⟩
  rcases h with hst | ht
  · exact p.hot_untrusted n ((SessState.trusted_eq_false_iff _).mpr hst)
  · exact p.hot_unmeasured n ht

/-- The grant of a socket (R134). -/
theorem grantOf_follows (p : Part) (n : Socket) :
    ((p.session n).state ≠ .admitted ∧ (p.session n).state ≠ .suspect ∨ (p.session n).baseline = none ∨
      p.grants.stale.get n = true → p.grantOf n = 0) ∧
    (∀ (t : Telemetry) (i : Fin 32) (e : ClassEntry), (p.session n).telemetry = some t →
      (p.session n).classIndex = some i → p.trust.classes[i] = some e →
      (t.cellMin.toNat < e.cellFloor.toNat → p.grantOf n = 0) ∧
      ((p.session n).state = .admitted ∨ (p.session n).state = .suspect → (p.session n).baseline.isSome = true →
        p.grants.stale.get n = false → e.cellFloor.toNat ≤ t.cellMin.toNat →
        p.grantOf n = min t.allowance.toNat (e.ic.toNat * deratePercent t.temperature e.tk e.tc *
          trustPercent (p.session n).marks p.mgmt.settings.retiredCap p.mgmt.settings.limpCap / 10000))) := by
  refine ⟨fun h => ?_, fun t i e ht hi he => ⟨p.grantOf_below_floor n t i e ht hi he, fun hst hb hf hfloor => ?_⟩⟩
  · rcases h with hst | hb | hstale
    · exact p.grantOf_of_untrusted n ((SessState.trusted_eq_false_iff _).mpr hst)
    · exact p.grantOf_without_baseline n hb
    · exact p.grantOf_stale n hstale
  · have htrusted := (SessState.trusted_iff _).mpr hst
    rw [p.grantOf_trusted n t i e ht hi he htrusted hb hf hfloor, p.derateOf_measured n t i e ht hi he htrusted,
      p.trustOf_trusted n htrusted, grantLimit]

/-- The derating between knee and cutoff (R132). -/
theorem deratePercent_follows (t tk tc : Int) (h : tk < tc) :
    (t ≤ tk → deratePercent t tk tc = 100) ∧ (tc ≤ t → deratePercent t tk tc = 0) ∧
    (tk < t → t < tc → (deratePercent t tk tc : Int) = 100 * (tc - t) / (tc - tk) ∧ deratePercent t tk tc < 100) :=
  ⟨deratePercent_at_knee t tk tc, fun hc => deratePercent_at_cutoff t tk tc (lt_of_lt_of_le h hc) hc,
   deratePercent_between t tk tc⟩

/-- The trust percent under its caps (R133). -/
theorem trustPercent_follows (m : Marks) (r l : Nat) : trustPercent m r l =
    min (min 100 (if m.keyRetired = true ∨ m.worn = true then r else 100)) (if m.suspect = true then l else 100) := by
  simp only [trustPercent, Bool.or_eq_true]
  split <;> simp

/-- The recomputation, from the report of the overheat cause to the comparison with the previous values (R131, R141, R142,
R148). -/
theorem recompute_follows (p : Part) (g : Grants) (hot : Bool) (hg : g = p.computeGrants)
    (hhot : hot = true ↔ ∃ n, p.hot n = true) :
    ∃ q : Part, q = { p with grants := g, fault := q.fault, tlp := q.tlp, mgmt := q.mgmt, ctl := q.ctl } ∧
      q.fault.causes = { p.fault.causes with overheat := hot } ∧ q.fault.map = p.fault.map ∧
      (∀ n, q.fault.permits.get n = q.permitDue n) ∧
      (p.ctl.loading = true ∨ p.fault.causes.overheat = hot →
        q.fault.conds = p.fault.conds ∧ q.tlp = p.tlp ∧ q.mgmt = p.mgmt ∧ q.ctl = p.ctl) ∧
      (p.ctl.loading = false → p.fault.causes.overheat = false → hot = true →
        q.fault.conds = p.fault.conds.set .overheat .active ∧
        (LogRoom q → Logged q { type := 6, socket := 7, detail := 3, data := [] })) ∧
      (p.ctl.loading = false → p.fault.causes.overheat = true → hot = false → p.fault.conds.overheat = .active →
        q.fault.conds = p.fault.conds.set .overheat (if p.fault.map.overheat.latch then .held else .inactive)) ∧
      (g.toolGrant < p.grants.prevTool ∨ (∃ n, g.published.get n < p.grants.prevPublished.get n) →
        p.recompute = { q.placeAggregate q.aggregateFrame with
          grants := { g with prevTool := g.toolGrant, prevPublished := g.published } }) ∧
      (p.grants.prevTool ≤ g.toolGrant → (∀ n, p.grants.prevPublished.get n ≤ g.published.get n) →
        p.recompute = { q with grants := { g with prevTool := g.toolGrant, prevPublished := g.published } }) := by
  subst hg
  have hdecreased : p.computeGrants.decreased = true ↔ p.computeGrants.toolGrant < p.grants.prevTool ∨
      ∃ n, p.computeGrants.published.get n < p.grants.prevPublished.get n := p.computeGrants.decreased_iff
  have hkept : p.regranted.grants.keepPrevious = { p.computeGrants with
      prevTool := p.computeGrants.toolGrant, prevPublished := p.computeGrants.published } :=
    congrArg Grants.keepPrevious p.regranted_grants
  have heq := p.regranted_eq hot hhot
  refine ⟨p.regranted, p.regranted_frame, ?_, ?_, Part.evalPermits_right _, fun hsame => ?_, fun hl h0 h1 => ⟨?_, ?_⟩,
    fun hl h0 h1 hactive => ?_, fun hfell => ?_, fun htool hpub => ?_⟩
  · rw [heq]
    exact Part.reportCause_causes _ _ _
  · rw [heq]
    exact (Part.reportCause_plain _ _ _).map
  · have hquiet := Part.reportCause_unchanged (p.setGrants p.computeGrants) .overheat
      { p.fault.causes with overheat := hot } (hsame.imp_right Eq.symm)
    rw [heq, hquiet]
    exact ⟨rfl, rfl, rfl, rfl⟩
  · rw [heq]
    exact Part.reportCause_appears_conds (p.setGrants p.computeGrants) .overheat _ hl h0 h1
  · rw [heq]
    exact Part.reportCause_appears_queued (p.setGrants p.computeGrants) .overheat _ hl h0 h1
  · rw [heq]
    exact Part.reportCause_departs_conds (p.setGrants p.computeGrants) .overheat _ hl h0 h1 hactive
  · rw [p.recompute_eq, Part.noteDecrease_fell _ (by rw [p.regranted_grants]; exact hdecreased.mpr hfell), hkept]
  · have hrose : p.computeGrants.decreased = false := by
      rw [Bool.eq_false_iff, ne_eq, hdecreased, not_or, not_exists]
      exact ⟨htool.not_gt, fun n => (hpub n).not_gt⟩
    rw [p.recompute_eq, Part.noteDecrease_rose _ (by rw [p.regranted_grants]; exact hrose), hkept]

/-- Settles O41: a socket's formulas by the session's state, the apportionment by its one pass, and the recomputation from
the report of the overheat cause on. -/
theorem grantsFollowTheirFormulas : Obligations.GrantsFollowTheirFormulas :=
  ⟨computeGrants_follows, hot_follows, recompute_follows, deratePercent_follows, trustPercent_follows, grantOf_follows,
   fun _ => ⟨rfl, rfl⟩, apportion_follows⟩

end Sys2Proof.Proofs

namespace Sys2Proof.Machine
open Sys2Proof.Claims

/-! ## A property that holds while the part operates, along a step -/

/-- A command, when what the part is while held or without power does not matter: it comes to operate by a cold start alone,
and a cut stops it. -/
theorem exec_whileOn {I : Part → Prop} (hcold : ∀ a k p, I (Part.coldStart a k p))
    (hkeeps : ∀ p q, p.Keeps q → I p → I q) (c : Instr) (s t : State) (hs : s.part.power = .on → I s.part)
    (hexec : exec c s = .next t) (hon : t.part.power = .on) : I t.part := by
  by_cases hc : ∃ k, c = .coldStart k
  · obtain ⟨k, rfl⟩ := hc
    cases hexec
    exact hcold s.array k s.part
  push Not at hc
  by_cases hp : s.part.power = .on
  · by_cases hcut : ∃ k i, c = .powerFailsOrResetnAsserted k i
    · obtain ⟨k, i, rfl⟩ := hcut
      cases hexec
      exact absurd hon (s.part.cut_power k)
    · push Not at hcut
      exact hkeeps s.part t.part (exec_keeps c s t hp hexec hc hcut) (hs hp)
  · exact absurd hon (exec_stays_held c s t hp hc hexec)

theorem State.idle_whileOn {I : Part → Prop} (htick : ∀ p, I p → I p.tick) (s : State)
    (hs : s.part.power = .on → I s.part) (hon : s.idle.part.power = .on) : I s.idle.part := by
  revert hon
  unfold State.idle
  split
  · exact hs
  · next hheld => exact fun hon => absurd (hheld.symm.trans hon) Power.noConfusion
  · next hp =>
    split
    · exact fun _ => htick _ (hs hp)
    · exact fun _ => hs hp

/-- A property that a cold start brings about, and that the passing of time and every action that keeps what `Part.Keeps` names
leave, holds of an operating part after any step. -/
theorem step_whileOn {I : Part → Prop} (hcold : ∀ a k p, I (Part.coldStart a k p)) (htick : ∀ p, I p → I p.tick)
    (hkeeps : ∀ p q, p.Keeps q → I p → I q) (s t : State) (hs : s.part.power = .on → I s.part)
    (hstep : step s = .next t) : t.part.power = .on → I t.part := by
  unfold step at hstep
  split at hstep
  · cases hstep
    exact s.idle_whileOn htick hs
  · next c rest _ => exact exec_whileOn hcold hkeeps c { s with pending := rest } t hs hstep

/-- The conditions follow their causes (R153), whether the part operates or not: a cold start leaves it loading, and a cut
changes neither. -/
theorem condsRight_stepInvariant : StepInvariant Part.CondsRight where
  coldStart a k p := by
    obtain ⟨-, -, -, -, -, hconds, -⟩ := p.coldStart_spec a k
    exact hconds
  cut k p := by
    obtain ⟨-, -, -, hconds, -⟩ := p.cut_keeps k
    exact hconds
  pins _ _ _ hp := hp
  tick _ hp := hp
  keeps _ _ _ hkeeps := hkeeps.conds

theorem Part.coldStart_causesRight (a : StoreArray) (k : ColdStartCause) (p : Part) :
    (Part.coldStart a k p).CausesRight := by
  obtain ⟨-, -, -, -, -, -, -, hcauses⟩ := p.coldStart_spec a k
  exact hcauses

end Sys2Proof.Machine

namespace Sys2Proof.Proofs
open Sys2Proof Sys2Proof.Machine Sys2Proof.Claims

/-- Settles O7: a report of a cause changes its condition with it, a momentary cause leaves its condition at rest, and the end
of loading and the in-band reset raise the conditions whose causes are present. -/
theorem conditionsFollowTheirCauses : Obligations.ConditionsFollowTheirCauses := fun s t =>
  condsRight_stepInvariant.step s t

/-- Settles O8: a change of the LOCK input, of the key table and of the challenge counter ends with its cause reported. The LOCK
input of a part that is held changes without a report, which the cold start makes good. -/
theorem causesFollowTheirSources : Obligations.CausesFollowTheirSources := fun s t =>
  step_whileOn Part.coldStart_causesRight (fun _ hp => hp) (fun _ _ hkeeps => hkeeps.causes) s t

end Sys2Proof.Proofs

namespace Sys2Proof.Machine
open Sys2Proof.Claims

/-! ## MAP-WRITE (R157) -/

theorem Cond.ofNumber_byteOf (c : Cond) : Cond.ofNumber (byteOf c.number).toNat = some c := by cases c <;> rfl

theorem Cond.ofNumber_of_ge (i : Nat) (h : 8 ≤ i) : Cond.ofNumber i = none := List.getElem?_eq_none h

/-- A word that spells a fault map entry in its last three bytes (R156). -/
structure MapEntry.Spelt (e : MapEntry) (w : Word) : Prop where
  mask : Word.byte w 1 = e.mask.setWidth 8
  latch : (Word.byte w 2).toNat = if e.latch then 1 else 0
  advise : (Word.byte w 3).toNat = if e.advise then 1 else 0

theorem Part.mapWrite_right (w1 w2 : Word) (p : Part) (c : Cond) (e : MapEntry) (store : Bool)
    (hc : Word.byte w1 0 = byteOf c.number) (he : e.Spelt w1) (hstore : yesNo (Word.byte w2 0) = some store) :
    Part.mapWrite w1 w2 p = p.writeMap c e store := by
  have hmask : ¬15 < (Word.byte w1 1).toNat := by
    rw [he.mask, BitVec.toNat_setWidth_of_le (by decide)]
    omega
  simp only [Part.mapWrite, hc, Cond.ofNumber_byteOf, yesNo_of_code _ _ he.latch, yesNo_of_code _ _ he.advise, hstore,
    if_neg hmask]
  rw [he.mask, BitVec.setWidth_setWidth_of_le e.mask (by decide), BitVec.setWidth_eq]

/-- Whether a field of a MAP-WRITE is outside its range. -/
def MapFieldsWrong (w1 w2 : Word) : Prop :=
  8 ≤ (Word.byte w1 0).toNat ∨ 16 ≤ (Word.byte w1 1).toNat ∨ 2 ≤ (Word.byte w1 2).toNat ∨ 2 ≤ (Word.byte w1 3).toNat ∨
    2 ≤ (Word.byte w2 0).toNat

theorem Part.mapWrite_wrong (w1 w2 : Word) (p : Part) (h : MapFieldsWrong w1 w2) :
    Part.mapWrite w1 w2 p = p.refuseWith codeMapWrite .invalid := by
  unfold Part.mapWrite
  split
  · next hcond hlatch hadvise hstore =>
    rcases h with h | h | h | h | h
    · rw [Cond.ofNumber_of_ge _ h] at hcond; cases hcond
    · exact if_pos h
    · rw [yesNo_of_ge _ h] at hlatch; cases hlatch
    · rw [yesNo_of_ge _ h] at hadvise; cases hadvise
    · rw [yesNo_of_ge _ h] at hstore; cases hstore
  · rfl

/-- A part that differs in the entry and in permit lines that are right is the part with the entry replaced. -/
theorem Part.eq_setMapEntry (p q : Part) (c : Cond) (e : MapEntry)
    (hq : q = { p with fault := { p.fault with map := p.fault.map.set c e, permits := q.fault.permits } })
    (hright : q.PermitsRight) : q = p.setMapEntry c e := by
  have hdue (x : PerSocket Bool) (n : Socket) :
      ({ p with fault := { p.fault with map := p.fault.map.set c e, permits := x } } : Part).permitDue n =
        (p.setMapEntry c e).permitDue n := rfl
  have hpermits : q.fault.permits = (p.setMapEntry c e).fault.permits := PerSocket.ext_get fun n => by
    calc q.fault.permits.get n
      _ = q.permitDue n := hright n
      _ = (p.setMapEntry c e).permitDue n := (congrArg (Part.permitDue · n) hq).trans (hdue _ n)
      _ = (p.setMapEntry c e).fault.permits.get n := (Part.evalPermits_right _ n).symm
  rw [hq, hpermits]
  rfl

/-! ## FAULT-ACK (R158) -/

/-- The state of a condition once a FAULT-ACK has named it. -/
def ackedState (mask : Byte) (c : Cond) (st : CondState) : CondState :=
  if mask.getLsbD c.number = true ∧ st = .held then .inactive else st

theorem ackedState_idem (mask : Byte) (c : Cond) (st : CondState) :
    ackedState mask c (ackedState mask c st) = ackedState mask c st := by
  unfold ackedState
  split <;> simp_all

theorem Part.ackCond_conds (mask : Byte) (p : Part) (c d : Cond) : (Part.ackCond mask p c).fault.conds.get d =
    if d = c then ackedState mask d (p.fault.conds.get d) else p.fault.conds.get d := by
  unfold Part.ackCond ackedState
  by_cases hd : d = c
  · subst hd
    split <;> simp_all [Part.changeCond_conds]
  · split <;> simp [Part.changeCond_conds, PerCond.get_set_ne, hd]

/-- Nothing but conditions, the permit lines and the tool link changes as a condition is released. -/
theorem Part.ackCond_units (mask : Byte) (p : Part) (c : Cond) : p.SameUnits (Part.ackCond mask p c) := by
  unfold Part.ackCond
  split
  · exact p.changeCond_units c _
  · exact .refl p

theorem Part.ackCond_causes (mask : Byte) (p : Part) (c : Cond) :
    (Part.ackCond mask p c).fault.causes = p.fault.causes := by
  unfold Part.ackCond
  split
  · exact p.changeCond_causes c _
  · rfl

/-- The part once every condition that the mask names has been released. -/
def Part.acked (mask : Byte) (p : Part) : Part := Cond.all.foldl (Part.ackCond mask) p

theorem foldl_ackCond_conds (mask : Byte) (cs : List Cond) (p : Part) (d : Cond) :
    (cs.foldl (Part.ackCond mask) p).fault.conds.get d =
      if d ∈ cs then ackedState mask d (p.fault.conds.get d) else p.fault.conds.get d := by
  induction cs generalizing p with
  | nil => rfl
  | cons c cs ih =>
    rw [List.foldl_cons, ih, Part.ackCond_conds]
    by_cases hc : d = c <;> by_cases hm : d ∈ cs <;> simp [hc, hm, ackedState_idem]

theorem Part.acked_conds (mask : Byte) (p : Part) (d : Cond) :
    (p.acked mask).fault.conds.get d = ackedState mask d (p.fault.conds.get d) :=
  (foldl_ackCond_conds mask Cond.all p d).trans (if_pos (by cases d <;> decide))

theorem Part.acked_units (mask : Byte) (p : Part) : p.SameUnits (p.acked mask) :=
  List.foldlRecOn Cond.all (Part.ackCond mask) (.refl p) fun q hq c _ => hq.trans (q.ackCond_units mask c)

theorem Part.acked_causes (mask : Byte) (p : Part) : (p.acked mask).fault.causes = p.fault.causes :=
  List.foldlRecOn (motive := fun q => q.fault.causes = p.fault.causes) Cond.all (Part.ackCond mask) rfl
    fun q hq c _ => (q.ackCond_causes mask c).trans hq

theorem Part.acked_map (mask : Byte) (p : Part) : (p.acked mask).fault.map = p.fault.map :=
  (foldl_ordinary _ (Part.ackCond_ordinary mask) Cond.all p).map

/-- The result word of a FAULT-ACK: what it released, then what is ACTIVE and what is HELD after it. -/
def Part.ackWord (mask : Byte) (p : Part) : Word :=
  Word.ofBytes (mask &&& p.condMask .held) ((p.acked mask).condMask .active) ((p.acked mask).condMask .held) 0

theorem Part.faultAck_eq (w : Word) (p : Part) :
    Part.faultAck w p = (p.acked (Word.byte w 0)).respond codeFaultAck .done [p.ackWord (Word.byte w 0)] := rfl

/-- Bit `i` of byte `k` of a word (R9). -/
theorem Word.getLsbD_byte (w : Word) (k i : Nat) (hi : i < 8) : (Word.byte w k).getLsbD i = w.getLsbD (24 - 8 * k + i) := by
  simp [Word.byte, hi]

theorem Part.ackWord_bits (mask : Byte) (p : Part) (c : Cond) :
    (p.ackWord mask).getLsbD (24 + c.number) = (mask.getLsbD c.number && decide (p.fault.conds.get c = .held)) ∧
    (p.ackWord mask).getLsbD (16 + c.number) = decide ((p.acked mask).fault.conds.get c = .active) ∧
    (p.ackWord mask).getLsbD (8 + c.number) = decide ((p.acked mask).fault.conds.get c = .held) ∧
    (p.ackWord mask).getLsbD c.number = false := by
  obtain ⟨hlt, -⟩ := c.all_number
  obtain ⟨h0, h1, h2, h3⟩ := Word.byte_ofBytes (mask &&& p.condMask .held) ((p.acked mask).condMask .active)
    ((p.acked mask).condMask .held) 0
  have hbit (k : Nat) := Word.getLsbD_byte (p.ackWord mask) k c.number hlt
  refine ⟨?_, ?_, ?_, ?_⟩
  · rw [← hbit 0, Part.ackWord, h0, BitVec.getLsbD_and, Part.condMask_getLsbD]
  · rw [← hbit 1, Part.ackWord, h1, Part.condMask_getLsbD]
  · rw [← hbit 2, Part.ackWord, h2, Part.condMask_getLsbD]
  · calc (p.ackWord mask).getLsbD c.number
      _ = (Word.byte (p.ackWord mask) 3).getLsbD c.number := by simpa using (hbit 3).symm
      _ = false := by rw [Part.ackWord, h3]; exact BitVec.getLsbD_zero

theorem taken_units (code : Byte) (ws : List Word) (p : Part) : p.SameUnits (taken code ws p) := by
  unfold taken Part.restartSilence
  have htimer : p.SameUnits (p.setTlp { p.tlp with silence := some (p.clock + silenceTime) }) :=
    ⟨rfl, rfl, rfl, rfl, rfl, rfl⟩
  exact (htimer.trans (Part.reportCause_units _ _ _)).trans ⟨rfl, rfl, rfl, rfl, rfl, rfl⟩

theorem Part.respond_units (p : Part) (code : Byte) (o : ReqOutcome) (ws : List Word) :
    p.SameUnits (p.respond code o ws) :=
  ⟨p.respond_links code o ws, p.respond_classifier code o ws, p.respond_engine code o ws, p.respond_proof code o ws,
   p.respond_trust code o ws, p.respond_grants code o ws⟩

end Sys2Proof.Machine

namespace Sys2Proof.Proofs
open Sys2Proof Sys2Proof.Machine Sys2Proof.Claims

theorem exec_mapWrite_ready (s : State) (w1 w2 : Word) (hs : Ready s) :
    exec (.mapWrite [w1, w2]) s = .next { s with part := Part.mapWrite w1 w2 (taken 0x28 [w1, w2] s.part) } :=
  exec_request_ready _ 0x28 2 2 false [w1, w2] (Part.mapWrite w1 w2) s hs rfl (by simp)

/-- A valid MAP-WRITE, by its store flag. -/
theorem mapWrite_acts (s : State) (w1 w2 : Word) (c : Cond) (e : MapEntry) (p q : Part) (hs : Ready s)
    (hc : Word.byte w1 0 = byteOf c.number) (he : e.Spelt w1) (hp : p = taken 0x28 [w1, w2] s.part)
    (hq : q = p.setMapEntry c e) :
    (Word.byte w2 0 = 0 → Becomes (.mapWrite [w1, w2]) s
      ((answered q (response 0x28 .done [Word.ofBytes (byteOf (p.fault.conds.get c).code) 0 0 0])).log
        { type := 7, socket := 7, detail := halfOf (0x6100 + c.number), data := [] })) ∧
    (Word.byte w2 0 = 1 → Becomes (.mapWrite [w1, w2]) s
      (withJob q (.table (.mapWrite c s.part.ctl.storedSettings q.fault.map)))) := by
  have hexec := exec_mapWrite_ready s w1 w2 hs
  rw [← hp] at hexec
  refine ⟨fun hrun => ?_, fun hstore => ?_⟩
  · have hact := p.mapWrite_right w1 w2 c e false hc he (by rw [hrun]; rfl)
    rw [Becomes, hexec, hact, ← Part.respond_eq_answered, hq]
    rfl
  · have hact := p.mapWrite_right w1 w2 c e true hc he (by rw [hstore]; rfl)
    have hctl : q.ctl = s.part.ctl := by rw [hq, ← taken_ctl 0x28 [w1, w2] s.part, ← hp]; rfl
    rw [Becomes, hexec, hact, ← Part.queueJob_eq_withJob, ← hctl, hq]
    rfl

/-- A FAULT-ACK on the part as it is taken. -/
theorem faultAck_acts (s : State) (w : Word) (p : Part) (hs : Ready s) (hp : p = taken 0x29 [w] s.part) :
    Gives (.faultAck [w]) s (fun t =>
      (∀ c, t.part.fault.conds.get c = if (Word.byte w 0).getLsbD c.number = true ∧ p.fault.conds.get c = .held then
        .inactive else p.fault.conds.get c) ∧
      t.part.fault.causes = p.fault.causes ∧ t.part.fault.map = s.part.fault.map ∧
      (∃ r : Word, Carries t.part (response 0x29 .done [r]) ∧ ∀ c : Cond,
        r.getLsbD (24 + c.number) = ((Word.byte w 0).getLsbD c.number && decide (p.fault.conds.get c = .held)) ∧
        r.getLsbD (16 + c.number) = decide (t.part.fault.conds.get c = .active) ∧
        r.getLsbD (8 + c.number) = decide (t.part.fault.conds.get c = .held) ∧ r.getLsbD c.number = false) ∧
      t.part.links = s.part.links ∧ t.part.engine = s.part.engine ∧ t.part.trust = s.part.trust ∧
      t.part.grants = s.part.grants ∧ t.part.proof = s.part.proof ∧ t.part.classifier = s.part.classifier ∧
      t.array = s.array) := by
  have hexec := exec_request_ready (.faultAck [w]) 0x29 1 1 false [w] (Part.faultAck w) s hs rfl (by simp)
  have hmap : p.fault.map = s.part.fault.map := hp ▸ taken_map _ _ _
  have hunits : s.part.SameUnits p := hp ▸ taken_units _ _ _
  have hall := (hunits.trans (p.acked_units (Word.byte w 0))).trans
    (Part.respond_units _ codeFaultAck .done [p.ackWord (Word.byte w 0)])
  rw [← hp, Part.faultAck_eq] at hexec
  refine ⟨_, hexec, ?_⟩
  simp only [Part.respond_fault]
  exact ⟨p.acked_conds _, p.acked_causes _, (p.acked_map _).trans hmap,
    ⟨_, Part.respond_carries _ _ _ _, p.ackWord_bits _⟩, hall.links, hall.engine, hall.trust, hall.grants, hall.proof,
    hall.classifier, trivial⟩

/-- Settles O59: MAP-WRITE by its fields and its store flag, FAULT-ACK condition by condition. -/
theorem mapWritesAndAcknowledgements : Obligations.MapWritesAndAcknowledgements := fun s hs =>
  ⟨fun w1 w2 c e p q hc hmask hlatch hadvise hp hq hright =>
      mapWrite_acts s w1 w2 c e p q hs hc ⟨hmask, hlatch, hadvise⟩ hp (p.eq_setMapEntry q c e hq hright),
    fun w1 w2 hwrong => answers_of_respond (exec_mapWrite_ready s w1 w2 hs) (Part.mapWrite_wrong w1 w2 _ hwrong),
    fun w p => faultAck_acts s w p hs⟩

end Sys2Proof.Proofs

namespace Sys2Proof.Machine
open Sys2Proof.Claims

/-! ## The ends of store jobs as commands (R176) -/

/-- What the owner of a job does at its end. -/
def Job.owner : Job → Bool → Part → Part
  | .log _ => fun _ p => p
  | .watermark v => fun ok p => p.watermarkDone v ok
  | .table (.keyWrite k e) => Part.keyWriteDone k e
  | .table (.keyRetire k) => Part.keyRetireDone k
  | .table (.keyErase k) => Part.keyEraseDone k
  | .table (.classWrite i e) => Part.classWriteDone i e
  | .table (.classErase i) => Part.classEraseDone i
  | .table (.withdrawAdd new) => Part.withdrawAddDone new
  | .table .withdrawClear => Part.withdrawClearDone
  | .table (.auditWithdrawal x) => Part.auditWithdrawalDone x
  | .table (.rulesApply _) => Part.rulesApplyDone
  | .table (.settingWrite id value _ _) => Part.settingWriteDone id value
  | .table (.mapWrite c _ _) => Part.mapWriteDone c

/-- A command that ends the job in progress does so with the owner's action, or finds no such job (R176, log 3). -/
def EndsAsOwned (s : State) (r : JobEnd) (o : Host.Outcome State Fault Refusal) : Prop :=
  o = .next s ∨ ∃ j, s.part.ctl.job = some j ∧ o = .next { s with
    part := s.part.jobEnded s.array j r j.owner
    array := applySteps s.array (j.taken (j.steps s.part s.array) r) }

theorem State.endJob_endsAsOwned (s : State) (r : JobEnd) (own : Job → Option (Bool → Part → Part))
    (hown : ∀ j f, own j = some f → f = j.owner) : EndsAsOwned s r (s.endJob r own) := by
  unfold State.endJob
  split
  · next j _ hj =>
    split
    · next f hf =>
      rw [hown j f hf]
      exact .inr ⟨j, hj, rfl⟩
    · exact .inl rfl
  · exact .inl rfl

/-- The commands that end store jobs differ only in the kind of job they end. -/
theorem exec_endsJob (c : Instr) (s : State) (h : endsJob c = true) : ∃ r, EndsAsOwned s r (exec c s) := by
  cases c with
  | logEntryJobComplete r | watermarkJobComplete r | keyWriteComplete r | keyRetireComplete r | keyEraseComplete r
  | classWriteComplete r | classEraseComplete r | withdrawAddComplete r | withdrawClearComplete r
  | auditWithdrawalComplete r | rulesApplyComplete r | settingWriteComplete r | mapWriteComplete r =>
    refine ⟨r, s.endJob_endsAsOwned r _ fun j f hf => ?_⟩
    split at hf
    all_goals cases hf
    all_goals rfl
  | _ => cases h

end Sys2Proof.Machine

namespace Sys2Proof.Proofs
open Sys2Proof Sys2Proof.Machine Sys2Proof.Claims

/-- Settles O3: a command acts on the part alone, or ends a store job and writes the array; none ends otherwise. -/
theorem everyCommandAnswersNext : Obligations.EveryCommandAnswersNext := by
  intro c s
  by_cases hjob : endsJob c = true
  · obtain ⟨r, hnothing | ⟨j, -, hends⟩⟩ := exec_endsJob c s hjob
    · exact ⟨s, hnothing, rfl⟩
    · exact ⟨_, hends, rfl⟩
  · cases c with
    | logEntryJobComplete | watermarkJobComplete | keyWriteComplete | keyRetireComplete | keyEraseComplete
    | classWriteComplete | classEraseComplete | withdrawAddComplete | withdrawClearComplete | auditWithdrawalComplete
    | rulesApplyComplete | settingWriteComplete | mapWriteComplete => exact absurd rfl hjob
    | _ => exact ⟨_, rfl, rfl⟩

end Sys2Proof.Proofs

namespace Sys2Proof.Machine
open Sys2Proof.Claims

/-! ## What leaves the part PARKED (R172) -/

/-- An action that does not take the part out of PARKED. -/
def Part.StaysParked (p q : Part) : Prop := p.mgmt.parked = true → q.mgmt.parked = true

theorem Part.StaysParked.refl (p : Part) : p.StaysParked p := id

theorem Part.StaysParked.trans {p q r : Part} (h : p.StaysParked q) (k : q.StaysParked r) : p.StaysParked r := k ∘ h

theorem Part.Plain.staysParked {p q : Part} (h : p.Plain q) : p.StaysParked q := h.parked.trans

/-- An ordinary action on what has the same part state. -/
theorem Part.Ordinary.staysParkedFrom {p q r : Part} (h : q.Ordinary r) (hq : q.mgmt.parked = p.mgmt.parked) :
    p.StaysParked r := fun hp => h.toPlain.staysParked (hq.trans hp)

theorem staysParked_of_jobFrame {p q : Part} (h : JobFrame p q) : p.StaysParked q := by
  obtain ⟨-, -, -, -, -, -, hparked, -⟩ := h
  exact hparked.trans

/-! ### The ends of store jobs -/

/-- Every owner of a job leaves alone what the end of a job leaves alone. -/
theorem Job.owner_frame (j : Job) (ok : Bool) (p : Part) : JobFrame p (j.owner ok p) := by
  have hfailed (code : Byte) : JobFrame p (p.complete code .storeFault []) := p.complete_frame code _ _
  have hdone {q : Part} (h : JobFrame p q) (e : LogEntry) (code : Byte) (ws : List Word) :
      JobFrame p ((q.log e).complete code .done ws) := JobFrame.trans h (q.logComplete_frame e code ws)
  cases j with
  | log e => exact JobFrame.refl p
  | watermark v => exact (p.watermarkDone_local (S := ∅) v ok).frame
  | table j =>
    cases ok with
    | false =>
      cases j with
      | auditWithdrawal x => exact (p.auditJobEnded_local (S := ∅) false).frame
      | _ => exact hfailed _
    | true =>
      cases j with
      | keyWrite k e => exact hdone (Proofs.keyOrdered_local p k (some e) .relookup).frame _ _ _
      | keyRetire k => exact hdone ((p.setKey k (retire p.trust.keys[k])).orderEach_local (boundTo k) fun _ => .mark).frame _ _ _
      | keyErase k => exact hdone (Proofs.keyOrdered_local p k none (.refuse .noKey)).frame _ _ _
      | classWrite i e =>
        exact hdone ((Proofs.classOrdered_local p i (some e) (Proofs.classOrder e.code)).trans (Part.recompute_local _)).frame _ _ _
      | classErase i => exact hdone (Proofs.classOrdered_local p i none fun _ => .refuse .noClass).frame _ _ _
      | withdrawAdd new => exact hdone (p.serialsOrdered_local new).frame _ _ _
      | withdrawClear => exact (p.setWithdrawn []).logComplete_frame _ _ _
      | auditWithdrawal x => exact (p.auditWithdrawalDone_local x).frame
      | rulesApply rules => exact (p.setClassifier { p.classifier with editing := false }).logComplete_frame _ _ _
      | settingWrite id value x m => exact hdone (JobFrame.refl p) _ _ _
      | mapWrite c x m => exact hdone (JobFrame.refl p) _ _ _

/-- So does the whole of a job's end. -/
theorem Part.jobEnded_frame (p : Part) (a : StoreArray) (j : Job) (r : JobEnd) : JobFrame p (p.jobEnded a j r j.owner) :=
  JobFrame.trans (JobFrame.trans (p.released_frame a j r) (j.owner_frame _ _)) (Part.finished_local (S := ∅) _ _).frame

/-! ### Requests -/

theorem Part.request_staysParked (code : Byte) (least most : Nat) (whileParked : Bool) (ws : List Word) (f : Part → Part)
    (hf : ∀ q, Part.StaysParked q (f q)) (p : Part) :
    p.StaysParked (Part.request code least most whileParked ws f p) := by
  have htaken := (p.restartSilence_ordinary.trans (Part.setRequest_ordinary _ (some (.new code ws)))).staysParked
  unfold Part.request
  dsimp only
  repeat' split
  · exact .refl p
  · exact (p.restartSilence_ordinary.trans (Part.busy_ordinary _ code)).staysParked
  · exact htaken.trans (Part.refuseWith_ordinary _ code _).staysParked
  · exact htaken.trans (Part.refuseWith_ordinary _ code _).staysParked
  · exact htaken.trans (hf _)

theorem Part.settingTakesEffect_ordinary (p : Part) (id : Nat) : p.Ordinary (p.settingTakesEffect id) := by
  unfold Part.settingTakesEffect
  split
  · exact p.recompute_ordinary
  · exact p.recompute_ordinary
  · exact p.recompute_ordinary
  · exact p.recompute_ordinary
  · exact forSockets_ordinary _ Part.recomputeRecheck_ordinary p
  · exact forSockets_ordinary _ Part.holdWritten_ordinary p
  · exact p.startAggregateTimer_ordinary
  · exact p.clearDecim_ordinary
  · exact forSockets_ordinary _ Part.haltRecoveryWritten_ordinary p
  · exact .refl p

theorem Part.settingWrite_staysParked (w : Word) (p : Part) : p.StaysParked (Part.settingWrite w p) := by
  unfold Part.settingWrite Part.writeSetting
  dsimp only
  repeat' split
  · exact (Part.refuseWith_ordinary _ _ _).staysParkedFrom rfl
  · exact ((Part.settingTakesEffect_ordinary _ _).trans (Part.tableJob_ordinary _ _)).staysParkedFrom rfl
  · exact (((Part.settingTakesEffect_ordinary _ _).trans (Part.respond_ordinary _ _ _ _)).trans
      (Part.log_ordinary _ _)).staysParkedFrom rfl
  · exact (p.refuseWith_ordinary _ _).staysParked

theorem Part.mapWrite_staysParked (w1 w2 : Word) (p : Part) : p.StaysParked (Part.mapWrite w1 w2 p) := by
  unfold Part.mapWrite Part.writeMap
  dsimp only
  repeat' split
  · exact (p.refuseWith_ordinary _ _).staysParked
  · exact (Part.tableJob_ordinary _ _).staysParkedFrom rfl
  · exact ((Part.respond_ordinary _ _ _ _).trans (Part.log_ordinary _ _)).staysParkedFrom rfl
  · exact (p.refuseWith_ordinary _ _).staysParked

theorem Part.park_staysParked (p : Part) : p.StaysParked p.park := fun _ => by
  obtain ⟨-, -, -, -, -, -, hparked, -⟩ := p.enterParked_local.frame
  rw [p.park_eq, p.enterParked.parkAnswer_ordinary.parked, hparked]
  rfl

/-- No request takes the part out of PARKED: RESET only waits for the in-band reset. -/
theorem Part.onRequest_staysParked (a : StoreArray) (code : Byte) (ws : List Word) (p : Part) :
    p.StaysParked (Part.onRequest a code ws p) := by
  unfold Part.onRequest
  split
  · exact (Part.onDescribe_ordinary ws p).staysParked
  · exact (Part.onSocketReport_ordinary ws p).staysParked
  · exact (Part.onFaultReport_ordinary ws p).staysParked
  · exact (Part.onSettingRead_ordinary ws p).staysParked
  · exact Part.request_staysParked _ _ _ _ _ _ (Part.settingWrite_staysParked _) p
  · exact (Part.onTableRead_ordinary ws p).staysParked
  · exact (Part.onKeyWrite_ordinary ws p).staysParked
  · exact (Part.onKeyRetire_ordinary ws p).staysParked
  · exact (Part.onKeyErase_ordinary ws p).staysParked
  · exact (Part.onClassWrite_ordinary ws p).staysParked
  · exact (Part.onClassErase_ordinary ws p).staysParked
  · exact (Part.onWithdrawAdd_ordinary ws p).staysParked
  · exact (Part.onWithdrawClear_ordinary ws p).staysParked
  · exact (Part.onWithdrawQuery_ordinary ws p).staysParked
  · exact (Part.onRulesEdit_ordinary ws p).staysParked
  · exact (Part.onRuleWrite_ordinary ws p).staysParked
  · exact (Part.onRulesApply_ordinary ws p).staysParked
  · exact Part.request_staysParked _ _ _ _ _ _ (Part.mapWrite_staysParked _ _) p
  · exact (Part.onFaultAck_ordinary ws p).staysParked
  · exact (Part.onSocketRestart_ordinary ws p).staysParked
  · exact (Part.onAudit_ordinary ws p).staysParked
  · exact (Part.onLogStart_ordinary a ws p).staysParked
  · exact (Part.onLogNext_ordinary a ws p).staysParked
  · exact Part.request_staysParked _ _ _ _ _ _ Part.park_staysParked p
  · exact (Part.onReset_ordinary ws p).staysParked
  · exact (Part.badShape_ordinary _ p).staysParked

theorem Part.mgmtFrame_staysParked (a : StoreArray) (b : List Byte) (p : Part) : p.StaysParked (Part.mgmtFrame a b p) := by
  unfold Part.mgmtFrame
  split
  · exact p.onRequest_staysParked a _ _
  · exact (Part.badShape_ordinary _ p).staysParked

/-! ### Frames, pins, the end of loading -/

theorem Part.toolBytes_staysParked (a : StoreArray) (bytes : List Byte) (p : Part) :
    p.StaysParked (Part.toolBytes a bytes p) := by
  have hframe (q : Part) (r : RxResult) : q.StaysParked (Part.toolFrame a q r) := by
    unfold Part.toolFrame
    repeat' split
    · exact .refl q
    · exact .refl q
    · exact q.mgmtFrame_staysParked a _
    · exact (q.restartSilence_ordinary.trans (Part.takeDown_ordinary _ _)).staysParked
  exact List.foldlRecOn (motive := fun q => p.StaysParked q) _ (Part.toolFrame a) id
    fun q hq r _ => hq.trans (hframe q r)

theorem Part.contactRose_staysParked (n : Socket) (p : Part) : p.StaysParked (Part.contactRose n p) := by
  unfold Part.contactRose
  repeat' split
  · exact .refl p
  · exact (Part.adviseLink_ordinary _ n).staysParkedFrom rfl
  · exact .refl p
  · exact (Part.tryStart_ordinary _ n).staysParkedFrom rfl
  · exact (Part.tryStart_ordinary _ n).staysParkedFrom rfl
  · exact (Part.startRecovery_ordinary _ n).staysParkedFrom rfl

theorem Part.contactFell_staysParked (n : Socket) (p : Part) : p.StaysParked (Part.contactFell n p) := by
  unfold Part.contactFell
  repeat' split
  · exact .refl p
  · exact .refl p
  · exact (Part.adviseLink_ordinary _ n).staysParkedFrom rfl
  all_goals exact .refl p

theorem Part.resetConditions_staysParked (p : Part) : p.StaysParked p.resetConditions := by
  obtain ⟨hplain, -⟩ := p.resetConditions_spec
  exact hplain.staysParked

theorem Part.finishLoading_staysParked (p : Part) : p.StaysParked p.finishLoading := by
  obtain ⟨m, hm⟩ : ∃ m, m = ((p.log (coldStartEntry p.proof.pendingMark)).setCtl
    { (p.log (coldStartEntry p.proof.pendingMark)).ctl with loading := false }).setTlp
    { (p.log (coldStartEntry p.proof.pendingMark)).tlp with
      silence := some ((p.log (coldStartEntry p.proof.pendingMark)).clock + silenceTime) } := ⟨_, rfl⟩
  have hlog : m.mgmt.parked = p.mgmt.parked := by rw [hm]; exact (p.log_ordinary _).parked
  have hlinks := (m.place_ordinary .l0 (startedAdvisory m.proof.pendingMark)).trans
    (forSockets_ordinary _ Part.resetLink_ordinary _)
  have hfinish : p.finishLoading =
      (forSockets Part.resetLink (m.place .l0 (startedAdvisory m.proof.pendingMark))).startAggregateTimer.resetConditions := by
    rw [hm]; rfl
  rw [hfinish]
  exact ((hlinks.trans (Part.startAggregateTimer_ordinary _)).staysParkedFrom hlog).trans
    (Part.resetConditions_staysParked _)

/-! ### Every command -/

/-- An effect on the part takes place while it operates, or not at all. -/
theorem State.onPart_staysParked (s t : State) (f : Part → Part) (h : s.onPart f = .next t)
    (hf : s.part.StaysParked (f s.part)) : s.part.StaysParked t.part := by
  cases h
  show s.part.StaysParked (s.part.whileOn f)
  unfold Part.whileOn
  split
  · exact hf
  · exact .refl _
  · exact .refl _

/-- No command but a cold start and the in-band reset takes the part out of PARKED. -/
theorem exec_staysParked (c : Instr) (s t : State) (hc : leavesParked c = false) (h : exec c s = .next t) :
    s.part.StaysParked t.part := by
  by_cases hjob : endsJob c = true
  · obtain ⟨r, hnothing | ⟨j, -, hends⟩⟩ := exec_endsJob c s hjob
    · cases hnothing.symm.trans h
      exact .refl _
    · cases hends.symm.trans h
      exact staysParked_of_jobFrame (s.part.jobEnded_frame s.array j r)
  by_cases hreq : ∃ x, requestOf c = some x
  · obtain ⟨⟨code, least, most, whileParked, ws⟩, hx⟩ := hreq
    exact s.onPart_staysParked t _ ((exec_requestOf c code least most whileParked ws s hx).symm.trans h)
      (s.part.onRequest_staysParked s.array code ws)
  cases c with
  | coldStart | inBandReset => cases hc
  | powerFailsOrResetnAsserted k i =>
    cases h
    cases k <;> exact .refl s.part
  | loadingFinished =>
    refine s.onPart_staysParked t _ h ?_
    unfold Part.loadingFinished
    split
    · exact s.part.finishLoading_staysParked
    · exact .refl _
  | contactAsserts n =>
    cases h
    show s.part.StaysParked (if _ then _ else Part.whileOn _ _)
    unfold Part.whileOn
    repeat' split
    · exact .refl _
    · exact Part.contactRose_staysParked n (s.part.setContact n true)
    all_goals exact .refl s.part
  | contactDeasserts n =>
    cases h
    show s.part.StaysParked (if _ then Part.whileOn _ _ else _)
    unfold Part.whileOn
    repeat' split
    · exact Part.contactFell_staysParked n (s.part.setContact n false)
    all_goals exact .refl s.part
  | lockChange b =>
    cases h
    show s.part.StaysParked (Part.whileOn { s.part with lockPin := b } (Part.reportLock b))
    unfold Part.whileOn
    split
    · exact (Part.reportCause_plain { s.part with lockPin := b } _ _).staysParked
    all_goals exact .refl s.part
  | settleTimerExpiry n => exact s.onPart_staysParked t _ h (Part.settleExpiry_ordinary n _).staysParked
  | dropTimerExpiry n => exact s.onPart_staysParked t _ h (Part.dropExpiry_ordinary n _).staysParked
  | recoveryTimerExpiry n => exact s.onPart_staysParked t _ h (Part.recoveryExpiry_ordinary n _).staysParked
  | packFrameSent n => exact s.onPart_staysParked t _ h (Part.frameSent_ordinary n _).staysParked
  | replyWindowExpiry n => exact s.onPart_staysParked t _ h (Part.windowExpiry_ordinary n _).staysParked
  | receiverByteTimeout r =>
    cases r with
    | pack n => exact s.onPart_staysParked t _ h (Part.packByteTimeout_ordinary n _).staysParked
    | tool => exact s.onPart_staysParked t _ h (Part.toolByteTimeout_ordinary _).staysParked
  | packReplyCollected n bytes => exact s.onPart_staysParked t _ h (Part.replyBytes_ordinary n bytes _).staysParked
  | toolFrameReceived bytes => exact s.onPart_staysParked t _ h (s.part.toolBytes_staysParked s.array bytes)
  | silenceTimerExpiry => exact s.onPart_staysParked t _ h (Part.silenceExpiry_ordinary _).staysParked
  | toolTxEnd => exact s.onPart_staysParked t _ h (Part.txEnd_ordinary _).staysParked
  | recheckDue n => exact s.onPart_staysParked t _ h (Part.recheckExpiry_ordinary n _).staysParked
  | holdTimerExpiry n => exact s.onPart_staysParked t _ h (Part.holdExpiry_ordinary _ n).staysParked
  | overdrawTimerExpiry => exact s.onPart_staysParked t _ h (Part.overdrawExpiry_ordinary _).staysParked
  | aggregateTimerExpiry => exact s.onPart_staysParked t _ h (Part.aggregateExpiry_ordinary _).staysParked
  | replyStart n => exact s.onPart_staysParked t _ h (Part.replyBegins_ordinary n _).staysParked
  | auditComplete => exact s.onPart_staysParked t _ h (Part.auditFinish_ordinary _).staysParked
  | parkComplete => exact s.onPart_staysParked t _ h (Part.parkDone_ordinary _).staysParked
  | reset ws => exact s.onPart_staysParked t _ h (Part.onReset_ordinary ws _).staysParked
  | unknownRequest b => exact s.onPart_staysParked t _ h (s.part.mgmtFrame_staysParked s.array b)
  | logEntryJobComplete | watermarkJobComplete | keyWriteComplete | keyRetireComplete | keyEraseComplete
  | classWriteComplete | classEraseComplete | withdrawAddComplete | withdrawClearComplete | auditWithdrawalComplete
  | rulesApplyComplete | settingWriteComplete | mapWriteComplete => exact absurd rfl hjob
  | _ => exact absurd ⟨_, rfl⟩ hreq

end Sys2Proof.Machine

namespace Sys2Proof.Proofs
open Sys2Proof Sys2Proof.Machine Sys2Proof.Claims

/-- Settles O13: every command but the two that reset the part keeps PARKED where it acts. -/
theorem parkedIsLeftOnlyByResets : Obligations.ParkedIsLeftOnlyByResets := fun c s t hparked hc h =>
  exec_staysParked c s t hc h hparked

end Sys2Proof.Proofs

namespace Sys2Proof.Machine
open Sys2Proof.Claims

/-! ## What a request meets before its own checks (R40, R162 to R164, R173) -/

/-- Every request but RESET is taken alike: loading, BUSY, its shape, the part state, then its own action. -/
theorem exec_requestOf_request (c : Instr) (code : Byte) (least most : Nat) (whileParked : Bool) (ws : List Word)
    (s : State) (h : requestOf c = some (code, least, most, whileParked, ws)) :
    ∃ f, exec c s = s.onPart (Part.request code least most whileParked ws f) := by
  cases c <;> simp only [requestOf, Option.some.injEq, Prod.mk.injEq, reduceCtorEq] at h
  all_goals
    obtain ⟨rfl, rfl, rfl, rfl, rfl⟩ := h
    exact ⟨_, rfl⟩

theorem Part.request_busy (code : Byte) (least most : Nat) (whileParked : Bool) (ws : List Word) (f : Part → Part)
    (p : Part) (hloaded : p.ctl.loading = false) (hfit : p.LanesFit) (hbusy : p.mgmt.request ≠ none) :
    Part.request code least most whileParked ws f p = p.restartSilence.place .l0 (response code .busy []) := by
  obtain ⟨-, -, -, hidle⟩ := hfit
  obtain ⟨q, hq⟩ := Option.ne_none_iff_exists'.mp hbusy
  have hmgmt := p.restartSilence_mgmt_of_noResponse fun h => (hidle h).1
  simp only [Part.request, hloaded, hmgmt, hq, Bool.false_eq_true, if_false]
  rfl

theorem Part.badShape_loading (code : Byte) (p : Part) (h : p.ctl.loading = true) : Part.badShape code p = p := if_pos h

theorem Part.badShape_busy (code : Byte) (p : Part) (hloaded : p.ctl.loading = false) (hfit : p.LanesFit)
    (hbusy : p.mgmt.request ≠ none) : Part.badShape code p =
      p.restartSilence.place .l0 (response code (if code = 0x3F then .invalid else .busy) []) := by
  obtain ⟨-, -, -, hidle⟩ := hfit
  obtain ⟨q, hq⟩ := Option.ne_none_iff_exists'.mp hbusy
  have hmgmt := p.restartSilence_mgmt_of_noResponse fun h => (hidle h).1
  simp only [Part.badShape, hloaded, hmgmt, hq, Bool.false_eq_true, if_false, Part.busy]
  exact (apply_ite (fun o => p.restartSilence.place .l0 (response code o [])) (code = codeReset) _ _).symm

theorem Part.badShape_free (code : Byte) (p : Part) (hloaded : p.ctl.loading = false) (hfree : p.mgmt.request = none) :
    Part.badShape code p = answered (taken code [] p) (response code .invalid []) := by
  simp only [Part.badShape, hloaded, p.restartSilence_mgmt_of_free hfree, hfree, Bool.false_eq_true, if_false,
    Part.refuseWith_eq_answered]
  rfl

/-- A code of no request fails the shape check (R164 check 1). -/
theorem Part.onRequest_unknown (a : StoreArray) (code : Byte) (ws : List Word) (p : Part) (h : code ∉ requestCodes) :
    Part.onRequest a code ws p = Part.badShape code p := by
  have hcodes : code.toNat ∉ requestCodes.map BitVec.toNat := by
    rw [List.mem_map]
    rintro ⟨k, hk, he⟩
    exact h (BitVec.eq_of_toNat_eq he ▸ hk)
  unfold Part.onRequest
  split
  case h_26 => rfl
  all_goals
    next he =>
      rw [he] at hcodes
      exact absurd (by decide) hcodes

theorem payloadWords_eq_none (b : List Byte) (h : b.length ∉ [1, 5, 9, 13, 17]) : payloadWords b = none := by
  unfold payloadWords
  split
  case h_6 => rfl
  all_goals
    next he => exact absurd (by simp [he]) h

theorem headD_eq_byteAt (b : List Byte) : b.headD 0 = byteAt b 0 := by cases b <;> rfl

/-- A payload of a length of no request, or with a code of no request (R9, R164). -/
theorem Part.mgmtFrame_unknown (a : StoreArray) (b : List Byte) (p : Part)
    (h : b.length ∉ [1, 5, 9, 13, 17] ∨ b.headD 0 ∉ requestCodes) :
    Part.mgmtFrame a b p = Part.badShape (b.headD 0) p := by
  rw [headD_eq_byteAt] at h ⊢
  unfold Part.mgmtFrame
  split
  · next ws hws =>
    refine p.onRequest_unknown a _ ws (h.resolve_left fun hlen => ?_)
    exact absurd (hws.symm.trans (payloadWords_eq_none b hlen)) (Option.some_ne_none ws)
  · rfl

end Sys2Proof.Machine

namespace Sys2Proof.Proofs
open Sys2Proof Sys2Proof.Machine Sys2Proof.Claims

/-! ## Requests before their own checks -/

/-- A request but RESET, by what it finds. -/
theorem request_checked (s : State) (hon : s.part.power = .on) (c : Instr) (code : Byte) (least most : Nat)
    (whileParked : Bool) (ws : List Word) (hc : requestOf c = some (code, least, most, whileParked, ws)) :
    (s.part.ctl.loading = true → exec c s = .next s) ∧
    (Loaded s → s.part.LanesFit → s.part.mgmt.request ≠ none →
      exec c s = .next { s with part := s.part.restartSilence.place .l0 (response code .busy []) }) ∧
    (Free s → (ws.length < least ∨ most < ws.length) → Answers c code ws .invalid [] s) ∧
    (Free s → least ≤ ws.length → ws.length ≤ most → s.part.mgmt.parked = true → whileParked = false →
      Answers c code ws .wrongState [] s) := by
  obtain ⟨f, hexec⟩ := exec_requestOf_request c code least most whileParked ws s hc
  rw [onPart_on s _ hon] at hexec
  refine ⟨fun hload => ?_, fun hloaded hfit hbusy => ?_, fun hfree hshape => ?_, fun hfree hmin hmax hparked hwhile => ?_⟩
  · rw [hexec, Part.request_loading _ _ _ _ _ _ _ hload]
  · rw [hexec, Part.request_busy _ _ _ _ _ _ _ hloaded.2 hfit hbusy]
  · rw [Answers, hexec, Part.request_of_free _ _ _ _ _ _ _ hfree.1.2 hfree.2, if_pos hshape]
  · have hshape : ¬(ws.length < least ∨ most < ws.length) := by omega
    rw [Answers, hexec, Part.request_of_free _ _ _ _ _ _ _ hfree.1.2 hfree.2, if_neg hshape, hparked, hwhile]
    rfl

/-- A command whose shape is that of no request, by what it finds. -/
theorem badShape_checked (s : State) (hon : s.part.power = .on) (c : Instr) (code : Byte) (f : Part → Part)
    (hexec : exec c s = s.onPart f) (hbad : f s.part = Part.badShape code s.part) :
    (s.part.ctl.loading = true → exec c s = .next s) ∧
    (Loaded s → s.part.LanesFit → s.part.mgmt.request ≠ none → exec c s = .next { s with
      part := s.part.restartSilence.place .l0 (response code (if code = 0x3F then .invalid else .busy) []) }) ∧
    (Free s → exec c s = .next { s with part := answered (taken code [] s.part) (response code .invalid []) }) := by
  rw [hexec, onPart_on s _ hon, hbad]
  refine ⟨fun hload => ?_, fun hloaded hfit hbusy => ?_, fun hfree => ?_⟩
  · rw [Part.badShape_loading code _ hload]
  · rw [Part.badShape_busy code _ hloaded.2 hfit hbusy]
  · rw [Part.badShape_free code _ hfree.1.2 hfree.2]

/-- Settles O50: the requests but RESET share their first checks, and what has the shape of no request is refused alike. -/
theorem requestsAreCheckedBeforeTheyAct : Obligations.RequestsAreCheckedBeforeTheyAct := by
  refine fun s hon => ⟨request_checked s hon, fun w ws => ?_, fun payload hbad => ?_⟩
  · obtain ⟨hloading, hbusy, hfree⟩ := badShape_checked s hon (.reset (w :: ws)) 0x3F (Part.onReset (w :: ws)) rfl rfl
    refine ⟨fun hload => ⟨hloading hload, ?_⟩, hbusy, hfree⟩
    show s.onPart (Part.onReset []) = _
    rw [onPart_on s _ hon, Part.onReset_loading [] _ hload]
  · exact badShape_checked s hon (.unknownRequest payload) _ (Part.mgmtFrame s.array payload) rfl
      (s.part.mgmtFrame_unknown s.array payload hbad)

end Sys2Proof.Proofs

namespace Sys2Proof.Machine
open Sys2Proof.Claims

/-! ## DESCRIBE (R165) -/

/-- The state bits of word 5 stand in its most significant byte (Table 10.3). -/
theorem byteWord_stateBits (parked editing superseded : Bool) :
    byteWord (byteOf (flagSet [parked, editing, superseded])) = BitVec.ofNat 32 ((if parked then 2 ^ 24 else 0) +
      (if editing then 2 ^ 25 else 0) + (if superseded then 2 ^ 26 else 0)) := by
  cases parked <;> cases editing <;> cases superseded <;> decide

/-- DESCRIBE's words are those of the part before it was taken. -/
theorem taken_describeWords (p : Part) (hfree : p.mgmt.request = none) :
    (taken 0x01 [] p).describeWords = p.describeWords := by
  rw [Part.describeWords, taken_mgmt _ _ _ hfree, taken_classifier]
  rfl

theorem storeBads_mgmt (a : StoreArray) (rs : List Region) (p : Part) : (storeBads a rs p).mgmt = p.mgmt := by
  refine List.foldlRecOn (motive := fun q : Part => q.mgmt = p.mgmt) rs _ rfl fun q hq r _ => ?_
  split
  · exact (q.log_mgmt _).trans hq
  · exact hq
  · exact hq

theorem Part.coldStart_superseded (a : StoreArray) (c : ColdStartCause) (p : Part) :
    (Part.coldStart a c p).mgmt.superseded = false := by
  rw [Part.coldStart, Part.queueJob_mgmt, storeBads_mgmt]
  rfl

end Sys2Proof.Machine

namespace Sys2Proof.Proofs
open Sys2Proof Sys2Proof.Machine Sys2Proof.Claims

theorem exec_describe_free (s : State) (hs : Free s) : exec (.describe []) s = .next { s with
    part := ((taken 0x01 [] s.part).respond 0x01 .done s.part.describeWords).setMgmt
      { ((taken 0x01 [] s.part).respond 0x01 .done s.part.describeWords).mgmt with superseded := false } } := by
  rw [← taken_describeWords _ hs.2]
  show s.onPart (Part.onDescribe []) = _
  rw [s.onPart_of_loaded hs.1, Part.onDescribe, Part.request_of_free _ _ _ _ _ _ _ hs.1.2 hs.2, if_neg (by simp),
    Bool.not_true, Bool.and_false]
  rfl

/-- Settles O49: DESCRIBE answers with the words of the part as it was taken; RESET and the cold start set and clear the
superseded flag. -/
theorem describeReportsThePart : Obligations.DescribeReportsThePart := by
  refine fun s => ⟨fun hs => ⟨_, _, rfl, rfl, ?_⟩, fun hs hfit hbusy => ?_, fun c _ => ?_⟩
  · rw [exec_describe_free s hs, Part.respond_eq_answered, Part.describeWords, byteWord_stateBits]
    rfl
  · obtain ⟨t, hexec, -, -, -, hsuperseded, -⟩ := reset_taken s hs hfit
    refine ⟨t, hexec, hsuperseded.trans ?_⟩
    rw [Option.isSome_iff_ne_none.mpr hbusy, Bool.or_true]
  · exact ⟨_, rfl, s.part.coldStart_superseded s.array c⟩

end Sys2Proof.Proofs

namespace Sys2Proof.Machine
open Sys2Proof.Claims

/-! ## The values of SETTING-WRITE (Table 10.4) -/

theorem decimationOk_iff (v : Nat) : decimationOk v = true ↔ v ∈ [0, 1, 2, 4, 8, 16] := by
  simp [decimationOk, or_assoc]

/-- The value that a valid write leaves in the setting. -/
theorem settingValue_some (id v v' : Nat)
    (h : (id = 0 ∨ id = 10 ∨ id = 11) ∧ v ≤ 1 ∧ v' = v ∨ id = 1 ∧ v' = min v 8000 ∨
      (id = 2 ∨ id = 3 ∨ id = 7) ∧ v' = min v 100 ∨ id = 4 ∧ v' = max 2 (min v 31) ∨ id = 5 ∧ v' = min v 255 ∨
      id = 6 ∧ v' = min v 50 ∨ id = 8 ∧ v' = (if v = 0 then 0 else max 10 (min v 250)) ∨
      id = 9 ∧ v ∈ [0, 1, 2, 4, 8, 16] ∧ v' = v ∨ id = 12 ∧ v' = max 1 (min v 15)) :
    id ≤ 12 ∧ settingValue id v = some v' ∧ ¬(id = 9 ∧ decimationOk v = false) := by
  rcases h with ⟨rfl | rfl | rfl, hv, rfl⟩ | ⟨rfl, rfl⟩ | ⟨rfl | rfl | rfl, rfl⟩ | ⟨rfl, rfl⟩ | ⟨rfl, rfl⟩ | ⟨rfl, rfl⟩ |
    ⟨rfl, rfl⟩ | ⟨rfl, hv, rfl⟩ | ⟨rfl, rfl⟩
  case inr.inr.inr.inr.inr.inr.inr.inl =>
    have hok := (decimationOk_iff v').mpr hv
    exact ⟨by decide, if_pos hok, by simp [hok]⟩
  all_goals refine ⟨by decide, ?_, by simp⟩
  case inl.inl => exact if_pos hv
  case inl.inr.inl => exact if_pos hv
  case inl.inr.inr => exact if_pos hv
  all_goals rfl

theorem settingValue_of_gt (id v : Nat) (h : 12 < id) : settingValue id v = none := by
  unfold settingValue
  split
  case h_14 => rfl
  all_goals exact absurd h (by decide)

theorem settingValue_twoCodes (id v : Nat) (h : id = 0 ∨ id = 10 ∨ id = 11) (hv : 1 < v) : settingValue id v = none := by
  rcases h with rfl | rfl | rfl
  all_goals exact if_neg (Nat.not_le.mpr hv)

theorem Settings.set_toList (x : Settings) (id v : Nat) (h : id ≤ 12) : (x.set id v).toList = x.toList.set id v := by
  interval_cases id
  all_goals rfl

/-! ## SETTING-WRITE as it acts (R170, R171) -/

theorem Part.settingWrite_refused (w : Word) (p : Part)
    (h : ¬((Word.byte w 0).toNat = 9 ∧ decimationOk (Word.lo w).toNat = false))
    (hnone : settingValue (Word.byte w 0).toNat (Word.lo w).toNat = none ∨ 2 ≤ (Word.byte w 1).toNat) :
    Part.settingWrite w p = p.refuseWith codeSettingWrite .invalid := by
  rw [Part.settingWrite, if_neg h]
  split
  · next hv hy =>
    rcases hnone with h0 | h2
    · exact absurd (h0.symm.trans hv) (Option.some_ne_none _).symm
    · exact absurd ((yesNo_of_ge _ h2).symm.trans hy) (Option.some_ne_none _).symm
  · rfl

theorem Part.settingWrite_decimation (w : Word) (p : Part) (hid : (Word.byte w 0).toNat = 9)
    (hv : (Word.lo w).toNat ∉ [0, 1, 2, 4, 8, 16]) : Part.settingWrite w p = p.refuseDecimation := by
  have hbad : decimationOk (Word.lo w).toNat = false := Bool.eq_false_iff.mpr (mt (decimationOk_iff _).mp hv)
  exact if_pos ⟨hid, hbad⟩

theorem Part.settingWrite_valid (w : Word) (p : Part) (v' : Nat) (store : Bool)
    (h : ¬((Word.byte w 0).toNat = 9 ∧ decimationOk (Word.lo w).toNat = false))
    (hv : settingValue (Word.byte w 0).toNat (Word.lo w).toNat = some v') (hy : yesNo (Word.byte w 1) = some store) :
    Part.settingWrite w p = p.writeSetting (Word.byte w 0).toNat v' store := by
  rw [Part.settingWrite, if_neg h, hv, hy]

theorem Part.refuseDecimation_eq (p : Part) : p.refuseDecimation = answered { p with
    mgmt := { p.mgmt with settings := { p.mgmt.settings with decimation := 0 } },
    classifier := { p.classifier with decim := .all 0 } } (response codeSettingWrite .invalid []) :=
  Part.refuseWith_eq_answered _ _ _

/-! ## What the effect of a setting leaves alone -/

section
variable {S : Set Socket}

theorem Part.startRecovery_local (p : Part) (n : Socket) (hn : n ∈ S) : p.Local S (p.startRecovery n) := by
  unfold Part.startRecovery
  split
  · exact p.setLink_local n _ hn rfl rfl
  · exact .refl p

theorem Part.haltRecoveryWritten_local (p : Part) (n : Socket) (hn : n ∈ S) :
    p.Local S (Part.haltRecoveryWritten n p) := by
  unfold Part.haltRecoveryWritten
  repeat' split
  · exact p.startRecovery_local n hn
  · exact .refl p
  · exact p.setLink_local n _ hn rfl rfl

theorem Part.holdWritten_local (p : Part) (n : Socket) : p.Local S (Part.holdWritten n p) := by
  unfold Part.holdWritten Part.holdExpiry
  repeat' split
  · exact (p.setStale_local n true).trans (Part.recompute_local _)
  · exact .refl p
  · exact .refl p

theorem Part.settingTakesEffect_local (p : Part) (id : Nat) : p.Local Set.univ (p.settingTakesEffect id) := by
  unfold Part.settingTakesEffect
  split
  · exact p.recompute_local
  · exact p.recompute_local
  · exact p.recompute_local
  · exact p.recompute_local
  · exact forSockets_local _ (fun m q => q.recomputeRecheck_local m (Set.mem_univ m)) p
  · exact forSockets_local _ (fun m q => q.holdWritten_local m) p
  · exact p.setGrants_local _ fun _ _ => id
  · exact p.setClassifier_local _
  · exact forSockets_local _ (fun m q => q.haltRecoveryWritten_local m (Set.mem_univ m)) p
  · exact .refl p

end

/-! ## The hold timers under a new window (R136) -/

/-- Socket n's telemetry is as old as the hold window. -/
def Part.HoldPast (p : Part) (n : Socket) : Prop :=
  ∃ x, (p.session n).telemetry = some x ∧ holdWindow p.settings.telemetryHold ≤ x.age p.clock

theorem Part.holdElapsed_iff_holdPast (p : Part) (n : Socket) :
    p.holdElapsed n = true ↔ p.grants.stale.get n = false ∧ p.HoldPast n := p.holdElapsed_iff n

theorem Part.Local.holdPast_iff {p q : Part} (h : p.Local ∅ q) (n : Socket) : q.HoldPast n ↔ p.HoldPast n := by
  obtain ⟨-, hclock, -, -, hsettings, -⟩ := h.frame
  rw [Part.HoldPast, h.sessions n (Set.notMem_empty n), Part.settings, hsettings, hclock]
  rfl

theorem Part.holdWritten_stale (p : Part) (m n : Socket) : (Part.holdWritten m p).grants.stale.get n = true ↔
    p.grants.stale.get n = true ∨ n = m ∧ p.HoldPast n := by
  unfold Part.holdWritten
  split
  · next he =>
    obtain ⟨hstale, x, hx, hold⟩ := (p.holdElapsed_iff_holdPast m).mp he
    have hruns : p.holdRunning m = true := by simp [Part.holdRunning, hx, hstale]
    rw [Part.holdExpiry, if_pos hruns, Part.recompute_stale]
    show (p.grants.stale.set m true).get n = true ↔ _
    rw [PerSocket.get_set]
    split
    · next h => exact ⟨fun _ => .inr ⟨h, h ▸ ⟨x, hx, hold⟩⟩, fun _ => rfl⟩
    · next h => exact ⟨.inl, fun k => k.resolve_right fun k => h k.1⟩
  · next he =>
    refine ⟨.inl, fun k => k.elim id ?_⟩
    rintro ⟨rfl, hpast⟩
    by_contra hfresh
    exact he ((p.holdElapsed_iff_holdPast n).mpr ⟨Bool.eq_false_iff.mpr hfresh, hpast⟩)

theorem onSockets_holdWritten_stale (l : List Socket) (p : Part) (n : Socket) :
    (onSockets Part.holdWritten l p).grants.stale.get n = true ↔
      p.grants.stale.get n = true ∨ n ∈ l ∧ p.HoldPast n := by
  induction l generalizing p with
  | nil => simp [onSockets]
  | cons m l ih =>
    have hpast := (p.holdWritten_local (S := ∅) m).holdPast_iff n
    have htail := ih (Part.holdWritten m p)
    rw [hpast, p.holdWritten_stale m n] at htail
    rw [List.mem_cons, or_and_right, ← or_assoc]
    exact htail

/-! ## The recovery timers under a new halt recovery (R34) -/

theorem Part.haltRecoveryWritten_recovery (p : Part) (n : Socket) (hparked : p.mgmt.parked = false) :
    ((Part.haltRecoveryWritten n p).link n).recovery = if p.mgmt.settings.haltRecovery = 0 then
        if (p.link n).recovery = none ∧ (p.link n).state = .halted ∧ p.contacts.get n = true then
          some (p.clock + 2000000)
        else (p.link n).recovery
      else none := by
  unfold Part.haltRecoveryWritten Part.settings
  split
  · next hauto =>
    cases hrec : (p.link n).recovery with
    | some d => simp only [reduceCtorEq, false_and, if_false, hrec]
    | none =>
      have hruns : p.recoveryRuns n = true ↔ (p.link n).state = .halted ∧ p.contacts.get n = true := by
        simp [Part.recoveryRuns, Part.settings, hauto, hparked]
      simp only [true_and, Part.startRecovery, hruns]
      split
      · rw [Part.setLink_link_self]
        rfl
      · exact hrec
  · rw [Part.setLink_link_self]

end Sys2Proof.Machine

namespace Sys2Proof.Proofs
open Sys2Proof Sys2Proof.Machine Sys2Proof.Claims

/-! ## SETTING-WRITE (R170, R171) -/

theorem exec_settingWrite_ready (s : State) (w : Word) (hs : Ready s) : exec (.settingWrite [w]) s =
    .next { s with part := Part.settingWrite w (taken 0x05 [w] s.part) } :=
  exec_request_ready _ 0x05 1 1 false [w] (Part.settingWrite w) s hs rfl (by simp)

theorem settingWrite_refused (s : State) (w : Word) (hs : Ready s)
    (h : ¬((Word.byte w 0).toNat = 9 ∧ decimationOk (Word.lo w).toNat = false))
    (hnone : settingValue (Word.byte w 0).toNat (Word.lo w).toNat = none ∨ 2 ≤ (Word.byte w 1).toNat) :
    Answers (.settingWrite [w]) 0x05 [w] .invalid [] s := by
  refine answers_of_respond (exec_settingWrite_ready s w hs) ?_
  rw [Part.settingWrite_refused w _ h hnone]
  rfl

theorem settingWrite_decimation (s : State) (w : Word) (hs : Ready s) (hid : (Word.byte w 0).toNat = 9)
    (hv : (Word.lo w).toNat ∉ [0, 1, 2, 4, 8, 16]) : Becomes (.settingWrite [w]) s
      (answered { taken 0x05 [w] s.part with
          mgmt := { (taken 0x05 [w] s.part).mgmt with settings := { s.part.mgmt.settings with decimation := 0 } },
          classifier := { s.part.classifier with decim := .all 0 } }
        (response 0x05 .invalid [])) := by
  rw [Becomes, exec_settingWrite_ready s w hs, Part.settingWrite_decimation w _ hid hv, Part.refuseDecimation_eq,
    taken_classifier, taken_mgmt _ _ _ hs.1.2]
  rfl

/-- A STATUS reaches no lane that is decimated while the setting is 0 (R64). -/
theorem forwardUp_off (p : Part) (n : Socket) (f : Frame) (k : Lane) (hk : f.kind = kindStatus)
    (h : p.mgmt.settings.decimation = 0) : p.forwardUp n f k true = p := by
  obtain ⟨hpass, hadv⟩ := p.advanceDecim_off n h
  rw [p.forwardUp_decimated n f k hk, hpass, if_neg Bool.false_ne_true, hadv]

/-- Settles O58: a decimation value outside its set is refused and stored as 0 in the runtime copy alone. -/
theorem decimationRefusalSetsZero : Obligations.DecimationRefusalSetsZero := by
  refine fun s w hs => ⟨fun hid hv _ => ?_, fun hid hv _ => ?_, fun hid hv => ?_⟩
  · exact settingWrite_decimation s w hs (by rw [hid]; rfl) hv
  · refine ⟨_, settingWrite_decimation s w hs (by rw [hid]; rfl) hv, ?_⟩
    dsimp only
    rw [← Part.respond_eq_answered]
    have hzero (q : Part) (h : q.mgmt.settings.decimation = 0) (ws : List Word) :
        (q.respond 0x05 .invalid ws).mgmt.settings.decimation = 0 := by
      rw [(q.respond_ordinary _ _ _).settings, h]
    refine ⟨hzero _ rfl [], ?_, ?_, ?_, fun n f k hk => forwardUp_off _ n f k hk (hzero _ rfl [])⟩
    · rw [Part.respond_classifier]
    · rw [Part.respond_ctl, taken_ctl]
    · rw [Part.respond_ctl, taken_ctl]
  · have hcodes : (Word.byte w 0).toNat = 0 ∨ (Word.byte w 0).toNat = 10 ∨ (Word.byte w 0).toNat = 11 :=
      hid.imp (congrArg BitVec.toNat) (Or.imp (congrArg BitVec.toNat) (congrArg BitVec.toNat))
    exact settingWrite_refused s w hs (by omega) (.inl (settingValue_twoCodes _ _ hcodes hv))

/-! ## The effects of a setting in its readers, socket by socket -/

theorem haltRecovery_takesEffect (p : Part) (hparked : p.mgmt.parked = false) (n : Socket) :
    ((p.settingTakesEffect 10).link n).recovery = if p.mgmt.settings.haltRecovery = 0 then
        if (p.link n).recovery = none ∧ (p.link n).state = .halted ∧ p.contacts.get n = true then
          some (p.clock + 2000000)
        else (p.link n).recovery
      else none := by
  obtain ⟨q, hq, hr⟩ := forSockets_at Part.haltRecoveryWritten (fun m q S hm => q.haltRecoveryWritten_local m hm) p n
  obtain ⟨-, hclock, hcontacts, -, hsettings, -, hpark, -⟩ := hq.frame
  have hlink : (p.settingTakesEffect 10).link n = (Part.haltRecoveryWritten n q).link n := hr.links n (by simp)
  rw [hlink, q.haltRecoveryWritten_recovery n (hpark.trans hparked), hclock, hcontacts, hsettings,
    hq.links n (by simp)]

theorem recheckInterval_takesEffect (p : Part) (n : Socket) (r : Recheck) (v e : Nat)
    (hs : (p.session n).state = .admitted) (hr : (p.session n).recheck = some r)
    (hv : v = if p.mgmt.settings.recheckInterval = 0 then 60 else p.mgmt.settings.recheckInterval)
    (he : e = r.lastPass + (if (p.link n).state = .degraded then min v 5 else v) * 1000000) (hlate : p.clock < e) :
    (p.settingTakesEffect 5).session n = { p.session n with recheck := some { r with due := e } } := by
  obtain ⟨q, hq, ht⟩ := forSockets_at Part.recomputeRecheck (fun m q S hm => q.recomputeRecheck_local m hm) p n
  obtain ⟨-, hclock, -, -, hsettings, -⟩ := hq.frame
  have hsession : q.session n = p.session n := hq.sessions n (by simp)
  have hafter : (p.settingTakesEffect 5).session n = (Part.recomputeRecheck n q).session n := ht.sessions n (by simp)
  obtain ⟨-, hact⟩ := recomputeRecheck_acts q n
  obtain ⟨hwait, -⟩ := hact r v e _ (by rw [hsession, hs]) (by rw [hsession, hr]) (by rw [hsettings, hv])
    (by rw [hq.links n (by simp), he]) rfl
  rw [hafter, hwait (.inl (by rw [hclock]; exact hlate)), Part.setSession_session_self, hsession]

theorem telemetryHold_takesEffect (p : Part) (n : Socket) (t : Telemetry) (ht : (p.session n).telemetry = some t) :
    (p.settingTakesEffect 6).grants.stale.get n = true ↔ p.grants.stale.get n = true ∨
      (if p.mgmt.settings.telemetryHold = 0 then 500 else p.mgmt.settings.telemetryHold * 100) ≤
        min 65535 ((p.clock - t.since) / 1000) := by
  have hpast : p.HoldPast n ↔ holdWindow p.settings.telemetryHold ≤ t.age p.clock := by
    simp [Part.HoldPast, ht]
  refine (onSockets_holdWritten_stale allSockets p n).trans (or_congr_right ?_)
  rw [and_iff_right (Socket.mem_all n), hpast]
  rfl

/-! ## A valid SETTING-WRITE -/

/-- The part once a setting's new value stands in the runtime copy. -/
def settingStored (s : State) (w : Word) (id v : Nat) : Part :=
  (taken 0x05 [w] s.part).setSettings ((taken 0x05 [w] s.part).settings.set id v)

theorem settingStored_settings (s : State) (w : Word) (id v : Nat) (hs : Ready s) :
    (settingStored s w id v).mgmt.settings = s.part.mgmt.settings.set id v := by
  rw [settingStored, Part.settings, taken_mgmt _ _ _ hs.1.2]
  rfl

theorem settingStored_parked (s : State) (w : Word) (id v : Nat) (hs : Ready s) :
    (settingStored s w id v).mgmt.parked = false := by
  show (taken 0x05 [w] s.part).mgmt.parked = false
  rw [taken_mgmt _ _ _ hs.1.2, hs.2]

/-- The stored copy that a setting's effect leaves. -/
theorem settingStored_takesEffect_ctl (s : State) (w : Word) (id v : Nat) :
    ((settingStored s w id v).settingTakesEffect id).ctl.storedSettings = s.part.ctl.storedSettings ∧
    ((settingStored s w id v).settingTakesEffect id).ctl.storedMap = s.part.ctl.storedMap := by
  have h := (settingStored s w id v).settingTakesEffect_ordinary id
  have hctl : (settingStored s w id v).ctl = s.part.ctl := taken_ctl 0x05 [w] s.part
  exact ⟨by rw [h.storedSettings, hctl], by rw [h.storedMap, hctl]⟩

theorem settingTakesEffect_mgmt (p : Part) (id : Nat) : (p.settingTakesEffect id).mgmt = { p.mgmt with
    settings := (p.settingTakesEffect id).mgmt.settings, request := (p.settingTakesEffect id).mgmt.request } := by
  obtain ⟨-, -, -, -, -, -, hparked, hsuperseded, -⟩ := (p.settingTakesEffect_local id).frame
  dsimp only
  rw [← hparked, ← hsuperseded]

theorem settingTakesEffect_none (p : Part) (id : Nat) (h : id = 4 ∨ id = 7 ∨ 11 ≤ id) : p.settingTakesEffect id = p := by
  unfold Part.settingTakesEffect
  split
  case h_10 => rfl
  all_goals omega

theorem settingTakesEffect_recompute (p : Part) (id : Nat) (h : id ≤ 3) : p.settingTakesEffect id = p.recompute := by
  interval_cases id
  all_goals rfl

/-- Settles O57: each valid write stands in the runtime copy and takes effect in its reader before it is answered. -/
theorem settingWritesTakeEffectAtOnce : Obligations.SettingWritesTakeEffectAtOnce := by
  rintro s w id v hs rfl rfl
  refine ⟨fun hbad => ?_, fun hid hv _ => settingWrite_decimation s w hs hid hv, fun v' hvalue hflag => ?_⟩
  · rcases hbad with hgt | ⟨hne, hflag⟩ | ⟨hcodes, hv⟩ | ⟨-, hv, hflag⟩
    · exact settingWrite_refused s w hs (by omega) (.inl (settingValue_of_gt _ _ hgt))
    · exact settingWrite_refused s w hs (fun h => hne h.1) (.inr hflag)
    · exact settingWrite_refused s w hs (by omega) (.inl (settingValue_twoCodes _ _ hcodes hv))
    · exact settingWrite_refused s w hs (fun h => Bool.eq_false_iff.mp h.2 ((decimationOk_iff _).mpr hv)) (.inr hflag)
  · obtain ⟨hle, hsome, hok⟩ := settingValue_some _ _ v' hvalue
    have hwrite (store : Bool) (hy : yesNo (Word.byte w 1) = some store) :
        exec (.settingWrite [w]) s = .next { s with
          part := (taken 0x05 [w] s.part).writeSetting (Word.byte w 0).toNat v' store } := by
      rw [exec_settingWrite_ready s w hs, Part.settingWrite_valid w _ v' store hok hsome hy]
    have hctl := settingStored_takesEffect_ctl s w (Word.byte w 0).toNat v'
    have hset := settingStored_settings s w (Word.byte w 0).toNat v' hs
    have hparked := settingStored_parked s w (Word.byte w 0).toNat v' hs
    refine ⟨settingStored s w (Word.byte w 0).toNat v',
      (settingStored s w (Word.byte w 0).toNat v').settingTakesEffect (Word.byte w 0).toNat,
      by rw [hset, Settings.set_toList _ _ _ hle], rfl, settingTakesEffect_mgmt _ _,
      (Part.settingTakesEffect_ordinary _ _).settings, settingTakesEffect_recompute _ _, settingTakesEffect_none _ _,
      ?_, ?_, ?_, ?_, ?_, fun h0 => ?_, fun h1 => ?_⟩
    · intro hid
      rw [hid] at hset ⊢
      show some (_ + aggregatePeriod (settingStored s w 8 v').mgmt.settings.aggregatePeriod) = _
      rw [hset]
      rfl
    · intro hid
      rw [hid]
      rfl
    · intro hid n
      rw [hid] at hset hparked ⊢
      rw [haltRecovery_takesEffect _ hparked n, hset]
      have hv' : v' = 0 ∨ v' = 1 := by omega
      rcases hv' with rfl | rfl
      · rfl
      · rfl
    · intro hid n r hstate hrecheck
      rw [hid] at hset hstate hrecheck ⊢
      refine ⟨_, rfl, fun hlate => ?_⟩
      exact recheckInterval_takesEffect _ n r _ _ hstate hrecheck (by rw [hset]; rfl) rfl hlate
    · intro hid n t ht
      rw [hid] at hset ht ⊢
      rw [telemetryHold_takesEffect _ n t ht, hset]
      rfl
    · rw [Becomes, hwrite false (by rw [h0]; rfl), ← Part.respond_eq_answered]
      rfl
    · refine ⟨s.part.ctl.storedSettings.set (Word.byte w 0).toNat v', Settings.set_toList _ _ _ hle, ?_⟩
      rw [Becomes, hwrite true (by rw [h1]; rfl), ← Part.queueJob_eq_withJob, ← hctl.1, ← hctl.2]
      rfl

end Sys2Proof.Proofs

namespace Sys2Proof.Machine
open Sys2Proof.Claims

/-! ## SOCKET-REPORT (R166) -/

theorem Part.reportFlags_bits (p : Part) (n : Socket) (fl : Byte) (hfl : fl = p.reportFlags n) :
    fl.getLsbD 0 = (p.session n).marks.keyRetired ∧ fl.getLsbD 1 = (p.session n).marks.worn ∧
    fl.getLsbD 2 = (p.session n).marks.suspect ∧ fl.getLsbD 3 = p.grants.stale.get n ∧
    fl.getLsbD 4 = (p.session n).identity.isSome ∧ fl.getLsbD 5 = (p.session n).telemetry.isSome ∧
    fl.getLsbD 6 = (p.session n).baseline.isSome ∧ fl.getLsbD 7 = (p.session n).challenge.isSome := by
  have hbit (i : Nat) (hi : i < 8) := getLsbD_flagByte ((p.session n).marks.toFlags ++ [p.grants.stale.get n,
    (p.session n).identity.isSome, (p.session n).telemetry.isSome, (p.session n).baseline.isSome,
    (p.session n).challenge.isSome]) i hi
  rw [hfl]
  exact ⟨hbit 0 (by decide), hbit 1 (by decide), hbit 2 (by decide), hbit 3 (by decide), hbit 4 (by decide),
    hbit 5 (by decide), hbit 6 (by decide), hbit 7 (by decide)⟩

/-- Page 0 with the identity's fields 0 where there is none. -/
theorem Part.reportPage0_eq (p : Part) (n : Socket) : p.reportPage0 n =
    [Word.ofBytes (byteOf (p.session n).state.code) (byteOf (p.link n).state.code)
        (byteOf (reasonCode (p.session n).reason)) (byteOf (p.link n).errors),
      ((p.session n).identity.map Identity.serial).getD 0,
      Word.ofBytes (((p.session n).identity.map Identity.family).getD 0)
        (((p.session n).identity.map Identity.generation).getD 0)
        (((p.session n).identity.map Identity.classCode).getD 0) (p.reportFlags n),
      Word.ofHalves (((p.session n).identity.map Identity.cycles).getD 0)
        (byteOf (p.session n).attempts ++ byteOf (p.session n).breaks)] := by
  rw [Part.reportPage0]
  cases (p.session n).identity
  · rfl
  · rfl

/-- Page 1 with the telemetry's fields 0 where there is none. -/
theorem Part.reportPage1_eq (p : Part) (n : Socket) : p.reportPage1 n =
    [Word.ofBytes (byteOf (p.session n).state.code) (byteOf (p.link n).state.code) (p.reportFlags n) 0,
      Word.ofHalves (halfOf (p.grants.grant.get n)) (halfOf (p.grants.published.get n)),
      Word.ofBytesHalf (BitVec.ofInt 8 (((p.session n).telemetry.map Telemetry.temperature).getD 0))
        (BitVec.ofInt 8 ((p.session n).peak.getD 0))
        (halfOf (((p.session n).telemetry.map fun t => min 65535 ((p.clock - t.since) / 1000)).getD 0)),
      Word.ofHalves (((p.session n).telemetry.map Telemetry.allowance).getD 0)
        (((p.session n).telemetry.map Telemetry.cellMin).getD 0)] := by
  rw [Part.reportPage1]
  cases (p.session n).telemetry
  · rfl
  · rfl

theorem taken_reportFlags (c : Byte) (ws : List Word) (p : Part) (n : Socket) :
    (taken c ws p).reportFlags n = p.reportFlags n := by
  rw [Part.reportFlags, taken_session, taken_grants]
  rfl

theorem taken_reportPage0 (c : Byte) (ws : List Word) (p : Part) (n : Socket) :
    (taken c ws p).reportPage0 n = p.reportPage0 n := by
  rw [Part.reportPage0_eq, taken_session, taken_link, taken_reportFlags, ← Part.reportPage0_eq]

theorem taken_reportPage1 (c : Byte) (ws : List Word) (p : Part) (n : Socket) :
    (taken c ws p).reportPage1 n = p.reportPage1 n := by
  rw [Part.reportPage1_eq, taken_session, taken_link, taken_reportFlags, taken_grants, taken_clock, ← Part.reportPage1_eq]

theorem Part.socketReport_page0 (w : Word) (p : Part) (n : Socket) (h0 : Word.byte w 0 = byteOf n.val)
    (h1 : Word.byte w 1 = 0) : Part.socketReport w p = p.respond codeSocketReport .done (p.reportPage0 n) := by
  rw [Part.socketReport, h0, socketOf_byteOf, h1]
  rfl

theorem Part.socketReport_page1 (w : Word) (p : Part) (n : Socket) (h0 : Word.byte w 0 = byteOf n.val)
    (h1 : Word.byte w 1 = 1) : Part.socketReport w p = p.respond codeSocketReport .done (p.reportPage1 n) := by
  rw [Part.socketReport, h0, socketOf_byteOf, h1]
  rfl

theorem Part.socketReport_invalid (w : Word) (p : Part) (h : 4 ≤ (Word.byte w 0).toNat ∨ 2 ≤ (Word.byte w 1).toNat) :
    Part.socketReport w p = p.refuseWith codeSocketReport .invalid := by
  unfold Part.socketReport
  split
  · rfl
  · next hn =>
    have hpage : 2 ≤ (Word.byte w 1).toNat := h.resolve_left fun h4 => by simp [socketOf_of_ge _ h4] at hn
    have h0 : Word.byte w 1 ≠ 0 := fun h => by simp [h] at hpage
    have h1 : Word.byte w 1 ≠ 1 := fun h => by simp [h] at hpage
    rw [if_neg h0, if_neg h1]

/-! ## FAULT-REPORT (R167) -/

theorem Part.causeMask_getLsbD (p : Part) (c : Cond) : p.causeMask.getLsbD c.number = p.fault.causes.present c := by
  obtain ⟨hlt, hget⟩ := c.all_number
  rw [Part.causeMask, getLsbD_flagByte _ _ hlt, List.getD_eq_getElem?_getD, List.getElem?_map, hget]
  rfl

theorem MapEntry.byte_fields (e : MapEntry) : e.byte.extractLsb' 0 4 = e.mask ∧ e.byte.getLsbD 4 = e.latch ∧
    e.byte.getLsbD 5 = e.advise ∧ e.byte.getLsbD 6 = false ∧ e.byte.getLsbD 7 = false := by
  obtain ⟨mask, latch, advise⟩ := e
  revert mask latch advise
  decide

/-- Each condition's map byte stands in words 2 and 3, in the order of the conditions (Table 10.2). -/
theorem Part.faultWords_map (p : Part) (c : Cond) :
    Word.byte (if c.number < 4 then Word.ofBytes p.fault.map.lock.byte p.fault.map.overdraw.byte
        p.fault.map.toolSilent.byte p.fault.map.overheat.byte
      else Word.ofBytes p.fault.map.massFail.byte p.fault.map.trustBase.byte p.fault.map.clone.byte
        p.fault.map.store.byte) (c.number % 4) = (p.fault.map.get c).byte := by
  obtain ⟨hlock, hoverdraw, hsilent, hoverheat⟩ := Word.byte_ofBytes p.fault.map.lock.byte p.fault.map.overdraw.byte
    p.fault.map.toolSilent.byte p.fault.map.overheat.byte
  obtain ⟨hmass, hbase, hclone, hstore⟩ := Word.byte_ofBytes p.fault.map.massFail.byte p.fault.map.trustBase.byte
    p.fault.map.clone.byte p.fault.map.store.byte
  cases c
  · exact hlock
  · exact hoverdraw
  · exact hsilent
  · exact hoverheat
  · exact hmass
  · exact hbase
  · exact hclone
  · exact hstore

/-- The bits of word 1 (Table 10.2). -/
theorem Part.faultWords_first (p : Part) (w : Word)
    (hw : w = Word.ofBytes (p.condMask .active) (p.condMask .held) p.permitMask p.causeMask) :
    (∀ c : Cond, w.getLsbD (24 + c.number) = decide (p.fault.conds.get c = .active) ∧
      w.getLsbD (16 + c.number) = decide (p.fault.conds.get c = .held) ∧
      w.getLsbD c.number = p.fault.causes.present c) ∧
    (∀ n : Socket, w.getLsbD (8 + n.val) = p.fault.permits.get n) := by
  obtain ⟨h0, h1, h2, h3⟩ := Word.byte_ofBytes (p.condMask .active) (p.condMask .held) p.permitMask p.causeMask
  rw [← hw] at h0 h1 h2 h3
  refine ⟨fun c => ?_, fun n => ?_⟩
  · obtain ⟨hlt, -⟩ := c.all_number
    have hbit (k : Nat) := Word.getLsbD_byte w k c.number hlt
    refine ⟨?_, ?_, ?_⟩
    · rw [← hbit 0, h0, Part.condMask_getLsbD]
    · rw [← hbit 1, h1, Part.condMask_getLsbD]
    · rw [← p.causeMask_getLsbD, ← h3, hbit 3, Nat.sub_self, Nat.zero_add]
  · rw [← Word.getLsbD_byte w 2 n.val (by omega), h2, p.permitMask_getLsbD.1]

/-! ## TABLE-READ (R168) -/

theorem Part.tableRead_invalid (w : Word) (p : Part)
    (h : Word.byte w 0 ∉ [(1 : Byte), 2, 3, 4] ∨ Word.byte w 0 = 1 ∧ 16 ≤ (Word.byte w 1).toNat ∨
      (Word.byte w 0 = 2 ∨ Word.byte w 0 = 4) ∧ 32 ≤ (Word.byte w 1).toNat) :
    Part.tableRead w p = p.refuseWith codeTableRead .invalid := by
  rcases h with hno | ⟨h1, hge⟩ | ⟨h2 | h4, hge⟩
  · have hne (b : Byte) (hb : b ∈ [(1 : Byte), 2, 3, 4]) : (Word.byte w 0).toNat ≠ b.toNat :=
      fun h => hno (BitVec.eq_of_toNat_eq h ▸ hb)
    exact (((if_neg (hne 1 (by decide))).trans (if_neg (hne 2 (by decide)))).trans (if_neg (hne 3 (by decide)))).trans
      (if_neg (hne 4 (by decide)))
  · simp [Part.tableRead, h1, slotOf_of_ge _ hge]
  · simp [Part.tableRead, h2, indexOf_of_ge _ hge]
  · simp [Part.tableRead, h4, indexOf_of_ge _ hge]

theorem Part.tableRead_key (w : Word) (p : Part) (k : Fin 16) (h0 : Word.byte w 0 = 1) (h1 : Word.byte w 1 = byteOf k.val) :
    Part.tableRead w p = p.respond codeTableRead .done [p.trust.slotWord k] := by
  simp [Part.tableRead, h0, h1, slotOf_byteOf]

theorem Part.tableRead_class (w : Word) (p : Part) (i : Fin 32) (h0 : Word.byte w 0 = 2)
    (h1 : Word.byte w 1 = byteOf i.val) :
    Part.tableRead w p = p.respond codeTableRead .done (classWords p.trust.classes[i]) := by
  simp [Part.tableRead, h0, h1, indexOf_byteOf]

theorem Part.tableRead_withdrawn (w : Word) (p : Part) (x : Word) (h0 : Word.byte w 0 = 3)
    (hx : p.trust.withdrawn[(Word.byte w 1).toNat]? = some x) : Part.tableRead w p =
      p.respond codeTableRead .done [x, Word.ofHalves (halfOf p.trust.withdrawn.length) 0] := by
  simp [Part.tableRead, h0, hx]

theorem Part.tableRead_absent (w : Word) (p : Part) (h0 : Word.byte w 0 = 3)
    (hnone : p.trust.withdrawn[(Word.byte w 1).toNat]? = none) :
    Part.tableRead w p = p.refuseWith codeTableRead .absent := by
  simp [Part.tableRead, h0, hnone]

theorem Part.tableRead_rule (w : Word) (p : Part) (i : Fin 32) (h0 : Word.byte w 0 = 4)
    (h1 : Word.byte w 1 = byteOf i.val) : Part.tableRead w p = p.respond codeTableRead .done (p.ruleWords i) := by
  simp [Part.tableRead, h0, h1, indexOf_byteOf]

/-- A rule's three words, field by field (4.7.2). -/
theorem Part.ruleWords_eq (p : Part) (i : Fin 32) (r : Rule) (hr : r = p.classifier.rules[i]) : p.ruleWords i =
    [Word.ofBytes (byteOf i.val) (if r.enabled then 1 else 0) (if r.direction = .down then 1 else 0)
       ((r.kind.map fun k => k.setWidth 8).getD 0xFF),
     Word.ofBytes (r.socketMask.setWidth 8) (r.stateMask.setWidth 8)
       (if r.action = .forward then 0 else if r.action = .answer then 1 else 2) r.lane,
     Word.ofBytes (if r.decimate then 1 else 0) (if p.classifier.editing then 1 else 0) 0 0] := by
  have hdirection : r.direction.code = if r.direction = .down then 1 else 0 := by cases r.direction <;> rfl
  have haction : r.action.code = if r.action = .forward then 0 else if r.action = .answer then 1 else 2 := by
    cases r.action <;> rfl
  have hkind : kindCode r.kind = (r.kind.map fun k => k.setWidth 8).getD 0xFF := by cases r.kind <;> rfl
  obtain ⟨hdecimate, -⟩ := Word.byte_ofBytes (flagByte r.decimate) 0 0 0
  rw [Part.ruleWords, ← hr, Rule.words]
  dsimp only
  rw [hdecimate, hdirection, haction, hkind]
  rfl

end Sys2Proof.Machine

namespace Sys2Proof.Proofs
open Sys2Proof Sys2Proof.Machine Sys2Proof.Claims

/-! ## The report requests -/

theorem exec_socketReport_ready (s : State) (w : Word) (hs : Ready s) : exec (.socketReport [w]) s =
    .next { s with part := Part.socketReport w (taken 0x02 [w] s.part) } :=
  exec_request_ready _ 0x02 1 1 false [w] (Part.socketReport w) s hs rfl (by simp)

theorem exec_faultReport_ready (s : State) (hs : Ready s) : exec (.faultReport []) s =
    .next { s with part := (taken 0x03 [] s.part).respond 0x03 .done (taken 0x03 [] s.part).faultWords } :=
  exec_request_ready _ 0x03 0 0 false [] (fun p => p.respond codeFaultReport .done p.faultWords) s hs rfl (by simp)

theorem exec_settingRead_ready (s : State) (w : Word) (hs : Ready s) : exec (.settingRead [w]) s =
    .next { s with part := Part.settingRead w (taken 0x04 [w] s.part) } :=
  exec_request_ready _ 0x04 1 1 false [w] (Part.settingRead w) s hs rfl (by simp)

theorem exec_tableRead_ready (s : State) (w : Word) (hs : Ready s) : exec (.tableRead [w]) s =
    .next { s with part := Part.tableRead w (taken 0x06 [w] s.part) } :=
  exec_request_ready _ 0x06 1 1 false [w] (Part.tableRead w) s hs rfl (by simp)

theorem exec_withdrawQuery_ready (s : State) (w : Word) (hs : Ready s) : exec (.withdrawQuery [w]) s =
    .next { s with part := Part.withdrawQuery w (taken 0x1A [w] s.part) } :=
  exec_request_ready _ 0x1A 1 1 false [w] (Part.withdrawQuery w) s hs rfl (by simp)

theorem socketReport_reads (s : State) (w : Word) (hs : Ready s) (n : Socket) (h0 : Word.byte w 0 = byteOf n.val) :
    (Word.byte w 1 = 0 → Answers (.socketReport [w]) 0x02 [w] .done (s.part.reportPage0 n) s) ∧
    (Word.byte w 1 = 1 → Answers (.socketReport [w]) 0x02 [w] .done (s.part.reportPage1 n) s) := by
  refine ⟨fun h1 => answers_of_respond (exec_socketReport_ready s w hs) ?_,
    fun h1 => answers_of_respond (exec_socketReport_ready s w hs) ?_⟩
  · rw [Part.socketReport_page0 w _ n h0 h1, taken_reportPage0]
    rfl
  · rw [Part.socketReport_page1 w _ n h0 h1, taken_reportPage1]
    rfl

theorem settingRead_reads (s : State) (w : Word) (hs : Ready s) :
    ((Word.byte w 0).toNat ≤ 12 → Answers (.settingRead [w]) 0x04 [w] .done
      [Word.ofHalves (halfOf (s.part.mgmt.settings.value (Word.byte w 0).toNat))
        (halfOf (s.part.ctl.storedSettings.value (Word.byte w 0).toNat))] s) ∧
    (12 < (Word.byte w 0).toNat → Answers (.settingRead [w]) 0x04 [w] .invalid [] s) := by
  refine ⟨fun hle => answers_of_respond (exec_settingRead_ready s w hs) ?_,
    fun hgt => answers_of_respond (exec_settingRead_ready s w hs) (if_pos hgt)⟩
  rw [Part.settingRead, if_neg (Nat.not_lt.mpr hle), Part.settings, taken_mgmt _ _ _ hs.1.2, taken_ctl]
  rfl

theorem tableRead_answers (s : State) (w : Word) (hs : Ready s) (o : ReqOutcome) (ws : List Word)
    (h : Part.tableRead w (taken 0x06 [w] s.part) = (taken 0x06 [w] s.part).respond codeTableRead o ws) :
    Answers (.tableRead [w]) 0x06 [w] o ws s := answers_of_respond (exec_tableRead_ready s w hs) h

theorem tableRead_key_reads (s : State) (w : Word) (hs : Ready s) (k : Fin 16) (h0 : Word.byte w 0 = 1)
    (h1 : Word.byte w 1 = byteOf k.val) : Answers (.tableRead [w]) 0x06 [w] .done [s.part.trust.slotWord k] s := by
  refine tableRead_answers s w hs _ _ ?_
  rw [Part.tableRead_key w _ k h0 h1, taken_trust]

theorem tableRead_class_reads (s : State) (w : Word) (hs : Ready s) (i : Fin 32) (h0 : Word.byte w 0 = 2)
    (h1 : Word.byte w 1 = byteOf i.val) :
    Answers (.tableRead [w]) 0x06 [w] .done (classWords s.part.trust.classes[i]) s := by
  refine tableRead_answers s w hs _ _ ?_
  rw [Part.tableRead_class w _ i h0 h1, taken_trust]

theorem tableRead_withdrawn_reads (s : State) (w : Word) (hs : Ready s) (h0 : Word.byte w 0 = 3) :
    (∀ x, s.part.trust.withdrawn[(Word.byte w 1).toNat]? = some x → Answers (.tableRead [w]) 0x06 [w] .done
      [x, Word.ofHalves (halfOf s.part.trust.withdrawn.length) 0] s) ∧
    (s.part.trust.withdrawn[(Word.byte w 1).toNat]? = none → Answers (.tableRead [w]) 0x06 [w] .absent [] s) := by
  refine ⟨fun x hx => tableRead_answers s w hs _ _ ?_, fun hnone => tableRead_answers s w hs _ _ ?_⟩
  · rw [Part.tableRead_withdrawn w _ x h0 (by rw [taken_trust, hx]), taken_trust]
  · exact Part.tableRead_absent w _ h0 (by rw [taken_trust, hnone])

theorem tableRead_rule_reads (s : State) (w : Word) (hs : Ready s) (i : Fin 32) (h0 : Word.byte w 0 = 4)
    (h1 : Word.byte w 1 = byteOf i.val) : Answers (.tableRead [w]) 0x06 [w] .done (s.part.ruleWords i) s := by
  refine tableRead_answers s w hs _ _ ?_
  rw [Part.tableRead_rule w _ i h0 h1, Part.ruleWords, taken_classifier]
  rfl

theorem withdrawQuery_reads (s : State) (w : Word) (hs : Ready s) :
    (w = 0 ∨ w = 0xFFFFFFFF → Answers (.withdrawQuery [w]) 0x1A [w] .invalid [] s) ∧
    (w ≠ 0 → w ≠ 0xFFFFFFFF → Answers (.withdrawQuery [w]) 0x1A [w] .done
      [Word.ofBytesHalf (if w ∈ s.part.trust.withdrawn then 1 else 0) 0 (halfOf s.part.trust.withdrawn.length)] s) := by
  refine ⟨fun hbad => answers_of_respond (exec_withdrawQuery_ready s w hs) ?_,
    fun h0 h1 => answers_of_respond (exec_withdrawQuery_ready s w hs) ?_⟩
  · have hinvalid : ¬validSerial w = true := fun h => by
      obtain ⟨h0, h1⟩ := (validSerial_iff w).mp h
      exact hbad.elim h0 h1
    exact if_neg hinvalid
  · rw [Part.withdrawQuery, if_pos ((validSerial_iff w).mpr ⟨h0, h1⟩), Part.listWord, taken_trust]
    simp only [flagByte, List.contains_iff_mem]
    rfl

/-- Settles O52: each report's words are the state's, field by field. -/
theorem reportsReadTheState : Obligations.ReportsReadTheState := by
  intro s w p hs
  refine ⟨?_, fun hbad => ?_, ?_, ?_, fun k h0 h1 => ?_, fun i h0 h1 => ?_, tableRead_withdrawn_reads s w hs, ?_,
    fun hbad => tableRead_answers s w hs _ _ (Part.tableRead_invalid w _ hbad), withdrawQuery_reads s w hs⟩
  · rintro n x l rfl rfl h0
    obtain ⟨hkey, hworn, hsuspect, hstale, hidentity, htelemetry, hbaseline, hchallenge⟩ :=
      s.part.reportFlags_bits n _ rfl
    obtain ⟨hpage0, hpage1⟩ := socketReport_reads s w hs n h0
    rw [Part.reportPage0_eq] at hpage0
    rw [Part.reportPage1_eq] at hpage1
    exact ⟨s.part.reportFlags n, hkey, hworn, hsuspect, hstale, hidentity, htelemetry, hbaseline, hchallenge, hpage0,
      hpage1⟩
  · exact answers_of_respond (exec_socketReport_ready s w hs) (Part.socketReport_invalid w _ hbad)
  · rintro rfl
    obtain ⟨hconds, hpermits⟩ := (taken 0x03 [] s.part).faultWords_first _ rfl
    refine ⟨_, _, _, answers_of_respond (exec_faultReport_ready s hs) rfl, hconds, hpermits, fun c b hb => ?_⟩
    rw [hb, Part.faultWords_map]
    exact MapEntry.byte_fields _
  · rintro id rfl
    exact settingRead_reads s w hs
  · have hread := tableRead_key_reads s w hs k h0 h1
    rw [Trust.slotWord] at hread
    refine ⟨fun hnone => ?_, fun e he => ?_⟩
    · rwa [hnone] at hread
    · rwa [he] at hread
  · have hread := tableRead_class_reads s w hs i h0 h1
    refine ⟨fun hnone => ?_, fun e he => ?_⟩
    · rwa [hnone] at hread
    · rwa [he] at hread
  · rintro i r h0 h1 hr
    rw [← s.part.ruleWords_eq i r hr]
    exact tableRead_rule_reads s w hs i h0 h1

end Sys2Proof.Proofs

namespace Sys2Proof.Machine
open Sys2Proof.Claims

/-! ## Entries logged at the end of the job queue -/

/-- The store controller after jobs have been put at the end of its queue: nothing else of it has changed. -/
structure StoreCtl.Grown (c d : StoreCtl) : Prop where
  frame : d = { c with job := d.job, queue := d.queue }
  jobs : ∀ j ∈ c.jobs, j ∈ d.jobs

theorem StoreCtl.Grown.refl (c : StoreCtl) : c.Grown c := ⟨rfl, fun _ => id⟩

theorem StoreCtl.Grown.trans {c d e : StoreCtl} (h : c.Grown d) (k : d.Grown e) : c.Grown e := by
  refine ⟨?_, fun j hj => k.jobs j (h.jobs j hj)⟩
  rw [k.frame, h.frame]

/-- A log entry changes nothing but the job queue. -/
theorem Part.log_eq_setCtl (p : Part) (e : LogEntry) : p.log e = p.setCtl (p.log e).ctl := by
  unfold Part.log
  split
  · rfl
  · rfl

theorem Part.log_grown (p : Part) (e : LogEntry) : p.ctl.Grown (p.log e).ctl := by
  refine ⟨?_, p.log_jobs e⟩
  unfold Part.log
  split
  · rw [Part.queueJob_eq_withJob]
    unfold withJob
    split
    · rfl
    · rfl
    · rfl
  · rfl

theorem storeBads_eq_setCtl (a : StoreArray) (rs : List Region) (p : Part) :
    ∃ c, p.ctl.Grown c ∧ storeBads a rs p = p.setCtl c := by
  refine List.foldlRecOn (motive := fun q : Part => ∃ c, p.ctl.Grown c ∧ q = p.setCtl c) rs _
    ⟨p.ctl, .refl _, rfl⟩ fun q hq r _ => ?_
  split
  · obtain ⟨c, hgrown, rfl⟩ := hq
    exact ⟨_, hgrown.trans (Part.log_grown (p.setCtl c) _), Part.log_eq_setCtl _ _⟩
  · exact hq
  · exact hq

/-! ## A session ended without a report (R93, R102) -/

/-- What ending sessions silently, with no audit in course, leaves as it was. -/
structure Part.Spares (p q : Part) : Prop where
  clock : q.clock = p.clock
  contacts : q.contacts = p.contacts
  trust : q.trust = p.trust
  fault : q.fault = p.fault
  mgmt : q.mgmt = p.mgmt
  rules : q.classifier.rules = p.classifier.rules
  editing : q.classifier.editing = p.classifier.editing
  counter : q.proof.counter = p.proof.counter
  pendingMark : q.proof.pendingMark = p.proof.pendingMark
  committedMark : q.proof.committedMark = p.proof.committedMark
  audit : p.engine.audit = none → q.engine.audit = none
  recent : q.engine.recent = p.engine.recent
  ctl : p.ctl.Grown q.ctl

theorem Part.Spares.refl (p : Part) : p.Spares p :=
  ⟨rfl, rfl, rfl, rfl, rfl, rfl, rfl, rfl, rfl, rfl, id, rfl, .refl _⟩

theorem Part.Spares.trans {p q r : Part} (h : p.Spares q) (k : q.Spares r) : p.Spares r :=
  ⟨k.clock.trans h.clock, k.contacts.trans h.contacts, k.trust.trans h.trust, k.fault.trans h.fault,
   k.mgmt.trans h.mgmt, k.rules.trans h.rules, k.editing.trans h.editing, k.counter.trans h.counter,
   k.pendingMark.trans h.pendingMark, k.committedMark.trans h.committedMark, k.audit ∘ h.audit,
   k.recent.trans h.recent, h.ctl.trans k.ctl⟩

theorem Part.discardChallenge_spares (p : Part) (n : Socket) : p.Spares (p.discardChallenge n) := by
  unfold Part.discardChallenge
  dsimp only
  repeat' split
  · exact .refl p
  · exact ⟨rfl, rfl, rfl, rfl, rfl, rfl, rfl, rfl, rfl, rfl, id, rfl, .refl _⟩
  · exact ⟨rfl, rfl, rfl, rfl, rfl, rfl, rfl, rfl, rfl, rfl, id, rfl, .refl _⟩

theorem Part.log_spares (p : Part) (e : LogEntry) : p.Spares (p.log e) := by
  have hgrown := p.log_grown e
  rw [p.log_eq_setCtl e] at hgrown ⊢
  exact ⟨rfl, rfl, rfl, rfl, rfl, rfl, rfl, rfl, rfl, rfl, id, rfl, hgrown⟩

theorem Part.logPeak_spares (p : Part) (n : Socket) : p.Spares (p.logPeak n) := by
  unfold Part.logPeak
  split
  · exact .refl p
  · exact p.log_spares _

theorem Part.auditResult_of_noAudit (p : Part) (n : Socket) (o : AuditOutcome) (h : p.engine.audit = none) :
    p.auditResult n o = p := by
  rw [Part.auditResult, h]

theorem Part.closeSession_spares (p : Part) (n : Socket) (h : p.engine.audit = none) : p.Spares (p.closeSession n) := by
  have hpeak : p.Spares ((p.discardChallenge n).logPeak n) :=
    (p.discardChallenge_spares n).trans (Part.logPeak_spares _ n)
  unfold Part.closeSession
  dsimp only
  rw [Part.auditResult_of_noAudit _ n _ (hpeak.audit h)]
  exact hpeak.trans ⟨rfl, rfl, rfl, rfl, rfl, rfl, rfl, rfl, rfl, rfl, id, rfl, .refl _⟩

theorem Part.endSessionSilently_spares (n : Socket) (p : Part) (h : p.engine.audit = none) :
    p.Spares (Part.endSessionSilently n p) := by
  unfold Part.endSessionSilently
  split
  · exact .refl p
  · exact p.closeSession_spares n h

theorem Part.endSessionSilently_local {S : Set Socket} (n : Socket) (p : Part) (hn : n ∈ S) :
    p.Local S (Part.endSessionSilently n p) := by
  unfold Part.endSessionSilently
  split
  · exact .refl p
  · exact p.closeSession_local n hn

theorem Part.endSessionSilently_session (n : Socket) (p : Part) :
    ((Part.endSessionSilently n p).session n).state = .none ∧
    ((p.session n).state ≠ .none → (Part.endSessionSilently n p).session n = Session.initial) := by
  have hclose : (p.closeSession n).session n = Session.initial := Part.setSession_session_self _ n Session.initial
  unfold Part.endSessionSilently
  split
  · next h => exact ⟨h, fun k => absurd h k⟩
  · rw [hclose]
    exact ⟨rfl, fun _ => rfl⟩

/-- An absent audit stays absent from socket to socket, so each session's end spares what the first does. -/
theorem Part.endSessions_spares (p : Part) (h : p.engine.audit = none) :
    p.Spares (forSockets Part.endSessionSilently p) :=
  have h0 := Part.endSessionSilently_spares 0 p h
  have h1 := h0.trans (Part.endSessionSilently_spares 1 _ (h0.audit h))
  have h2 := h1.trans (Part.endSessionSilently_spares 2 _ (h1.audit h))
  h2.trans (Part.endSessionSilently_spares 3 _ (h2.audit h))

theorem Part.endSessions_session (p : Part) (n : Socket) :
    ((forSockets Part.endSessionSilently p).session n).state = .none ∧
    ((p.session n).state ≠ .none → (forSockets Part.endSessionSilently p).session n = Session.initial) := by
  obtain ⟨q, hq, hr⟩ := forSockets_at Part.endSessionSilently (fun m q S hm => q.endSessionSilently_local m hm) p n
  obtain ⟨hnone, hinitial⟩ := q.endSessionSilently_session n
  rw [hq.sessions n (by simp)] at hinitial
  rw [hr.sessions n (by simp)]
  exact ⟨hnone, hinitial⟩

/-! ## The sockets in the in-band reset (R37, R101, R102) -/

/-- The part once the sessions are ended, before its links are re-evaluated. -/
def Part.sessionsEnded (p : Part) : Part :=
  forSockets Part.endSessionSilently (forSockets (fun n p => p.setLink n (p.link n).cleared)
    ((p.setAudit none).setRecent []))

theorem Part.sessionsEnded_units (p : Part) :
    ((p.setAudit none).setRecent []).Spares p.sessionsEnded ∧ p.sessionsEnded.engine.audit = none ∧
    p.sessionsEnded.engine.recent = [] := by
  obtain ⟨q, hq⟩ : ∃ q, q = forSockets (fun n p => p.setLink n (p.link n).cleared) ((p.setAudit none).setRecent []) :=
    ⟨_, rfl⟩
  have hclear : ((p.setAudit none).setRecent []).Spares q := by
    rw [hq]
    exact ⟨rfl, rfl, rfl, rfl, rfl, rfl, rfl, rfl, rfl, rfl, id, rfl, .refl _⟩
  have haudit : q.engine.audit = none := hclear.audit rfl
  have hend := q.endSessions_spares haudit
  have hwhole : p.sessionsEnded = forSockets Part.endSessionSilently q := by rw [hq, Part.sessionsEnded]
  rw [hwhole]
  exact ⟨hclear.trans hend, hend.audit haudit, hend.recent.trans hclear.recent⟩

theorem Part.sessionsEnded_session (p : Part) (n : Socket) : (p.sessionsEnded.session n).state = .none ∧
    ((p.session n).state ≠ .none → p.sessionsEnded.session n = Session.initial) := Part.endSessions_session _ n

theorem Part.resetLink_eq (n : Socket) (p : Part) : Part.resetLink n p = p.setLink n (p.restartedLink n) := by
  have hlink : (p.setLink n (p.link n).cleared).link n = (p.link n).cleared := Part.setLink_link_self _ _ _
  rw [Part.resetLink, Part.sampleContact_eq, hlink, Part.setLink_setLink]
  rfl

/-- The links are re-evaluated, and nothing else of the part changes. -/
theorem forSockets_resetLink (p : Part) : forSockets Part.resetLink p = { p with links := .ofFn p.restartedLink } := by
  simp only [forSockets, Part.resetLink_eq]
  rfl

theorem Part.resetSockets_eq (p : Part) :
    p.resetSockets = { p.sessionsEnded with links := .ofFn p.sessionsEnded.restartedLink } :=
  forSockets_resetLink p.sessionsEnded

/-- What the reset of the sockets leaves of a link. -/
theorem Part.restartedLink_reset (p : Part) (n : Socket) :
    (p.restartedLink n).tx = none ∧ (p.restartedLink n).engineSlot = none ∧ (p.restartedLink n).pollQueue = [] ∧
      (p.restartedLink n).errors = 0 ∧ (p.restartedLink n).drop = none ∧ (p.restartedLink n).recovery = none ∧
      (p.contacts.get n = true →
        (p.restartedLink n).state = .settling ∧ (p.restartedLink n).settle = some (p.clock + 250000)) ∧
      (p.contacts.get n = false → (p.restartedLink n).state = .vacant ∧ (p.restartedLink n).settle = none) := by
  have hcleared := (p.link n).cleared_eq
  refine ⟨?_, ?_, ?_, ?_, ?_, ?_, p.restartedLink_asserted n, p.restartedLink_deasserted n⟩
  all_goals
    rw [Part.restartedLink, hcleared]

/-! ## The part before RESET is answered (R51, R71, R151, R160) -/

theorem Part.revert_frame (p : Part) : p.revert.fault.causes = p.fault.causes ∧ p.revert = { p with
    fault := { p.fault with map := p.revert.fault.map },
    mgmt := { p.mgmt with settings := p.revert.mgmt.settings } } := by
  unfold Part.revert
  split
  · exact ⟨rfl, rfl⟩
  · exact ⟨rfl, rfl⟩

theorem Part.revert_reverts (p : Part) :
    (p.mgmt.settings.revertOnReset = 1 →
      p.revert.mgmt.settings = p.ctl.storedSettings ∧ p.revert.fault.map = p.ctl.storedMap) ∧
    (p.mgmt.settings.revertOnReset ≠ 1 →
      p.revert.mgmt.settings = p.mgmt.settings ∧ p.revert.fault.map = p.fault.map) := by
  refine ⟨fun h => ?_, fun h => ?_⟩
  · rw [Part.revert, Part.settings, if_pos h]
    exact ⟨rfl, rfl⟩
  · rw [Part.revert, Part.settings, if_neg h]
    exact ⟨rfl, rfl⟩

/-- An EDITING rule table reloaded; but for entries on their way to the log nothing else changes (R71). -/
theorem Part.resetRules_eq (a : StoreArray) (p : Part) : ∃ c, p.ctl.Grown c ∧ Part.resetRules a p =
    { p with ctl := c, classifier :=
      { rules := if p.classifier.editing then loadRules a else p.classifier.rules, editing := false, decim := .all 0 } } := by
  unfold Part.resetRules
  split
  · obtain ⟨c, hgrown, heq⟩ := storeBads_eq_setCtl a [.rules] p
    exact ⟨c, hgrown, by rw [heq]; rfl⟩
  · next h =>
    refine ⟨p.ctl, .refl _, ?_⟩
    rw [← Bool.eq_false_iff.mpr h]
    rfl

/-- The part as the in-band reset leaves it before RESET is answered. -/
def Part.resetReady (a : StoreArray) (p : Part) : Part :=
  let p1 := (Part.resetRules a p.revert.resetSockets.resetTlp).resetGrants.resetCauses
  (p1.setMgmt { p1.mgmt with parked := false }).setCursor none

theorem Part.resetReady_eq (a : StoreArray) (p k : Part) (hk : k = p.revert.resetSockets) :
    ∃ c, k.ctl.Grown c ∧ Part.resetReady a p = { k with
      tlp := { k.tlp with
        lane0 := [], lane1 := [], lane2 := [], response := none, silence := some (k.clock + 500000) },
      classifier := { rules := if k.classifier.editing then loadRules a else k.classifier.rules, editing := false,
                      decim := .all 0 },
      grants := { Grants.initial with aggregate := some (k.clock + aggregatePeriod k.mgmt.settings.aggregatePeriod) },
      fault := { k.fault with causes := { k.fault.causes with overdraw := false, silent := false, overheat := false } },
      mgmt := { k.mgmt with parked := false },
      ctl := { c with cursor := none } } := by
  obtain ⟨c, hgrown, heq⟩ := Part.resetRules_eq a k.resetTlp
  refine ⟨c, hgrown, ?_⟩
  rw [Part.resetReady, ← hk, heq]
  rfl

/-! ## The conditions re-evaluated (R159, R160) -/

theorem Part.raisePresent_units (p : Part) (c : Cond) : p.SameUnits (p.raisePresent c) := by
  unfold Part.raisePresent
  split
  · exact p.raiseCond_units c
  · exact .refl p

theorem Part.raisePresent_grown (p : Part) (c : Cond) : p.ctl.Grown (p.raisePresent c).ctl := by
  unfold Part.raisePresent
  split
  · have hgrown := (p.changeCond c .active).log_grown (faultEntry c)
    rwa [Part.changeCond_ctl] at hgrown
  · exact .refl _

theorem Part.resetConditions_units (p : Part) : p.SameUnits p.resetConditions ∧ p.ctl.Grown p.resetConditions.ctl :=
  List.foldlRecOn (motive := fun q : Part => p.SameUnits q ∧ p.ctl.Grown q.ctl) Cond.all Part.raisePresent
    ⟨⟨rfl, rfl, rfl, rfl, rfl, rfl⟩, .refl _⟩ fun q hq c _ =>
      ⟨hq.1.trans (q.raisePresent_units c), hq.2.trans (q.raisePresent_grown c)⟩

theorem foldl_raisePresent_conds (cs : List Cond) (p : Part) (d : Cond) :
    (cs.foldl Part.raisePresent p).fault.conds.get d =
      if d ∈ cs ∧ p.fault.causes.present d = true then .active else p.fault.conds.get d := by
  induction cs generalizing p with
  | nil => simp
  | cons c cs ih =>
    rw [List.foldl_cons, ih, raisePresent_causes]
    unfold Part.raisePresent
    by_cases hc : p.fault.causes.present c = true
    · rw [if_pos hc, Part.raiseCond_conds, PerCond.get_set]
      by_cases hd : d = c
      · simp [hd, hc]
      · simp [hd]
    · rw [if_neg hc]
      by_cases hd : d = c
      · simp [hd, hc]
      · simp [hd]

theorem Part.resetConditions_conds (p : Part) (c : Cond) :
    p.resetConditions.fault.conds.get c = if p.fault.causes.present c then .active else .inactive := by
  have hmem : c ∈ Cond.all := by cases c <;> decide
  have hinactive : (PerCond.all CondState.inactive).get c = .inactive := PerCond.get_all _ c
  have hfold := foldl_raisePresent_conds Cond.all (p.setFault { p.fault with conds := .all .inactive }).evalPermits c
  simp only [hmem, true_and] at hfold
  rw [← hinactive]
  exact hfold

/-- The advisories of the conditions among `cs` that are raised and advised, in their order (R154, R160). -/
def Part.presentAdvisories (p : Part) (cs : List Cond) : List Frame :=
  (cs.filter fun c => p.fault.causes.present c && (p.fault.map.get c).advise).map (faultAdvisory · .active)

theorem Part.presentAdvisories_congr {p q : Part} (hcauses : q.fault.causes = p.fault.causes)
    (hmap : q.fault.map = p.fault.map) (cs : List Cond) : q.presentAdvisories cs = p.presentAdvisories cs := by
  rw [Part.presentAdvisories, hcauses, hmap]
  rfl

theorem Part.presentAdvisories_cons (p : Part) (c : Cond) (cs : List Cond) :
    p.presentAdvisories (c :: cs) = p.presentAdvisories [c] ++ p.presentAdvisories cs := by
  rw [Part.presentAdvisories, Part.presentAdvisories, Part.presentAdvisories, ← List.map_append, ← List.filter_append]
  rfl

/-- A condition raised while the transmitter is busy leaves its advisory at the end of lane 0. -/
theorem Part.raisePresent_tlp (p : Part) (c : Cond) (x : Frame) (hbusy : p.tlp.sending = some x)
    (hroom : p.tlp.lane0.length + (p.presentAdvisories [c]).length ≤ 8) :
    (p.raisePresent c).tlp = { p.tlp with lane0 := p.tlp.lane0 ++ p.presentAdvisories [c] } := by
  unfold Part.raisePresent
  split
  · next hpresent =>
    rw [Part.raiseCond, Part.log_tlp, Part.changeCond, Part.adviseCond]
    show Part.tlp (if (p.fault.map.get c).advise then _ else _) = _
    by_cases hadvise : (p.fault.map.get c).advise = true
    · have hone : p.presentAdvisories [c] = [faultAdvisory c .active] := by
        simp [Part.presentAdvisories, hpresent, hadvise]
      rw [hone] at hroom ⊢
      rw [if_pos hadvise, (p.setCond c .active).place_busy _ _ x hbusy]
      show p.tlp.setLane .l0 (laneInsert 8 _ p.tlp.lane0) = _
      rw [laneInsert_of_room 8 _ _ hroom]
      rfl
    · have hone : p.presentAdvisories [c] = [] := by simp [Part.presentAdvisories, hadvise]
      rw [hone, if_neg hadvise, List.append_nil]
      rfl
  · next habsent =>
    have hone : p.presentAdvisories [c] = [] := by simp [Part.presentAdvisories, habsent]
    rw [hone, List.append_nil]

theorem foldl_raisePresent_tlp (cs : List Cond) (p : Part) (x : Frame) (hbusy : p.tlp.sending = some x)
    (hroom : p.tlp.lane0.length + (p.presentAdvisories cs).length ≤ 8) :
    (cs.foldl Part.raisePresent p).tlp = { p.tlp with lane0 := p.tlp.lane0 ++ p.presentAdvisories cs } := by
  induction cs generalizing p with
  | nil => simp [Part.presentAdvisories]
  | cons c cs ih =>
    rw [p.presentAdvisories_cons, List.length_append] at hroom
    have htlp := p.raisePresent_tlp c x hbusy (by omega)
    have hrest := Part.presentAdvisories_congr (raisePresent_causes p c) (raisePresent_plain p c).map cs
    have htail := ih (p.raisePresent c) (by rw [htlp]; exact hbusy) (by
      rw [htlp, hrest, List.length_append]
      omega)
    rw [List.foldl_cons, htail, htlp, hrest, p.presentAdvisories_cons c cs, List.append_assoc]

/-- MASS_FAIL and CLONE have no level cause, so lane 0 keeps room for the AGGREGATE (R152). -/
theorem Part.presentAdvisories_length (p : Part) : (p.presentAdvisories Cond.all).length ≤ 6 := by
  rw [Part.presentAdvisories, List.length_map]
  have hsub : (Cond.all.filter fun c => p.fault.causes.present c && (p.fault.map.get c).advise).Sublist
      (Cond.all.filter fun c => c != .massFail && c != .clone) := by
    refine List.monotone_filter_right _ fun c hc => ?_
    cases c
    case massFail => exact hc
    case clone => exact hc
    all_goals rfl
  exact hsub.length_le

theorem Part.presentAdvisories_kind (p : Part) (cs : List Cond) : ∀ f ∈ p.presentAdvisories cs,
    (f.kind != kindAggregate) = true := by
  intro f hf
  obtain ⟨c, -, rfl⟩ := List.mem_map.mp hf
  rfl

/-! ## The end of the in-band reset (R174) -/

/-- RESET answered, the conditions re-evaluated, the AGGREGATE sent. -/
def Part.resetEnd (p : Part) : Part := (p.respond codeReset .done []).resetConditions.sendAggregate

theorem Part.performReset_eq (a : StoreArray) (p : Part) : Part.performReset a p = (Part.resetReady a p).resetEnd := rfl

/-- RESET's response keeps the transmitter busy. -/
theorem Part.respond_busy (p : Part) (code : Byte) (o : ReqOutcome) (ws : List Word) : ∃ x r,
    (p.respond code o ws).tlp = { p.tlp with sending := some x, response := r } := by
  rw [Part.respond_eq_answered]
  unfold answered
  split
  · exact ⟨_, _, rfl⟩
  · next x hx => exact ⟨x, _, by rw [← hx]⟩

/-- Of a part with an empty lane 0 the end of the reset changes, besides the conditions, lane 0: the advisories, then one
AGGREGATE of the part as it stands. -/
theorem Part.resetEnd_eq (p : Part) (hempty : p.tlp.lane0 = []) : p.resetEnd =
    { (p.respond codeReset .done []).resetConditions with
      tlp := { (p.respond codeReset .done []).tlp with
        lane0 := p.presentAdvisories Cond.all ++ [(p.respond codeReset .done []).resetConditions.aggregateFrame] } } := by
  obtain ⟨x, r, htlp⟩ := p.respond_busy codeReset .done []
  have hfault : (p.respond codeReset .done []).fault = p.fault := Part.respond_fault _ _ _ _
  obtain ⟨q, hq⟩ : ∃ q, q = p.respond codeReset .done [] := ⟨_, rfl⟩
  rw [Part.resetEnd]
  rw [← hq] at htlp hfault ⊢
  have hadvisories : q.presentAdvisories Cond.all = p.presentAdvisories Cond.all :=
    Part.presentAdvisories_congr (by rw [hfault]) (by rw [hfault]) _
  have hlane : q.tlp.lane0 = [] := by rw [htlp]; exact hempty
  have hsending : q.tlp.sending = some x := by rw [htlp]
  have hlength := q.presentAdvisories_length
  have hconds : q.resetConditions.tlp = { q.tlp with lane0 := p.presentAdvisories Cond.all } := by
    have hfold := foldl_raisePresent_tlp Cond.all (q.setFault { q.fault with conds := .all .inactive }).evalPermits x
      hsending (by
        show q.tlp.lane0.length + (q.presentAdvisories Cond.all).length ≤ 8
        rw [hlane, List.length_nil]
        omega)
    refine hfold.trans ?_
    show { q.tlp with lane0 := q.tlp.lane0 ++ q.presentAdvisories Cond.all } = _
    rw [hlane, List.nil_append, hadvisories]
  have hkeep : (p.presentAdvisories Cond.all).filter (fun f => f.kind != kindAggregate) = p.presentAdvisories Cond.all :=
    List.filter_eq_self.mpr (p.presentAdvisories_kind _)
  rw [Part.sendAggregate, Part.placeAggregate_busy _ _ x (by rw [hconds, hsending]) rfl _ (by rw [hconds, hkeep]), hconds,
    if_pos (by rw [← hadvisories]; omega)]

theorem Part.sendAggregate_units (p : Part) : p.SameUnits p.sendAggregate := by
  have hlane (x : Tlp) : p.SameUnits (p.setTlp x) := ⟨rfl, rfl, rfl, rfl, rfl, rfl⟩
  exact (hlane _).trans (Part.place_units _ .l0 _)

theorem Part.resetEnd_units (p : Part) : p.SameUnits p.resetEnd ∧ p.ctl.Grown p.resetEnd.ctl := by
  have hrespond := p.respond_units codeReset .done []
  obtain ⟨hconds, hgrown⟩ := (p.respond codeReset .done []).resetConditions_units
  rw [Part.respond_ctl] at hgrown
  refine ⟨(hrespond.trans hconds).trans ?_, ?_⟩
  · exact Part.sendAggregate_units _
  · rw [Part.resetEnd, Part.sendAggregate, Part.placeAggregate, Part.place_ctl]
    exact hgrown

theorem Part.resetEnd_faults (p : Part) : p.resetEnd.fault.causes = p.fault.causes ∧
    p.resetEnd.fault.map = p.fault.map ∧
    ∀ c, p.resetEnd.fault.conds.get c = if p.fault.causes.present c then .active else .inactive := by
  have hrespond : (p.respond codeReset .done []).fault = p.fault := Part.respond_fault _ _ _ _
  obtain ⟨hplain, hcauses, -⟩ := (p.respond codeReset .done []).resetConditions_spec
  have hfault : p.resetEnd.fault = (p.respond codeReset .done []).resetConditions.fault := Part.place_fault _ _ _
  rw [hfault, hcauses, hplain.map]
  refine ⟨by rw [hrespond], ?_, fun c => ?_⟩
  · rw [← hrespond]
    rfl
  · rw [Part.resetConditions_conds, hrespond]

theorem Part.resetEnd_mgmt (p : Part) : p.resetEnd.mgmt.parked = p.mgmt.parked ∧
    p.resetEnd.mgmt.settings = p.mgmt.settings := by
  have hrespond := (p.respond_ordinary codeReset .done []).toPlain
  obtain ⟨hplain, -⟩ := (p.respond codeReset .done []).resetConditions_spec
  have hsend := ((p.respond codeReset .done []).resetConditions).sendAggregate_ordinary.toPlain
  exact ⟨(hsend.parked.trans hplain.parked).trans hrespond.parked,
    (hsend.settings.trans hplain.settings).trans hrespond.settings⟩

/-- With no share of the tool grant no permit line is asserted (R142). -/
theorem Part.permits_of_noShare (p : Part) (hright : p.PermitsRight) (hshares : p.grants.shares = .all 0) (n : Socket) :
    p.fault.permits.get n = false := by
  have hshare : p.shareOf n = 0 := by rw [Part.shareOf, hshares, PerSocket.get_all]
  rw [hright n, Part.permitDue, hshare]
  rfl

/-- What the reset of the sockets keeps of the part, its runtime settings and map reverted first. -/
theorem Part.resetSockets_keeps (p : Part) : ((p.setAudit none).setRecent []).Spares p.resetSockets ∧
    p.resetSockets.engine.audit = none ∧ p.resetSockets.engine.recent = [] := by
  obtain ⟨hspares, haudit, hrecent⟩ := p.sessionsEnded_units
  rw [p.resetSockets_eq]
  exact ⟨hspares.trans ⟨rfl, rfl, rfl, rfl, rfl, rfl, rfl, rfl, rfl, rfl, id, rfl, .refl _⟩, haudit, hrecent⟩

/-! ## The in-band reset, unit by unit (R174) -/

section
variable (a : StoreArray) (p : Part)

theorem Part.performReset_sockets (n : Socket) :
    (((Part.performReset a p).session n).state = .none ∧
      ((p.session n).state ≠ .none → (Part.performReset a p).session n = Session.initial)) ∧
    ∃ q : Part, q.contacts = p.contacts ∧ q.clock = p.clock ∧ (Part.performReset a p).link n = q.restartedLink n := by
  obtain ⟨k, hk⟩ : ∃ k, k = p.revert.resetSockets := ⟨_, rfl⟩
  obtain ⟨c, -, hready⟩ := Part.resetReady_eq a p k hk
  obtain ⟨hunits, -⟩ := (Part.resetReady a p).resetEnd_units
  obtain ⟨hspares, -⟩ := p.revert.sessionsEnded_units
  obtain ⟨-, hrevert⟩ := p.revert_frame
  have hsession := p.revert.sessionsEnded_session n
  have hk' := hk.trans p.revert.resetSockets_eq
  have hlinks : (Part.performReset a p).links = k.links := hunits.links.trans (by rw [hready])
  have hengine : (Part.performReset a p).engine = k.engine := hunits.engine.trans (by rw [hready])
  refine ⟨?_, p.revert.sessionsEnded, ?_, ?_, ?_⟩
  · rw [Part.session, hengine, hk']
    rw [hrevert] at hsession ⊢
    exact hsession
  · rw [hspares.contacts, hrevert]
    rfl
  · rw [hspares.clock, hrevert]
    rfl
  · rw [Part.link, hlinks, hk']
    exact PerSocket.get_ofFn _ n

theorem Part.performReset_kept (t : Part) (ht : t = Part.performReset a p) :
    t.engine.audit = none ∧ t.engine.recent = [] ∧ t.classifier.editing = false ∧ t.classifier.decim = .all 0 ∧
    t.classifier.rules = (if p.classifier.editing then loadRules a else p.classifier.rules) ∧
    t.trust = p.trust ∧ t.proof.counter = p.proof.counter ∧ t.proof.pendingMark = p.proof.pendingMark ∧
    t.proof.committedMark = p.proof.committedMark ∧
    t.ctl.cursor = none ∧ t.ctl.logPos = p.ctl.logPos ∧ t.ctl.firstMark = p.ctl.firstMark ∧
    ∀ j ∈ p.ctl.jobs, j ∈ t.ctl.jobs := by
  obtain ⟨k, hk⟩ : ∃ k, k = p.revert.resetSockets := ⟨_, rfl⟩
  obtain ⟨c, hgrown, hready⟩ := Part.resetReady_eq a p k hk
  obtain ⟨hunits, hend⟩ := (Part.resetReady a p).resetEnd_units
  obtain ⟨hspares, haudit, hrecent⟩ := p.revert.resetSockets_keeps
  obtain ⟨-, hrevert⟩ := p.revert_frame
  rw [← hk] at hspares haudit hrecent
  rw [← Part.performReset_eq, ← ht, hready] at hunits hend
  rw [hrevert] at hspares
  have hjobs := hspares.ctl.trans hgrown
  refine ⟨?_, ?_, ?_, ?_, ?_, ?_, ?_, ?_, ?_, ?_, ?_, ?_, fun j hj => hend.jobs j (hjobs.jobs j hj)⟩
  · rw [hunits.engine, haudit]
  · rw [hunits.engine, hrecent]
  · rw [hunits.classifier]
  · rw [hunits.classifier]
  · rw [hunits.classifier, hspares.editing, hspares.rules]
    rfl
  · exact hunits.trust.trans hspares.trust
  · rw [hunits.proof, hspares.counter]
    rfl
  · rw [hunits.proof, hspares.pendingMark]
    rfl
  · rw [hunits.proof, hspares.committedMark]
    rfl
  · rw [hend.frame]
  · rw [hend.frame, hjobs.frame]
    rfl
  · rw [hend.frame, hjobs.frame]
    rfl

theorem Part.performReset_settings (t : Part) (ht : t = Part.performReset a p) :
    t.mgmt.parked = false ∧
    (p.mgmt.settings.revertOnReset = 1 →
      t.mgmt.settings = p.ctl.storedSettings ∧ t.fault.map = p.ctl.storedMap) ∧
    (p.mgmt.settings.revertOnReset ≠ 1 →
      t.mgmt.settings = p.mgmt.settings ∧ t.fault.map = p.fault.map) ∧
    t.fault.causes = { p.fault.causes with overdraw := false, silent := false, overheat := false } ∧
    (∀ c, t.fault.conds.get c = if t.fault.causes.present c then .active else .inactive) ∧
    (∀ n, t.fault.permits.get n = false) ∧
    t.grants = { Grants.initial with aggregate := some (p.clock +
      if t.mgmt.settings.aggregatePeriod = 0 then 20000 else t.mgmt.settings.aggregatePeriod * 1000) } := by
  obtain ⟨k, hk⟩ : ∃ k, k = p.revert.resetSockets := ⟨_, rfl⟩
  obtain ⟨c, -, hready⟩ := Part.resetReady_eq a p k hk
  obtain ⟨hunits, -⟩ := (Part.resetReady a p).resetEnd_units
  obtain ⟨hcauses, hmap, hconds⟩ := (Part.resetReady a p).resetEnd_faults
  obtain ⟨hparked, hsettings⟩ := (Part.resetReady a p).resetEnd_mgmt
  obtain ⟨hspares, -⟩ := p.revert.resetSockets_keeps
  obtain ⟨hsame, hrevert⟩ := p.revert_frame
  obtain ⟨hyes, hno⟩ := p.revert_reverts
  obtain ⟨hright, -⟩ := Part.performReset_spec a p
  rw [← hk] at hspares
  rw [← Part.performReset_eq, ← ht, hready] at hunits hcauses hmap hconds hparked hsettings
  have hmap' : t.fault.map = p.revert.fault.map := hmap.trans (by rw [hspares.fault]; rfl)
  have hsettings' : t.mgmt.settings = p.revert.mgmt.settings := hsettings.trans (by rw [hspares.mgmt]; rfl)
  have hclock : k.clock = p.clock := by
    rw [hspares.clock, hrevert]
    rfl
  rw [hmap', hsettings']
  refine ⟨hparked, hyes, hno, ?_, fun c => ?_, fun n => ?_, ?_⟩
  · rw [hcauses, ← hsame, hspares.fault]
    rfl
  · rw [hconds, hcauses]
  · rw [ht]
    exact Part.permits_of_noShare _ hright (by rw [← ht, hunits.grants]; rfl) n
  · rw [hunits.grants, hclock, hspares.mgmt]
    rfl

theorem Part.performReset_tlp (t : Part) (ht : t = Part.performReset a p) :
    t.tlp.lane0 = t.presentAdvisories Cond.all ++ [t.aggregateFrame] ∧ t.tlp.lane1 = [] ∧ t.tlp.lane2 = [] ∧
    t.tlp.silence = some (p.clock + 500000) ∧ Carries t (response 0x3F .done []) := by
  obtain ⟨k, hk⟩ : ∃ k, k = p.revert.resetSockets := ⟨_, rfl⟩
  obtain ⟨c, -, hready⟩ := Part.resetReady_eq a p k hk
  obtain ⟨g, hg⟩ : ∃ g, g = Part.resetReady a p := ⟨_, rfl⟩
  obtain ⟨x, r, hrespond⟩ := g.respond_busy codeReset .done []
  obtain ⟨hcauses, hmap, -⟩ := g.resetEnd_faults
  obtain ⟨hspares, -⟩ := p.revert.resetSockets_keeps
  obtain ⟨-, hrevert⟩ := p.revert_frame
  have hcarries := g.respond_carries codeReset .done []
  have hclock : k.clock = p.clock := by
    rw [hk, hspares.clock, hrevert]
    rfl
  rw [← hg] at hready
  have hend := g.resetEnd_eq (by rw [hready])
  have hadvisories := Part.presentAdvisories_congr hcauses hmap Cond.all
  have hwhole : t = g.resetEnd := by rw [ht, Part.performReset_eq, hg]
  rw [hwhole]
  refine ⟨?_, ?_, ?_, ?_, ?_⟩
  · rw [hadvisories, hend]
    rfl
  · rw [hend, hrespond, hready]
  · rw [hend, hrespond, hready]
  · rw [hend, hrespond, hready, hclock]
  · rw [hend]
    exact hcarries

end

end Sys2Proof.Machine

namespace Sys2Proof.Proofs
open Sys2Proof Sys2Proof.Machine Sys2Proof.Claims

/-- Settles O48: RESET's waits over, the in-band reset leaves every unit as R174 has it. -/
theorem inBandResetReturnsThePart : Obligations.InBandResetReturnsThePart := by
  intro s q hon hq hcode hphase hwait
  have hwaited : s.part.waited codeReset = true := (s.part.waited_iff _).mpr ⟨q, hq, hcode, hphase, hwait⟩
  have hexec : exec .inBandReset s = .next { s with part := Part.performReset s.array s.part } := by
    show s.onPart (Part.inBandReset s.array) = _
    rw [onPart_on s _ hon, Part.inBandReset, if_pos hwaited]
  obtain ⟨t, ht⟩ : ∃ t, t = Part.performReset s.array s.part := ⟨_, rfl⟩
  rw [← ht] at hexec
  have hsockets := Part.performReset_sockets s.array s.part
  rw [← ht] at hsockets
  obtain ⟨haudit, hrecent, hediting, hdecim, hrules, htrust, hcounter, hpending, hcommitted, hcursor, hlog, hfirst, hjobs⟩ :=
    Part.performReset_kept s.array s.part t ht
  obtain ⟨hparked, hyes, hno, hcauses, hconds, hpermits, hgrants⟩ := Part.performReset_settings s.array s.part t ht
  obtain ⟨hlane0, hlane1, hlane2, hsilence, hcarries⟩ := Part.performReset_tlp s.array s.part t ht
  refine ⟨_, hexec, rfl, hparked, haudit, hrecent, fun n => (hsockets n).1.1, fun n => (hsockets n).1.2, fun n => ?_,
    hlane0, hlane1, hlane2, hsilence, hcarries, hediting, hdecim, hrules, hyes, hno, hcauses, hconds, hpermits, hgrants,
    htrust, hcounter, hpending, hcommitted, hcursor, hlog, hfirst, hjobs⟩
  obtain ⟨-, r, hcontacts, hclock, hlink⟩ := hsockets n
  have hreset := r.restartedLink_reset n
  rwa [← hlink, hcontacts, hclock] at hreset

end Sys2Proof.Proofs

namespace Sys2Proof.Machine
open Sys2Proof.Claims

/-! ## The store array along a step (R175, R176, R183) -/

theorem State.cutArray_of_no_job (s : State) (k : Nat) (h : s.part.ctl.job = none) : s.cutArray k = s.array := by
  rw [State.cutArray, h]

theorem State.cutArray_of_job (s : State) (k : Nat) (j : Job) (h : s.part.ctl.job = some j) :
    s.cutArray k = applySteps s.array (j.stopped (j.steps s.part s.array) k) := by
  rw [State.cutArray, h]

/-- What the job in progress has come to when a command stops it: its end, or the cut after some of its steps. -/
def Job.Halted (j : Job) (c : Instr) (ps done : List Prim) : Prop :=
  (endsJob c = true ∧ ∃ r, done = j.taken ps r) ∨ (cutsPower c = true ∧ ∃ k, done = j.stopped ps k)

/-- A command leaves the array, or writes into it what the job in progress has come to. -/
theorem exec_array (c : Instr) (s t : State) (h : exec c s = .next t) :
    t.array = s.array ∨ ∃ j done, s.part.ctl.job = some j ∧ j.Halted c (j.steps s.part s.array) done ∧
      t.array = applySteps s.array done := by
  by_cases hjob : endsJob c = true
  · obtain ⟨r, hnothing | ⟨j, hj, hends⟩⟩ := exec_endsJob c s hjob
    · cases hnothing.symm.trans h
      exact .inl rfl
    · cases hends.symm.trans h
      exact .inr ⟨j, _, hj, .inl ⟨hjob, r, rfl⟩, rfl⟩
  cases c with
  | powerFailsOrResetnAsserted cause k =>
    cases h
    cases hj : s.part.ctl.job with
    | none => exact .inl (s.cutArray_of_no_job k hj)
    | some j => exact .inr ⟨j, _, rfl, .inr ⟨rfl, k, rfl⟩, s.cutArray_of_job k j hj⟩
  | logEntryJobComplete | watermarkJobComplete | keyWriteComplete | keyRetireComplete | keyEraseComplete
  | classWriteComplete | classEraseComplete | withdrawAddComplete | withdrawClearComplete | auditWithdrawalComplete
  | rulesApplyComplete | settingWriteComplete | mapWriteComplete => exact absurd rfl hjob
  | _ =>
    cases h
    exact .inl rfl

theorem exec_wf (c : Instr) (s t : State) (hs : s.array.wf = true) (h : exec c s = .next t) : t.array.wf = true := by
  obtain hsame | ⟨j, done, -, -, hdone⟩ := exec_array c s t h
  · rwa [hsame]
  · rw [hdone]
    exact applySteps_wf s.array done hs

theorem State.idle_array (s : State) : s.idle.array = s.array := by
  unfold State.idle
  split
  · rfl
  · rfl
  · split
    · rfl
    · rfl

theorem Prim.touches_erase (sector addr : Nat) :
    (Prim.erase sector).touches addr = false ↔ addr < 128 * sector ∨ 128 * sector + 128 ≤ addr := by
  simp only [Prim.touches, Bool.and_eq_false_iff, decide_eq_false_iff_not]
  omega

theorem Prim.touches_program (k addr : Nat) (x : Word) : (Prim.program k x).touches addr = false ↔ k ≠ addr :=
  beq_eq_false_iff_ne

/-- A job that rewrites a region erases its sector, which holds the word of the mark that a stop may leave (log 30). -/
theorem Job.stopped_touches (j : Job) (p : Part) (a : StoreArray) (k addr : Nat)
    (h : ∀ s ∈ j.steps p a, s.touches addr = false) :
    ∀ s ∈ j.stopped (j.steps p a) k, s.touches addr = false := by
  intro s hs
  unfold Job.stopped at hs
  split at hs
  · exact h s (List.mem_of_mem_take hs)
  · next r hr =>
    rcases List.mem_append.mp hs with hs | hs
    · exact h s (List.mem_of_mem_take hs)
    · obtain ⟨ws, -, hsteps, -⟩ := Job.steps_of_rewrites a p j r hr
      have herase := (Prim.touches_erase _ _).mp (h (.erase r.sector) (by
        rw [hsteps]
        exact List.mem_cons_self ..))
      split at hs
      · obtain rfl := List.mem_singleton.mp hs
        refine (Prim.touches_program _ _ _).mpr ?_
        unfold Region.base
        omega
      · exact absurd hs List.not_mem_nil

theorem Job.Halted.touches {j : Job} {c : Instr} {p : Part} {a : StoreArray} {done : List Prim}
    (hdone : j.Halted c (j.steps p a) done) (addr : Nat) (h : ∀ s ∈ j.steps p a, s.touches addr = false) :
    ∀ s ∈ done, s.touches addr = false := by
  obtain ⟨-, r, rfl⟩ | ⟨-, k, rfl⟩ := hdone
  · cases r with
    | success => exact h
    | failedAt i => exact j.stopped_touches p a _ addr h
  · exact j.stopped_touches p a k addr h

/-! ## The cut (R183) -/

theorem Part.cut_resetAsserted (p : Part) : Part.cut .resetAsserted p = { p with
    power := if p.power = .off then .off else .resetHeld
    ctl := { p.ctl with job := none, queue := [] }
    fault := { p.fault with permits := .all false } } := by
  unfold Part.cut
  cases p.power <;> rfl

/-! ## A store that was never written (log 4) -/

theorem storeBads_blank (p : Part) (rs : List Region) : storeBads [] rs p = p :=
  List.foldlRecOn (motive := (· = p)) rs _ rfl fun _ hq _ _ => hq

theorem resumedValue_blank : resumedValue [] = 0 := by
  have hfind : (List.range 64).reverse.find? (recordValid []) = none :=
    List.find?_eq_none.mpr fun _ _ => show ¬ (erased == ~~~erased) = true by decide
  rw [resumedValue, hfind]

theorem loadTrust_blank : loadTrust [] = Trust.initial := rfl

theorem Trust.initial_noUsableKey : Trust.initial.noUsableKey = true := by decide

theorem loadProof_blank (draws : Nat) : loadProof [] none draws =
    { Part.reset.proof with entropyDraws := draws } := by
  have hnext : nextWatermark (resumeFrom none 0) = 4096 := by decide
  rw [loadProof, resumedValue_blank, hnext]
  rfl

/-- The part with every region loaded and every volatile item at its cold-start value, no job handed over yet. -/
def Part.coldLoaded (a : StoreArray) (c : ColdStartCause) (p : Part) : Part :=
  Part.loaded a (if p.poweredAnew c then 0 else p.clock) (if p.poweredAnew c then none else p.proof.drawMark) p

theorem Part.coldStart_eq (a : StoreArray) (c : ColdStartCause) (p : Part) : Part.coldStart a c p =
    (storeBads a loadOrder (p.coldLoaded a c)).queueJob (.watermark (p.coldLoaded a c).proof.pendingMark) := rfl

theorem Part.coldLoaded_blank (p : Part) : p.coldLoaded [] .powerOn = { Part.reset with
    contacts := p.contacts, lockPin := p.lockPin,
    proof := { Part.reset.proof with entropyDraws := p.proof.entropyDraws },
    fault := { Part.reset.fault with causes := { Part.reset.fault.causes with lock := p.lockPin } }
    ctl := { Part.reset.ctl with job := none } } := by
  have hproof : p.coldLoaded [] .powerOn = { p.coldLoaded [] .powerOn with
      proof := loadProof [] none p.proof.entropyDraws, trust := loadTrust [],
      fault := { conds := .all .inactive, causes := loadCauses [] (loadProof [] none p.proof.entropyDraws) p.lockPin,
                 map := defaultMap, permits := .all false } } := rfl
  rw [hproof, loadCauses, loadProof_blank, loadTrust_blank, Trust.initial_noUsableKey]
  rfl

/-- A cold start from power-on with such a store is the state after reset, but for the pins and the entropy drawn. -/
theorem Part.coldStart_blank (p : Part) : Part.coldStart [] .powerOn p = { Part.reset with
    contacts := p.contacts, lockPin := p.lockPin,
    proof := { Part.reset.proof with entropyDraws := p.proof.entropyDraws },
    fault := { Part.reset.fault with causes := { Part.reset.fault.causes with lock := p.lockPin } } } := by
  rw [p.coldStart_eq, storeBads_blank, p.coldLoaded_blank]
  rfl

theorem Part.reset_eq_coldStart : Part.coldStart [] .powerOn Part.reset = Part.reset := by
  rw [Part.coldStart_blank]
  rfl

end Sys2Proof.Machine

namespace Sys2Proof.Proofs
open Sys2Proof Sys2Proof.Machine Sys2Proof.Claims

/-- Settles O5: the steps of a job keep the form one by one, and nothing else writes into the array. -/
theorem arrayStaysCanonical : Obligations.ArrayStaysCanonical := by
  intro s t hs hstep
  unfold step at hstep
  split at hstep
  · cases hstep
    rwa [s.idle_array]
  · next c rest _ => exact exec_wf c { s with pending := rest } t hs hstep

/-- Settles O4: what a job has come to when it ends or is cut touches no word that its steps do not. -/
theorem onlyStoreJobsChangeTheArray : Obligations.OnlyStoreJobsChangeTheArray := by
  intro c s t hwf h
  obtain hsame | ⟨j, done, hj, hdone, harray⟩ := exec_array c s t h
  · exact ⟨fun _ _ => hsame, fun _ => hsame, fun _ _ addr _ _ => by rw [hsame]⟩
  · refine ⟨fun hends hcuts => ?_, fun hnone => ?_, fun i hi addr hprogram herase => ?_⟩
    · obtain ⟨h, -⟩ | ⟨h, -⟩ := hdone
      · exact absurd h (by simp [hends])
      · exact absurd h (by simp [hcuts])
    · exact absurd (hnone.symm.trans hj) nofun
    · obtain rfl := Option.some.inj (hj.symm.trans hi)
      rw [harray]
      refine readWord_applySteps s.array done addr hwf (hdone.touches addr fun q hq => ?_)
      cases q with
      | erase k => exact (Prim.touches_erase k addr).mpr (herase k hq)
      | program k x => exact (Prim.touches_program k addr x).mpr (hprogram k x hq)

/-- Settles O34: the cut by its two causes, the array as the job in progress left it. -/
theorem cutKeepsWhatTheJobHadWritten : Obligations.CutKeepsWhatTheJobHadWritten := fun s k =>
  ⟨s.cutArray k, s.cutArray_of_no_job k, s.cutArray_of_job k, rfl, by rw [← s.part.cut_resetAsserted]; rfl⟩

/-- Settles O14: the state after reset is one that a cold start leaves. -/
theorem resetStateMeetsTheInvariants : Obligations.ResetStateMeetsTheInvariants := by
  obtain ⟨hpermits, hlanes, hlinks, hgrants, hrecent, hconds, hjobs, hcauses⟩ := Part.reset.coldStart_spec [] .powerOn
  rw [Part.reset_eq_coldStart] at hpermits hlanes hlinks hgrants hrecent hconds hjobs hcauses
  exact ⟨rfl, hpermits, hconds, hcauses, hlinks, hlanes, hgrants, hrecent, hjobs⟩

end Sys2Proof.Proofs

namespace Sys2Proof.Machine
open Sys2Proof.Claims

/-! ## The end of loading (R179) -/

theorem Part.loadingDone_iff (p : Part) : p.loadingDone = true ↔
    p.ctl.loading = true ∧ ∀ j ∈ p.ctl.jobs, j.isWatermark = false := by
  have hprogress : p.ctl.watermarkInProgress = false ↔ ∀ j ∈ p.ctl.job.toList, j.isWatermark = false := by
    unfold StoreCtl.watermarkInProgress
    cases p.ctl.job <;> simp
  have hqueued : p.ctl.watermarkQueued = false ↔ ∀ j ∈ p.ctl.queue, j.isWatermark = false := by
    simp [StoreCtl.watermarkQueued]
  rw [Part.loadingDone, Bool.and_eq_true, Bool.and_eq_true, Bool.not_eq_true', Bool.not_eq_true', hprogress, hqueued,
    StoreCtl.jobs, List.forall_mem_append, and_assoc]

/-- The part once the COLD_START entry is handed over and hand-off is open: the silence timer runs. -/
def Part.handOffOpened (p : Part) : Part :=
  let p1 := p.log (coldStartEntry p.proof.pendingMark)
  (p1.setCtl { p1.ctl with loading := false }).setTlp { p1.tlp with silence := some (p1.clock + silenceTime) }

/-- The part once STARTED is placed, the contacts sampled and the aggregate timer started. -/
def Part.startsUp (p : Part) : Part :=
  (forSockets Part.resetLink (p.handOffOpened.place .l0 (startedAdvisory p.proof.pendingMark))).startAggregateTimer

theorem Part.handOffOpened_eq (p : Part) : ∃ c, p.ctl.Grown c ∧
    (LogRoom p → .log (coldStartEntry p.proof.pendingMark) ∈ c.jobs) ∧
    p.handOffOpened = { p with
      ctl := { c with loading := false }, tlp := { p.tlp with silence := some (p.clock + 500000) } } := by
  refine ⟨_, p.log_grown (coldStartEntry p.proof.pendingMark), p.log_logged _, ?_⟩
  rw [Part.handOffOpened, p.log_eq_setCtl]
  rfl

/-- A frame placed on the tool link changes, besides the port, the request that a response ends at most. -/
theorem Part.place_eq (p : Part) (k : Lane) (f : Frame) :
    p.place k f = { p with tlp := (p.place k f).tlp, mgmt := (p.place k f).mgmt } := by
  unfold Part.place Part.transmit
  repeat' split
  all_goals rfl

theorem Part.place_settings (p : Part) (k : Lane) (f : Frame) : (p.place k f).mgmt.settings = p.mgmt.settings :=
  (p.place_ordinary k f).settings

/-- An idle transmitter with an empty lane 0 sends a frame placed there at once (R49). -/
theorem Part.place_lane0_sent (p : Part) (f : Frame) (hs : p.tlp.sending = none) (hr : p.tlp.response = none)
    (h0 : p.tlp.lane0 = []) : (p.place .l0 f).tlp.sending = some f := by
  have hlane : (p.tlp.setLane .l0 (laneInsert 8 f p.tlp.lane0)).lane0 = [f] := by
    rw [h0]
    rfl
  exact congrArg (fun q : Part => q.tlp.sending)
    (Part.transmit_lane0 (p.setTlp (p.tlp.setLane .l0 (laneInsert 8 f p.tlp.lane0))) f [] hs hr hlane)

/-- The silence timer is not the conditions' concern, and a frame being sent is sent on. -/
theorem Part.raisePresent_port (p : Part) (c : Cond) : (p.raisePresent c).tlp.silence = p.tlp.silence ∧
    ∀ x, p.tlp.sending = some x → (p.raisePresent c).tlp.sending = some x := by
  unfold Part.raisePresent
  split
  · refine ⟨p.raiseCond_silence c, fun x hx => ?_⟩
    rw [Part.raiseCond, Part.log_tlp, Part.changeCond, Part.adviseCond]
    split
    · rw [(p.setCond c .active).place_busy _ _ x hx]
      exact hx
    · exact hx
  · exact ⟨rfl, fun _ => id⟩

theorem Part.resetConditions_port (p : Part) : p.resetConditions.tlp.silence = p.tlp.silence ∧
    ∀ x, p.tlp.sending = some x → p.resetConditions.tlp.sending = some x :=
  List.foldlRecOn (motive := fun q : Part => q.tlp.silence = p.tlp.silence ∧
      ∀ x, p.tlp.sending = some x → q.tlp.sending = some x) Cond.all Part.raisePresent
    ⟨rfl, fun _ => id⟩ fun q ⟨hsilence, hsending⟩ c _ =>
      ⟨(q.raisePresent_port c).1.trans hsilence, fun x hx => (q.raisePresent_port c).2 x (hsending x hx)⟩

theorem Part.finishLoading_eq (p : Part) : p.finishLoading = p.startsUp.resetConditions := by
  rw [Part.startsUp, show p.proof.pendingMark = p.handOffOpened.proof.pendingMark by
    obtain ⟨c, -, -, heq⟩ := p.handOffOpened_eq
    rw [heq]]
  rfl

/-- What has changed of the part when its blocks have taken their start, the conditions apart. -/
theorem Part.startsUp_eq (p : Part) : ∃ (c : StoreCtl) (t : Tlp) (m : Mgmt) (q : Part), p.ctl.Grown c ∧
    (LogRoom p → .log (coldStartEntry p.proof.pendingMark) ∈ c.jobs) ∧
    t.silence = some (p.clock + 500000) ∧ m.settings = p.mgmt.settings ∧
    (p.tlp.sending = none → p.tlp.response = none → p.tlp.lane0 = [] →
      t.sending = some (startedAdvisory p.proof.pendingMark)) ∧
    q.contacts = p.contacts ∧ q.clock = p.clock ∧
    p.startsUp = { p with
      ctl := { c with loading := false }, tlp := t, mgmt := m, links := .ofFn q.restartedLink,
      grants := { p.grants with aggregate := some (p.clock + aggregatePeriod p.mgmt.settings.aggregatePeriod) } } := by
  obtain ⟨c, hgrown, hlogged, hopened⟩ := p.handOffOpened_eq
  obtain ⟨f, hf⟩ : ∃ f, f = startedAdvisory p.proof.pendingMark := ⟨_, rfl⟩
  obtain ⟨q, hq⟩ : ∃ q, q = p.handOffOpened.place .l0 f := ⟨_, rfl⟩
  have hplaced := p.handOffOpened.place_eq .l0 f
  have hsettings := p.handOffOpened.place_settings .l0 f
  have hsilence := p.handOffOpened.place_silence .l0 f
  have hsent := p.handOffOpened.place_lane0_sent f
  rw [← hq] at hplaced hsettings hsilence hsent
  rw [hopened] at hplaced hsettings hsilence hsent
  refine ⟨c, q.tlp, q.mgmt, q, hgrown, hlogged, hsilence, hsettings, ?_, ?_, ?_, ?_⟩
  · rw [← hf]
    exact hsent
  · rw [hplaced]
  · rw [hplaced]
  · rw [Part.startsUp, ← hf, ← hq, forSockets_resetLink, Part.startAggregateTimer, Part.settings, hsettings]
    rw [hplaced]
    rfl

end Sys2Proof.Machine

namespace Sys2Proof.Proofs
open Sys2Proof Sys2Proof.Machine Sys2Proof.Claims

/-- Before its watermark job has ended loading does not end (log 3). -/
theorem loadingFinished_early (s : State) (hon : s.part.power = .on)
    (h : s.part.ctl.loading = false ∨ ∃ j ∈ s.part.ctl.jobs, j.isWatermark = true) : exec .loadingFinished s = .next s := by
  have hearly : ¬ s.part.loadingDone = true := by
    rw [s.part.loadingDone_iff]
    rintro ⟨hloading, hjobs⟩
    rcases h with h | ⟨j, hj, hw⟩
    · exact absurd (h.symm.trans hloading) nofun
    · exact absurd ((hjobs j hj).symm.trans hw) nofun
  have hexec : exec .loadingFinished s = .next { s with part := s.part.loadingFinished } := onPart_on s _ hon
  rw [hexec, Part.loadingFinished, if_neg hearly]

/-- Settles O33: the blocks take their start, and then the conditions are raised whose causes are present. -/
theorem loadingEndsWhenItsWatermarkJobHas : Obligations.LoadingEndsWhenItsWatermarkJobHas := by
  intro s hon
  refine ⟨loadingFinished_early s hon, fun hloading hjobs => ?_⟩
  obtain ⟨p, hp⟩ : ∃ p, p = s.part := ⟨_, rfl⟩
  have hexec : exec .loadingFinished s = .next { s with part := p.startsUp.resetConditions } := by
    have hfinish : s.part.loadingFinished = p.startsUp.resetConditions := by
      rw [Part.loadingFinished, if_pos (s.part.loadingDone_iff.mpr ⟨hloading, hjobs⟩), hp, Part.finishLoading_eq]
    rw [← hfinish]
    exact onPart_on s _ hon
  obtain ⟨c, t, m, q, hgrown, hlogged, hsilence, hsettings, hsent, hcontacts, hclock, hstarts⟩ := p.startsUp_eq
  obtain ⟨hunits, hqueue⟩ := p.startsUp.resetConditions_units
  obtain ⟨hplain, hcauses, -⟩ := p.startsUp.resetConditions_spec
  obtain ⟨hport, hbusy⟩ := p.startsUp.resetConditions_port
  have hconds := p.startsUp.resetConditions_conds
  have hmap : p.startsUp.resetConditions.fault.map = p.startsUp.fault.map := hplain.map
  have hkept : p.startsUp.resetConditions.mgmt.settings = p.startsUp.mgmt.settings := hplain.settings
  have hlink (n : Socket) : p.startsUp.resetConditions.link n = q.restartedLink n := by
    rw [Part.link, hunits.links, hstarts]
    exact PerSocket.get_ofFn _ n
  obtain ⟨r, hr⟩ : ∃ r, r = p.startsUp.resetConditions := ⟨_, rfl⟩
  rw [← hr] at hexec hunits hqueue hcauses hport hbusy hconds hmap hkept hlink
  rw [hstarts] at hunits hqueue hcauses hport hbusy hconds hmap hkept
  rw [← hp]
  refine ⟨_, hexec, rfl, ?_, hport.trans hsilence, hunits.grants, fun n hn => ?_, fun n hn => ?_, hconds, hcauses, hmap,
    hunits.trust, hunits.proof, hunits.engine, hunits.classifier, hkept.trans hsettings,
    fun hroom => hqueue.jobs _ (hlogged hroom), fun hs hr h0 => hbusy _ (hsent hs hr h0)⟩
  · show r.ctl.loading = false
    rw [hqueue.frame]
  · rw [hlink, ← hclock]
    exact q.restartedLink_asserted n (by rw [hcontacts]; exact hn)
  · rw [hlink]
    exact q.restartedLink_deasserted n (by rw [hcontacts]; exact hn)

end Sys2Proof.Proofs

namespace Sys2Proof.Machine
open Sys2Proof.Claims

/-! ## A log sector read entry by entry (R181) -/

theorem isLogHeader_iff (w : Word) : isLogHeader w = true ↔
    w.extractLsb' 16 5 = (0 : BitVec 5) ∧ 1 ≤ (w.extractLsb' 26 4).toNat ∧ (w.extractLsb' 26 4).toNat ≤ 9 := by
  rw [isLogHeader, Bool.and_eq_true, Bool.and_eq_true, beq_iff_eq, decide_eq_true_iff, decide_eq_true_iff, and_assoc]

theorem not_isLogHeader_of_fields (w : Word) (h : w.extractLsb' 16 5 ≠ (0 : BitVec 5) ∨
    w.extractLsb' 26 4 = (0 : BitVec 4) ∨ 9 < (w.extractLsb' 26 4).toNat) : isLogHeader w = false := by
  rw [Bool.eq_false_iff]
  intro hheader
  obtain ⟨hzero, hleast, hmost⟩ := (isLogHeader_iff w).mp hheader
  rcases h with h | h | h
  · exact h hzero
  · rw [h] at hleast
    exact absurd hleast (by decide)
  · omega

theorem erased_not_isLogHeader : isLogHeader erased = false := by decide

section
variable (a : StoreArray) (base fuel off : Nat) (hoff : off < 128)
include hoff

theorem scanLog_erased (h : readWord a (base + off) = erased) : scanLog a base (fuel + 1) off = ([], off) := by
  rw [scanLog, if_neg hoff.not_ge]
  exact if_pos h

theorem scanLog_no_header (h : readWord a (base + off) ≠ erased) (hheader : isLogHeader (readWord a (base + off)) = false) :
    scanLog a base (fuel + 1) off = ([], off) := by
  rw [scanLog, if_neg hoff.not_ge]
  simp only [if_neg h, hheader, Bool.false_eq_true, if_false]

/-- An entry whose commit bit is 1 is passed over; the words of one that is committed are read (R181). -/
theorem scanLog_header (w : Word) (hw : w = readWord a (base + off)) (hheader : isLogHeader w = true) :
    scanLog a base (fuel + 1) off =
      if w.msb then scanLog a base fuel (off + entryLength w)
      else (((List.range (entryLength w)).map fun i => off + i).filter (fun i => i < 128) ++
        (scanLog a base fuel (off + entryLength w)).1, (scanLog a base fuel (off + entryLength w)).2) := by
  have hne : w ≠ erased := fun h => absurd (h ▸ hheader) (by rw [erased_not_isLogHeader]; exact nofun)
  rw [scanLog, if_neg hoff.not_ge, ← hw]
  simp only [if_neg hne, hheader, if_true]

end

/-- The words of an entry that fits its sector. -/
theorem entryOffsets_eq (off len : Nat) (h : off + len ≤ 128) :
    ((List.range len).map fun i => off + i).filter (fun i => i < 128) = List.range' off len := by
  rw [List.filter_eq_self.mpr, List.range'_eq_map_range]
  intro i hi
  obtain ⟨j, hj, rfl⟩ := List.mem_map.mp hi
  have hlt := List.mem_range.mp hj
  exact decide_eq_true (by omega)

/-! ## Reading forward from a cursor (R182) -/

/-- The offsets of the words that a read from a cursor finds in the cursor's sector. -/
def cursorOffsets (a : StoreArray) (c : LogPos) : List Nat := (readInUse a c).1.filter fun o => decide (c.offset ≤ o)

theorem readInUse_free (a : StoreArray) (c : LogPos) (h : logInUse a c.sector = false) :
    readInUse a c = ([], c.offset) := by
  rw [readInUse, if_neg (by rw [h]; exact nofun)]

theorem readInUse_used (a : StoreArray) (c : LogPos) (h : logInUse a c.sector = true) :
    readInUse a c = readSector a c.sector := by
  rw [readInUse, if_pos h]

section
variable (a : StoreArray) (fuel want : Nat) (c : LogPos)

/-- The cursor's sector holds the words that are wanted. -/
theorem readLog_enough (h : want ≤ (cursorOffsets a c).length) : readLog a (fuel + 1) want c =
    (((cursorOffsets a c).take want).map fun o => readWord a (logBase c.sector + o),
      { c with offset := (((cursorOffsets a c).take want).getLast?.map (· + 1)).getD c.offset }) := by
  rw [readLog]
  exact if_pos h

/-- It holds fewer, and no sector follows it. -/
theorem readLog_last (h : (cursorOffsets a c).length < want) (hnext : nextSector a c.seq = none) :
    readLog a (fuel + 1) want c = ((cursorOffsets a c).map fun o => readWord a (logBase c.sector + o),
      { c with offset := max c.offset (readInUse a c).2 }) := by
  rw [← List.take_of_length_le h.le, readLog]
  simp only [hnext]
  exact if_neg h.not_ge

/-- It holds fewer, and the reading goes on in the sector that follows. -/
theorem readLog_on (h : (cursorOffsets a c).length < want) (k : Fin 8) (hnext : nextSector a c.seq = some k) :
    readLog a (fuel + 1) want c =
      (((cursorOffsets a c).map fun o => readWord a (logBase c.sector + o)) ++
        (readLog a fuel (want - (cursorOffsets a c).length) ⟨k, c.seq + 1, 1⟩).1,
       (readLog a fuel (want - (cursorOffsets a c).length) ⟨k, c.seq + 1, 1⟩).2) := by
  rw [← List.take_of_length_le (l := (cursorOffsets a c).map _) (i := want) (by rw [List.length_map]; exact h.le),
    ← List.map_take, readLog]
  simp only [hnext]
  exact if_neg h.not_ge

end

/-- A read returns no more words than are wanted, each a word of the array. -/
theorem readLog_words (a : StoreArray) (fuel want : Nat) (c : LogPos) : (readLog a fuel want c).1.length ≤ want ∧
    ∀ w ∈ (readLog a fuel want c).1, ∃ k, w = readWord a k := by
  have hread (offs : List Nat) (base : Nat) (w : Word) (hw : w ∈ offs.map fun o => readWord a (base + o)) :
      ∃ k, w = readWord a k := by
    obtain ⟨o, -, rfl⟩ := List.mem_map.mp hw
    exact ⟨_, rfl⟩
  induction fuel generalizing want c with
  | zero => exact ⟨Nat.zero_le _, fun w hw => absurd hw List.not_mem_nil⟩
  | succ fuel ih =>
    by_cases henough : want ≤ (cursorOffsets a c).length
    · rw [readLog_enough a fuel want c henough]
      exact ⟨by rw [List.length_map]; exact List.length_take_le _ _, hread _ _⟩
    have hfewer := not_le.mp henough
    cases hnext : nextSector a c.seq with
    | none =>
      rw [readLog_last a fuel want c hfewer hnext]
      exact ⟨by rw [List.length_map]; exact hfewer.le, hread _ _⟩
    | some k =>
      obtain ⟨hlength, hrest⟩ := ih (want - (cursorOffsets a c).length) ⟨k, c.seq + 1, 1⟩
      rw [readLog_on a fuel want c hfewer k hnext]
      refine ⟨?_, fun w hw => (List.mem_append.mp hw).elim (hread _ _ w) (hrest w)⟩
      rw [List.length_append, List.length_map]
      omega

/-- With no sector in use nothing is read, and the cursor stays. -/
theorem readLog_unused (a : StoreArray) (fuel want : Nat) (c : LogPos) (h : ∀ k, logInUse a k = false) (hwant : 0 < want) :
    readLog a (fuel + 1) want c = ([], c) := by
  have hfree := readInUse_free a c (h c.sector)
  have hnone : cursorOffsets a c = [] := by
    rw [cursorOffsets, hfree]
    rfl
  rw [readLog_last a fuel want c (by rw [hnone]; exact hwant)
    (nextSector_eq_none a c.seq fun k hk => absurd ((h k).symm.trans hk) nofun), hnone, hfree, Nat.max_self]
  rfl

theorem oldestEntry_of_least (a : StoreArray) (pos : Option LogPos) (k : Fin 8) (o : Nat) (rest : List Nat)
    (huse : logInUse a k = true) (hk : (readSector a k).1 = o :: rest)
    (hleast : ∀ j, j ≠ k → logInUse a j = true → (readSector a j).1 ≠ [] → (logSeq a k).toNat < (logSeq a j).toNat) :
    oldestEntry a pos = ⟨k, logSeq a k, o⟩ := by
  rw [oldestEntry, firstEntry_of_least a k o rest hk 8 _ (List.mem_filter.mpr ⟨mem_logSectors k, huse⟩)
    (List.length_filter_le _ _) fun j hj hjk hne => hleast j hjk (List.mem_filter.mp hj).2 hne]

theorem oldestEntry_of_none (a : StoreArray) (pos : Option LogPos)
    (h : ∀ k, logInUse a k = true → (readSector a k).1 = []) : oldestEntry a pos = pos.getD ⟨0, 0, 1⟩ := by
  rw [oldestEntry, firstEntry_eq_none a 8 _ fun j hj => h j (List.mem_filter.mp hj).2]

theorem cursorReused_iff (a : StoreArray) (pos : Option LogPos) (c : LogPos) : cursorReused a pos c = true ↔
    if pos = none ∧ c = ⟨0, 0, 1⟩ then logInUse a 0 = true ∧ logSeq a 0 ≠ 0
    else logInUse a c.sector = false ∨ logSeq a c.sector ≠ c.seq := by
  have htest : (pos.isNone && c == ⟨0, 0, 1⟩) = true ↔ pos = none ∧ c = ⟨0, 0, 1⟩ := by
    rw [Bool.and_eq_true, Option.isNone_iff_eq_none, beq_iff_eq]
  unfold cursorReused
  by_cases h : pos = none ∧ c = ⟨0, 0, 1⟩
  · rw [if_pos (htest.mpr h), if_pos h, Bool.and_eq_true, bne_iff_ne]
  · rw [if_neg (mt htest.mp h), if_neg h, Bool.or_eq_true, Bool.not_eq_true', bne_iff_ne]

/-! ## LOG-START and LOG-NEXT as they answer (R182) -/

theorem logWords_eq (moved : Bool) (ws : List Word) : logWords moved ws =
    Word.ofBytes ((if ws.length < 4 then 1 else 0) + (if moved then 2 else 0)) (byteOf ws.length) 0 0 :: ws := by
  have hflags : byteOf (flagSet [decide (ws.length < 4), moved]) =
      (if ws.length < 4 then 1 else 0) + (if moved then 2 else 0) := by
    by_cases h : ws.length < 4
    · rw [decide_eq_true h, if_pos h]
      cases moved <;> rfl
    · rw [decide_eq_false h, if_neg h]
      cases moved <;> rfl
  rw [logWords, hflags]

theorem Part.readFrom_eq_answered (a : StoreArray) (code : Byte) (moved : Bool) (c d : LogPos) (ws : List Word) (p : Part)
    (h : (ws, d) = readLog a 9 4 c) : Part.readFrom a code moved c p =
      answered { p with ctl := { p.ctl with cursor := some d } } (response code .done (logWords moved ws)) := by
  rw [Part.readFrom, ← h, Part.respond_eq_answered]
  rfl

/-- A request of a valid shape that is taken while PARKED too acts at once. -/
theorem exec_request_free (c : Instr) (code : Byte) (least most : Nat) (ws : List Word) (f : Part → Part) (s : State)
    (hs : Free s) (hexec : exec c s = s.onPart (Part.request code least most true ws f))
    (hlen : ¬(ws.length < least ∨ most < ws.length)) :
    exec c s = .next { s with part := f (taken code ws s.part) } := by
  obtain ⟨hloaded, hfree⟩ := hs
  rw [hexec, s.onPart_of_loaded hloaded, Part.request_of_free _ _ _ _ _ _ _ hloaded.2 hfree, if_neg hlen, Bool.not_true,
    Bool.and_false]
  rfl

end Sys2Proof.Machine

namespace Sys2Proof.Proofs
open Sys2Proof Sys2Proof.Machine Sys2Proof.Claims

/-! ## Reading the log -/

theorem logBase_eq (k : Fin 8) : 128 * (7 + k.val) = logBase k := Nat.mul_comm _ _

/-- Reading forward, by whether the cursor's sector holds enough and whether another follows it. -/
theorem readLog_forward (a : StoreArray) (fuel want base : Nat) (c : LogPos) (offs : List Nat) (stop : Nat)
    (hbase : base = 128 * (7 + c.sector.val)) (hfree : logInUse a c.sector = false → offs = [] ∧ stop = c.offset)
    (hused : logInUse a c.sector = true →
      offs = (scanLog a base 128 1).1.filter (fun o => decide (c.offset ≤ o)) ∧ stop = (scanLog a base 128 1).2) :
    (∀ o, 0 < want → want ≤ offs.length → (offs.take want).getLast? = some o →
      readLog a (fuel + 1) want c = ((offs.take want).map fun o => readWord a (base + o), { c with offset := o + 1 })) ∧
    (offs.length < want → (∀ k, logInUse a k = true → logSeq a k ≠ c.seq + 1) →
      readLog a (fuel + 1) want c = (offs.map fun o => readWord a (base + o), { c with offset := max c.offset stop })) ∧
    (∀ k, offs.length < want → logInUse a k = true → logSeq a k = c.seq + 1 →
      (∀ j, logInUse a j = true → logSeq a j = c.seq + 1 → j = k) →
      ∀ r, r = readLog a fuel (want - offs.length) ⟨k, c.seq + 1, 1⟩ →
        readLog a (fuel + 1) want c = ((offs.map fun o => readWord a (base + o)) ++ r.1, r.2)) := by
  rw [logBase_eq] at hbase
  subst hbase
  have hsector : offs = cursorOffsets a c ∧ stop = (readInUse a c).2 := by
    cases huse : logInUse a c.sector with
    | false =>
      obtain ⟨rfl, rfl⟩ := hfree huse
      rw [cursorOffsets, readInUse_free a c huse]
      exact ⟨rfl, rfl⟩
    | true =>
      obtain ⟨rfl, rfl⟩ := hused huse
      rw [cursorOffsets, readInUse_used a c huse]
      exact ⟨rfl, rfl⟩
  obtain ⟨rfl, rfl⟩ := hsector
  refine ⟨fun o _ henough hlast => ?_, fun hfewer hnone => ?_, fun k hfewer huse hseq honly r hr => ?_⟩
  · rw [readLog_enough a fuel want c henough, hlast]
    rfl
  · exact readLog_last a fuel want c hfewer (nextSector_eq_none a c.seq hnone)
  · rw [hr]
    exact readLog_on a fuel want c hfewer k (nextSector_of_unique a c.seq k huse hseq honly)

/-- A sector read from an offset on, by the word found there. -/
theorem scanLog_cases (a : StoreArray) (base fuel off : Nat) (w : Word) (hoff : off < 128)
    (hw : w = readWord a (base + off)) :
    (w = 0xFFFFFFFF → scanLog a base (fuel + 1) off = ([], off)) ∧
    (w ≠ 0xFFFFFFFF → (w.extractLsb' 16 5 ≠ (0 : BitVec 5) ∨ w.extractLsb' 26 4 = (0 : BitVec 4) ∨
        9 < (w.extractLsb' 26 4).toNat) → scanLog a base (fuel + 1) off = ([], off)) ∧
    (w.extractLsb' 16 5 = (0 : BitVec 5) → 1 ≤ (w.extractLsb' 26 4).toNat → (w.extractLsb' 26 4).toNat ≤ 9 →
      ∀ n, n = off + 1 + (w.extractLsb' 21 2).toNat →
      (w.getLsbD 31 = true → scanLog a base (fuel + 1) off = scanLog a base fuel n) ∧
      (w.getLsbD 31 = false → n ≤ 128 → scanLog a base (fuel + 1) off =
        (List.range' off (n - off) ++ (scanLog a base fuel n).1, (scanLog a base fuel n).2))) := by
  refine ⟨fun h => scanLog_erased a base fuel off hoff (hw ▸ h), fun hne h => ?_, fun hzero hleast hmost n hn => ?_⟩
  · exact scanLog_no_header a base fuel off hoff (hw ▸ hne) (hw ▸ not_isLogHeader_of_fields w h)
  · have hscan := scanLog_header a base fuel off hoff w hw ((isLogHeader_iff w).mpr ⟨hzero, hleast, hmost⟩)
    have hmsb : w.msb = w.getLsbD 31 := BitVec.msb_eq_getLsbD_last w
    have hnext : off + entryLength w = n := by rw [entryLength]; omega
    rw [hmsb, hnext] at hscan
    refine ⟨fun hopen => ?_, fun hcommitted hfits => ?_⟩
    · rw [hscan, if_pos hopen]
    · rw [hscan, if_neg (by rw [hcommitted]; exact nofun), entryOffsets_eq _ _ (by omega),
        show entryLength w = n - off by omega]

theorem exec_logStart_free (s : State) (p : Part) (hs : Free s) (hp : p = taken 0x38 [] s.part) (ws : List Word)
    (c : LogPos) (h : (ws, c) = readLog s.array 9 4 (oldestEntry s.array s.part.ctl.logPos)) :
    exec (.logStart []) s = .next { s with
      part := answered { p with ctl := { p.ctl with cursor := some c } } (response 0x38 .done (logWords false ws)) } := by
  have hpos : p.ctl.logPos = s.part.ctl.logPos := by rw [hp, taken_ctl]
  rw [exec_request_free _ 0x38 0 0 [] (Part.logStart s.array) s hs rfl (by simp), ← hp, Part.logStart, hpos,
    Part.readFrom_eq_answered s.array codeLogStart false _ c ws p h]
  rfl

theorem exec_logNext_free (s : State) (q : Part) (hs : Free s) (hq : q = taken 0x39 [] s.part) :
    exec (.logNext []) s = .next { s with part := Part.logNext s.array q } := by
  rw [hq]
  exact exec_request_free _ 0x39 0 0 [] (Part.logNext s.array) s hs rfl (by simp)

theorem logNext_no_cursor (a : StoreArray) (q : Part) (hc : q.ctl.cursor = none) :
    Part.logNext a q = answered q (response 0x39 .wrongState []) := by
  rw [Part.logNext, hc]
  exact q.refuseWith_eq_answered codeLogNext .wrongState

theorem logNext_cursor (a : StoreArray) (q : Part) (c d : LogPos) (ws : List Word) (moved : Bool)
    (hc : q.ctl.cursor = some c) (hmoved : cursorReused a q.ctl.logPos c = moved)
    (h : (ws, d) = readLog a 9 4 (if moved then oldestEntry a q.ctl.logPos else c)) :
    Part.logNext a q = answered { q with ctl := { q.ctl with cursor := some d } }
      (response 0x39 .done (logWords moved ws)) := by
  rw [Part.logNext, hc]
  simp only [hmoved]
  cases moved with
  | true => exact Part.readFrom_eq_answered a codeLogNext true _ d ws q h
  | false => exact Part.readFrom_eq_answered a codeLogNext false _ d ws q h

/-- Settles O53: the reading of a sector, of sector after sector, and the two requests that read. -/
theorem logReadsReturnWordsOfTheArray : Obligations.LogReadsReturnWordsOfTheArray := by
  refine ⟨readLog_forward, fun a pos => ⟨fun k o rest huse hk hleast => ?_, fun hnone => ?_⟩, scanLog_cases,
    fun s p q hs hp hq => ⟨fun ws c h => ?_, fun hnone => ?_, fun c moved ws d hc hmoved h => ?_⟩⟩
  · simp only [logBase_eq] at hk hleast
    exact oldestEntry_of_least a pos k o rest huse hk hleast
  · simp only [logBase_eq] at hnone
    exact oldestEntry_of_none a pos hnone
  · obtain ⟨hlength, hwords⟩ := readLog_words s.array 9 4 (oldestEntry s.array s.part.ctl.logPos)
    rw [← h] at hlength hwords
    refine ⟨hlength, hwords, ?_, fun hfree hpos => ?_⟩
    · rw [exec_logStart_free s p hs hp ws c h, logWords_eq, if_neg Bool.false_ne_true, add_zero]
    · rw [oldestEntry_of_none s.array _ fun k hk => absurd ((hfree k).symm.trans hk) nofun, hpos,
        readLog_unused s.array 8 4 _ hfree (by decide)] at h
      exact Prod.mk.inj h
  · rw [Answers, exec_logNext_free s _ hs rfl, logNext_no_cursor _ _ (by rw [taken_ctl, hnone])]
  · obtain ⟨hlength, hwords⟩ := readLog_words s.array 9 4 (if moved then oldestEntry s.array s.part.ctl.logPos else c)
    rw [← h] at hlength hwords
    have hctl : q.ctl = s.part.ctl := by rw [hq, taken_ctl]
    have hreused : cursorReused s.array s.part.ctl.logPos c = moved :=
      Bool.eq_iff_iff.mpr ((cursorReused_iff _ _ _).trans hmoved.symm)
    rw [← hctl] at hc hreused h
    refine ⟨hlength, hwords, ?_⟩
    rw [exec_logNext_free s q hs hq, logNext_cursor s.array q c d ws moved hc hreused h, logWords_eq]

end Sys2Proof.Proofs

namespace Sys2Proof.Machine
open Sys2Proof.Claims

/-! ## The regions as they are loaded (R175, R177, R179) -/

theorem Settings.value_ofFn (f : Nat → Nat) (i : Nat) (h : i < 13) : (Settings.ofFn f).value i = f i := by
  interval_cases i
  all_goals rfl

/-- A map entry is read from the low byte of its word, whose further bits are ignored (log 36). -/
theorem MapEntry.ofByte_byte (w : Word) :
    MapEntry.ofByte (Word.byte w 3) = { mask := w.setWidth 4, latch := w.getLsbD 4, advise := w.getLsbD 5 } := by
  have hbit (i : Nat) (hi : i < 8) : (Word.byte w 3).getLsbD i = w.getLsbD i := by
    simp [Word.byte, hi]
  have hmask : (Word.byte w 3).setWidth 4 = w.setWidth 4 := by
    refine BitVec.eq_of_getLsbD_eq fun i hi => ?_
    rw [BitVec.getLsbD_setWidth, BitVec.getLsbD_setWidth, hbit i (by omega)]
  rw [MapEntry.ofByte, hmask, hbit 4 (by decide), hbit 5 (by decide)]

theorem loadSettings_valid (a : StoreArray) (h : judgeRegion a .settings = .valid) (i : Nat) (hi : i < 13) :
    (loadSettings a).value i = (readWord a i).toNat := by
  rw [loadSettings, h]
  dsimp only
  rw [Settings.value_ofFn _ i hi, show Region.settings.base + i = i from Nat.zero_add i]

theorem PerCond.get_ofFn {α : Type} (f : Cond → α) (c : Cond) : (PerCond.ofFn f).get c = f c := by
  cases c <;> rfl

theorem loadMap_valid (a : StoreArray) (h : judgeRegion a .settings = .valid) (c : Cond) :
    (loadMap a).get c = MapEntry.ofByte (Word.byte (readWord a (13 + c.number)) 3) := by
  rw [loadMap, h]
  dsimp only
  rw [PerCond.get_ofFn, show Region.settings.base + 13 + c.number = 13 + c.number by
    rw [show Region.settings.base = 0 from rfl, Nat.zero_add]]

section
variable (a : StoreArray)

/-- What a blank or damaged region loads. -/
theorem load_of_not_valid {α : Type} (r : Region) (h : judgeRegion a r ≠ .valid) (x y : α) :
    (match judgeRegion a r with
      | .valid => x
      | .blank => y
      | .damaged => y) = y := by
  cases hj : judgeRegion a r with
  | valid => exact absurd hj h
  | blank => rfl
  | damaged => rfl

theorem loadSettings_default (h : judgeRegion a .settings ≠ .valid) : loadSettings a = Settings.default :=
  load_of_not_valid a .settings h _ _

theorem loadMap_default (h : judgeRegion a .settings ≠ .valid) : loadMap a = defaultMap :=
  load_of_not_valid a .settings h _ _

theorem loadKeys_empty (h : judgeRegion a .keys ≠ .valid) (k : Fin 16) : (loadKeys a)[k] = none := by
  have hload : loadKeys a = Vector.replicate 16 none := load_of_not_valid a .keys h _ _
  rw [hload]
  exact Vector.getElem_replicate k.isLt

theorem loadClasses_empty (h : judgeRegion a .classes ≠ .valid) (i : Fin 32) : (loadClasses a)[i] = none := by
  have hload : loadClasses a = Vector.replicate 32 none := load_of_not_valid a .classes h _ _
  rw [hload]
  exact Vector.getElem_replicate i.isLt

theorem loadWithdrawn_empty (h : judgeRegion a .withdrawal ≠ .valid) : loadWithdrawn a = [] :=
  load_of_not_valid a .withdrawal h _ _

theorem loadRules_default (h : judgeRegion a .rules ≠ .valid) (i : Fin 32) : (loadRules a)[i] = Rule.default := by
  have hload : loadRules a = Vector.replicate 32 Rule.default := load_of_not_valid a .rules h _ _
  rw [hload]
  exact Vector.getElem_replicate i.isLt

end

/-- The words of a list before the first that fails a test. -/
theorem mem_takeWhile_iff {α : Type} (f : α → Bool) (l : List α) (x : α) :
    x ∈ l.takeWhile f ↔ ∃ i : Nat, l[i]? = some x ∧ ∀ k y, k ≤ i → l[k]? = some y → f y = true := by
  induction l with
  | nil => simp
  | cons z l ih =>
    by_cases hz : f z = true
    · rw [List.takeWhile_cons_of_pos hz, List.mem_cons, ih]
      constructor
      · rintro (rfl | ⟨i, hi, hall⟩)
        · exact ⟨0, rfl, fun k y hk hy => by
            obtain rfl := Nat.le_zero.mp hk
            obtain rfl := Option.some.inj hy
            exact hz⟩
        · refine ⟨i + 1, hi, fun k y hk hy => ?_⟩
          cases k with
          | zero =>
            obtain rfl := Option.some.inj hy
            exact hz
          | succ k => exact hall k y (by omega) hy
      · rintro ⟨i, hi, hall⟩
        cases i with
        | zero => exact .inl (Option.some.inj hi).symm
        | succ i => exact .inr ⟨i, hi, fun k y hk hy => hall (k + 1) y (by omega) hy⟩
    · rw [List.takeWhile_cons_of_neg hz]
      refine ⟨fun h => absurd h List.not_mem_nil, ?_⟩
      rintro ⟨i, -, hall⟩
      exact absurd (hall 0 z (Nat.zero_le i) rfl) hz

/-- The serials before the first erased word of the withdrawal list region. -/
theorem mem_withdrawalWords (a : StoreArray) (w : Word) :
    w ∈ (readWords a Region.withdrawal.base 256).takeWhile (· != erased) ↔
      ∃ i, i < 256 ∧ readWord a (512 + i) = w ∧ ∀ k, k ≤ i → readWord a (512 + k) ≠ erased := by
  have hword (i : Nat) (x : Word) : (readWords a Region.withdrawal.base 256)[i]? = some x ↔
      i < 256 ∧ readWord a (512 + i) = x := by
    rw [readWords, List.getElem?_map]
    by_cases hi : i < 256
    · rw [List.getElem?_range hi, Option.map_some, Option.some.injEq]
      exact ⟨fun h => ⟨hi, h⟩, fun h => h.2⟩
    · rw [List.getElem?_eq_none (by rw [List.length_range]; omega)]
      exact ⟨nofun, fun h => absurd h.1 hi⟩
  rw [mem_takeWhile_iff]
  constructor
  · rintro ⟨i, hi, hall⟩
    obtain ⟨hlt, hread⟩ := (hword i w).mp hi
    exact ⟨i, hlt, hread, fun k hk => bne_iff_ne.mp (hall k _ hk ((hword k _).mpr ⟨by omega, rfl⟩))⟩
  · rintro ⟨i, hlt, hread, hall⟩
    refine ⟨i, (hword i w).mpr ⟨hlt, hread⟩, fun k y hk hy => ?_⟩
    obtain ⟨-, rfl⟩ := (hword k y).mp hy
    exact bne_iff_ne.mpr (hall k hk)

/-- A valid withdrawal list is loaded in ascending order, each serial once (R179 step 5). -/
theorem loadWithdrawn_valid (a : StoreArray) (h : judgeRegion a .withdrawal = .valid) :
    (loadWithdrawn a).Pairwise (fun x y => x.toNat < y.toNat) ∧
    ∀ w, w ∈ loadWithdrawn a ↔ ∃ i, i < 256 ∧ readWord a (512 + i) = w ∧ ∀ k, k ≤ i → readWord a (512 + k) ≠ erased := by
  have hload : loadWithdrawn a =
      mergeSerials ((readWords a Region.withdrawal.base 256).takeWhile (· != erased)) [] := by
    rw [loadWithdrawn, h]
    rfl
  rw [hload]
  refine ⟨mergeSerials_sorted _ _ List.Pairwise.nil, fun w => ?_⟩
  rw [mem_mergeSerials, ← mem_withdrawalWords]
  exact or_iff_right List.not_mem_nil

/-! ## The jobs of a cold start (R107, R175) -/

theorem Part.log_jobs_of_room (p : Part) (e : LogEntry) (h : LogRoom p) : (p.log e).ctl.jobs = p.ctl.jobs ++ [.log e] := by
  have hlog : p.log e = p.queueJob (.log e) := if_pos h
  rw [hlog, Part.queueJob, Part.setCtl_ctl, StoreCtl.append_start_jobs]

theorem Part.logRoom_of_jobs (p : Part) (h : p.ctl.jobs.countP Job.isLog < 16) : LogRoom p :=
  lt_of_le_of_lt (List.sublist_append_right _ _).countP_le h

/-- The damaged ones among some regions. -/
def damagedRegions (a : StoreArray) (rs : List Region) : List Region :=
  rs.filter fun r => judgeRegion a r = .damaged

/-- With room for all of them, each damaged region has its STORE_BAD entry among the jobs. -/
theorem storeBads_jobs (a : StoreArray) (rs : List Region) (p : Part)
    (h : p.ctl.jobs.countP Job.isLog + rs.length ≤ 16) : (storeBads a rs p).ctl.jobs =
      p.ctl.jobs ++ (damagedRegions a rs).map fun r => .log (storeBad r.code) := by
  induction rs generalizing p with
  | nil => exact (List.append_nil _).symm
  | cons r rs ih =>
    rw [List.length_cons] at h
    cases hj : judgeRegion a r with
    | damaged =>
      have hstep : storeBads a (r :: rs) p = storeBads a rs (p.log (storeBad r.code)) := by
        rw [storeBads, List.foldl_cons, hj]
        rfl
      have hjobs := p.log_jobs_of_room (storeBad r.code) (p.logRoom_of_jobs (by omega))
      have hcount : (p.log (storeBad r.code)).ctl.jobs.countP Job.isLog = p.ctl.jobs.countP Job.isLog + 1 := by
        rw [hjobs, List.countP_append]
        rfl
      have hhead : damagedRegions a (r :: rs) = r :: damagedRegions a rs :=
        List.filter_cons_of_pos (decide_eq_true hj)
      rw [hstep, ih _ (by omega), hjobs, hhead, List.map_cons, List.append_assoc]
      rfl
    | blank | valid =>
      have hstep : storeBads a (r :: rs) p = storeBads a rs p := by
        rw [storeBads, List.foldl_cons, hj]
        rfl
      have hhead : damagedRegions a (r :: rs) = damagedRegions a rs :=
        List.filter_cons_of_neg (by rw [hj]; decide)
      rw [hstep, ih _ (by omega), hhead]

theorem Part.queueJob_jobs (p : Part) (j : Job) : (p.queueJob j).ctl.jobs = p.ctl.jobs ++ [j] :=
  p.ctl.append_start_jobs j

theorem Part.queueJob_grown (p : Part) (j : Job) : p.ctl.Grown (p.queueJob j).ctl := by
  refine ⟨?_, fun i hi => ?_⟩
  · rw [Part.queueJob_eq_withJob]
    unfold withJob
    split
    · rfl
    · rfl
    · rfl
  · rw [p.queueJob_jobs j]
    exact List.mem_append_left _ hi

/-- A cold start leaves the part as loaded, with the entries of the damaged regions and the watermark job handed over. -/
theorem Part.coldStart_jobs (a : StoreArray) (c : ColdStartCause) (p : Part) : ∃ (job : Option Job) (queue : List Job),
    job.toList ++ queue = ((damagedRegions a loadOrder).map fun r => .log (storeBad r.code)) ++
      [.watermark (p.coldLoaded a c).proof.pendingMark] ∧
    Part.coldStart a c p =
      (p.coldLoaded a c).setCtl { (p.coldLoaded a c).ctl with job := job, queue := queue } := by
  obtain ⟨q, hq⟩ : ∃ q, q = storeBads a loadOrder (p.coldLoaded a c) := ⟨_, rfl⟩
  obtain ⟨x, hbad, hx⟩ := storeBads_eq_setCtl a loadOrder (p.coldLoaded a c)
  have hcold := p.coldStart_eq a c
  have hbads := storeBads_jobs a loadOrder (p.coldLoaded a c) (show 0 + 6 ≤ 16 by decide)
  rw [← hq] at hx hcold hbads
  obtain ⟨d, hd⟩ : ∃ d, d = (q.queueJob (.watermark (p.coldLoaded a c).proof.pendingMark)).ctl := ⟨_, rfl⟩
  have hgrown : (p.coldLoaded a c).ctl.Grown d := by
    rw [hd]
    exact StoreCtl.Grown.trans (by rw [hx]; exact hbad) (q.queueJob_grown _)
  refine ⟨d.job, d.queue, ?_, ?_⟩
  · show d.jobs = _
    rw [hd, q.queueJob_jobs, hbads]
    rfl
  · rw [← hgrown.frame, hcold, hd, hx]
    rfl

/-! ## Where counting resumes (R107, Table 6.1) -/

theorem Part.poweredAnew_iff (p : Part) (c : ColdStartCause) :
    p.poweredAnew c = true ↔ c = .powerOn ∨ p.power = .off := by
  unfold Part.poweredAnew
  cases c <;> cases p.power <;> simp

theorem nextWatermark_eq (v : Word) : nextWatermark v = BitVec.ofNat 32 (min (v.toNat + 4096) 0xFFFFFFFF) := by
  unfold nextWatermark
  split
  · next h =>
    rw [min_eq_left h, BitVec.ofNat_add, BitVec.ofNat_toNat, BitVec.setWidth_eq]
    rfl
  · next h =>
    rw [min_eq_right (by omega)]
    rfl

theorem loadProof_pendingMark (a : StoreArray) (mark : Option Word) (draws : Nat) :
    (loadProof a mark draws).pendingMark = nextWatermark (loadProof a mark draws).counter := by
  simp only [loadProof]

section
variable (a : StoreArray) (c : ColdStartCause) (p : Part)

theorem Part.coldLoaded_clock : (p.coldLoaded a c).clock = if c = .powerOn ∨ p.power = .off then 0 else p.clock :=
  if_congr (p.poweredAnew_iff c) rfl rfl

theorem Part.coldLoaded_pendingMark : (p.coldLoaded a c).proof.pendingMark =
    BitVec.ofNat 32 (min ((p.coldLoaded a c).proof.counter.toNat + 4096) 0xFFFFFFFF) := by
  rw [← nextWatermark_eq]
  exact loadProof_pendingMark a _ p.proof.entropyDraws

theorem Part.coldLoaded_counter_anew (h : c = .powerOn ∨ p.power = .off) :
    (p.coldLoaded a c).proof.drawMark = none ∧ (p.coldLoaded a c).proof.counter = resumedValue a := by
  have hmark : (if p.poweredAnew c then none else p.proof.drawMark) = none := if_pos ((p.poweredAnew_iff c).mpr h)
  have hcounter : (p.coldLoaded a c).proof.counter = resumeFrom none (resumedValue a) := by
    rw [← hmark]
    rfl
  exact ⟨hmark, hcounter⟩

/-- While power was kept counting resumes above the draw mark, where that is not below the region's value. -/
theorem Part.coldLoaded_counter_kept (h : c = .resetReleased) (hpower : p.power ≠ .off) :
    (p.coldLoaded a c).proof.drawMark = p.proof.drawMark ∧
    (p.proof.drawMark = none → (p.coldLoaded a c).proof.counter = resumedValue a) ∧
    ∀ d, p.proof.drawMark = some d → (p.coldLoaded a c).proof.counter =
      if (resumedValue a).toNat ≤ d.toNat then d + 1 else resumedValue a := by
  have hmark : (if p.poweredAnew c then none else p.proof.drawMark) = p.proof.drawMark := if_neg fun hanew =>
    ((p.poweredAnew_iff c).mp hanew).elim (fun hc => absurd (h.symm.trans hc) nofun) hpower
  have hcounter : (p.coldLoaded a c).proof.counter = resumeFrom p.proof.drawMark (resumedValue a) := by
    rw [← hmark]
    rfl
  refine ⟨hmark, fun hnone => ?_, fun d hd => ?_⟩
  · rw [hcounter, hnone]
    rfl
  · rw [hcounter, hd]
    rfl

end

end Sys2Proof.Machine

namespace Sys2Proof.Proofs
open Sys2Proof Sys2Proof.Machine Sys2Proof.Claims

/-- Settles O31: the part as loaded, region by region, with the jobs of the cold start; and the blank store. -/
theorem coldStartLoadsTheStore : Obligations.ColdStartLoadsTheStore := by
  intro s c
  obtain ⟨job, queue, hjobs, hcold⟩ := s.part.coldStart_jobs s.array c
  obtain ⟨t, ht⟩ : ∃ t, t = { s with part := Part.coldStart s.array c s.part } := ⟨_, rfl⟩
  have hexec : exec (.coldStart c) s = .next t := by
    rw [ht]
    rfl
  rw [hcold] at ht
  subst ht
  refine ⟨⟨_, hexec, rfl, rfl, rfl, rfl, rfl, s.part.coldLoaded_clock s.array c, fun n => ?_, rfl, rfl, rfl, rfl, rfl, rfl,
    rfl, rfl, rfl, rfl, rfl, rfl, rfl, rfl, rfl, rfl, fun k => ?_, rfl, rfl, rfl, rfl, rfl, rfl, rfl,
    fun hvalid => ⟨loadSettings_valid s.array hvalid, ?_⟩,
    loadWithdrawn_valid s.array, fun h => ⟨loadSettings_default s.array h, loadMap_default s.array h⟩,
    loadKeys_empty s.array, loadClasses_empty s.array, loadWithdrawn_empty s.array, loadRules_default s.array, rfl, rfl, rfl,
    s.part.coldLoaded_counter_anew s.array c, s.part.coldLoaded_counter_kept s.array c,
    s.part.coldLoaded_pendingMark s.array c, ?_, ?_, fun r hr hdamaged => ?_⟩, fun hblank => ?_⟩
  · exact ⟨PerSocket.get_all _ n, PerSocket.get_all _ n⟩
  · exact Vector.getElem_replicate k.isLt
  · rintro i w rfl
    exact (loadMap_valid s.array hvalid i).trans (MapEntry.ofByte_byte _)
  · show _ ∈ job.toList ++ queue
    rw [hjobs]
    exact List.mem_append_right _ (List.mem_singleton_self _)
  · show (job.toList ++ queue).countP Job.isTable = 0
    rw [hjobs, List.countP_eq_zero]
    intro j hj
    rcases List.mem_append.mp hj with hj | hj
    · obtain ⟨r, -, rfl⟩ := List.mem_map.mp hj
      exact nofun
    · obtain rfl := List.mem_singleton.mp hj
      exact nofun
  · show _ ∈ job.toList ++ queue
    rw [hjobs]
    exact List.mem_append_left _ (List.mem_map_of_mem (List.mem_filter.mpr ⟨hr, decide_eq_true hdamaged⟩))
  · show Host.Outcome.next { s with part := Part.coldStart s.array .powerOn s.part } = _
    rw [hblank, s.part.coldStart_blank]

end Sys2Proof.Proofs

/-! ## The step with a command at the front of the queue -/

namespace Sys2Proof.Machine

/-- The counterpart of `emptyQueue_step`: the command at the front sees the queue without itself. -/
theorem step_of_pending_cons {s : State} {c : Instr} {rest : List Instr} (h : s.pending = c :: rest) :
    step s = exec c { s with pending := rest } := by
  rw [step, h]

end Sys2Proof.Machine

namespace Sys2Proof.Proofs
open Sys2Proof Sys2Proof.Machine Sys2Proof.Claims

/-- Settles O1: the command is taken off the front, and the queue it leaves is the state's own. -/
theorem stepRunsTheFrontCommand : Obligations.StepRunsTheFrontCommand :=
  fun _ _ => step_of_pending_cons rfl

end Sys2Proof.Proofs
